-- ==== Sys2Proof/Word.lean ====
section
/-!
DEFINITION. The words of the block and the slot operand.
spec/00_scope.md rule R17 (bits and unsigned fields), rule R18 (ceil on naturals), rule R21 (slots).
-/
namespace Sys2Proof

/-- One byte of memory (20_memory.md rule R70). -/
abbrev Byte := BitVec 8

/-- A 16-bit output word (30_encoding.md rule R110). -/
abbrev Half := BitVec 16

/-- A 32-bit register, address or command word (20_memory.md rule R70, 30_encoding.md rule R100). -/
abbrev Word := BitVec 32

/-- One of the two buffer sets (00_scope.md rule R21): the operand of the four slotted commands. -/
inductive Slot
  | zero
  | one
deriving DecidableEq, Repr, Inhabited

/-- The slot's number, 0 or 1. -/
def Slot.toNat : Slot → Nat
  | .zero => 0
  | .one => 1

/-- The slot's bit, as SEL and CMD[8] hold it. -/
def Slot.bit : Slot → BitVec 1
  | .zero => 0#1
  | .one => 1#1

/-- Slot 1 − s (10_state.md rule R61). -/
def Slot.other : Slot → Slot
  | .zero => .one
  | .one => .zero

/-- `ceil(a / b)` on naturals (00_scope.md rule R18). -/
def ceilDiv (a b : Nat) : Nat := (a + b - 1) / b

end Sys2Proof
end

