-- ==== Sys2Proof/Config.lean ====
section
/-!
DEFINITION. What the spec leaves to the model's arguments (00_scope.md rule R16), the moves of the agents
outside the block, and the free values: opaque constants that no proof can evaluate.
-/
namespace Sys2Proof

/-- Whether SETUP enforces the strict or the inclusive brightness range (00_scope.md rule R12, rule R16). -/
inductive LimitCheck
  | strict
  | inclusive
deriving DecidableEq, Repr, Inhabited

/-- How the host honours the lap hazard (70_reset_and_hazards.md rule R331). -/
inductive LapWait
  | guarded
  | unguarded
deriving DecidableEq, Repr, Inhabited

/-- The parameters of rule R16 that are fixed values. Alloc and Periph are the two oracles below. -/
structure Params where
  limitCheck : LimitCheck
  lapWait : LapWait
  /-- REG_BASE, the address of the register window (10_state.md rule R34). -/
  regBase : Word
deriving DecidableEq, Repr, Inhabited

/-- The defaults of rule R16. DESIGN CHOICE: REG_BASE has no default in the spec (log 10, unsafe). -/
def Params.default : Params :=
  { limitCheck := .strict, lapWait := .guarded, regBase := 0xF0000000#32 }

/-- One answer of the allocator to one call (60_exceptions.md rule R302, rule R286). -/
inductive AllocAnswer
  /-- the call fails -/
  | fail
  /-- the region at this address -/
  | region (base : Word)
  /-- the call is never answered -/
  | silent
deriving DecidableEq, Repr, Inhabited

/-- Whose event comes next in the interleaving of 20_memory.md rule R83. -/
inductive Turn
  /-- The host makes its next move. A command it issues is accepted and waits for the block's turns. -/
  | host
  /-- The host makes its next move. A command it issues runs to completion with no event between (log 2). -/
  | command
  /-- The block takes one step of the command in flight. `choice` picks one of the accesses rule R207 allows. -/
  | block (choice : Nat)
  /-- The consumer takes one step. `linkNow` says whether it reads `next` now, if it may (60_exceptions.md rule R301). -/
  | consumer (linkNow : Bool)
  /-- The reset of 70_reset_and_hazards.md rule R320, asserted from outside at any point (log 32). -/
  | reset
deriving DecidableEq, Repr, Inhabited

/-- One move of the host (30_encoding.md rule R106, rule R107; 60_exceptions.md rule R305). -/
inductive HostOp
  /-- `RD`: read the 32-bit register at an offset of the window. -/
  | rd (off : Nat)
  /-- `WR`: write the 32-bit register at an offset of the window. -/
  | wr (off : Nat) (value : Word)
  /-- `MWR<n>`: write the `size` low bytes of a value to memory. -/
  | mwr (size : Nat) (addr : Word) (value : Word)
  /-- `WAIT`: read STATUS until BUSY is 0. -/
  | wait
  /-- Skip the next moves unless ERR is OK: the condition inside the pseudo-instruction `FRAME` (rule R107). -/
  | skipUnlessOk (count : Nat)
  /-- The reset of 70_reset_and_hazards.md rule R320, as a move of the host's program (log 32). -/
  | reset
deriving DecidableEq, Repr, Inhabited

namespace Config

/-- FREE VALUE (log 4, log 8): a byte nothing has written, by its address and the grant or reset that left it
unconstrained, 0 for the memory of power-on (70_reset_and_hazards.md rule R321, 60_exceptions.md rule R302). -/
opaque unwrittenByte : Nat → Nat → Byte

/-- FREE VALUE (log 6): the allocator's answer to a call that no scripted answer covers. -/
opaque allocAnswer : Nat → AllocAnswer

/-- FREE VALUE (log 1): the turn that follows the scripted turns. -/
opaque nextTurn : Nat → Turn

/-- FREE VALUE (log 9): a result register after ALLOC_FAIL, by its place in the register map. -/
opaque lostWord : Nat → Nat → Word

/-- FREE VALUE (log 9): ORDER[k] after ALLOC_FAIL. -/
opaque lostPlane : Nat → Nat → BitVec 4

end Config

end Sys2Proof
end

