-- ==== Sys2Proof/Syntax.lean ====
section
/-!
DEFINITION. The seven commands, one constructor per row of spec/opcode_table.json
(30_encoding.md rule R101). The slot is the only operand a command word carries (rule R102).
-/
namespace Sys2Proof

/-- A command of the block. -/
inductive Instr
  | nop
  | setup
  | schedule
  | buildRing (slot : Slot)
  | start (slot : Slot)
  | activate (slot : Slot)
  | encode (slot : Slot)
deriving DecidableEq, Repr, Inhabited

end Sys2Proof
end

