-- ==== Sys2Proof/WellFormed.lean ====
section
/-!
DEFINITION. What is well-formed: a command word (30_encoding.md rule R105) and a host move
(10_state.md rule R34, 30_encoding.md rule R106).

An `Instr` needs no check of its own: the slot's type admits slots 0 and 1 only, and the three slotless
commands have no operand, so every term stands for exactly one legal word.
-/
namespace Sys2Proof

/-- Bits [7:4] and [31:9] are 0 (rule R103). -/
def reservedBitsClear (w : Word) : Bool :=
  w.extractLsb' 4 4 == 0#4 && w.extractLsb' 9 23 == 0#23

/-- OP names one of the seven commands (rule R104). -/
def opcodeAssigned (w : Word) : Bool :=
  decide ((w.extractLsb' 0 4).toNat ≤ 6)

/-- SLOT is 0 unless the command takes a slot (rule R102). -/
def slotAllowed (w : Word) : Bool :=
  decide (3 ≤ (w.extractLsb' 0 4).toNat) || w.extractLsb' 8 1 == 0#1

/-- The decode test of rule R105. -/
def legalWord (w : Word) : Bool :=
  reservedBitsClear w && opcodeAssigned w && slotAllowed w

/-- The size of the register window in bytes (10_state.md rule R34). -/
def windowSize : Nat := 0x500

/-- An aligned offset inside the window (10_state.md rule R34). -/
def windowOffset (off : Nat) : Bool :=
  decide (off % 4 = 0) && decide (off < windowSize)

/-- The access sizes of `MWR<n>` (30_encoding.md rule R106). -/
def hostWriteSize (n : Nat) : Bool :=
  n == 1 || n == 2 || n == 4

/-- The form of a host move. Whether the memory it writes is the host's to write is the machine's check. -/
def HostOp.wellFormed : HostOp → Bool
  | .rd off => windowOffset off
  | .wr off _ => windowOffset off
  | .mwr size _ _ => hostWriteSize size
  | .wait => true
  | .skipUnlessOk _ => true
  | .reset => true

end Sys2Proof
end

