-- ==== Sys2Proof/Decode.lean ====
section
/-!
DEFINITION. Decoding a command word and encoding a command (30_encoding.md rule R100 to rule R106).
-/
namespace Sys2Proof

/-- Why a word is illegal (30_encoding.md rule R103, rule R104). -/
inductive IllegalWord
  /-- one of the bits [7:4] and [31:9] is set (rule R103) -/
  | reservedBits
  /-- OP is 0x7 to 0xF (rule R104) -/
  | reservedOpcode
  /-- SLOT is 1 on NOP, SETUP or SCHEDULE (rule R103) -/
  | slotOnSlotless
deriving DecidableEq, Repr

/-- What a word decodes to: one of the seven commands, or illegal (rule R105). -/
inductive Decoded
  | command (i : Instr)
  | illegal (why : IllegalWord)
deriving DecidableEq, Repr

/-- The slot operand s = CMD[8] (rule R102). -/
def slotField (w : Word) : Slot :=
  if w.extractLsb' 8 1 = 0#1 then .zero else .one

/-- A command that takes no slot: CMD[8] must be 0 (rule R102). -/
def slotless (w : Word) (i : Instr) : Decoded :=
  if w.extractLsb' 8 1 = 0#1 then .command i else .illegal .slotOnSlotless

/-- The opcode map of rule R101. -/
def decodeOp (w : Word) : Decoded :=
  match (w.extractLsb' 0 4).toNat with
  | 0x0 => slotless w .nop
  | 0x1 => slotless w .setup
  | 0x2 => slotless w .schedule
  | 0x3 => .command (.buildRing (slotField w))
  | 0x4 => .command (.start (slotField w))
  | 0x5 => .command (.activate (slotField w))
  | 0x6 => .command (.encode (slotField w))
  | _ => .illegal .reservedOpcode

/-- The meaning of a word written to CMD, total on all 2^32 words (rule R105). -/
def decode (w : Word) : Decoded :=
  if w.extractLsb' 4 4 = 0#4 ∧ w.extractLsb' 9 23 = 0#23 then decodeOp w
  else .illegal .reservedBits

/-- OP of a command (rule R101). -/
def opcode : Instr → BitVec 4
  | .nop => 0x0#4
  | .setup => 0x1#4
  | .schedule => 0x2#4
  | .buildRing _ => 0x3#4
  | .start _ => 0x4#4
  | .activate _ => 0x5#4
  | .encode _ => 0x6#4

/-- SLOT of a command; 0 where it takes none (rule R102). -/
def slotBit : Instr → BitVec 1
  | .nop => 0#1
  | .setup => 0#1
  | .schedule => 0#1
  | .buildRing s => s.bit
  | .start s => s.bit
  | .activate s => s.bit
  | .encode s => s.bit

/-- The word of a command: bits [31:9], SLOT, bits [7:4], OP (rule R100). -/
def encode (i : Instr) : Word :=
  0#23 ++ slotBit i ++ 0#4 ++ opcode i

/-- The mnemonic of a command (rule R101). -/
def mnemonic : Instr → String
  | .nop => "NOP"
  | .setup => "SETUP"
  | .schedule => "SCHEDULE"
  | .buildRing _ => "BUILD_RING"
  | .start _ => "START"
  | .activate _ => "ACTIVATE"
  | .encode _ => "ENCODE"

/-- The assembler syntax of a command: the mnemonic, and the slot in decimal where it takes one (rule R106). -/
def assembly : Instr → String
  | .nop => "NOP"
  | .setup => "SETUP"
  | .schedule => "SCHEDULE"
  | .buildRing .zero => "BUILD_RING 0"
  | .buildRing .one => "BUILD_RING 1"
  | .start .zero => "START 0"
  | .start .one => "START 1"
  | .activate .zero => "ACTIVATE 0"
  | .activate .one => "ACTIVATE 1"
  | .encode .zero => "ENCODE 0"
  | .encode .one => "ENCODE 1"

/-- The command word a table word of `nbits` bits stands for: one 32-bit write, the bits above `nbits` 0
(rule R100). A number that does not fit 32 bits is no command word. -/
def tableWord (nbits w : Nat) : Option Word :=
  if w % 2 ^ nbits < 2 ^ 32 then some (BitVec.ofNat 32 (w % 2 ^ nbits)) else none

/-- The command this decoder reads from a table word. -/
def decodeTableWord (nbits w : Nat) : Option Instr :=
  match tableWord nbits w with
  | none => none
  | some word =>
    match decode word with
    | .command i => some i
    | .illegal _ => none

end Sys2Proof
end

