-- ==== Sys2Proof/Machine/State.lean ====
section
/-!
DEFINITION. The machine's state as plain data: the register window (10_state.md rule R35), the hidden state
of the block and the consumer (rule R58 to rule R60), memory (rule R62), the allocator's record, and what the
agents outside the block hold. INVENTORY.md lists each field with its rule and reset value.
-/
namespace Sys2Proof.Machine

/-- STATE, the block's phase (10_state.md rule R36). -/
inductive Phase
  | unconfigured
  | ready
  | running
  | failed
deriving DecidableEq, Repr, Inhabited

/-- The result codes of 60_exceptions.md rule R280. Codes 8 to 15 are never produced, so they are no values here. -/
inductive ErrCode
  | ok
  | allocFail
  | configInvalid
  | notSetup
  | badSlot
  | activeSlot
  | wrongState
  | badCommand
deriving DecidableEq, Repr, Inhabited

/-- A result: the code and the two fields of ERR_INFO (10_state.md rule R42). -/
structure Error where
  code : ErrCode
  check : BitVec 8
  entry : BitVec 16
deriving DecidableEq, Repr, Inhabited

/-- The ring registers of one slot (10_state.md rule R56). -/
structure Ring where
  head : Word
  tail : Word
  count : Word
deriving DecidableEq, Repr, Inhabited

/-- A range of memory the allocator has returned, or one it must keep clear of (60_exceptions.md rule R302). -/
structure Region where
  base : Nat
  size : Nat
deriving DecidableEq, Repr, Inhabited

/-- Memory: the bytes that have been written, as (address, byte) pairs in one canonical form (`Memory.wf`), and the
ranges whose bytes a grant or a reset has left unconstrained, the latest first (60_exceptions.md rule R302,
70_reset_and_hazards.md rule R321). An unlisted address reads as a free value (`Memory.unwritten`, log 4, log 8). -/
structure Memory where
  cells : List Host.Cell
  fresh : List Region
deriving DecidableEq, Repr, Inhabited

/-- Memory of which nothing is known. -/
def Memory.unknown : Memory := { cells := [], fresh := [] }

/-- A buffer segment: pointer and length in bytes (40_chain_builder.md rule R140). -/
structure Segment where
  ptr : Nat
  len : Nat
deriving DecidableEq, Repr, Inhabited

/-- One 4-byte store of the block (20_memory.md rule R74). -/
structure Store where
  addr : Nat
  value : Word
deriving DecidableEq, Repr, Inhabited

/-- One output word still to be written by ENCODE, with the framebuffer bytes read for it so far, one per
colour lane R_A, G_A, B_A, R_B, G_B, B_B (42_encoder.md rule R209). -/
structure WordJob where
  plane : Nat
  row : Nat
  col : Nat
  lanes : List (Option Byte)
deriving DecidableEq, Repr, Inhabited

/-- What a SETUP in flight has put into its result registers so far: BP_BASE and slot 0's ring. No register shows it
before SETUP completes (10_state.md rule R60; log 15). -/
structure SetupResults where
  bpBase : Word
  ring0 : Ring
deriving DecidableEq, Repr, Inhabited

/-- The position of a command in its sequence of accesses (10_state.md rule R60, 44_setup_control.md rule R262). -/
inductive Stage
  /-- accepted; no check made yet -/
  | begin
  /-- BUILD_RING reading its list: the entries read so far, and this entry's `ptr` once it is read -/
  | list (slot : Slot) (got : List Segment) (ptr : Option Word)
  /-- SETUP about to allocate the bitplane arena -/
  | arena
  /-- SETUP, with its results so far, or BUILD_RING (`none`), about to allocate a descriptor pool -/
  | pool (setup : Option SetupResults) (slot : Slot) (segments : List Segment)
  /-- BUILD's stores still to be made, and the ring registers it then sets -/
  | fill (setup : Option SetupResults) (slot : Slot) (ring : Ring) (left : List Store)
  /-- all accesses made; the command is about to complete with this error -/
  | rejected (error : Error)
  /-- SETUP or BUILD_RING about to complete with ALLOC_FAIL -/
  | allocFailed (setup : Option SetupResults)
  /-- START's tail rewrites still to be made -/
  | startLinks (slot : Slot) (left : List Store)
  /-- ACTIVATE's tail rewrites still to be made -/
  | flipLinks (slot : Slot) (left : List Store)
  /-- ENCODE's words still to be written -/
  | words (slot : Slot) (jobs : List WordJob)
deriving DecidableEq, Repr, Inhabited

/-- A command in flight: the word and the operand registers latched at acceptance (44_setup_control.md rule R262)
and its position. -/
structure InFlight where
  word : Word
  fbBase : Word
  seglist : Word
  clkdiv : Word
  stage : Stage
deriving DecidableEq, Repr, Inhabited

/-- Where the consumer is in its visit of the descriptor at CUR (60_exceptions.md rule R301). -/
inductive Visit
  /-- before the Load -/
  | arriving
  /-- after a Load that read BUF and LEN -/
  | playing (buf : Word) (len : BitVec 12)
  /-- after a Load of a descriptor the consumer has no step for (rule R304) -/
  | halted
deriving DecidableEq, Repr, Inhabited

/-- The consumer's state (10_state.md rule R58). LINK is `none` for ⊥. -/
structure Consumer where
  run : Bool
  cur : Word
  off : Nat
  link : Option Word
  visit : Visit
deriving DecidableEq, Repr, Inhabited

/-- One call `PeriphStart(head, width, div)` into the output peripheral (60_exceptions.md rule R300). -/
structure PeriphCall where
  head : Word
  width : Nat
  div : Word
deriving DecidableEq, Repr, Inhabited

/-- Why the machine stops inside a command. -/
inductive Fault
  /-- Raised by a meaning whose next access is to memory that does not exist, past 2^32: the block is stuck with
  BUSY = 1 (60_exceptions.md rule R286). Safe: the hardware makes no further step of the command either. -/
  | noMemory
  /-- Raised by SETUP and BUILD_RING when the allocator never answers: the block is stuck with BUSY = 1
  (60_exceptions.md rule R286). Safe: the hardware makes no further step of the command either. -/
  | allocatorSilent
deriving DecidableEq, Repr

/-- Why the machine has no move. -/
inductive Refusal
  /-- Raised by `exec` for a command that has no meaning yet. Safe. -/
  | notModelled (mnemonic : String)
  /-- Raised by a host move that is no aligned 32-bit access inside the window (10_state.md rule R34). Safe: the spec
  gives the host no such move. -/
  | windowAccess (off : Nat)
  /-- Raised by a host memory write of a size other than 1, 2 or 4 (30_encoding.md rule R106). Safe: no such move. -/
  | hostWriteSize (size : Nat)
  /-- Raised by a host memory write that reaches past 2^32 (20_memory.md rule R70). Safe: no such memory. -/
  | hostNoMemory (addr : Nat)
  /-- Raised by a host memory write to the bitplane arena, a descriptor pool or the register window
  (60_exceptions.md rule R305 duties 1, 2 and 4). Safe: the spec gives the host no such move. -/
  | hostWriteToBlock (addr : Nat)
  /-- Raised by a host write of ENCODE or BUILD_RING to CMD whose framebuffer or segment list shares a byte with the
  register window, an allocated region or the other one: the spec's model "refuses the launch" (20_memory.md rule R81;
  60_exceptions.md rule R305). Safe: the spec gives such a placement no meaning. -/
  | overlappingRegions
deriving DecidableEq, Repr

/-- The whole machine. -/
structure State where
  -- the register window (10_state.md rule R35)
  phase : Phase
  sel : Slot
  ovr : Bool
  err : ErrCode
  check : BitVec 8
  entry : BitVec 16
  width : BitVec 16
  height : BitVec 16
  bitplaneCnt : BitVec 4
  maxUnit : BitVec 12
  brightness : BitVec 16
  double : Bool
  clkdiv : Word
  fbBase : Word
  seglist : Word
  bpBase : Word
  planeSize : Word
  orderLen : BitVec 8
  ring0 : Ring
  ring1 : Ring
  order : List (BitVec 4)
  -- hidden state (rule R58 to rule R60)
  consumer : Consumer
  cnt : List (BitVec 16)
  inFlight : Option InFlight
  -- memory and the allocator's record
  mem : Memory
  regions : List Region
  -- what the block and the consumer have handed to the outside
  starts : List PeriphCall
  out : List Half
  rdata : List Word
  -- what the agents outside will do
  hostOps : List HostOp
  lapGuard : Option Slot
  allocAnswers : List AllocAnswer
  turns : List Turn
  -- the parameters of the model, and the counter of the free values
  params : Params
  draws : Nat
deriving DecidableEq, Repr

/-- The ring registers of a slot that is not built (10_state.md rule R56). -/
def Ring.unbuilt : Ring := { head := 0#32, tail := 0#32, count := 0#32 }

/-- The stopped consumer. Rule R58 leaves CUR, OFF and LINK unspecified and unread at reset (log 11). -/
def Consumer.stopped : Consumer :=
  { run := false, cur := 0#32, off := 0, link := none, visit := .arriving }

/-- The number of ORDER entries (10_state.md rule R57). -/
def orderEntries : Nat := 255

/-- The number of scheduler counters (10_state.md rule R59). -/
def counterEntries : Nat := 8

/-- The machine right after reset (70_reset_and_hazards.md rule R320, rule R321): every register 0, no command in
flight, the consumer stopped, nothing allocated; nothing of memory is known (log 4) and no outside move is queued (log 3). -/
def State.reset : State :=
  { phase := .unconfigured
    sel := .zero
    ovr := false
    err := .ok
    check := 0#8
    entry := 0#16
    width := 0#16
    height := 0#16
    bitplaneCnt := 0#4
    maxUnit := 0#12
    brightness := 0#16
    double := false
    clkdiv := 0#32
    fbBase := 0#32
    seglist := 0#32
    bpBase := 0#32
    planeSize := 0#32
    orderLen := 0#8
    ring0 := Ring.unbuilt
    ring1 := Ring.unbuilt
    order := List.replicate orderEntries 0#4
    consumer := Consumer.stopped
    cnt := List.replicate counterEntries 0#16
    inFlight := none
    mem := Memory.unknown
    regions := []
    starts := []
    out := []
    rdata := []
    hostOps := []
    lapGuard := none
    allocAnswers := []
    turns := []
    params := Params.default
    draws := 0 }

end Sys2Proof.Machine
end

