-- ==== Sys2Proof/Machine/Ops.lean ====
section
/-!
DEFINITION. The shared operations: memory (20_memory.md), ending a command with a result (60_exceptions.md rule R280),
the allocator (rule R302), the ring registers, and the flow of a command that may end early or get stuck.
-/
namespace Sys2Proof.Machine

/-! Memory -/

/-- The size of the address space in bytes (20_memory.md rule R70). -/
def memSize : Nat := 4294967296

/-- An address is one of the bytes of a range. -/
def Region.holds (r : Region) (a : Nat) : Bool := decide (r.base ≤ a) && decide (a < r.base + r.size)

/-- The whole address space as a range. -/
def Region.everything : Region := { base := 0, size := memSize }

/-- The byte listed for an address. -/
def findCell : List Host.Cell → Nat → Option Byte
  | [], _ => none
  | (k, v) :: rest, a => if k = a then some v else findCell rest a

/-- The cells with one for an address, put where the order of addresses has it. -/
def insertCell : List Host.Cell → Nat → Byte → List Host.Cell
  | [], a, v => [(a, v)]
  | (k, w) :: rest, a, v =>
    if a < k then (a, v) :: (k, w) :: rest
    else if a = k then (a, v) :: rest
    else (k, w) :: insertCell rest a v

/-- The number of the grant or reset that last left an address unconstrained, 0 if none has. -/
def freshDraw : List Region → Nat → Nat
  | [], _ => 0
  | r :: rest, a => if r.holds a then rest.length + 1 else freshDraw rest a

/-- The byte last written at an address, if one has been written since the address was last left unconstrained. -/
def Memory.written (m : Memory) (a : Nat) : Option Byte := findCell m.cells a

/-- What an address that memory does not list reads as: a free value (70_reset_and_hazards.md rule R321,
60_exceptions.md rule R302; log 4, log 8). -/
def Memory.unwritten (m : Memory) (a : Nat) : Byte := Config.unwrittenByte (freshDraw m.fresh a) a

/-- The byte at an address. -/
def Memory.byte (m : Memory) (a : Nat) : Byte := (m.written a).getD (m.unwritten a)

/-- Memory with one byte written. -/
def Memory.setByte (m : Memory) (a : Nat) (v : Byte) : Memory := { m with cells := insertCell m.cells a v }

/-- Memory with the bytes of a range left unconstrained: each reads as a free value that no earlier state has shown
(60_exceptions.md rule R302, 70_reset_and_hazards.md rule R321; log 8). -/
def Memory.forget (m : Memory) (r : Region) : Memory :=
  { cells := m.cells.filter fun c => !r.holds c.1, fresh := r :: m.fresh }

/-- `MemRead(a, n)`: little-endian (20_memory.md rule R72). -/
def Memory.read (m : Memory) (a : Nat) : Nat → Nat
  | 0 => 0
  | n + 1 => (m.byte a).toNat + 256 * Memory.read m (a + 1) n

/-- `MemWrite(a, n, v)`: little-endian (20_memory.md rule R72). -/
def Memory.write (m : Memory) (a : Nat) : Nat → Nat → Memory
  | 0, _ => m
  | n + 1, v => Memory.write (m.setByte a (BitVec.ofNat 8 v)) (a + 1) n (v / 256)

/-- The `n` bytes from `a` are bytes of the address space (rule R70; addresses are unbounded naturals, rule R18, log 5). -/
def memoryExists (a n : Nat) : Bool := decide (a + n ≤ memSize)

/-- A read by the block or the consumer; `none` where the memory does not exist (60_exceptions.md rule R286). -/
def Memory.load (m : Memory) (a n : Nat) : Option Nat :=
  if memoryExists a n then some (m.read a n) else none

/-- A write by the block; `none` where the memory does not exist (60_exceptions.md rule R286). -/
def Memory.store (m : Memory) (a n v : Nat) : Option Memory :=
  if memoryExists a n then some (m.write a n v) else none

/-- Addresses strictly rising and inside the address space. -/
def cellsRising : List Host.Cell → Bool
  | [] => true
  | [(k, _)] => decide (k < memSize)
  | (k, _) :: (k', v') :: rest => decide (k < k') && cellsRising ((k', v') :: rest)

/-- The canonical form: one entry for each byte that has been written, in the order of addresses (log 4). -/
def Memory.wf (m : Memory) : Bool := cellsRising m.cells

/-! Results -/

/-- An error with no detail (10_state.md rule R42). -/
def Error.plain (code : ErrCode) : Error := { code := code, check := 0#8, entry := 0#16 }

/-- CONFIG_INVALID with the number of the failed check (60_exceptions.md rule R281). -/
def Error.config (check : BitVec 8) : Error := { code := .configInvalid, check := check, entry := 0#16 }

/-- CONFIG_INVALID check 6 with the index of the offending entry (rule R281). -/
def Error.badEntry (entry : Nat) : Error :=
  { code := .configInvalid, check := 6#8, entry := BitVec.ofNat 16 entry }

/-- The completion of a command with a result: ERR and ERR_INFO are written and BUSY becomes 0 (10_state.md rule R39,
rule R42; 60_exceptions.md rule R280; 44_setup_control.md rule R262). The block has no trap: nothing is saved and
control goes nowhere (60_exceptions.md rule R288, rule R289). -/
def State.raise (s : State) (e : Error) : State :=
  { s with err := e.code, check := e.check, entry := e.entry, inFlight := none }

/-- `ERR <- OK; ERR_INFO <- 0`. -/
def State.succeed (s : State) : State := s.raise (Error.plain .ok)

/-- The result registers after ALLOC_FAIL: each holds a free value (44_setup_control.md rule R256; log 9). -/
def State.loseResults (s : State) : State :=
  { s with
    bpBase := Config.lostWord s.draws 0
    planeSize := Config.lostWord s.draws 1
    ring0 := { head := Config.lostWord s.draws 2, tail := Config.lostWord s.draws 3, count := Config.lostWord s.draws 4 }
    ring1 := { head := Config.lostWord s.draws 5, tail := Config.lostWord s.draws 6, count := Config.lostWord s.draws 7 }
    order := (List.range orderEntries).map (Config.lostPlane s.draws)
    draws := s.draws + 1 }

/-- ALLOC_FAIL: the command completes and STATE becomes FAILED (60_exceptions.md rule R283). -/
def State.allocFail (s : State) : State :=
  { s.loseResults.raise (Error.plain .allocFail) with phase := .failed }

/-! The flow of a command -/

/-- Where a command stands after part of its pseudocode: it goes on, it has completed, or the block is stuck. -/
inductive Flow
  | on (s : State)
  | over (s : State)
  | stuck (f : Fault)
deriving DecidableEq, Repr

/-- The next part of the pseudocode, made only if the command goes on. -/
def Flow.andThen (x : Flow) (k : State → Flow) : Flow :=
  match x with
  | .on s => k s
  | .over s => .over s
  | .stuck f => .stuck f

/-- The outcome of a whole command. -/
def Flow.outcome : Flow → Host.Outcome State Fault Refusal
  | .on s => .next s
  | .over s => .next s
  | .stuck f => .fault f

/-- A check: an error ends the command with that result and no other effect (60_exceptions.md rule R284, rule R287). -/
def State.guard (s : State) (e : Option Error) : Flow :=
  match e with
  | none => .on s
  | some e => .over (s.raise e)

/-- One 4-byte store by the block (20_memory.md rule R74, rule R75). -/
def State.store (s : State) (w : Store) : Flow :=
  match s.mem.store w.addr 4 w.value.toNat with
  | none => .stuck .noMemory
  | some m => .on { s with mem := m }

/-- Stores in order (20_memory.md rule R84). -/
def State.storeAll (s : State) : List Store → Flow
  | [] => .on s
  | w :: rest => (s.store w).andThen fun t => t.storeAll rest

/-! The ring registers -/

/-- HEAD[s], TAIL[s], COUNT[s] (10_state.md rule R56). -/
def State.ring (s : State) : Slot → Ring
  | .zero => s.ring0
  | .one => s.ring1

/-- Writing HEAD[s], TAIL[s], COUNT[s]. -/
def State.setRing (s : State) (slot : Slot) (r : Ring) : State :=
  match slot with
  | .zero => { s with ring0 := r }
  | .one => { s with ring1 := r }

/-! The allocator -/

/-- Two ranges of bytes with no byte in common. -/
def Region.disjoint (p q : Region) : Bool :=
  p.size == 0 || q.size == 0 || decide (p.base + p.size ≤ q.base) || decide (q.base + q.size ≤ p.base)

/-- The register window on the bus (10_state.md rule R34). -/
def State.window (s : State) : Region := { base := s.params.regBase.toNat, size := 0x500 }

/-- The framebuffer FB_BASE names: W × H × 3 bytes (20_memory.md rule R77), nothing while FB_BASE is null (log 7). -/
def State.framebuffer (s : State) : Region :=
  { base := s.fbBase.toNat
    size := if s.fbBase = 0#32 then 0 else s.width.toNat * s.height.toNat * 3 }

/-- The law of an allocator answer (60_exceptions.md rule R302): not null, 4-aligned, inside the address space, and
disjoint from every region returned before, the register window, the framebuffer and `avoid`, the segment list
(log 7). -/
def State.regionLegal (s : State) (size : Nat) (avoid : List Region) (base : Word) : Bool :=
  base != 0#32 && decide (base.toNat % 4 = 0) && decide (base.toNat + size ≤ memSize) &&
    (s.regions ++ [s.window, s.framebuffer] ++ avoid).all (Region.disjoint { base := base.toNat, size := size })

/-- What one call of the allocator comes to. -/
inductive Alloc
  | silent
  | failed (s : State)
  | granted (base : Word) (s : State)
deriving DecidableEq, Repr

/-- The answer the environment gives to the next call: the first scripted one, else the oracle's (log 6). -/
def State.nextAnswer (s : State) : AllocAnswer :=
  match s.allocAnswers with
  | [] => Config.allocAnswer s.draws
  | a :: _ => a

/-- The state once that answer is taken. -/
def State.takeAnswer (s : State) : State :=
  match s.allocAnswers with
  | [] => { s with draws := s.draws + 1 }
  | _ :: rest => { s with allocAnswers := rest }

/-- A granted region: it is recorded, and its bytes are unconstrained (60_exceptions.md rule R302; log 8). -/
def State.grant (s : State) (r : Region) : State := { s with regions := r :: s.regions, mem := s.mem.forget r }

/-- `Alloc(n)` (60_exceptions.md rule R302). A region that breaks the law is not an answer of the allocator: it is
taken as FAIL (log 6). -/
def State.alloc (s : State) (size : Nat) (avoid : List Region) : Alloc :=
  match s.nextAnswer with
  | .silent => .silent
  | .fail => .failed s.takeAnswer
  | .region base =>
    if s.regionLegal size avoid base then
      .granted base (s.takeAnswer.grant { base := base.toNat, size := size })
    else .failed s.takeAnswer

/-! The position of a command in flight -/

/-- A new position for the command in flight (10_state.md rule R60). -/
def State.toStage (s : State) (stage : Stage) : State :=
  { s with inFlight := s.inFlight.map fun c => { c with stage := stage } }

end Sys2Proof.Machine
end

