-- ==== Sys2Proof/Machine/Operands.lean ====
section
/-!
DEFINITION. The operands of a command: the configuration quantities (00_scope.md rule R8 to rule R15), the latched
operand registers (44_setup_control.md rule R262) and the addresses of the structures in memory (20_memory.md
rule R76 to rule R79).
-/
namespace Sys2Proof.Machine

/-- W, the panel width (00_scope.md rule R8). -/
def State.panelWidth (s : State) : Nat := s.width.toNat

/-- H, the panel height (rule R9). -/
def State.panelHeight (s : State) : Nat := s.height.toNat

/-- B, the number of bitplanes (rule R10). -/
def State.planes (s : State) : Nat := s.bitplaneCnt.toNat

/-- MAX_UNIT (rule R11). -/
def State.unit (s : State) : Nat := s.maxUnit.toNat

/-- LIMIT, the brightness limit (rule R12). -/
def State.limit (s : State) : Nat := s.brightness.toNat

/-- ROWS = H / 2 (rule R15). -/
def State.rows (s : State) : Nat := s.panelHeight / 2

/-- N = 2^B − 1 (rule R15). -/
def orderLength (planes : Nat) : Nat := 2 ^ planes - 1

/-- PLANE_BYTES = W × H (rule R15). -/
def State.planeBytes (s : State) : Nat := s.panelWidth * s.panelHeight

/-- The slots that exist, in ascending order: NSLOTS of rule R15. -/
def State.slots (s : State) : List Slot :=
  if s.double then [.zero, .one] else [.zero]

/-- PB(s, p), the bitplane buffer of a slot and plane (20_memory.md rule R76). -/
def State.planeBase (s : State) (slot : Slot) (plane : Nat) : Nat :=
  s.bpBase.toNat + (slot.toNat * s.planes + plane) * s.planeBytes

/-- The address of the output word of a slot, plane, row and column (rule R76). -/
def State.wordAddr (s : State) (slot : Slot) (plane row col : Nat) : Nat :=
  s.planeBase slot plane + 2 * (row * s.panelWidth + col)

/-- The address of the pixel at (row, column) of the framebuffer at `fb` (rule R77). -/
def State.pixelAddr (s : State) (fb row col : Nat) : Nat :=
  fb + 3 * (row * s.panelWidth + col)

/-- The address of the framebuffer byte of a colour lane, in the order R_A, G_A, B_A, R_B, G_B, B_B
(42_encoder.md rule R202, rule R209). -/
def State.laneAddr (s : State) (fb row col lane : Nat) : Nat :=
  if lane < 3 then s.pixelAddr fb row col + lane
  else s.pixelAddr fb (row + s.rows) col + (lane - 3)

/-- The address of descriptor i of a pool (rule R78). -/
def descriptorAddr (pool i : Nat) : Nat := pool + 12 * i

/-- The address of the `next` word of the descriptor at an address (30_encoding.md rule R116). -/
def nextField (descriptor : Nat) : Nat := descriptor + 8

/-- The address of entry j of a segment list (30_encoding.md rule R120). -/
def entryAddr (list j : Nat) : Nat := list + 8 * j

/-- The state with the operand registers a command latched at acceptance (44_setup_control.md rule R262): what the
command's rule reads as FB_BASE, SEGLIST and CLKDIV. -/
def State.latched (s : State) (c : InFlight) : State :=
  { s with fbBase := c.fbBase, seglist := c.seglist, clkdiv := c.clkdiv }

end Sys2Proof.Machine
end

