-- ==== Sys2Proof/Machine/Builder.lean ====
section
/-!
DEFINITION. The Descriptor Chain Builder (40_chain_builder.md): sizing, chunk splitting, the procedure BUILD, the
segment list and the BUILD_RING command.
-/
namespace Sys2Proof.Machine

/-! Sizing and splitting -/

/-- A chunk: the bytes of one descriptor (40_chain_builder.md rule R142). -/
structure Chunk where
  addr : Nat
  len : Nat
deriving DecidableEq, Repr, Inhabited

/-- The number of chunks of a segment, ceil(len / M) (rule R141). -/
def Segment.chunkCount (unit : Nat) (g : Segment) : Nat := ceilDiv g.len unit

/-- n(L, M), the number of descriptors of a ring (rule R141). -/
def descriptorCount (unit : Nat) (segments : List Segment) : Nat :=
  (segments.map (Segment.chunkCount unit)).sum

/-- Chunk t of a segment: M bytes, or what is left for the last one (rule R142). -/
def Segment.chunk (unit : Nat) (g : Segment) (t : Nat) : Chunk :=
  { addr := g.ptr + t * unit
    len := if t + 1 < g.chunkCount unit then unit else g.len - (g.chunkCount unit - 1) * unit }

/-- The chunks of a segment in address order (rule R142). -/
def Segment.split (unit : Nat) (g : Segment) : List Chunk :=
  (List.range (g.chunkCount unit)).map (g.chunk unit)

/-- The chunks of a list, segments in list order (rule R144). -/
def chunksOf (unit : Nat) (segments : List Segment) : List Chunk :=
  segments.flatMap (Segment.split unit)

/-! The stores of BUILD -/

/-- Word 0 of a descriptor: owner = 1, eof = sosf = offset = 0, length = size = l (30_encoding.md rule R117). -/
def descriptorWord0 (len : Nat) : Word :=
  0x80000000#32 ||| (BitVec.ofNat 32 len <<< 12) ||| BitVec.ofNat 32 len

/-- The three stores of one descriptor, in order (rule R144). -/
def descriptorStores (at_ : Nat) (c : Chunk) (link : Nat) : List Store :=
  [ { addr := at_, value := descriptorWord0 c.len },
    { addr := at_ + 4, value := BitVec.ofNat 32 c.addr },
    { addr := nextField at_, value := BitVec.ofNat 32 link } ]

/-- The fill pass from the descriptor at an address on: each `next` is the following descriptor, the last one's is
null (rule R144, rule R145). -/
def fillStores (at_ : Nat) : List Chunk → List Store
  | [] => []
  | [c] => descriptorStores at_ c 0
  | c :: c' :: rest => descriptorStores at_ c (at_ + 12) ++ fillStores (at_ + 12) (c' :: rest)

/-- The closing store: the tail's `next` names descriptor 0 (rule R146). -/
def closingStore (pool : Word) (count : Nat) : Store :=
  { addr := nextField (descriptorAddr pool.toNat (count - 1)), value := pool }

/-- All stores of BUILD, the closing one last (rule R144 to rule R146). -/
def buildStores (pool : Word) (unit : Nat) (segments : List Segment) : List Store :=
  fillStores pool.toNat (chunksOf unit segments) ++ [closingStore pool (descriptorCount unit segments)]

/-- The ring registers BUILD sets (rule R147). -/
def builtRing (pool : Word) (count : Nat) : Ring :=
  { head := pool
    tail := BitVec.ofNat 32 (descriptorAddr pool.toNat (count - 1))
    count := BitVec.ofNat 32 count }

/-- The size of the pool BUILD allocates (rule R143). -/
def poolBytes (unit : Nat) (segments : List Segment) : Nat := 12 * descriptorCount unit segments

/-- BUILD(s, L, M): the pool, the stores, the ring registers (rule R143 to rule R147). `avoid` is the segment list the
command has read. -/
def State.build (s : State) (slot : Slot) (segments : List Segment) (avoid : List Region) : Flow :=
  match s.alloc (poolBytes s.unit segments) avoid with
  | .silent => .stuck .allocatorSilent
  | .failed t => .over t.allocFail
  | .granted pool t =>
    (t.storeAll (buildStores pool s.unit segments)).andThen fun u =>
      .on (u.setRing slot (builtRing pool (descriptorCount s.unit segments)))

/-! The segment list -/

/-- The class of a list entry (30_encoding.md rule R121). -/
inductive EntryClass
  | sentinel
  | segment
  | invalid
deriving DecidableEq, Repr

/-- The class of the entry (ptr, len) (rule R121). -/
def classify (ptr len : Nat) : EntryClass :=
  if ptr = 0 ∧ len = 0 then .sentinel
  else if ptr = 0 ∨ len = 0 ∨ memSize < ptr + len then .invalid
  else .segment

/-- MAX_SEGS, the most entries BUILD_RING reads (rule R122). -/
def maxSegments : Nat := 256

/-- Entry j of the segment list at `list` (30_encoding.md rule R120). -/
def Memory.listEntry (m : Memory) (list j : Nat) : Segment :=
  { ptr := m.read (list + 8 * j) 4, len := m.read (list + 8 * j + 4) 4 }

/-- The class of a list entry (rule R121). -/
def Memory.entryClass (m : Memory) (list j : Nat) : EntryClass :=
  classify (m.listEntry list j).ptr (m.listEntry list j).len

/-- The number of entries BUILD_RING reads of the list at `list`, from entry j on with `fuel` left: up to the first
that is no segment (rule R122, 40_chain_builder.md rule R148). -/
def Memory.listLength (m : Memory) (list : Nat) : Nat → Nat → Nat
  | 0, j => j
  | fuel + 1, j =>
    match m.entryClass list j with
    | .segment => m.listLength list fuel (j + 1)
    | .sentinel => j + 1
    | .invalid => j + 1

/-- The bytes of the segment list that SEGLIST names, as memory stands: the entries BUILD_RING would read; none where
BUILD_RING rejects the pointer (20_memory.md rule R79, rule R81; log 7). -/
def State.namedList (s : State) : Region :=
  { base := s.seglist.toNat
    size :=
      if s.seglist = 0#32 ∨ s.seglist.toNat % 4 ≠ 0 then 0
      else 8 * s.mem.listLength s.seglist.toNat maxSegments 0 }

/-- What reading a segment list comes to. -/
inductive ListRead
  | stuck
  | bad (e : Error)
  | read (segments : List Segment)
deriving DecidableEq, Repr

/-- Reading the list from the entry after those in `got`, with `fuel` entries left: stop at the sentinel, reject an
invalid entry (check 6), and reject a list with no sentinel in its first 256 entries (check 7) (rule R148). -/
def readList (m : Memory) (list : Nat) : Nat → List Segment → ListRead
  | 0, _ => .bad (Error.config 7#8)
  | fuel + 1, got =>
    match m.load (entryAddr list got.length) 4, m.load (entryAddr list got.length + 4) 4 with
    | some ptr, some len =>
      match classify ptr len with
      | .sentinel => .read got
      | .invalid => .bad (Error.badEntry got.length)
      | .segment => readList m list fuel (got ++ [{ ptr := ptr, len := len }])
    | _, _ => .stuck

/-- The checks of a list that was read to its sentinel: not empty, and a pool below 2^32 bytes (rule R148). -/
def checkList (unit : Nat) (segments : List Segment) : Option Error :=
  if segments = [] then some (Error.config 8#8)
  else if memSize ≤ poolBytes unit segments then some (Error.config 11#8)
  else none

/-- The bytes of a list that was read: its entries and the sentinel (30_encoding.md rule R120). -/
def listRegion (list : Word) (segments : List Segment) : Region :=
  { base := list.toNat, size := 8 * (segments.length + 1) }

/-! BUILD_RING -/

/-- The checks of BUILD_RING before it reads its list, after the global check of 60_exceptions.md rule R287
(rule R148). -/
def checkBuildRing (slot : Slot) (s : State) : Option Error :=
  if s.phase = .failed then some (Error.plain .wrongState)
  else if s.phase = .unconfigured then some (Error.plain .notSetup)
  else if s.phase = .running then some (Error.plain .wrongState)
  else if s.double = false ∧ slot = .one then some (Error.plain .badSlot)
  else if s.seglist = 0#32 ∨ s.seglist.toNat % 4 ≠ 0 then some (Error.config 10#8)
  else none

/-- BUILD_RING's list: read, then checked. The command goes on with the list only if both succeed (rule R148). -/
def State.withList (s : State) (k : List Segment → Flow) : Flow :=
  match readList s.mem s.seglist.toNat maxSegments [] with
  | .stuck => .stuck .noMemory
  | .bad e => .over (s.raise e)
  | .read segments =>
    match checkList s.unit segments with
    | some e => .over (s.raise e)
    | none => k segments

/-- BUILD_RING s (40_chain_builder.md rule R148). -/
def execBuildRing (slot : Slot) (s : State) : Host.Outcome State Fault Refusal :=
  ((s.guard (checkBuildRing slot s)).andThen fun s =>
    s.withList fun segments =>
      (s.build slot segments [listRegion s.seglist segments]).andThen fun t => .on t.succeed).outcome

end Sys2Proof.Machine
end

