-- ==== Sys2Proof/Machine/Scheduler.lean ====
section
/-!
DEFINITION. The Bitplane Interleave Scheduler (43_scheduler.md): the algorithm SCHED(B) and the SCHEDULE command.
-/
namespace Sys2Proof.Machine

/-- The minimum counter (rule R232). -/
def leastCount : List Nat → Nat
  | [] => 0
  | [c] => c
  | c :: c' :: rest => min c (leastCount (c' :: rest))

/-- The plane with the minimum counter, the lowest plane index where several have it (rule R232). -/
def pickPlane (counts : List Nat) : Nat :=
  counts.findIdx (· == leastCount counts)

/-- The counters once plane `q` is placed: its counter grows by 2^(B − q) (rule R232). -/
def bumpCount (planes : Nat) (counts : List Nat) (q : Nat) : List Nat :=
  counts.set q (counts.getD q 0 + 2 ^ (planes - q))

/-- The planes placed at `positions` successive positions from the given counters, and the counters after them
(rule R232). -/
def placePlanes (planes : Nat) : Nat → List Nat → List Nat × List Nat
  | 0, counts => ([], counts)
  | positions + 1, counts =>
    let q := pickPlane counts
    let (rest, final) := placePlanes planes positions (bumpCount planes counts q)
    (q :: rest, final)

/-- SCHED(B) on fresh counters: the ordering of length 2^B − 1 and the counters at its end (rule R232). -/
def sched (planes : Nat) : List Nat × List Nat :=
  placePlanes planes (orderLength planes) (List.replicate planes 0)

/-- The interleave ordering (rule R231). -/
def ordering (planes : Nat) : List Nat := (sched planes).1

/-- ORDER as SCHED(B) leaves it: the ordering, then 0 up to entry 254 (rule R231). -/
def orderTable (planes : Nat) : List (BitVec 4) :=
  (ordering planes).map (BitVec.ofNat 4) ++ List.replicate (orderEntries - (ordering planes).length) 0#4

/-- CNT as SCHED(B) leaves it; the counters of the planes that do not exist keep what they held (log 12). -/
def countTable (planes : Nat) (old : List (BitVec 16)) : List (BitVec 16) :=
  (sched planes).2.map (BitVec.ofNat 16) ++ old.drop planes

/-- SCHED(B) writes ORDER, ORDER_LEN and the counters (rule R231, rule R232). -/
def State.runSched (s : State) : State :=
  { s with
    order := orderTable s.planes
    orderLen := BitVec.ofNat 8 (orderLength s.planes)
    cnt := countTable s.planes s.cnt }

/-- The checks of SCHEDULE, after the global check of 60_exceptions.md rule R287 (rule R230). -/
def checkSchedule (s : State) : Option Error :=
  if s.phase = .failed then some (Error.plain .wrongState)
  else if s.planes = 0 ∨ 8 < s.planes then some (Error.config 3#8)
  else none

/-- SCHEDULE (43_scheduler.md rule R230). -/
def execSchedule (s : State) : Host.Outcome State Fault Refusal :=
  ((s.guard (checkSchedule s)).andThen fun s => .on s.runSched.succeed).outcome

end Sys2Proof.Machine
end

