-- ==== Sys2Proof/Machine/Control.lean ====
section
/-!
DEFINITION. NOP and SETUP (44_setup_control.md rule R250 to rule R260).
-/
namespace Sys2Proof.Machine

/-- NOP: the result alone, in every STATE (44_setup_control.md rule R260). -/
def execNop (s : State) : Host.Outcome State Fault Refusal :=
  .next s.succeed

/-- The brightness limit is in the range LIMIT_CHECK admits (00_scope.md rule R12). -/
def State.limitLegal (s : State) : Bool :=
  match s.params.limitCheck with
  | .strict => decide (0 < s.limit) && decide (s.limit < s.panelWidth)
  | .inclusive => decide (s.limit ≤ s.panelWidth)

/-- The checks of SETUP in order, the first that fails reported (44_setup_control.md rule R250, rule R251;
60_exceptions.md rule R281). FAILED is one of the states in which SETUP answers WRONG_STATE. -/
def checkSetup (s : State) : Option Error :=
  if s.phase ≠ .unconfigured then some (Error.plain .wrongState)
  else if s.panelWidth < 2 then some (Error.config 1#8)
  else if s.panelHeight % 2 ≠ 0 ∨ s.panelHeight < 2 ∨ 32 < s.panelHeight then some (Error.config 2#8)
  else if s.planes = 0 ∨ 8 < s.planes then some (Error.config 3#8)
  else if s.unit % 2 ≠ 0 ∨ s.unit < 2 ∨ 4094 < s.unit then some (Error.config 4#8)
  else if s.limitLegal = false then some (Error.config 5#8)
  else none

/-- SETUP's first register writes: SCHED(B), then PLANE_SIZE (rule R250). -/
def State.beginSetup (s : State) : State :=
  { s.runSched with planeSize := BitVec.ofNat 32 s.planeBytes }

/-- The size of the bitplane arena: NSLOTS × B × W × H (rule R252). -/
def State.arenaBytes (s : State) : Nat := s.slots.length * s.planes * s.planeBytes

/-- The arena's allocation and BP_BASE (rule R252). -/
def State.allocArena (s : State) : Flow :=
  match s.alloc s.arenaBytes [s.namedList] with
  | .silent => .stuck .allocatorSilent
  | .failed t => .over t.allocFail
  | .granted base t => .on { t with bpBase := base }

/-- The planes of ORDER[0] .. ORDER[N − 1] (10_state.md rule R57). -/
def State.orderPlanes (s : State) : List Nat :=
  (s.order.take (orderLength s.planes)).map BitVec.toNat

/-- The segments SETUP builds a slot's ring from: segment k is plane ORDER[k]'s buffer
(44_setup_control.md rule R253, 43_scheduler.md rule R237). -/
def State.setupSegments (s : State) (slot : Slot) : List Segment :=
  s.orderPlanes.map fun p => { ptr := s.planeBase slot p, len := s.planeBytes }

/-- The rings of the slots that exist, slot 0's first (rule R253). -/
def State.buildRings (s : State) : List Slot → Flow
  | [] => .on s
  | slot :: rest => (s.build slot (s.setupSegments slot) [s.namedList]).andThen fun t => t.buildRings rest

/-- The end of SETUP: SEL, STATE, the result (rule R250, rule R254). -/
def State.finishSetup (s : State) : State :=
  State.succeed { s with sel := .zero, phase := .ready }

/-- SETUP (44_setup_control.md rule R250). The bitplane buffers are not written: their bytes stay unconstrained
(rule R255). -/
def execSetup (s : State) : Host.Outcome State Fault Refusal :=
  ((s.guard (checkSetup s)).andThen fun s =>
    s.beginSetup.allocArena.andThen fun t =>
      (t.buildRings t.slots).andThen fun u => .on u.finishSetup).outcome

end Sys2Proof.Machine
end

