-- ==== Sys2Proof/Machine/Encoder.lean ====
section
/-!
DEFINITION. The Bitplane Encoder (42_encoder.md): the word function and the ENCODE command.
-/
namespace Sys2Proof.Machine

/-! The word function -/

/-- A bit placed at a position of an output word (30_encoding.md rule R110). -/
def bitAt (b : Bool) (i : Nat) : Half := (BitVec.ofBool b).setWidth 16 <<< i

/-- The input bit plane p tests: 8 − B + p (42_encoder.md rule R203). -/
def State.testedBit (s : State) (plane : Nat) : Nat := 8 - s.planes + plane

/-- The row address every word of a row carries: the row before, modulo ROWS (rule R204). -/
def State.rowAddress (s : State) (row : Nat) : Nat := (row + s.rows - 1) % s.rows

/-- LAT: the last column of the row (rule R205). -/
def State.latch (s : State) (col : Nat) : Bool := decide (col + 1 = s.panelWidth)

/-- BLANK: the columns from LIMIT on (rule R206). -/
def State.blank (s : State) (col : Nat) : Bool := decide (s.limit ≤ col)

/-- An output word from its fields: the tested bit of the six lane bytes R_A, G_A, B_A, R_B, G_B, B_B in bits 0 to 5,
the row address in bits 8 to 11, LAT in bit 12, BLANK in bit 13 (30_encoding.md rule R110, rule R114). -/
def packWord (tested : Nat) (lanes : List Byte) (address : Nat) (latch blank : Bool) : Half :=
  bitAt ((lanes.getD 0 0#8).getLsbD tested) 0 ||| bitAt ((lanes.getD 1 0#8).getLsbD tested) 1 |||
    bitAt ((lanes.getD 2 0#8).getLsbD tested) 2 ||| bitAt ((lanes.getD 3 0#8).getLsbD tested) 3 |||
    bitAt ((lanes.getD 4 0#8).getLsbD tested) 4 ||| bitAt ((lanes.getD 5 0#8).getLsbD tested) 5 |||
    ((BitVec.ofNat 4 address).setWidth 16 <<< 8) ||| bitAt latch 12 ||| bitAt blank 13

/-- The output word of a plane, row and column from its six framebuffer bytes (42_encoder.md rule R209). -/
def State.wordFrom (s : State) (plane row col : Nat) (lanes : List Byte) : Half :=
  packWord (s.testedBit plane) lanes (s.rowAddress row) (s.latch col) (s.blank col)

/-- The number of colour lanes of a word (rule R209). -/
def laneCount : Nat := 6

/-- The six framebuffer bytes of a word (rule R209). -/
def State.laneBytes (s : State) (m : Memory) (fb row col : Nat) : List Byte :=
  (List.range laneCount).map fun lane => m.byte (s.laneAddr fb row col lane)

/-- WORD(fb, p, r, c) on the bytes of a memory (42_encoder.md rule R209). -/
def State.outputWord (s : State) (m : Memory) (fb plane row col : Nat) : Half :=
  s.wordFrom plane row col (s.laneBytes m fb row col)

/-! The command -/

/-- The place of one output word. -/
structure WordPlace where
  plane : Nat
  row : Nat
  col : Nat
deriving DecidableEq, Repr, Inhabited

/-- Every (plane, row, column) of a slot, once each (rule R200, rule R201). -/
def State.places (s : State) : List WordPlace :=
  (List.range s.planes).flatMap fun p =>
    (List.range s.rows).flatMap fun r =>
      (List.range s.panelWidth).map fun c => { plane := p, row := r, col := c }

/-- The six framebuffer bytes of a word exist (60_exceptions.md rule R286). -/
def State.lanesExist (s : State) (fb row col : Nat) : Bool :=
  (List.range laneCount).all fun lane => memoryExists (s.laneAddr fb row col lane) 1

/-- One word of ENCODE: its six reads and its write, on a memory (rule R200). -/
def State.encodeWord (s : State) (slot : Slot) (fb : Nat) (w : WordPlace) (m : Memory) : Option Memory :=
  if s.lanesExist fb w.row w.col then
    m.store (s.wordAddr slot w.plane w.row w.col) 2 (s.outputWord m fb w.plane w.row w.col).toNat
  else none

/-- ENCODE's words one after the other (rule R200; log 14 on the order). -/
def State.encodeWords (s : State) (slot : Slot) (fb : Nat) : List WordPlace → Memory → Option Memory
  | [], m => some m
  | w :: rest, m =>
    match s.encodeWord slot fb w m with
    | none => none
    | some m' => s.encodeWords slot fb rest m'

/-- The checks of ENCODE, after the global check of 60_exceptions.md rule R287 (rule R200, rule R208). -/
def checkEncode (slot : Slot) (s : State) : Option Error :=
  if s.phase = .failed then some (Error.plain .wrongState)
  else if s.phase = .unconfigured then some (Error.plain .notSetup)
  else if s.double = false ∧ slot = .one then some (Error.plain .badSlot)
  else if s.fbBase = 0#32 then some (Error.config 9#8)
  else if s.phase = .running ∧ s.double = true ∧ slot = s.sel then some (Error.plain .activeSlot)
  else none

/-- ENCODE s (42_encoder.md rule R200). -/
def execEncode (slot : Slot) (s : State) : Host.Outcome State Fault Refusal :=
  ((s.guard (checkEncode slot s)).andThen fun s =>
    match s.encodeWords slot s.fbBase.toNat s.places s.mem with
    | none => .stuck .noMemory
    | some m => .on (State.succeed { s with mem := m })).outcome

end Sys2Proof.Machine
end

