-- ==== Sys2Proof/Machine/Flags.lean ====
section
/-!
DEFINITION. The status bits and the result word (10_state.md rule R41, rule R42). The block has no condition codes
and no arithmetic flags (rule R32).
-/
namespace Sys2Proof.Machine

/-- BUSY: a command is in flight (10_state.md rule R37). -/
def State.busy (s : State) : Bool := s.inFlight.isSome

/-- The code of STATE (rule R36). -/
def Phase.bits : Phase → BitVec 2
  | .unconfigured => 0#2
  | .ready => 1#2
  | .running => 2#2
  | .failed => 3#2

/-- The code of ERR (60_exceptions.md rule R280). -/
def ErrCode.bits : ErrCode → BitVec 4
  | .ok => 0#4
  | .allocFail => 1#4
  | .configInvalid => 2#4
  | .notSetup => 3#4
  | .badSlot => 4#4
  | .activeSlot => 5#4
  | .wrongState => 6#4
  | .badCommand => 7#4

/-- STATUS: [31:12] 0, [11:8] ERR, [7:6] 0, [5] OVR, [4] BUSY, [3] DOUBLE, [2] SEL, [1:0] STATE (rule R41). -/
def State.status (s : State) : Word :=
  0#20 ++ s.err.bits ++ 0#2 ++ BitVec.ofBool s.ovr ++ BitVec.ofBool s.busy ++ BitVec.ofBool s.double ++
    s.sel.bit ++ s.phase.bits

/-- ERR_INFO: [31:16] ENTRY, [15:8] 0, [7:0] CHECK (rule R42). -/
def State.errInfo (s : State) : Word :=
  s.entry ++ 0#8 ++ s.check

end Sys2Proof.Machine
end

