-- ==== Sys2Proof/Machine/Flip.lean ====
section
/-!
DEFINITION. The Buffer Flip Controller and the consumer's start (41_flip.md): START and ACTIVATE.
-/
namespace Sys2Proof.Machine

/-- The store that makes a slot's tail name a head (41_flip.md rule R170, rule R175). -/
def State.linkStore (s : State) (head : Word) (slot : Slot) : Store :=
  { addr := nextField (s.ring slot).tail.toNat, value := head }

/-- The transfer width START passes, in bits (rule R171). -/
def transferWidth : Nat := 16

/-- `PeriphStart(head, width, div)`: RUN ← 1; CUR ← head; OFF ← 0; LINK ← ⊥ (60_exceptions.md rule R300). -/
def State.periphStart (s : State) (head : Word) (width : Nat) (div : Word) : State :=
  { s with
    starts := s.starts ++ [{ head := head, width := width, div := div }]
    consumer := { run := true, cur := head, off := 0, link := none, visit := .arriving } }

/-- The checks of START, after the global check of 60_exceptions.md rule R287 (rule R170). -/
def checkStart (slot : Slot) (s : State) : Option Error :=
  if s.phase = .failed then some (Error.plain .wrongState)
  else if s.phase = .unconfigured then some (Error.plain .notSetup)
  else if s.phase = .running then some (Error.plain .wrongState)
  else if s.double = false ∧ slot = .one then some (Error.plain .badSlot)
  else none

/-- START's tail rewrites: every slot that exists, in ascending order, names HEAD[s] (rule R170, rule R172). -/
def State.startStores (s : State) (slot : Slot) : List Store :=
  s.slots.map (s.linkStore (s.ring slot).head)

/-- The end of START: the call into the peripheral with the latched clock divisor, SEL, STATE, the result (rule R170,
44_setup_control.md rule R262). DESIGN CHOICE: the call is part of the final step. Rule R262 counts memory accesses,
allocator calls and the final step, and neither it nor 60_exceptions.md rule R300 says in which step the call falls
(log 30, unsafe). -/
def State.finishStart (s : State) (slot : Slot) (div : Word) : State :=
  State.succeed
    { s.periphStart (s.ring slot).head transferWidth div with
      sel := slot
      phase := .running }

/-- START s (41_flip.md rule R170). -/
def execStart (slot : Slot) (s : State) : Host.Outcome State Fault Refusal :=
  ((s.guard (checkStart slot s)).andThen fun s =>
    (s.storeAll (s.startStores slot)).andThen fun t => .on (t.finishStart slot s.clkdiv)).outcome

/-- The global check of ACTIVATE (60_exceptions.md rule R287). -/
def checkActivateState (s : State) : Option Error :=
  if s.phase = .failed then some (Error.plain .wrongState) else none

/-- The check of ACTIVATE in double mode (rule R175, rule R179). -/
def checkActivate (s : State) : Option Error :=
  if s.phase = .unconfigured then some (Error.plain .notSetup) else none

/-- ACTIVATE's two link writes, TAIL[0]'s first (rule R175, rule R180). -/
def State.flipStores (s : State) (slot : Slot) : List Store :=
  [Slot.zero, Slot.one].map (s.linkStore (s.ring slot).head)

/-- The slot the host must not encode yet: the one a flip leaves while the consumer runs
(70_reset_and_hazards.md rule R330, rule R331; log 16). DESIGN CHOICE: a second ACTIVATE before the hand-off replaces the
note by the slot it leaves itself; rule R331 does not say whether the slot the first one left, then reselected, stays
guarded (log 33, safe). -/
def State.guardAfterFlip (s : State) (slot : Slot) : Option Slot :=
  if s.phase = .running ∧ slot ≠ s.sel then some s.sel else s.lapGuard

/-- The end of ACTIVATE in double mode: SEL and the result (rule R175, rule R181). -/
def State.finishActivate (s : State) (slot : Slot) : State :=
  State.succeed { s with sel := slot, lapGuard := s.guardAfterFlip slot }

/-- ACTIVATE s (41_flip.md rule R175). In single-ring mode it is a no-op (rule R178). -/
def execActivate (slot : Slot) (s : State) : Host.Outcome State Fault Refusal :=
  ((s.guard (checkActivateState s)).andThen fun s =>
    if s.double = false then .on s.succeed
    else
      (s.guard (checkActivate s)).andThen fun s =>
        (s.storeAll (s.flipStores slot)).andThen fun t => .on (t.finishActivate slot)).outcome

end Sys2Proof.Machine
end

