-- ==== Sys2Proof/Machine/BlockStep.lean ====
section
/-!
DEFINITION. The life cycle of a command in the interleaving (44_setup_control.md rule R262): acceptance, then block steps
of one memory access or one allocator call each, then the step that writes the results and clears BUSY. The checks,
addresses, stores and results are those of the command's meaning; this file only says in which steps they are made.
A block with no next step (60_exceptions.md rule R286) leaves the state as it is.
-/
namespace Sys2Proof.Machine

/-- Acceptance: the word and the operand registers are latched and BUSY becomes 1 (rule R262). -/
def State.accept (s : State) (w : Word) : State :=
  { s with
    inFlight := some { word := w, fbBase := s.fbBase, seglist := s.seglist, clkdiv := s.clkdiv, stage := .begin } }

/-- A check inside a command in flight: an error completes the command, else it goes on as `next` says. -/
def State.rejectOr (s : State) (e : Option Error) (next : State) : State :=
  match e with
  | some e => s.raise e
  | none => next

/-- The word jobs ENCODE starts with: every word, no byte read yet (42_encoder.md rule R200). -/
def State.wordJobs (s : State) : List WordJob :=
  s.places.map fun w => { plane := w.plane, row := w.row, col := w.col, lanes := List.replicate laneCount none }

/-- What SETUP's result registers hold before its arena is allocated. -/
def State.setupStart (s : State) : SetupResults := { bpBase := s.bpBase, ring0 := s.ring0 }

/-- The result registers a SETUP in flight has computed, put where the host can read them. A program observes a command
in flight only through BUSY and memory, so this is made in the step that completes SETUP (10_state.md rule R60;
log 15); BUILD_RING (`none`) has computed none. -/
def State.commit (s : State) : Option SetupResults → State
  | none => s
  | some r => { s.beginSetup with bpBase := r.bpBase, ring0 := r.ring0 }

/-- The first step of a legal command: its register checks, and the end of a command that makes no access (log 15). -/
def State.beginCommand (s : State) (c : InFlight) : Instr → State
  | .nop => s.succeed
  | .setup => s.rejectOr (checkSetup s) (s.toStage .arena)
  | .schedule => s.rejectOr (checkSchedule s) s.runSched.succeed
  | .buildRing slot => s.rejectOr (checkBuildRing slot (s.latched c)) (s.toStage (.list slot [] none))
  | .start slot => s.rejectOr (checkStart slot s) (s.toStage (.startLinks slot (s.startStores slot)))
  | .activate slot =>
    s.rejectOr (checkActivateState s)
      (if s.double = false then s.succeed
       else s.rejectOr (checkActivate s) (s.toStage (.flipLinks slot (s.flipStores slot))))
  | .encode slot => s.rejectOr (checkEncode slot (s.latched c)) (s.toStage (.words slot s.wordJobs))

/-- The first step of an accepted word: an illegal word completes with BAD_COMMAND (30_encoding.md rule R103). -/
def State.beginWord (s : State) (c : InFlight) : State :=
  match decode c.word with
  | .illegal _ => s.raise (Error.plain .badCommand)
  | .command i => s.beginCommand c i

/-- Where BUILD_RING goes on once entry `got.length` is read. An error is raised in a step of its own, so that every
access comes before the step that clears BUSY (20_memory.md rule R84; 40_chain_builder.md rule R148). -/
def listStage (unit : Nat) (slot : Slot) (got : List Segment) (ptr len : Nat) : Stage :=
  match classify ptr len with
  | .sentinel =>
    match checkList unit got with
    | none => .pool none slot got
    | some e => .rejected e
  | .invalid => .rejected (Error.badEntry got.length)
  | .segment =>
    if got.length + 1 < maxSegments then .list slot (got ++ [{ ptr := ptr, len := len }]) none
    else .rejected (Error.config 7#8)

/-- BUILD_RING reading entry `got.length`: its `ptr`, then its `len` (40_chain_builder.md rule R148). DESIGN CHOICE: the
placement of 20_memory.md rule R81 is checked at the launch alone. A host write to an entry not yet read can lengthen the
list over the register window, the framebuffer or a region; the block then reads memory's bytes there and nothing is
refused (log 36, unsafe). -/
def State.listStep (s : State) (c : InFlight) (slot : Slot) (got : List Segment) : Option Word → State
  | none =>
    match s.mem.load (entryAddr c.seglist.toNat got.length) 4 with
    | none => s
    | some ptr => s.toStage (.list slot got (some (BitVec.ofNat 32 ptr)))
  | some ptr =>
    match s.mem.load (entryAddr c.seglist.toNat got.length + 4) 4 with
    | none => s
    | some len => s.toStage (listStage s.unit slot got ptr.toNat len)

/-- SETUP's arena call (44_setup_control.md rule R252). -/
def State.arenaStep (s : State) : State :=
  match s.alloc s.arenaBytes [s.namedList] with
  | .silent => s
  | .failed t => t.toStage (.allocFailed (some s.setupStart))
  | .granted base t =>
    let r : SetupResults := { s.setupStart with bpBase := base }
    t.toStage (.pool (some r) .zero ((t.commit (some r)).setupSegments .zero))

/-- The segment list an allocation keeps clear of: SETUP's the one SEGLIST names, BUILD_RING's the one it has read
(60_exceptions.md rule R302; log 7). -/
def State.poolAvoid (s : State) (c : InFlight) (setup : Option SetupResults) (segments : List Segment) : List Region :=
  match setup with
  | none => [listRegion c.seglist segments]
  | some _ => [s.namedList]

/-- BUILD's pool call (40_chain_builder.md rule R143). -/
def State.poolStep (s : State) (c : InFlight) (setup : Option SetupResults) (slot : Slot) (segments : List Segment) :
    State :=
  match s.alloc (poolBytes s.unit segments) (s.poolAvoid c setup segments) with
  | .silent => s
  | .failed t => t.toStage (.allocFailed setup)
  | .granted pool t =>
    t.toStage (.fill setup slot (builtRing pool (descriptorCount s.unit segments)) (buildStores pool s.unit segments))

/-- What follows a built ring: SETUP's second ring, or the end of the command (44_setup_control.md rule R253). DESIGN
CHOICE: turning to the second ring is a block step of its own, with no access and no allocator call, between ring 0's
closing write and ring 1's pool call; rule R262 lists no such step (log 35, safe). -/
def State.afterRing (s : State) (setup : Option SetupResults) (slot : Slot) (ring : Ring) : State :=
  match setup with
  | none => (s.setRing slot ring).succeed
  | some r =>
    if s.double = true ∧ slot = .zero then
      let r : SetupResults := { r with ring0 := ring }
      s.toStage (.pool (some r) .one ((s.commit (some r)).setupSegments .one))
    else ((s.commit (some r)).setRing slot ring).finishSetup

/-- One store of a list of stores, the rest left for `again`; with none left, `done`. -/
def State.storeStep (s : State) (left : List Store) (again : List Store → Stage) (done : State) : State :=
  match left with
  | [] => done
  | w :: rest =>
    match s.store w with
    | .on t => t.toStage (again rest)
    | .over t => t
    | .stuck _ => s

/-- The accesses a word job allows next: any lane byte not read yet, or the word's write once all are read
(42_encoder.md rule R209). The write is numbered `laneCount`. -/
def WordJob.moves (j : WordJob) : List Nat :=
  match (List.range laneCount).filter fun lane => (j.lanes.getD lane none).isNone with
  | [] => [laneCount]
  | unread => unread

/-- The accesses ENCODE allows next, as (job, access) pairs: any order is admitted (rule R207). -/
def wordMoves : Nat → List WordJob → List (Nat × Nat)
  | _, [] => []
  | i, j :: rest => j.moves.map (fun m => (i, m)) ++ wordMoves (i + 1) rest

/-- The bytes a word job has read. -/
def WordJob.bytes (j : WordJob) : List Byte := j.lanes.map fun b => b.getD 0#8

/-- One access of ENCODE, the one `choice` picks (rule R207). -/
def State.wordStep (s : State) (c : InFlight) (choice : Nat) (slot : Slot) (jobs : List WordJob) : State :=
  let moves := wordMoves 0 jobs
  let (i, access) := moves.getD (choice % moves.length) (0, 0)
  match jobs[i]? with
  | none => s.succeed
  | some j =>
    if access < laneCount then
      match s.mem.load (s.laneAddr c.fbBase.toNat j.row j.col access) 1 with
      | none => s
      | some b => s.toStage (.words slot (jobs.set i { j with lanes := j.lanes.set access (some (BitVec.ofNat 8 b)) }))
    else
      match s.mem.store (s.wordAddr slot j.plane j.row j.col) 2 (s.wordFrom j.plane j.row j.col j.bytes).toNat with
      | none => s
      | some m => State.toStage { s with mem := m } (.words slot (jobs.eraseIdx i))

/-- One block step: the next access of the command in flight, or its completion (44_setup_control.md rule R262). With no
command in flight the block does nothing (60_exceptions.md rule R293). -/
def State.blockStep (s : State) (choice : Nat) : State :=
  match s.inFlight with
  | none => s
  | some c =>
    match c.stage with
    | .begin => s.beginWord c
    | .list slot got ptr => s.listStep c slot got ptr
    | .arena => s.arenaStep
    | .pool setup slot segments => s.poolStep c setup slot segments
    | .fill setup slot ring left => s.storeStep left (.fill setup slot ring) (s.afterRing setup slot ring)
    | .rejected e => s.raise e
    | .allocFailed setup => (s.commit setup).allocFail
    | .startLinks slot left => s.storeStep left (.startLinks slot) (s.finishStart slot c.clkdiv)
    | .flipLinks slot left => s.storeStep left (.flipLinks slot) (s.finishActivate slot)
    | .words slot jobs => s.wordStep c choice slot jobs

/-- Block steps with the given choices and no other event between. -/
def State.blockRun (s : State) : List Nat → State
  | [] => s
  | choice :: rest => (s.blockStep choice).blockRun rest

end Sys2Proof.Machine
end

