-- ==== Sys2Proof/Machine/Consumer.lean ====
section
/-!
DEFINITION. The consumer's behaviour at its interface (60_exceptions.md rule R301, rule R304; 10_state.md rule R58). A
consumer with no next step leaves the state as it is (log 18).
-/
namespace Sys2Proof.Machine

/-- The owner bit of a descriptor's word 0 (30_encoding.md rule R116). -/
def descriptorOwner (d0 : Word) : Bool := d0.getLsbD 31

/-- The length field of a descriptor's word 0 (30_encoding.md rule R116). -/
def descriptorLength (d0 : Word) : BitVec 12 := d0.extractLsb' 12 12

/-- A loaded descriptor the consumer has a step for (rule R301, rule R304). -/
def descriptorPlayable (d0 buf : Word) : Bool :=
  descriptorOwner d0 && descriptorLength d0 != 0#12 && decide ((descriptorLength d0).toNat % 2 = 0) &&
    decide (buf.toNat % 2 = 0)

/-- Load: BUF and LEN of the descriptor at CUR, OFF ← 0 (rule R301). -/
def State.consumerLoad (s : State) : State :=
  match s.mem.load s.consumer.cur.toNat 4, s.mem.load (s.consumer.cur.toNat + 4) 4 with
  | some d0, some buf =>
    let d0 := BitVec.ofNat 32 d0
    let buf := BitVec.ofNat 32 buf
    { s with
      consumer :=
        { s.consumer with
          off := 0
          visit := if descriptorPlayable d0 buf then .playing buf (descriptorLength d0) else .halted } }
  | _, _ => s

/-- Link: LINK ← the `next` word of the descriptor at CUR, read afresh (rule R301, 20_memory.md rule R87). -/
def State.consumerLink (s : State) : State :=
  match s.mem.load (nextField s.consumer.cur.toNat) 4 with
  | some next => { s with consumer := { s.consumer with link := some (BitVec.ofNat 32 next) } }
  | none => s

/-- Emit: the word at BUF + OFF is driven, OFF ← OFF + 2 (rule R301). -/
def State.consumerEmit (s : State) (buf : Word) : State :=
  match s.mem.load (buf.toNat + s.consumer.off) 2 with
  | some word =>
    { s with
      out := s.out ++ [BitVec.ofNat 16 word]
      consumer := { s.consumer with off := s.consumer.off + 2 } }
  | none => s

/-- Whether an Advance to an address ends the host's LAP_WAIT: its new CUR is HEAD[SEL]
(70_reset_and_hazards.md rule R331; the note is log 16, SEL as it stands at the Advance log 33). -/
def State.guardAfterAdvance (s : State) (cur : Word) : Option Slot :=
  if cur = (s.ring s.sel).head then none else s.lapGuard

/-- Advance: CUR ← LINK, LINK ← ⊥; no step on a null link (rule R301, rule R304). -/
def State.consumerAdvance (s : State) : State :=
  match s.consumer.link with
  | none => s
  | some next =>
    if next = 0#32 then s
    else
      { s with
        lapGuard := s.guardAfterAdvance next
        consumer := { s.consumer with cur := next, link := none, visit := .arriving } }

/-- One consumer step. The Link is made when `linkNow` asks for it, and at the latest after the last Emit, once per
visit (rule R301). -/
def State.consumerStep (s : State) (linkNow : Bool) : State :=
  if s.consumer.run then
    match s.consumer.visit with
    | .halted => s
    | .arriving => s.consumerLoad
    | .playing buf len =>
      if s.consumer.link.isNone && (linkNow || decide (len.toNat ≤ s.consumer.off)) then s.consumerLink
      else if s.consumer.off < len.toNat then s.consumerEmit buf
      else s.consumerAdvance
  else s

/-- Consumer steps with the given choices and no other event between. -/
def State.consumerRun (s : State) : List Bool → State
  | [] => s
  | linkNow :: rest => (s.consumerStep linkNow).consumerRun rest

end Sys2Proof.Machine
end

