-- ==== Sys2Proof/Machine/Dispatch.lean ====
section
/-! DEFINITION. One arm per command (30_encoding.md rule R101). -/
namespace Sys2Proof.Machine

def exec (i : Instr) (s : State) : Host.Outcome State Fault Refusal :=
  match i with
  | .nop => Sys2Proof.Machine.execNop s
  | .setup => Sys2Proof.Machine.execSetup s
  | .schedule => Sys2Proof.Machine.execSchedule s
  | .buildRing slot => Sys2Proof.Machine.execBuildRing slot s
  | .start slot => Sys2Proof.Machine.execStart slot s
  | .activate slot => Sys2Proof.Machine.execActivate slot s
  | .encode slot => Sys2Proof.Machine.execEncode slot s

end Sys2Proof.Machine
end

