-- ==== Sys2Proof/Machine/Registers.lean ====
section
/-!
DEFINITION. The register window (10_state.md rule R33 to rule R57): what a host read returns and what a host write of a
configuration register stores (44_setup_control.md rule R261).
-/
namespace Sys2Proof.Machine

/-- The offset of CMD (rule R40). -/
def cmdOffset : Nat := 0x000

/-- The offset of STATUS (rule R41). -/
def statusOffset : Nat := 0x004

/-- ORDER[k] (rule R57). -/
def State.orderAt (s : State) (k : Nat) : BitVec 4 := s.order.getD k 0#4

/-- The value a host reads at an offset: unused bits and unlisted offsets read 0 (rule R34, rule R35). -/
def State.readReg (s : State) (off : Nat) : Word :=
  match off with
  | 0x000 => 0#32
  | 0x004 => s.status
  | 0x008 => s.errInfo
  | 0x010 => s.width.setWidth 32
  | 0x014 => s.height.setWidth 32
  | 0x018 => s.bitplaneCnt.setWidth 32
  | 0x01C => s.maxUnit.setWidth 32
  | 0x020 => s.brightness.setWidth 32
  | 0x024 => (BitVec.ofBool s.double).setWidth 32
  | 0x028 => s.clkdiv
  | 0x02C => s.fbBase
  | 0x030 => s.seglist
  | 0x040 => s.bpBase
  | 0x044 => s.planeSize
  | 0x048 => s.orderLen.setWidth 32
  | 0x050 => s.ring0.head
  | 0x054 => s.ring0.tail
  | 0x058 => s.ring0.count
  | 0x060 => s.ring1.head
  | 0x064 => s.ring1.tail
  | 0x068 => s.ring1.count
  | _ =>
    if 0x100 ≤ off ∧ off % 4 = 0 ∧ off < 0x100 + 4 * orderEntries then (s.orderAt ((off - 0x100) / 4)).setWidth 32
    else 0#32

/-- A write the access code RW-U admits: in UNCONFIGURED only (rule R35, rule R52). -/
def State.ifUnconfigured (s t : State) : State :=
  if s.phase = .unconfigured then t else s

/-- A write the access code RW-R admits: in UNCONFIGURED and READY (rule R35, rule R52). -/
def State.ifNotRunning (s t : State) : State :=
  if s.phase = .unconfigured ∨ s.phase = .ready then t else s

/-- A host write to a register other than CMD and STATUS, with BUSY = 0: the register's used bits take the value's bits
at the same positions where the access code admits it, and nothing changes otherwise (44_setup_control.md rule R261). -/
def State.writeReg (s : State) (off : Nat) (v : Word) : State :=
  match off with
  | 0x010 => s.ifUnconfigured { s with width := v.setWidth 16 }
  | 0x014 => s.ifUnconfigured { s with height := v.setWidth 16 }
  | 0x018 => s.ifUnconfigured { s with bitplaneCnt := v.setWidth 4 }
  | 0x01C => s.ifUnconfigured { s with maxUnit := v.setWidth 12 }
  | 0x020 => s.ifUnconfigured { s with brightness := v.setWidth 16 }
  | 0x024 => s.ifUnconfigured { s with double := v.getLsbD 0 }
  | 0x028 => s.ifNotRunning { s with clkdiv := v }
  | 0x02C => { s with fbBase := v }
  | 0x030 => { s with seglist := v }
  | _ => s

/-- A host write to STATUS: OVR ← 0 where bit 5 is 1 (rule R38). -/
def State.writeStatus (s : State) (v : Word) : State :=
  if v.getLsbD 5 then { s with ovr := false } else s

/-- A host write while BUSY = 1, other than to STATUS: dropped, and OVR ← 1 (rule R38, 44_setup_control.md rule R263). -/
def State.overrun (s : State) : State := { s with ovr := true }

end Sys2Proof.Machine
end

