-- ==== Sys2Proof/Machine/HostBus.lean ====
section
/-!
DEFINITION. The host's moves (30_encoding.md rule R106, rule R107; 44_setup_control.md rule R261 to rule R263;
60_exceptions.md rule R305), reset (70_reset_and_hazards.md rule R320), and whose event comes next
(20_memory.md rule R83).
-/
namespace Sys2Proof.Machine

/-! Reset -/

/-- The reset action: every register and all hidden state at the value after reset, the allocator's record discarded.
Memory is not written, and its contents are unconstrained from here on. What the outside holds is not the block's and
stays (70_reset_and_hazards.md rule R320, rule R321; log 22). -/
def State.resetBlock (s : State) : State :=
  { State.reset with
    mem := s.mem.forget Region.everything
    starts := s.starts
    out := s.out
    rdata := s.rdata
    hostOps := s.hostOps
    allocAnswers := s.allocAnswers
    turns := s.turns
    params := s.params
    draws := s.draws }

/-! A command word -/

/-- A command performed whole, with no event between: BAD_COMMAND for an illegal word (30_encoding.md rule R103,
60_exceptions.md rule R287), else the command's meaning. -/
def State.runWord (s : State) (w : Word) : Host.Outcome State Fault Refusal :=
  match decode w with
  | .illegal _ => .next (s.raise (Error.plain .badCommand))
  | .command i => exec i s

/-- The host has no move for ENCODE of the slot a flip left, under GUARDED, until the hand-off
(70_reset_and_hazards.md rule R331). -/
def State.lapBlocked (s : State) (w : Word) : Bool :=
  s.params.lapWait == .guarded &&
    match decode w, s.lapGuard with
    | .command (.encode slot), some left => slot == left
    | _, _ => false

/-! The launch of a command -/

/-- The framebuffer FB_BASE names shares no byte with the register window or an allocated region
(20_memory.md rule R81). -/
def State.framebufferPlaced (s : State) : Bool :=
  (s.window :: s.regions).all (Region.disjoint s.framebuffer)

/-- The segment list SEGLIST names shares no byte with the register window, the framebuffer or an allocated region
(20_memory.md rule R81). -/
def State.listPlaced (s : State) : Bool :=
  (s.window :: s.framebuffer :: s.regions).all (Region.disjoint s.namedList)

/-- A command that is about to use memory whose placement breaks the launch premise of 20_memory.md rule R81. A command
that a check rejects uses none (log 17). -/
def State.placementBroken (s : State) : Instr → Bool
  | .encode slot => (checkEncode slot s).isNone && !s.framebufferPlaced
  | .buildRing slot => (checkBuildRing slot s).isNone && !s.listPlaced
  | .nop => false
  | .setup => false
  | .schedule => false
  | .start _ => false
  | .activate _ => false

/-- The host has no move that launches such a command (60_exceptions.md rule R305): the model refuses it. -/
def State.launchRefused (s : State) (w : Word) : Bool :=
  match decode w with
  | .illegal _ => false
  | .command i => s.placementBroken i

/-! The host's moves -/

/-- The host's next move is not this one any more. -/
def State.popHostOp (s : State) : State := { s with hostOps := s.hostOps.drop 1 }

/-- `WR`: a dropped write while BUSY, a command, the W1C write of STATUS, or a register write
(44_setup_control.md rule R261). `whole` says whether an accepted command runs to completion in this step. -/
def State.hostWrite (s : State) (whole : Bool) (off : Nat) (v : Word) : Host.Outcome State Fault Refusal :=
  if off = statusOffset then .next (s.popHostOp.writeStatus v)
  else if s.busy then .next s.popHostOp.overrun
  else if off = cmdOffset then
    if s.lapBlocked v then .next s
    else if s.launchRefused v then .refused .overlappingRegions
    else if whole then s.popHostOp.runWord v
    else .next (s.popHostOp.accept v)
  else .next (s.popHostOp.writeReg off v)

/-- `MWR<n>`: a host write to memory that is the host's to write (20_memory.md rule R89, 60_exceptions.md rule R305;
log 17). DEDUCED: a byte that a BUILD_RING segment names outside the block's regions is the host's, also while the
consumer plays it, though 60_exceptions.md rule R295 does not list that hazard (log 31, safe). -/
def State.hostMemWrite (s : State) (size : Nat) (addr v : Word) : Host.Outcome State Fault Refusal :=
  if hostWriteSize size = false then .refused (.hostWriteSize size)
  else if memoryExists addr.toNat size = false then .refused (.hostNoMemory addr.toNat)
  else if (s.window :: s.regions).all (Region.disjoint { base := addr.toNat, size := size }) then
    .next { s.popHostOp with mem := s.mem.write addr.toNat size v.toNat }
  else .refused (.hostWriteToBlock addr.toNat)

/-- One move of the host. A host with no move left, or waiting, leaves the state as it is. DESIGN CHOICE: a reset may be
a move of the host's program, made when it is the next one; 70_reset_and_hazards.md rule R320 names no agent that
asserts reset, so the turn `reset` asserts one at any point as well, a waiting host's included (log 32, safe). -/
def State.hostStep (s : State) (whole : Bool) : Host.Outcome State Fault Refusal :=
  match s.hostOps.head? with
  | none => .next s
  | some (.rd off) =>
    if windowOffset off then .next { s.popHostOp with rdata := s.rdata ++ [s.readReg off] }
    else .refused (.windowAccess off)
  | some (.wr off v) => if windowOffset off then s.hostWrite whole off v else .refused (.windowAccess off)
  | some (.mwr size addr v) => s.hostMemWrite size addr v
  | some .wait => if s.busy then .next s else .next s.popHostOp
  | some (.skipUnlessOk count) =>
    .next (if s.err = .ok then s.popHostOp else { s with hostOps := s.hostOps.drop (count + 1) })
  | some .reset => .next s.popHostOp.resetBlock

/-! The pseudo-instructions -/

/-- `CMD`: issue a command and wait for its completion (30_encoding.md rule R107). DESIGN CHOICE: no read of ERR follows,
as rule R107 expands it, though 70_reset_and_hazards.md rule R324 describes `CMD` with one (log 34, safe). -/
def hostCommand (i : Instr) : List HostOp := [.wr cmdOffset (encode i), .wait]

/-- `INIT` (rule R107). -/
def hostInit : List HostOp := hostCommand .setup

/-- `FRAME s`: encode, then flip if the encode succeeded (rule R107). -/
def hostFrame (slot : Slot) : List HostOp :=
  hostCommand (.encode slot) ++ [.skipUnlessOk (hostCommand (.activate slot)).length] ++ hostCommand (.activate slot)

/-- `RUN s`: fill the initial slot and start the consumer on it (rule R107). -/
def hostRun (slot : Slot) : List HostOp := hostCommand (.encode slot) ++ hostCommand (.start slot)

/-! The interleaving -/

/-- Whose event comes next: the first scripted turn, else the oracle's (00_scope.md rule R16 `Periph`; log 1). -/
def State.whoseTurn (s : State) : Turn :=
  match s.turns with
  | [] => Config.nextTurn s.draws
  | t :: _ => t

/-- The state once that turn is taken. -/
def State.takeTurn (s : State) : State :=
  match s.turns with
  | [] => { s with draws := s.draws + 1 }
  | _ :: rest => { s with turns := rest }

/-- One event of the interleaving: one step of the agent whose turn it is (20_memory.md rule R83). -/
def State.event (s : State) : Turn → Host.Outcome State Fault Refusal
  | .host => s.hostStep false
  | .command => s.hostStep true
  | .block choice => .next (s.blockStep choice)
  | .consumer linkNow => .next (s.consumerStep linkNow)
  | .reset => .next s.resetBlock

/-- The machine with one more host move to make first, a write of a command word, and the turn that runs it whole. The
host's path is cleared: no command in flight, no LAP_WAIT (log 26). -/
def State.withCommandWord (s : State) (w : Word) : State :=
  { s with
    hostOps := .wr cmdOffset w :: s.hostOps
    turns := .command :: s.turns
    inFlight := none
    lapGuard := none }

end Sys2Proof.Machine
end

