-- ==== Sys2Proof/Machine/Step.lean ====
section
/-! DEFINITION. One step of the machine: the next event of the interleaving (20_memory.md rule R83), and the placing of
a command word where the next step takes it. -/
namespace Sys2Proof.Machine

/-- One step: the agent whose turn it is makes one step. -/
def step (s : State) : Host.Outcome State Fault Refusal :=
  s.takeTurn.event s.whoseTurn

/-- The machine whose very next step runs the command word of a table row (log 3, log 26). A number that is no 32-bit
command word places nothing. -/
def State.withFetchWord (s : State) (nbits w : Nat) : State :=
  match tableWord nbits w with
  | none => s
  | some word => s.withCommandWord word

end Sys2Proof.Machine
end

