-- ==== Sys2Proof/Safety.lean ====
section
/-!
DEFINITION. What claims are stated in terms of: legal configurations, what memory holds where a descriptor, a ring or a
segment list stands, where the consumer may be, and the invariants of the machine.
-/
namespace Sys2Proof.Machine

/-! Legal configurations -/

/-- The bounds of 00_scope.md rule R8 to rule R12, those SETUP enforces (44_setup_control.md rule R251). -/
def State.configLegal (s : State) : Bool :=
  decide (2 ≤ s.panelWidth) &&
    (decide (s.panelHeight % 2 = 0) && decide (2 ≤ s.panelHeight) && decide (s.panelHeight ≤ 32)) &&
    (decide (1 ≤ s.planes) && decide (s.planes ≤ 8)) &&
    (decide (s.unit % 2 = 0) && decide (2 ≤ s.unit) && decide (s.unit ≤ 4094)) && s.limitLegal

/-- SETUP has succeeded and nothing has failed: STATE is READY or RUNNING (10_state.md rule R36). -/
def State.isSetUp (s : State) : Bool :=
  s.phase == .ready || s.phase == .running

/-- The slot is "active": the selected one, in double mode, while the consumer runs. Every other slot is "preparing", and
outside RUNNING every slot is (10_state.md rule R61). -/
def State.isActive (s : State) (slot : Slot) : Bool :=
  s.double && s.phase == .running && slot == s.sel

/-- The slot exists: slot 1 only in double mode (00_scope.md rule R13). -/
def State.slotExists (s : State) (slot : Slot) : Bool :=
  s.double || slot == .zero

/-! What memory holds -/

/-- The bytes of a range are bytes of the address space. -/
def Region.inMemory (r : Region) : Bool := decide (r.base + r.size ≤ memSize)

/-- The descriptor at an address has owner = 1, eof = sosf = offset = 0, length = size = `len`, and these links
(30_encoding.md rule R116, rule R117). -/
def Memory.isDescriptor (m : Memory) (at_ len buf next : Nat) : Bool :=
  m.read at_ 4 == 0x80000000 + 4096 * len + len && m.read (at_ + 4) 4 == buf && m.read (at_ + 8) 4 == next

/-- The ring at `head` is one descriptor per chunk, contiguous, in order, each linked to the following one and the last
to the first (40_chain_builder.md rule R144 to rule R146). -/
def Memory.isRing (m : Memory) (head : Nat) (chunks : List Chunk) : Prop :=
  ∀ i (h : i < chunks.length),
    m.isDescriptor (head + 12 * i) chunks[i].len chunks[i].addr (head + 12 * ((i + 1) % chunks.length)) = true

/-- The `next` word of the descriptor at an address. -/
def Memory.nextOf (m : Memory) (descriptor : Nat) : Nat := m.read (descriptor + 8) 4

/-- The descriptor reached from an address by following `next` a number of times. -/
def Memory.follow (m : Memory) (descriptor : Nat) : Nat → Nat
  | 0 => descriptor
  | k + 1 => m.nextOf (m.follow descriptor k)

/-- The first `count` entries of the segment list at `list`. -/
def Memory.listEntries (m : Memory) (list count : Nat) : List Segment :=
  (List.range count).map (m.listEntry list)

/-! Regions -/

/-- The bitplane buffers of a slot (20_memory.md rule R76). -/
def State.slotBuffers (s : State) (slot : Slot) : Region :=
  { base := s.planeBase slot 0, size := s.planes * s.planeBytes }

/-- The bitplane arena (rule R76). -/
def State.arena (s : State) : Region := { base := s.bpBase.toNat, size := s.arenaBytes }

/-- The bytes of the framebuffer an ENCODE reads (rule R77). -/
def State.framebufferRead (s : State) : Region :=
  { base := s.fbBase.toNat, size := 3 * (s.panelWidth * s.panelHeight) }

/-- The descriptor pool of a ring (rule R78). -/
def Ring.pool (r : Ring) : Region := { base := r.head.toNat, size := 12 * r.count.toNat }

/-- The bytes of the `next` word of a slot's tail descriptor, the only link a flip rewrites (30_encoding.md rule R119). -/
def State.tailLink (s : State) (slot : Slot) : Region :=
  { base := nextField (s.ring slot).tail.toNat, size := 4 }

/-! Invariants -/

/-- The configuration a stage of a command in flight relies on. -/
def State.stageFits (s : State) : Stage → Bool
  | .begin => true
  | .list slot _ _ => s.phase == .ready && s.slotExists slot
  | .arena => s.phase == .unconfigured && s.configLegal
  | .pool (some _) slot _ => s.phase == .unconfigured && s.configLegal && s.slotExists slot
  | .fill (some _) slot _ _ => s.phase == .unconfigured && s.configLegal && s.slotExists slot
  | .allocFailed (some _) => s.phase == .unconfigured && s.configLegal
  | .pool none slot _ => s.phase == .ready && s.slotExists slot
  | .fill none slot _ _ => s.phase == .ready && s.slotExists slot
  | .allocFailed none => s.phase == .ready
  | .rejected _ => true
  | .startLinks slot _ => s.phase == .ready && s.slotExists slot
  | .flipLinks _ _ => s.isSetUp && s.double
  | .words slot _ => s.isSetUp && s.slotExists slot

/-- The modes of the machine are legal. -/
structure State.ModeInv (s : State) : Prop where
  /-- SEL is 0 in single-ring mode (10_state.md rule R33). -/
  selSingle : s.double = false → s.sel = .zero
  /-- SEL is 0 before SETUP. -/
  selUnconfigured : s.phase = .unconfigured → s.sel = .zero
  /-- The consumer runs exactly in RUNNING (10_state.md rule R36, rule R58). -/
  runs : s.consumer.run = true ↔ s.phase = .running
  /-- The configuration is legal once SETUP has validated it (10_state.md rule R52). -/
  legal : s.isSetUp = true → s.configLegal = true
  /-- A command in flight stands where its checks have let it come. -/
  flight : ∀ c, s.inFlight = some c → s.stageFits c.stage = true
  /-- ORDER has its 255 entries and there are 8 counters (10_state.md rule R57, rule R59). -/
  tables : s.order.length = orderEntries ∧ s.cnt.length = counterEntries

/-- The regions the allocator has returned obey the law of 60_exceptions.md rule R302. -/
structure State.RegionsInv (s : State) : Prop where
  /-- Each is not null, 4-aligned, in memory and clear of the register window. -/
  lawful : ∀ r ∈ s.regions,
    r.base ≠ 0 ∧ r.base % 4 = 0 ∧ r.base + r.size ≤ memSize ∧ Region.disjoint r s.window = true
  /-- No two share a byte. -/
  apart : s.regions.Pairwise fun p q => Region.disjoint p q = true

/-- A ring's registers describe a pool the allocator returned: COUNT ≥ 1 and TAIL = HEAD + 12 × (COUNT − 1)
(10_state.md rule R56). -/
def State.ringAllocated (s : State) (r : Ring) : Prop :=
  1 ≤ r.count.toNat ∧ r.tail.toNat = r.head.toNat + 12 * (r.count.toNat - 1) ∧ r.pool ∈ s.regions

/-- Every descriptor of a ring but the last links to the one after it (30_encoding.md rule R119). -/
def Memory.linked (m : Memory) (r : Ring) : Prop :=
  ∀ i, i + 1 < r.count.toNat → m.nextOf (r.head.toNat + 12 * i) = r.head.toNat + 12 * (i + 1)

/-- An address is the head of the ring of a slot that exists. -/
def State.isHead (s : State) (a : Nat) : Prop := ∃ slot ∈ s.slots, a = (s.ring slot).head.toNat

/-- An address is a descriptor of the ring of a slot that exists. -/
def State.onRing (s : State) (a : Nat) : Prop :=
  ∃ slot ∈ s.slots, ∃ i < (s.ring slot).count.toNat, a = (s.ring slot).head.toNat + 12 * i

/-- The memory once a list of stores has been made. -/
def Memory.afterStores (m : Memory) : List Store → Memory
  | [] => m
  | w :: rest => (m.write w.addr 4 w.value.toNat).afterStores rest

/-- A ring BUILD is filling: its pool is allocated, clear of the arena, and linked once the stores left are made, all of
which fall into it. -/
def State.filling (s : State) (r : Ring) (left : List Store) : Prop :=
  s.ringAllocated r ∧ Region.disjoint r.pool s.arena = true ∧ (s.mem.afterStores left).linked r ∧
    ∀ w ∈ left, r.pool.base ≤ w.addr ∧ w.addr + 4 ≤ r.pool.base + r.pool.size

/-- The ring of a slot stands: allocated, clear of the arena and linked. -/
def State.ringStands (s : State) (slot : Slot) : Prop :=
  s.ringAllocated (s.ring slot) ∧ Region.disjoint (s.ring slot).pool s.arena = true ∧ s.mem.linked (s.ring slot)

/-- A store that makes the tail of an existing slot name a head. -/
def State.isLinkStore (s : State) (w : Store) : Prop :=
  (∃ slot ∈ s.slots, w.addr = (s.tailLink slot).base) ∧ s.isHead w.value.toNat

/-- Segments a ring can be built of: at least one, none empty (40_chain_builder.md rule R140). -/
def segmentsBuildable (segments : List Segment) : Prop := segments ≠ [] ∧ ∀ g ∈ segments, 1 ≤ g.len

/-- What a command in flight has built so far and still has to do, where a later step relies on it. What SETUP has built
is said of the registers as it will commit them. -/
def State.stageBuilds (s : State) : Stage → Prop
  | .list _ got _ => ∀ g ∈ got, 1 ≤ g.len
  | .pool (some p) slot segments =>
    let u := s.commit (some p)
    u.arena ∈ s.regions ∧ segmentsBuildable segments ∧ (slot = .one → u.ringStands .zero)
  | .pool none _ segments => segmentsBuildable segments
  | .fill (some p) slot r left =>
    let u := s.commit (some p)
    u.arena ∈ s.regions ∧ u.filling r left ∧
      (slot = .one → u.ringStands .zero ∧ Region.disjoint r.pool p.ring0.pool = true)
  | .fill none _ r left =>
    s.filling r left ∧ ∀ x ∈ s.slots, Region.disjoint r.pool (s.ring x).pool = true
  | .startLinks _ left =>
    (∀ w ∈ left, s.isLinkStore w) ∧
      ∀ slot ∈ s.slots, s.isHead ((s.mem.afterStores left).nextOf (s.ring slot).tail.toNat)
  | .flipLinks _ left => ∀ w ∈ left, s.isLinkStore w
  | .words _ jobs => ∀ j ∈ jobs, j.plane < s.planes ∧ j.row < s.rows ∧ j.col < s.panelWidth
  | .begin => True
  | .arena => True
  | .rejected _ => True
  | .allocFailed _ => True

/-- The rings stand, and the consumer stays inside them. -/
structure State.RingInv (s : State) : Prop where
  /-- The arena is a region the allocator returned (44_setup_control.md rule R252). -/
  arena : s.isSetUp = true → s.arena ∈ s.regions
  /-- The ring of every slot that exists stands (30_encoding.md rule R119). -/
  stands : s.isSetUp = true → ∀ slot ∈ s.slots, s.ringStands slot
  /-- Two rings share no descriptor. -/
  apart : s.isSetUp = true → s.double = true → Region.disjoint s.ring0.pool s.ring1.pool = true
  /-- Once the consumer runs, every tail names the head of a built ring (30_encoding.md rule R119). -/
  closed : s.phase = .running → ∀ slot ∈ s.slots, s.isHead (s.mem.nextOf (s.ring slot).tail.toNat)
  /-- The consumer is at, and heads for, a descriptor of a built ring (41_flip.md rule R180). -/
  inside : s.phase = .running →
    s.onRing s.consumer.cur.toNat ∧ ∀ next, s.consumer.link = some next → s.onRing next.toNat
  /-- A command in flight has built what it relies on. -/
  flight : ∀ c, s.inFlight = some c → s.stageBuilds c.stage

/-- The invariant of the machine: memory in canonical form, legal modes, lawful regions, standing rings. -/
structure State.Inv (s : State) : Prop where
  memory : s.mem.wf = true
  mode : s.ModeInv
  regions : s.RegionsInv
  rings : s.RingInv

/-! Runs -/

/-- A host program issues a further command: a CMD write that it reaches, with `skip` moves to skip first and ERR as it
stands when it is reached (30_encoding.md rule R107). -/
def issuesCommand : ErrCode → Nat → List HostOp → Bool
  | _, _, [] => false
  | err, skip + 1, _ :: rest => issuesCommand err skip rest
  | err, 0, .wr off _ :: rest => off == cmdOffset || issuesCommand err 0 rest
  | err, 0, .skipUnlessOk count :: rest => issuesCommand err (if err = .ok then 0 else count) rest
  | _, 0, .reset :: rest => issuesCommand .ok 0 rest
  | err, 0, .rd _ :: rest => issuesCommand err 0 rest
  | err, 0, .mwr _ _ _ :: rest => issuesCommand err 0 rest
  | err, 0, .wait :: rest => issuesCommand err 0 rest

/-- The host has no further command to issue and BUSY = 0 (60_exceptions.md rule R306). Reads, register and memory
writes, waits and resets that the program still holds do not keep a run going. -/
def State.runEnded (s : State) : Bool := !s.busy && !issuesCommand s.err 0 s.hostOps

/-- An infinite run of the machine. -/
def IsRun (run : Nat → State) : Prop := ∀ n, step (run n) = .next (run (n + 1))

/-- A run of a host program ends at the first state in which it has ended (60_exceptions.md rule R306). -/
def EndsAt (run : Nat → State) (n : Nat) : Prop := (run n).runEnded = true ∧ ∀ m < n, (run m).runEnded = false

/-- The next event is a step of the block. -/
def State.blockTurn (s : State) : Bool :=
  match s.whoseTurn with
  | .block _ => true
  | .host => false
  | .command => false
  | .consumer _ => false
  | .reset => false

/-- The block has no next step (60_exceptions.md rule R286): it is its turn, and its access or call is not performed. -/
def State.blockStuck (s : State) : Prop :=
  ∃ choice, s.whoseTurn = .block choice ∧ s.inFlight ≠ none ∧ s.takeTurn.blockStep choice = s.takeTurn

/-- Weak fairness of the block: a command that stays in flight from some point on gets a block step after it
(44_setup_control.md rule R264). -/
def FairToTheBlock (run : Nat → State) : Prop :=
  ∀ n, (∀ m, n ≤ m → (run m).inFlight ≠ none) → ∃ m, n ≤ m ∧ (run m).blockTurn = true

/-- Weak fairness of the consumer: once it runs it keeps taking steps (60_exceptions.md rule R301). -/
def FairToTheConsumer (run : Nat → State) : Prop :=
  ∀ n, (∀ m, n ≤ m → (run m).consumer.run = true) → ∃ m, n ≤ m ∧ ∃ linkNow, (run m).whoseTurn = .consumer linkNow

/-- The next event is a reset, asserted from outside or by the host's program. -/
def State.resets (s : State) : Bool :=
  s.whoseTurn == .reset ||
    ((s.whoseTurn == .host || s.whoseTurn == .command) && s.hostOps.head? == some .reset)

/-- The next event is the host's write to STATUS that clears OVR (10_state.md rule R38). -/
def State.clearsOverrun (s : State) : Bool :=
  (s.whoseTurn == .host || s.whoseTurn == .command) &&
    match s.hostOps.head? with
    | some (.wr off v) => off == statusOffset && v.getLsbD 5
    | _ => false

end Sys2Proof.Machine
end

