-- ==== Sys2Proof/Certificates/Slice0/Obligations.lean ====
section
/-!
DEFINITION. The statements for the provers, in the order of the spec's files. Each docstring names the rules a
statement formalises. OBLIGATIONS.json lists them.
-/

open Sys2Proof Sys2Proof.Machine

/-! Encodings (30_encoding.md) -/

/-- 30 R100 to R102: a word decodes to a command exactly if it is that command's encoding, so no bit of an encoding is
dropped and no two words mean the same command. -/
def Obligations.DecodeAndEncodeAgree : Prop :=
  ∀ (w : Word) (i : Instr), decode w = .command i ↔ w = encode i

/-- 30 R105: every word is one of the seven commands or illegal, and the decode test says which. -/
def Obligations.DecodingIsTotalAndTestsLegality : Prop :=
  ∀ w : Word,
    ((w.extractLsb' 4 4 = 0#4 ∧ w.extractLsb' 9 23 = 0#23 ∧ (w.extractLsb' 0 4).toNat ≤ 0x6 ∧
        (0x3 ≤ (w.extractLsb' 0 4).toNat ∨ w.extractLsb' 8 1 = 0#1)) ↔
      ∃ i, decode w = .command i) ∧
    ((∃ i, decode w = .command i) ∨ ∃ why, decode w = .illegal why)

/-- 95 vectors X1 to X15, all fifteen: words of the table and illegal words, decoded. -/
def Obligations.DecodesTheWordsOfTheTable : Prop :=
  decode 0x00000000#32 = .command .nop ∧ decode 0x00000001#32 = .command .setup ∧
    decode 0x00000002#32 = .command .schedule ∧ decode 0x00000103#32 = .command (.buildRing .one) ∧
    decode 0x00000004#32 = .command (.start .zero) ∧ decode 0x00000105#32 = .command (.activate .one) ∧
    decode 0x00000106#32 = .command (.encode .one) ∧ decode 0x00000101#32 = .illegal .slotOnSlotless ∧
    decode 0x00000007#32 = .illegal .reservedOpcode ∧ decode 0x0000000F#32 = .illegal .reservedOpcode ∧
    decode 0x00000016#32 = .illegal .reservedBits ∧ decode 0x00000206#32 = .illegal .reservedBits ∧
    decode 0x80000004#32 = .illegal .reservedBits ∧ decode 0xFFFFFFFF#32 = .illegal .reservedBits ∧
    decode 0x00000100#32 = .illegal .slotOnSlotless

/-- 42 R202 to R206, 30 R110 to R114: the fields of an output word. Bits 0 to 5 are bit 8 − B + p of the red, green and
blue bytes of rows r and r + ROWS at column c, bits 8 to 11 the row before modulo ROWS, bit 12 the last column, bit 13
the columns from LIMIT on, and bits 6, 7, 14 and 15 are 0. -/
def Obligations.OutputWordFields : Prop :=
  ∀ (s : State) (m : Memory) (fb p r c : Nat),
    s.planes ≤ 8 → p < s.planes → s.rows ≤ 16 → r < s.rows → c < s.panelWidth →
    let w := s.outputWord m fb p r c
    let k := 8 - s.planes + p
    let a := fb + 3 * (r * s.panelWidth + c)
    let b := fb + 3 * ((r + s.rows) * s.panelWidth + c)
    w.getLsbD 0 = (m.byte a).getLsbD k ∧ w.getLsbD 1 = (m.byte (a + 1)).getLsbD k ∧
      w.getLsbD 2 = (m.byte (a + 2)).getLsbD k ∧ w.getLsbD 3 = (m.byte b).getLsbD k ∧
      w.getLsbD 4 = (m.byte (b + 1)).getLsbD k ∧ w.getLsbD 5 = (m.byte (b + 2)).getLsbD k ∧
      (w.extractLsb' 8 4).toNat = (if r = 0 then s.rows - 1 else r - 1) ∧
      (w.getLsbD 12 = true ↔ c = s.panelWidth - 1) ∧ (w.getLsbD 13 = true ↔ s.limit ≤ c) ∧
      w.getLsbD 6 = false ∧ w.getLsbD 7 = false ∧ w.getLsbD 14 = false ∧ w.getLsbD 15 = false

/-! One step (20_memory.md R83, 44_setup_control.md R262) -/

/-- When the host's next move writes to CMD a word that decodes to a command, with BUSY = 0, no LAP_WAIT and the regions it
uses placed as 20 R81 asks, and the turn runs a command whole (log 2), the step is that command's meaning, the move and
the turn used up. -/
def Obligations.StepRunsTheDecodedCommand : Prop :=
  ∀ (s : State) (ts : List Turn) (ops : List HostOp) (w : Word) (i : Instr),
    s.turns = .command :: ts → s.hostOps = .wr 0 w :: ops → s.inFlight = none → s.lapBlocked w = false →
    s.launchRefused w = false → decode w = .command i →
    step s = exec i { s with turns := ts, hostOps := ops }

/-- 44 R262: a host write to CMD with BUSY = 0 is accepted in one step: the word and FB_BASE, SEGLIST and CLKDIV are
latched and BUSY becomes 1, and nothing else changes. The second clause is the model's choice (log 15, DEDUCED from 10 R60,
unsafe): until the step that completes the command no register of the window shows its progress. R262 does not say when
BP_BASE, PLANE_SIZE, ORDER and HEAD change, and the pseudocode of R250 and R147 writes them in between. -/
def Obligations.AcceptanceLatchesTheCommand : Prop :=
  (∀ (s : State) (ts : List Turn) (ops : List HostOp) (w : Word),
    s.turns = .host :: ts → s.hostOps = .wr 0 w :: ops → s.inFlight = none → s.lapBlocked w = false →
    s.launchRefused w = false →
    step s =
      .next
        { s with
          turns := ts
          hostOps := ops
          inFlight :=
            some { word := w, fbBase := s.fbBase, seglist := s.seglist, clkdiv := s.clkdiv, stage := .begin } }) ∧
  ∀ (s : State) (choice off : Nat),
    (s.blockStep choice).inFlight ≠ none → (s.blockStep choice).readReg off = s.readReg off

/-- 30 R103, R104: an illegal word completes at once with BAD_COMMAND, ERR_INFO = 0 and no other effect, in every STATE.
'At once' is the model's reading: in the host's own step where the turn runs commands whole (log 2), else in the one block
step that follows its acceptance (log 28, DEDUCED). -/
def Obligations.IllegalWordsCompleteWithBadCommand : Prop :=
  ∀ (s : State) (w : Word),
    (w.extractLsb' 4 4 ≠ 0#4 ∨ w.extractLsb' 9 23 ≠ 0#23 ∨ 0x7 ≤ (w.extractLsb' 0 4).toNat ∨
      ((w.extractLsb' 0 4).toNat < 0x3 ∧ w.extractLsb' 8 1 = 1#1)) →
    (∀ (ts : List Turn) (ops : List HostOp),
      s.turns = .command :: ts → s.hostOps = .wr 0 w :: ops → s.inFlight = none →
      step s =
        .next
          { s with
            turns := ts, hostOps := ops, err := .badCommand, check := 0#8, entry := 0#16, inFlight := none }) ∧
    (∀ choice : Nat,
      (s.accept w).blockStep choice = { s with err := .badCommand, check := 0#8, entry := 0#16, inFlight := none })

/-- 44 R262, R264: the block steps of an accepted word, with no event between, reach exactly what the word does whole, so
the meaning of a command as one step (log 2) is the spec's sequence of block steps. -/
def Obligations.BlockStepsReachTheCommandsEffect : Prop :=
  ∀ (s t : State) (w : Word),
    s.inFlight = none → s.runWord w = .next t →
    ∃ k, (s.accept w).blockRun (List.replicate k 0) = t

/-- 44 R264: no command's rule reads consumer state: whatever the consumer is, a command that answers a next state still
answers one, the same but for the consumer. And every command ends under weak fairness of the block: in a run that is fair
to the block, and in which each allocator call answers and each memory access is performed, BUSY is 0 again after every
point. -/
def Obligations.CommandsDoNotReadTheConsumer : Prop :=
  (∀ (s t : State) (i : Instr) (c : Consumer),
    exec i s = .next t → ∃ c', exec i { s with consumer := c } = .next { t with consumer := c' }) ∧
  ∀ run : Nat → State,
    IsRun run → FairToTheBlock run → (∀ n, ¬ (run n).blockStuck) → ∀ n, ∃ m, n ≤ m ∧ (run m).inFlight = none

/-- 60 R280, R288: the model refuses no command: each answers a next state or is stuck. 60 R286: SETUP and BUILD_RING are
stuck where the allocator never answers one of their calls, BUILD_RING and ENCODE where an access they reach lies past
2^32; a stuck command is the model's fault of that name (log 5, log 21). -/
def Obligations.NoCommandIsRefused : Prop :=
  (∀ (s : State) (i : Instr) (r : Refusal), exec i s ≠ .refused r) ∧
  (∀ (s : State) (arena pool0 : Word) (rest : List AllocAnswer),
    s.phase = .unconfigured → s.configLegal = true →
    let size := (if s.double then 2 else 1) * s.planes * (s.panelWidth * s.panelHeight)
    let n := (2 ^ s.planes - 1) * ((s.panelWidth * s.panelHeight + s.unit - 1) / s.unit)
    (s.nextAnswer = .silent → exec .setup s = .fault .allocatorSilent) ∧
    (s.allocAnswers = .region arena :: .silent :: rest → s.regionLegal size [s.namedList] arena = true →
      exec .setup s = .fault .allocatorSilent) ∧
    (s.double = true → s.allocAnswers = .region arena :: .region pool0 :: .silent :: rest →
      s.regionLegal size [s.namedList] arena = true →
      ({ s with regions := { base := arena.toNat, size := size } :: s.regions } : State).regionLegal
        (12 * n) [s.namedList] pool0 = true →
      exec .setup s = .fault .allocatorSilent)) ∧
  (∀ (s : State) (slot : Slot) (j : Nat),
    s.phase = .ready → s.slotExists slot = true → s.seglist ≠ 0#32 → s.seglist.toNat % 4 = 0 → j ≤ 255 →
    (∀ i, i < j → s.mem.entryClass s.seglist.toNat i = .segment) →
    (1 ≤ j → s.seglist.toNat + 8 * j + 8 ≤ memSize → s.mem.entryClass s.seglist.toNat j = .sentinel →
      12 * descriptorCount s.unit (s.mem.listEntries s.seglist.toNat j) < memSize → s.nextAnswer = .silent →
      exec (.buildRing slot) s = .fault .allocatorSilent) ∧
    (memSize < s.seglist.toNat + 8 * j + 8 → exec (.buildRing slot) s = .fault .noMemory)) ∧
  ∀ (s : State) (slot : Slot),
    s.isSetUp = true → s.configLegal = true → s.slotExists slot = true → s.fbBase ≠ 0#32 →
    ¬ (s.phase = .running ∧ s.double = true ∧ slot = s.sel) →
    (s.framebufferRead.inMemory = false ∨ (s.slotBuffers slot).inMemory = false) →
    exec (.encode slot) s = .fault .noMemory

/-- 60 R287, R283: in FAILED every command but NOP completes with WRONG_STATE and no other effect, and NOP with OK. -/
def Obligations.FailedStateRunsOnlyNop : Prop :=
  ∀ (s : State) (i : Instr), s.phase = .failed →
    exec i s =
      .next
        { s with
          err := if i = .nop then .ok else .wrongState, check := 0#8, entry := 0#16, inFlight := none }

/-- 44 R260: NOP writes ERR and ERR_INFO and nothing else, in every STATE. -/
def Obligations.NopCompletes : Prop :=
  ∀ s : State, exec .nop s = .next { s with err := .ok, check := 0#8, entry := 0#16, inFlight := none }

/-! The scheduler (43_scheduler.md) -/

/-- 43 R231: SCHEDULE writes ORDER[k] for every k in 0 .. 254 and ORDER_LEN, and completes with OK; the counters are its
working state, and nothing else changes. -/
def Obligations.ScheduleWritesTheOrdering : Prop :=
  ∀ s : State, s.phase ≠ .failed → 1 ≤ s.planes → s.planes ≤ 8 →
    ∃ t,
      exec .schedule s = .next t ∧
      (∀ k, k < 2 ^ s.planes - 1 → (t.orderAt k).toNat = (ordering s.planes).getD k 0) ∧
      (∀ k, 2 ^ s.planes - 1 ≤ k → k < 255 → t.orderAt k = 0#4) ∧
      t.order.length = 255 ∧ t.orderLen.toNat = 2 ^ s.planes - 1 ∧
      t = { s with
            order := t.order, orderLen := t.orderLen, cnt := t.cnt
            err := .ok, check := 0#8, entry := 0#16, inFlight := none }

/-- 43 R230, 60 R281: outside 1 .. 8 planes SCHEDULE completes with CONFIG_INVALID check 3 and nothing changes. -/
def Obligations.ScheduleRejectsIllegalPlaneCounts : Prop :=
  ∀ s : State, s.phase ≠ .failed → (s.planes = 0 ∨ 8 < s.planes) →
    exec .schedule s = .next { s with err := .configInvalid, check := 3#8, entry := 0#16, inFlight := none }

/-- 43 R232: with each plane's counter 2^(B − p) for every earlier position it holds, every position of the ordering holds
the plane with the minimum counter, the lowest plane index where several have it. -/
def Obligations.OrderingPicksTheLeastCounter : Prop :=
  ∀ planes k : Nat, k < 2 ^ planes - 1 →
    let before := (ordering planes).take k
    let counter := fun p => before.count p * 2 ^ (planes - p)
    let q := (ordering planes).getD k 0
    q < planes ∧ (∀ p, p < planes → counter q ≤ counter p) ∧ (∀ p, p < q → counter q < counter p)

/-- 43 R233: plane p occurs exactly 2^p times, for every B in 1 .. 8 and every p < B. With R234: the ordering has length
2^B − 1 and every counter ends at 2^B. -/
def Obligations.EveryPlaneOccursByItsWeight : Prop :=
  ∀ planes, 1 ≤ planes → planes ≤ 8 →
    (ordering planes).length = 2 ^ planes - 1 ∧ (sched planes).2 = List.replicate planes (2 ^ planes) ∧
      ∀ p, p < planes → (ordering planes).count p = 2 ^ p

/-- 43 R235: the orderings for B = 1 to 5, and the doubling of every ordering for B in 2 .. 8. -/
def Obligations.OrderingsOfTheSpec : Prop :=
  ordering 1 = [0] ∧ ordering 2 = [0, 1, 1] ∧ ordering 3 = [0, 1, 2, 2, 1, 2, 2] ∧
    ordering 4 = [0, 1, 2, 3, 3, 2, 3, 3, 1, 2, 3, 3, 2, 3, 3] ∧
    ordering 5 = [0, 1, 2, 3, 4, 4, 3, 4, 4, 2, 3, 4, 4, 3, 4, 4, 1, 2, 3, 4, 4, 3, 4, 4, 2, 3, 4, 4, 3, 4, 4] ∧
    ∀ planes, 2 ≤ planes → planes ≤ 8 →
      ordering planes = [0] ++ (ordering (planes - 1)).map (· + 1) ++ (ordering (planes - 1)).map (· + 1)

/-! The builder (40_chain_builder.md) -/

/-- 40 R142: the chunks of a segment: how many, where each starts, how long it is, that each has a length in 1 .. M, that
the lengths sum to the segment's, and that the last has length M when the segment is a multiple of M. -/
def Obligations.ChunksSplitTheSegment : Prop :=
  ∀ (unit : Nat) (g : Segment), 1 ≤ unit → 1 ≤ g.len →
    let k := (g.len + unit - 1) / unit
    let chunks := g.split unit
    chunks.length = k ∧
      (∀ t (h : t < chunks.length),
        chunks[t].addr = g.ptr + t * unit ∧
        chunks[t].len = (if t < k - 1 then unit else g.len - (k - 1) * unit) ∧
        1 ≤ chunks[t].len ∧ chunks[t].len ≤ unit ∧
        (g.len % unit = 0 → chunks[t].len = unit)) ∧
      (chunks.map Chunk.len).sum = g.len

/-- 40 R141: the ring of a list has the sum of ceil(len / M) descriptors, no fewer than ceil(total / M), and exactly that
many when every segment but the last is a multiple of M. -/
def Obligations.DescriptorCountIsTheSegmentSum : Prop :=
  ∀ (unit : Nat) (segments : List Segment), 1 ≤ unit → segments ≠ [] → (∀ g ∈ segments, 1 ≤ g.len) →
    (chunksOf unit segments).length = (segments.map fun g => (g.len + unit - 1) / unit).sum ∧
      descriptorCount unit segments = (chunksOf unit segments).length ∧
      ((segments.map Segment.len).sum + unit - 1) / unit ≤ descriptorCount unit segments ∧
      ((∀ g ∈ segments.dropLast, g.len % unit = 0) →
        descriptorCount unit segments = ((segments.map Segment.len).sum + unit - 1) / unit)

/-- 40 R149 (e): following `next` from any descriptor of a ring visits every descriptor of it exactly once before returning
to the first one. -/
def Obligations.ARingIsASingleCycle : Prop :=
  ∀ (m : Memory) (head : Nat) (chunks : List Chunk), m.isRing head chunks →
    ∀ i, i < chunks.length →
      (∀ j, j < chunks.length →
        ∃ k, k < chunks.length ∧ m.follow (head + 12 * i) k = head + 12 * j ∧
          ∀ k', k' < chunks.length → m.follow (head + 12 * i) k' = head + 12 * j → k' = k) ∧
      m.follow (head + 12 * i) chunks.length = head + 12 * i

/-- 40 R147 (with R143 to R146): BUILD_RING of a legal list whose pool is granted completes. The pool holds one descriptor
per chunk, closed; HEAD, TAIL and COUNT of the slot describe it; the pool is recorded beside every earlier one, which
stays allocated; every byte outside the pool and everything else is unchanged. -/
def Obligations.BuildRingBuildsTheRing : Prop :=
  ∀ (s : State) (slot : Slot) (j : Nat) (pool : Word) (rest : List AllocAnswer),
    s.phase = .ready → s.slotExists slot = true → s.seglist ≠ 0#32 → s.seglist.toNat % 4 = 0 → 1 ≤ s.unit →
    1 ≤ j → j ≤ 255 → s.seglist.toNat + 8 * j + 8 ≤ memSize →
    (∀ i, i < j → s.mem.entryClass s.seglist.toNat i = .segment) →
    s.mem.entryClass s.seglist.toNat j = .sentinel →
    let segments := s.mem.listEntries s.seglist.toNat j
    let n := descriptorCount s.unit segments
    12 * n < memSize →
    s.allocAnswers = .region pool :: rest →
    s.regionLegal (12 * n) [{ base := s.seglist.toNat, size := 8 * (j + 1) }] pool = true →
    let ring : Ring :=
      { head := pool, tail := BitVec.ofNat 32 (pool.toNat + 12 * (n - 1)), count := BitVec.ofNat 32 n }
    ∃ t,
      exec (.buildRing slot) s = .next t ∧
      t.mem.isRing pool.toNat (chunksOf s.unit segments) ∧
      (∀ a, Region.holds { base := pool.toNat, size := 12 * n } a = false → t.mem.byte a = s.mem.byte a) ∧
      t = { s with
            mem := t.mem
            ring0 := if slot = .zero then ring else s.ring0
            ring1 := if slot = .one then ring else s.ring1
            regions := { base := pool.toNat, size := 12 * n } :: s.regions
            allocAnswers := rest
            err := .ok, check := 0#8, entry := 0#16, inFlight := none }

/-- 40 R148, 60 R281: the register checks of BUILD_RING in order; each answers its code and changes nothing else. -/
def Obligations.BuildRingChecksItsRegistersInOrder : Prop :=
  ∀ (s : State) (slot : Slot),
    (s.phase = .unconfigured → exec (.buildRing slot) s = .next (s.raise (Error.plain .notSetup))) ∧
    (s.phase = .running → exec (.buildRing slot) s = .next (s.raise (Error.plain .wrongState))) ∧
    (s.phase = .ready → s.double = false → slot = .one →
      exec (.buildRing slot) s = .next (s.raise (Error.plain .badSlot))) ∧
    (s.phase = .ready → s.slotExists slot = true → (s.seglist = 0#32 ∨ s.seglist.toNat % 4 ≠ 0) →
      exec (.buildRing slot) s = .next (s.raise (Error.config 10#8)))

/-- 40 R148, R150, 30 R121, R122: a list with an invalid entry is rejected with that entry's index, a list with no sentinel
in 256 entries with check 7, an empty one with check 8, one whose pool would need 2^32 bytes with check 11. A rejected
build writes no memory, allocates nothing and changes no register but ERR and ERR_INFO. -/
def Obligations.BuildRingRejectsBadLists : Prop :=
  ∀ (s : State) (slot : Slot),
    s.phase = .ready → s.slotExists slot = true → s.seglist ≠ 0#32 → s.seglist.toNat % 4 = 0 →
    let class_ := s.mem.entryClass s.seglist.toNat
    (∀ j, j ≤ 255 → s.seglist.toNat + 8 * j + 8 ≤ memSize → (∀ i, i < j → class_ i = .segment) → class_ j = .invalid →
      exec (.buildRing slot) s =
        .next
          { s with err := .configInvalid, check := 6#8, entry := BitVec.ofNat 16 j, inFlight := none }) ∧
    (s.seglist.toNat + 8 * 256 ≤ memSize → (∀ i, i < 256 → class_ i = .segment) →
      exec (.buildRing slot) s = .next (s.raise (Error.config 7#8))) ∧
    (s.seglist.toNat + 8 ≤ memSize → class_ 0 = .sentinel →
      exec (.buildRing slot) s = .next (s.raise (Error.config 8#8))) ∧
    (∀ j, 1 ≤ j → j ≤ 255 → s.seglist.toNat + 8 * j + 8 ≤ memSize → (∀ i, i < j → class_ i = .segment) →
      class_ j = .sentinel →
      memSize ≤ 12 * descriptorCount s.unit (s.mem.listEntries s.seglist.toNat j) →
      exec (.buildRing slot) s = .next (s.raise (Error.config 11#8)))

/-- 40 R143, 60 R283: if BUILD_RING's pool is refused, the command completes with ALLOC_FAIL, STATE is FAILED, no memory is
written and nothing is allocated. The result registers are free values (the model's reading, log 9: derived). -/
def Obligations.BuildRingAllocationFailureIsFatal : Prop :=
  ∀ (s : State) (slot : Slot) (j : Nat) (rest : List AllocAnswer),
    s.phase = .ready → s.slotExists slot = true → s.seglist ≠ 0#32 → s.seglist.toNat % 4 = 0 →
    1 ≤ j → j ≤ 255 → s.seglist.toNat + 8 * j + 8 ≤ memSize →
    (∀ i, i < j → s.mem.entryClass s.seglist.toNat i = .segment) →
    s.mem.entryClass s.seglist.toNat j = .sentinel →
    12 * descriptorCount s.unit (s.mem.listEntries s.seglist.toNat j) < memSize →
    s.allocAnswers = .fail :: rest →
    ∃ t,
      exec (.buildRing slot) s = .next t ∧
      t = { s with
            phase := .failed
            bpBase := t.bpBase, planeSize := t.planeSize, ring0 := t.ring0, ring1 := t.ring1, order := t.order
            allocAnswers := rest, draws := t.draws
            err := .allocFail, check := 0#8, entry := 0#16, inFlight := none }

/-! START and ACTIVATE (41_flip.md) -/

/-- 41 R170, R171, R172: START s in READY makes every existing tail name HEAD[s], calls the peripheral with HEAD[s], 16 and
CLKDIV, and leaves SEL = s and STATE = RUNNING (the command as one step: log 2, log 30); every byte outside the tails' links
and everything else is unchanged. -/
def Obligations.StartRunsTheConsumer : Prop :=
  ∀ (s : State) (slot : Slot),
    s.phase = .ready → s.slotExists slot = true →
    (∀ x ∈ s.slots, (s.ring x).tail.toNat % 4 = 0 ∧ (s.ring x).tail.toNat + 12 ≤ memSize) →
    let head := (s.ring slot).head
    ∃ t,
      exec (.start slot) s = .next t ∧
      (∀ x ∈ s.slots, t.mem.nextOf (s.ring x).tail.toNat = head.toNat) ∧
      (∀ a, (∀ x ∈ s.slots, Region.holds (s.tailLink x) a = false) → t.mem.byte a = s.mem.byte a) ∧
      t = { s with
            mem := t.mem
            starts := s.starts ++ [{ head := head, width := 16, div := s.clkdiv }]
            consumer := { run := true, cur := head, off := 0, link := none, visit := .arriving }
            sel := slot
            phase := .running
            err := .ok, check := 0#8, entry := 0#16, inFlight := none }

/-- 41 R170: START before SETUP, while RUNNING, and of slot 1 in single-ring mode completes with its code; it writes no
memory and does not call the peripheral. -/
def Obligations.StartRejects : Prop :=
  ∀ (s : State) (slot : Slot),
    (s.phase = .unconfigured → exec (.start slot) s = .next (s.raise (Error.plain .notSetup))) ∧
    (s.phase = .running → exec (.start slot) s = .next (s.raise (Error.plain .wrongState))) ∧
    (s.phase = .ready → s.double = false → slot = .one →
      exec (.start slot) s = .next (s.raise (Error.plain .badSlot)))

/-- 41 R175, R180, R181: ACTIVATE s in double mode makes both tails name HEAD[s] and sets SEL = s; every byte outside the
two links and everything else is unchanged, but for the host's own note of the slot it left (70 R331, log 16, log
33). -/
def Obligations.ActivateFlipsBothTails : Prop :=
  ∀ (s : State) (slot : Slot),
    s.isSetUp = true → s.double = true →
    (∀ x : Slot, (s.ring x).tail.toNat % 4 = 0 ∧ (s.ring x).tail.toNat + 12 ≤ memSize) →
    ∃ t,
      exec (.activate slot) s = .next t ∧
      (∀ x : Slot, t.mem.nextOf (s.ring x).tail.toNat = (s.ring slot).head.toNat) ∧
      (∀ a, (∀ x : Slot, Region.holds (s.tailLink x) a = false) → t.mem.byte a = s.mem.byte a) ∧
      t = { s with
            mem := t.mem
            sel := slot
            lapGuard := if s.phase = .running ∧ slot ≠ s.sel then some s.sel else s.lapGuard
            err := .ok, check := 0#8, entry := 0#16, inFlight := none }

/-- 41 R178: in single-ring mode ACTIVATE writes no memory, leaves SEL and completes with OK in every STATE except FAILED,
where it answers WRONG_STATE. -/
def Obligations.ActivateIsANoOpInSingleRingMode : Prop :=
  ∀ (s : State) (slot : Slot), s.double = false →
    (s.phase ≠ .failed →
      exec (.activate slot) s = .next { s with err := .ok, check := 0#8, entry := 0#16, inFlight := none }) ∧
    (s.phase = .failed → exec (.activate slot) s = .next (s.raise (Error.plain .wrongState)))

/-- 41 R179: in double mode ACTIVATE before a successful SETUP fails with NOT_SETUP and writes nothing. -/
def Obligations.ActivateBeforeSetupFails : Prop :=
  ∀ (s : State) (slot : Slot), s.double = true → s.phase = .unconfigured →
    exec (.activate slot) s = .next { s with err := .notSetup, check := 0#8, entry := 0#16, inFlight := none }

/-- 41 R176, R175: a consumer that has emitted the last word of a tail descriptor and not yet read its link when ACTIVATE s
completes reads HEAD[s] and goes there, and the host's LAP_WAIT ends (70 R331; the host's note: log 16, log 33). -/
def Obligations.FlipHandsOffAtTheTail : Prop :=
  ∀ (s t : State) (slot x : Slot) (buf : Word) (len : BitVec 12) (b b' : Bool),
    s.phase = .running → s.double = true →
    (∀ y : Slot, (s.ring y).tail.toNat % 4 = 0 ∧ (s.ring y).tail.toNat + 12 ≤ memSize) →
    (s.ring slot).head ≠ 0#32 →
    s.consumer.run = true → s.consumer.cur = (s.ring x).tail → s.consumer.link = none →
    s.consumer.visit = .playing buf len → len.toNat ≤ s.consumer.off →
    exec (.activate slot) s = .next t →
    let u := (t.consumerStep b).consumerStep b'
    u.consumer.cur = (s.ring slot).head ∧ u.consumer.visit = .arriving ∧ u.lapGuard = none ∧ u.mem = t.mem

/-- 70 R338, 41 R180: while ACTIVATE is in flight, a block step leaves each tail's link whole: what it was, or the new
head. -/
def Obligations.FlipLinksAreNeverTorn : Prop :=
  ∀ (s : State) (c : InFlight) (slot : Slot) (w : Store) (left : List Store) (choice : Nat),
    s.inFlight = some c → c.stage = .flipLinks slot (w :: left) → s.isLinkStore w →
    (∀ x ∈ s.slots, (s.ring x).tail.toNat % 4 = 0 ∧ (s.ring x).tail.toNat + 12 ≤ memSize) →
    ∀ x ∈ s.slots,
      (s.blockStep choice).mem.nextOf (s.ring x).tail.toNat = s.mem.nextOf (s.ring x).tail.toNat ∨
        (s.blockStep choice).mem.nextOf (s.ring x).tail.toNat = w.value.toNat

/-! ENCODE (42_encoder.md) -/

/-- 42 R200, R210: ENCODE s that no check rejects completes where its framebuffer and buffers are in memory. It writes only
the bytes of slot s's bitplane buffers and no register but ERR and ERR_INFO. -/
def Obligations.EncodeCompletesInsideItsSlot : Prop :=
  ∀ (s : State) (slot : Slot),
    s.isSetUp = true → s.slotExists slot = true → s.fbBase ≠ 0#32 →
    ¬ (s.phase = .running ∧ s.double = true ∧ slot = s.sel) →
    s.framebufferRead.inMemory = true → (s.slotBuffers slot).inMemory = true →
    ∃ t,
      exec (.encode slot) s = .next t ∧
      (∀ a, (s.slotBuffers slot).holds a = false → t.mem.byte a = s.mem.byte a) ∧
      t = { s with mem := t.mem, err := .ok, check := 0#8, entry := 0#16, inFlight := none }

/-- 42 R201, R209: if the framebuffer and the buffers share no byte, the word ENCODE s leaves for every plane, row and column
of slot s is WORD on the framebuffer's bytes. -/
def Obligations.EncodeWritesEveryWord : Prop :=
  ∀ (s : State) (slot : Slot),
    s.isSetUp = true → s.slotExists slot = true → s.fbBase ≠ 0#32 →
    ¬ (s.phase = .running ∧ s.double = true ∧ slot = s.sel) →
    s.framebufferRead.inMemory = true → (s.slotBuffers slot).inMemory = true →
    Region.disjoint s.framebufferRead (s.slotBuffers slot) = true →
    ∃ t,
      exec (.encode slot) s = .next t ∧
      ∀ p r c, p < s.planes → r < s.rows → c < s.panelWidth →
        t.mem.read (s.bpBase.toNat + (slot.toNat * s.planes + p) * (s.panelWidth * s.panelHeight) +
            2 * (r * s.panelWidth + c)) 2 =
          (s.outputWord s.mem s.fbBase.toNat p r c).toNat

/-- 42 R200, 60 R281: the checks of ENCODE in order; each answers its code and changes nothing else. -/
def Obligations.EncodeChecksInOrder : Prop :=
  ∀ (s : State) (slot : Slot),
    (s.phase = .unconfigured → exec (.encode slot) s = .next (s.raise (Error.plain .notSetup))) ∧
    (s.isSetUp = true → s.double = false → slot = .one →
      exec (.encode slot) s = .next (s.raise (Error.plain .badSlot))) ∧
    (s.isSetUp = true → s.slotExists slot = true → s.fbBase = 0#32 →
      exec (.encode slot) s = .next (s.raise (Error.config 9#8))) ∧
    (s.phase = .running → s.double = true → s.fbBase ≠ 0#32 → slot = s.sel →
      exec (.encode slot) s = .next (s.raise (Error.plain .activeSlot)))

/-- 42 R208, R210: in RUNNING and double mode no ENCODE, of either slot, changes a byte of the active slot's buffers. -/
def Obligations.EncodeNeverWritesTheActiveSlot : Prop :=
  ∀ (s t : State) (slot : Slot),
    s.phase = .running → s.double = true → exec (.encode slot) s = .next t →
    ∀ a, (s.slotBuffers s.sel).holds a = true → t.mem.byte a = s.mem.byte a

/-- 42 R211: encoding the same framebuffer into the same slot twice yields bit-identical buffers. -/
def Obligations.EncodeTwiceIsEncodeOnce : Prop :=
  ∀ (s t : State) (slot : Slot),
    s.framebufferRead.inMemory = true → (s.slotBuffers slot).inMemory = true →
    Region.disjoint s.framebufferRead (s.slotBuffers slot) = true →
    exec (.encode slot) s = .next t →
    ∃ u, exec (.encode slot) t = .next u ∧ ∀ a, u.mem.byte a = t.mem.byte a

/-- 42 R207, R211, 44 R264: in every order of its reads and writes, an accepted ENCODE completes after 7 × B × ROWS × W
accesses, a first and a last step (log 14), in the state the whole command reaches. -/
def Obligations.EveryEncodeOrderReachesTheSameState : Prop :=
  ∀ (s : State) (slot : Slot) (choices : List Nat),
    s.mem.wf = true → s.inFlight = none →
    s.isSetUp = true → s.slotExists slot = true → s.fbBase ≠ 0#32 →
    ¬ (s.phase = .running ∧ s.double = true ∧ slot = s.sel) →
    s.framebufferRead.inMemory = true → (s.slotBuffers slot).inMemory = true →
    Region.disjoint s.framebufferRead (s.slotBuffers slot) = true →
    choices.length = 7 * (s.planes * s.rows * s.panelWidth) + 2 →
    exec (.encode slot) s = .next ((s.accept (encode (.encode slot))).blockRun choices)

/-! SETUP (44_setup_control.md) -/

/-- 44 R250, R251, 60 R281: the checks of SETUP in order, the first that fails reported, nothing else changed. -/
def Obligations.SetupReportsTheFirstFailingCheck : Prop :=
  ∀ s : State,
    let badWidth := s.panelWidth < 2
    let badHeight := s.panelHeight % 2 ≠ 0 ∨ s.panelHeight < 2 ∨ 32 < s.panelHeight
    let badPlanes := s.planes = 0 ∨ 8 < s.planes
    let badUnit := s.unit % 2 ≠ 0 ∨ s.unit < 2 ∨ 4094 < s.unit
    let badLimit :=
      (s.params.limitCheck = .strict ∧ ¬ (0 < s.limit ∧ s.limit < s.panelWidth)) ∨
        (s.params.limitCheck = .inclusive ∧ ¬ s.limit ≤ s.panelWidth)
    (s.phase ≠ .unconfigured → exec .setup s = .next (s.raise (Error.plain .wrongState))) ∧
    (s.phase = .unconfigured → badWidth → exec .setup s = .next (s.raise (Error.config 1#8))) ∧
    (s.phase = .unconfigured → ¬ badWidth → badHeight → exec .setup s = .next (s.raise (Error.config 2#8))) ∧
    (s.phase = .unconfigured → ¬ badWidth → ¬ badHeight → badPlanes →
      exec .setup s = .next (s.raise (Error.config 3#8))) ∧
    (s.phase = .unconfigured → ¬ badWidth → ¬ badHeight → ¬ badPlanes → badUnit →
      exec .setup s = .next (s.raise (Error.config 4#8))) ∧
    (s.phase = .unconfigured → ¬ badWidth → ¬ badHeight → ¬ badPlanes → ¬ badUnit → badLimit →
      exec .setup s = .next (s.raise (Error.config 5#8)))

/-- 44 R250, R252 to R255: SETUP of a legal configuration whose allocations are granted completes: ring s plays the N
bitplane buffers of slot s in the interleave order, each whole, closed, slot 0's pool allocated before slot 1's,
N × ceil(PLANE_BYTES / MAX_UNIT) descriptors each; STATE = READY and SEL = 0. SETUP writes no byte of the bitplane buffers:
each is the free value its grant left there (log 8). Every byte outside the pools and the arena and everything else is
unchanged. The grants keep clear of the segment list SEGLIST names (log 7). -/
def Obligations.SetupBuildsTheRings : Prop :=
  ∀ (s : State) (arena pool0 pool1 : Word) (rest : List AllocAnswer),
    s.phase = .unconfigured → s.configLegal = true →
    s.allocAnswers = .region arena :: .region pool0 :: (if s.double then .region pool1 :: rest else rest) →
    let size := (if s.double then 2 else 1) * s.planes * (s.panelWidth * s.panelHeight)
    let n := (2 ^ s.planes - 1) * ((s.panelWidth * s.panelHeight + s.unit - 1) / s.unit)
    let granted := { base := arena.toNat, size := size } :: s.regions
    let granted0 := { base := pool0.toNat, size := 12 * n } :: granted
    let segments := fun slot : Slot =>
      (ordering s.planes).map fun p =>
        ({ ptr := arena.toNat + (slot.toNat * s.planes + p) * (s.panelWidth * s.panelHeight)
           len := s.panelWidth * s.panelHeight } : Segment)
    let ring := fun pool : Word =>
      ({ head := pool, tail := BitVec.ofNat 32 (pool.toNat + 12 * (n - 1)), count := BitVec.ofNat 32 n } : Ring)
    s.regionLegal size [s.namedList] arena = true →
    ({ s with regions := granted } : State).regionLegal (12 * n) [s.namedList] pool0 = true →
    (s.double = true → ({ s with regions := granted0 } : State).regionLegal (12 * n) [s.namedList] pool1 = true) →
    ∃ t,
      exec .setup s = .next t ∧
      t.planeSize.toNat = s.panelWidth * s.panelHeight ∧ t.orderLen.toNat = 2 ^ s.planes - 1 ∧
      (∀ k, k < 2 ^ s.planes - 1 → (t.orderAt k).toNat = (ordering s.planes).getD k 0) ∧
      (∀ k, 2 ^ s.planes - 1 ≤ k → k < 255 → t.orderAt k = 0#4) ∧
      t.mem.isRing pool0.toNat (chunksOf s.unit (segments .zero)) ∧
      (s.double = true → t.mem.isRing pool1.toNat (chunksOf s.unit (segments .one))) ∧
      (chunksOf s.unit (segments .zero)).length = n ∧
      (∀ a, Region.holds { base := arena.toNat, size := size } a = true → t.mem.written a = none) ∧
      (∀ a, Region.holds { base := arena.toNat, size := size } a = false →
        Region.holds { base := pool0.toNat, size := 12 * n } a = false →
        (s.double = true → Region.holds { base := pool1.toNat, size := 12 * n } a = false) →
        t.mem.byte a = s.mem.byte a) ∧
      t = { s with
            phase := .ready, sel := .zero
            order := t.order, orderLen := t.orderLen, cnt := t.cnt, planeSize := t.planeSize
            bpBase := arena, ring0 := ring pool0, ring1 := if s.double then ring pool1 else s.ring1
            regions := if s.double then { base := pool1.toNat, size := 12 * n } :: granted0 else granted0
            allocAnswers := rest, mem := t.mem
            err := .ok, check := 0#8, entry := 0#16, inFlight := none }

/-- 44 R256, 60 R283: if the arena, or a ring's pool after it, is refused, SETUP completes with ALLOC_FAIL and STATE =
FAILED, and what was allocated before stays allocated. 40 R150: no descriptor of the refused pool is written. Memory changes
by the grants alone, which leave their bytes unconstrained (log 8), and by the stores of ring 0 where slot 1's pool is the
one refused. BP_BASE, PLANE_SIZE, ORDER and the ring registers are then unspecified (log 9); the statement says nothing of
them. -/
def Obligations.SetupAllocationFailureIsFatal : Prop :=
  ∀ (s : State) (arena pool0 : Word) (rest : List AllocAnswer),
    s.phase = .unconfigured → s.configLegal = true →
    let size := (if s.double then 2 else 1) * s.planes * (s.panelWidth * s.panelHeight)
    let n := (2 ^ s.planes - 1) * ((s.panelWidth * s.panelHeight + s.unit - 1) / s.unit)
    let granted := { base := arena.toNat, size := size } :: s.regions
    let granted0 := { base := pool0.toNat, size := 12 * n } :: granted
    let failed := fun (t : State) (regions : List Region) =>
      t = { s with
            phase := .failed
            bpBase := t.bpBase, planeSize := t.planeSize, ring0 := t.ring0, ring1 := t.ring1, order := t.order
            orderLen := t.orderLen, cnt := t.cnt, mem := t.mem, regions := regions
            allocAnswers := rest, draws := t.draws
            err := .allocFail, check := 0#8, entry := 0#16, inFlight := none }
    (s.allocAnswers = .fail :: rest →
      ∃ t, exec .setup s = .next t ∧ t.mem = s.mem ∧ failed t s.regions) ∧
    (s.allocAnswers = .region arena :: .fail :: rest → s.regionLegal size [s.namedList] arena = true →
      ∃ t,
        exec .setup s = .next t ∧ failed t granted ∧ t.mem = s.mem.forget { base := arena.toNat, size := size }) ∧
    (s.double = true → s.allocAnswers = .region arena :: .region pool0 :: .fail :: rest →
      s.regionLegal size [s.namedList] arena = true →
      ({ s with regions := granted } : State).regionLegal (12 * n) [s.namedList] pool0 = true →
      ∃ t,
        exec .setup s = .next t ∧ failed t granted0 ∧
          (∀ a, Region.holds { base := arena.toNat, size := size } a = true → t.mem.written a = none) ∧
          ∀ a, Region.holds { base := arena.toNat, size := size } a = false →
            Region.holds { base := pool0.toNat, size := 12 * n } a = false → t.mem.byte a = s.mem.byte a)

/-! The register window (10_state.md) -/

/-- 10 R41: the fields of STATUS, and that a write to it changes OVR alone, by bit 5. -/
def Obligations.StatusLayout : Prop :=
  ∀ (s : State) (v : Word),
    (s.readReg 0x004).extractLsb' 0 2 =
        (match s.phase with | .unconfigured => 0#2 | .ready => 1#2 | .running => 2#2 | .failed => 3#2) ∧
      (s.readReg 0x004).extractLsb' 2 1 = s.sel.bit ∧
      (s.readReg 0x004).getLsbD 3 = s.double ∧
      (s.readReg 0x004).getLsbD 4 = s.inFlight.isSome ∧
      (s.readReg 0x004).getLsbD 5 = s.ovr ∧
      (s.readReg 0x004).extractLsb' 6 2 = 0#2 ∧
      (s.readReg 0x004).extractLsb' 8 4 =
        (match s.err with
          | .ok => 0#4 | .allocFail => 1#4 | .configInvalid => 2#4 | .notSetup => 3#4
          | .badSlot => 4#4 | .activeSlot => 5#4 | .wrongState => 6#4 | .badCommand => 7#4) ∧
      (s.readReg 0x004).extractLsb' 12 20 = 0#20 ∧
      (s.readReg 0x008) = s.entry ++ 0#8 ++ s.check ∧
      s.writeStatus v = { s with ovr := s.ovr && !v.getLsbD 5 }

/-- 44 R261, 10 R35: a host read hands back the register at the offset, each at its place in the map, its unused bits 0,
and has no other effect; ORDER[k] stands at 0x100 + 4k, CMD and every offset the map does not list read 0. -/
def Obligations.ReadsReturnTheRegister : Prop :=
  ∀ (s : State) (ts : List Turn) (ops : List HostOp) (off : Nat),
    s.turns = .host :: ts → s.hostOps = .rd off :: ops → windowOffset off = true →
    step s = .next { s with turns := ts, hostOps := ops, rdata := s.rdata ++ [s.readReg off] } ∧
      s.readReg 0x000 = 0#32 ∧
      s.readReg 0x010 = s.width.setWidth 32 ∧ s.readReg 0x014 = s.height.setWidth 32 ∧
      s.readReg 0x018 = s.bitplaneCnt.setWidth 32 ∧ s.readReg 0x01C = s.maxUnit.setWidth 32 ∧
      s.readReg 0x020 = s.brightness.setWidth 32 ∧ s.readReg 0x024 = (if s.double then 1#32 else 0#32) ∧
      s.readReg 0x028 = s.clkdiv ∧ s.readReg 0x02C = s.fbBase ∧ s.readReg 0x030 = s.seglist ∧
      s.readReg 0x040 = s.bpBase ∧ s.readReg 0x044 = s.planeSize ∧ s.readReg 0x048 = s.orderLen.setWidth 32 ∧
      s.readReg 0x050 = s.ring0.head ∧ s.readReg 0x054 = s.ring0.tail ∧ s.readReg 0x058 = s.ring0.count ∧
      s.readReg 0x060 = s.ring1.head ∧ s.readReg 0x064 = s.ring1.tail ∧ s.readReg 0x068 = s.ring1.count ∧
      (∀ k, k < 255 → s.readReg (0x100 + 4 * k) = (s.orderAt k).setWidth 32) ∧
      (off ∈ [0x00C, 0x034, 0x038, 0x03C, 0x04C, 0x05C] ∨ (0x06C ≤ off ∧ off < 0x100) ∨ 0x4FC ≤ off →
        s.readReg off = 0#32)

/-- 10 R35, R52, 44 R261: with BUSY = 0, a host write stores the used bits where the register's access code admits it in
the current STATE, and changes nothing otherwise; writes to read-only registers and unused offsets have no effect. -/
def Obligations.RegisterWritesFollowTheAccessCodes : Prop :=
  ∀ (s : State) (ts : List Turn) (ops : List HostOp) (off : Nat) (v : Word),
    s.turns = .host :: ts → s.hostOps = .wr off v :: ops → s.inFlight = none →
    windowOffset off = true → off ≠ 0x000 → off ≠ 0x004 →
    let u : State := { s with turns := ts, hostOps := ops }
    (s.phase = .unconfigured →
      (off = 0x010 → step s = .next { u with width := v.setWidth 16 }) ∧
      (off = 0x014 → step s = .next { u with height := v.setWidth 16 }) ∧
      (off = 0x018 → step s = .next { u with bitplaneCnt := v.setWidth 4 }) ∧
      (off = 0x01C → step s = .next { u with maxUnit := v.setWidth 12 }) ∧
      (off = 0x020 → step s = .next { u with brightness := v.setWidth 16 }) ∧
      (off = 0x024 → step s = .next { u with double := v.getLsbD 0 })) ∧
    (s.phase ≠ .unconfigured → off ∈ [0x010, 0x014, 0x018, 0x01C, 0x020, 0x024] → step s = .next u) ∧
    (off = 0x028 →
      step s = .next (if s.phase = .unconfigured ∨ s.phase = .ready then { u with clkdiv := v } else u)) ∧
    (off = 0x02C → step s = .next { u with fbBase := v }) ∧
    (off = 0x030 → step s = .next { u with seglist := v }) ∧
    (off ∉ [0x010, 0x014, 0x018, 0x01C, 0x020, 0x024, 0x028, 0x02C, 0x030] → step s = .next u)

/-- 10 R38: a host write to any offset but STATUS while BUSY = 1 is dropped and sets OVR; a write to STATUS is accepted at
any time, clears OVR where bit 5 is 1, leaves it where bit 5 is 0, and is no overrun; OVR is 0 after reset. It is sticky: of
all steps of all agents only that write and a reset take it from 1 to 0. -/
def Obligations.OverrunIsStickyUntilCleared : Prop :=
  State.reset.ovr = false ∧
  (∀ s t : State,
    step s = .next t → s.ovr = true → s.resets = false → s.clearsOverrun = false → t.ovr = true) ∧
  ∀ (s : State) (ts : List Turn) (ops : List HostOp) (off : Nat) (v : Word),
    (s.turns = .host :: ts ∨ s.turns = .command :: ts) → s.hostOps = .wr off v :: ops → windowOffset off = true →
    (s.inFlight ≠ none → off ≠ 0x004 → step s = .next { s with turns := ts, hostOps := ops, ovr := true }) ∧
    (off = 0x004 →
      step s = .next { s with turns := ts, hostOps := ops, ovr := if v.getLsbD 5 then false else s.ovr })

/-- 10 R52: outside UNCONFIGURED no step but a reset changes WIDTH, HEIGHT, BITPLANE_CNT, MAX_UNIT, BRIGHTNESS or MODE. -/
def Obligations.ConfigurationIsLatched : Prop :=
  ∀ s t : State, step s = .next t → s.phase ≠ .unconfigured → s.resets = false →
    t.width = s.width ∧ t.height = s.height ∧ t.bitplaneCnt = s.bitplaneCnt ∧ t.maxUnit = s.maxUnit ∧
      t.brightness = s.brightness ∧ t.double = s.double ∧ t.params = s.params

/-- 10 R36: STATE changes only from UNCONFIGURED to READY, from READY to RUNNING, from UNCONFIGURED or READY to FAILED, and
by reset to UNCONFIGURED. -/
def Obligations.StateChangesOnlyAsTheSpecSays : Prop :=
  ∀ s t : State, s.ModeInv → step s = .next t →
    (s.resets = true → t.phase = .unconfigured) ∧
    (s.resets = false →
      t.phase = s.phase ∨ (s.phase = .unconfigured ∧ t.phase = .ready) ∨ (s.phase = .ready ∧ t.phase = .running) ∨
        ((s.phase = .unconfigured ∨ s.phase = .ready) ∧ t.phase = .failed))

/-! The agents outside the block (60_exceptions.md) -/

/-- 60 R302: a region the allocator grants is not null, 4-aligned, in memory, disjoint from every region granted before, the
register window, the framebuffer and the segment list `avoid` (log 7); it is recorded, its bytes are unconstrained values
that no earlier byte tells (log 8), and every other byte is unchanged. -/
def Obligations.AllocatorGrantsLawfulRegions : Prop :=
  ∀ (s t : State) (size : Nat) (avoid : List Region) (base : Word),
    s.alloc size avoid = .granted base t →
    base ≠ 0#32 ∧ base.toNat % 4 = 0 ∧ base.toNat + size ≤ memSize ∧
      (∀ r ∈ s.regions ++ [s.window, s.framebuffer] ++ avoid, ∀ a,
        Region.holds { base := base.toNat, size := size } a = true → r.holds a = false) ∧
      t.regions = { base := base.toNat, size := size } :: s.regions ∧
      ∀ a,
        (Region.holds { base := base.toNat, size := size } a = true →
          t.mem.written a = none ∧ t.mem.byte a = Config.unwrittenByte (s.mem.fresh.length + 1) a) ∧
        (Region.holds { base := base.toNat, size := size } a = false → t.mem.byte a = s.mem.byte a)

/-- 60 R301: each of the consumer's steps does what the rule says and changes nothing else, but for the host's own note of
the slot a flip left (70 R331): an Advance to HEAD[SEL] drops it. That part is the model's choice, not R301's: the
note is its form of R331's guard (log 16, DEDUCED, unsafe), and SEL is read as it stands at the Advance (log 33, DESIGN
CHOICE). -/
def Obligations.ConsumerStepsFollowTheDescriptor : Prop :=
  ∀ (s : State) (b : Bool), s.consumer.run = true →
    let c := s.consumer
    let cur := c.cur.toNat
    let d0 := s.mem.read cur 4
    let buf := s.mem.read (cur + 4) 4
    let len := d0 / 4096 % 4096
    (c.visit = .arriving → cur + 8 ≤ memSize → d0.testBit 31 = true → len ≠ 0 → len % 2 = 0 → buf % 2 = 0 →
      s.consumerStep b =
        { s with
          consumer := { c with off := 0, visit := .playing (BitVec.ofNat 32 buf) (BitVec.ofNat 12 len) } }) ∧
    (∀ B L, c.visit = .playing B L → c.link = none → (b = true ∨ L.toNat ≤ c.off) → cur + 12 ≤ memSize →
      s.consumerStep b = { s with consumer := { c with link := some (BitVec.ofNat 32 (s.mem.read (cur + 8) 4)) } }) ∧
    (∀ B L, c.visit = .playing B L → (c.link ≠ none ∨ b = false) → c.off < L.toNat →
      B.toNat + c.off + 2 ≤ memSize →
      s.consumerStep b =
        { s with
          out := s.out ++ [BitVec.ofNat 16 (s.mem.read (B.toNat + c.off) 2)]
          consumer := { c with off := c.off + 2 } }) ∧
    (∀ B L next, c.visit = .playing B L → c.link = some next → L.toNat ≤ c.off → next ≠ 0#32 →
      s.consumerStep b =
        { s with
          lapGuard := if next = (s.ring s.sel).head then none else s.lapGuard
          consumer := { c with cur := next, link := none, visit := .arriving } })

/-- 60 R304, R301: on a descriptor with owner = 0, length 0, odd length or odd buf the consumer takes no step after the
Load, and with a null link none after the last Emit: it drives no word and goes nowhere (log 18). -/
def Obligations.ConsumerStopsOnMalformedDescriptors : Prop :=
  ∀ (s : State) (b b' : Bool), s.consumer.run = true →
    let cur := s.consumer.cur.toNat
    let d0 := s.mem.read cur 4
    let len := d0 / 4096 % 4096
    (s.consumer.visit = .arriving → cur + 8 ≤ memSize →
      (d0.testBit 31 = false ∨ len = 0 ∨ len % 2 = 1 ∨ s.mem.read (cur + 4) 4 % 2 = 1) →
      (s.consumerStep b).consumerStep b' = s.consumerStep b ∧ (s.consumerStep b).out = s.out ∧
        (s.consumerStep b).consumer.cur = s.consumer.cur) ∧
    (∀ B L, s.consumer.visit = .playing B L → L.toNat ≤ s.consumer.off → s.consumer.link = some 0#32 →
      s.consumerStep b = s)

/-- 60 R301, 41 R177, 70 R325: wherever in its visit of a descriptor the consumer reads `next`, the visit takes a Load, a
Link, LEN / 2 Emits and an Advance; it drives the whole chunk's words in address order, then goes to `next`. -/
def Obligations.ConsumerPlaysTheWholeDescriptor : Prop :=
  ∀ (s : State) (choices : List Bool),
    let cur := s.consumer.cur.toNat
    let d0 := s.mem.read cur 4
    let buf := s.mem.read (cur + 4) 4
    let next := s.mem.read (cur + 8) 4
    let len := d0 / 4096 % 4096
    s.consumer.run = true → s.consumer.visit = .arriving → s.consumer.link = none → cur + 12 ≤ memSize →
    d0.testBit 31 = true → len ≠ 0 → len % 2 = 0 → buf % 2 = 0 → buf + len ≤ memSize → next ≠ 0 →
    choices.length = len / 2 + 3 →
    let t := s.consumerRun choices
    t.out = s.out ++ (List.range (len / 2)).map (fun i => BitVec.ofNat 16 (s.mem.read (buf + 2 * i) 2)) ∧
      t.consumer.cur.toNat = next ∧ t.consumer.visit = .arriving ∧ t.consumer.link = none ∧ t.mem = s.mem

/-- 41 R176, R177: once both tails name HEAD[s] and the consumer is in ring s, its own steps keep it there. -/
def Obligations.ConsumerStaysInTheActivatedRing : Prop :=
  ∀ (s : State) (slot : Slot) (b : Bool),
    s.Inv → s.phase = .running → slot ∈ s.slots →
    let inRing := fun (t : State) =>
      (∃ i, i < (s.ring slot).count.toNat ∧ t.consumer.cur.toNat = (s.ring slot).head.toNat + 12 * i) ∧
        ∀ next, t.consumer.link = some next →
          ∃ i, i < (s.ring slot).count.toNat ∧ next.toNat = (s.ring slot).head.toNat + 12 * i
    s.mem.nextOf (s.ring slot).tail.toNat = (s.ring slot).head.toNat → inRing s → inRing (s.consumerStep b)

/-- 70 R331: under GUARDED the host's ENCODE of the slot a flip left has no move: the turn passes and the move waits
(log 16). Under UNGUARDED it is accepted, where the framebuffer is placed as 20 R81 asks. -/
def Obligations.GuardedHostWaitsForTheHandOff : Prop :=
  ∀ (s : State) (ts : List Turn) (ops : List HostOp) (w : Word) (slot : Slot),
    s.turns = .host :: ts → s.hostOps = .wr 0 w :: ops → s.inFlight = none →
    decode w = .command (.encode slot) → s.lapGuard = some slot →
    (s.params.lapWait = .guarded → step s = .next { s with turns := ts }) ∧
    (s.params.lapWait = .unguarded → s.launchRefused w = false →
      ∃ t, step s = .next t ∧ t.inFlight.isSome = true ∧ t.hostOps = ops)

/-- 60 R305, 10 R34, 30 R106: the host's memory writes are of 1, 2 or 4 bytes and go to memory that is its own. An access
to the window that is not aligned or not inside it, a memory write of another size, one past 2^32, and one that reaches an
allocated region or the window, are refused by name (log 17). 20 R81: so is the launch of an ENCODE whose framebuffer
shares a byte with an allocated region or the window, and that of a BUILD_RING whose segment list shares one with an
allocated region, the window or the framebuffer. An ENCODE is not checked against the segment list (log 17). -/
def Obligations.HostMovesKeepToTheInterface : Prop :=
  ∀ (s : State) (ts : List Turn) (ops : List HostOp) (off size : Nat) (addr v : Word) (slot : Slot),
    s.turns = .host :: ts →
    (s.hostOps = .rd off :: ops → windowOffset off = false → step s = .refused (.windowAccess off)) ∧
    (s.hostOps = .wr off v :: ops → windowOffset off = false → step s = .refused (.windowAccess off)) ∧
    (s.hostOps = .wr 0 v :: ops → s.inFlight = none → s.lapBlocked v = false →
      (decode v = .command (.encode slot) → checkEncode slot s = none →
        (∃ r ∈ s.window :: s.regions, Region.disjoint s.framebuffer r = false) →
        step s = .refused .overlappingRegions) ∧
      (decode v = .command (.buildRing slot) → checkBuildRing slot s = none →
        (∃ r ∈ s.window :: s.framebuffer :: s.regions, Region.disjoint s.namedList r = false) →
        step s = .refused .overlappingRegions)) ∧
    (s.hostOps = .mwr size addr v :: ops → ¬ (size = 1 ∨ size = 2 ∨ size = 4) →
      step s = .refused (.hostWriteSize size)) ∧
    (s.hostOps = .mwr size addr v :: ops → (size = 1 ∨ size = 2 ∨ size = 4) → memSize < addr.toNat + size →
      step s = .refused (.hostNoMemory addr.toNat)) ∧
    (s.hostOps = .mwr size addr v :: ops → (size = 1 ∨ size = 2 ∨ size = 4) → addr.toNat + size ≤ memSize →
      ((∀ r ∈ s.window :: s.regions, Region.disjoint r { base := addr.toNat, size := size } = true) →
        step s =
          .next { s with turns := ts, hostOps := ops, mem := s.mem.write addr.toNat size v.toNat }) ∧
      ((∃ r ∈ s.window :: s.regions, Region.disjoint r { base := addr.toNat, size := size } = false) →
        step s = .refused (.hostWriteToBlock addr.toNat)))

/-! Reset (70_reset_and_hazards.md) and the invariants -/

/-- 70 R320, R321: reset puts every register of the window at 0, with no command in flight, the consumer stopped and no
region allocated. It writes no memory, and every byte of memory is unconstrained after it: none counts as written (log 4,
log 22). A reset may be asserted at any point (the turn is the model's, log 32). -/
def Obligations.ResetClearsEveryRegister : Prop :=
  (∀ off, State.reset.readReg off = 0#32) ∧ (∀ a, State.reset.mem.written a = none) ∧
  ∀ s : State,
    (∀ ts, s.turns = .reset :: ts → step s = .next ({ s with turns := ts } : State).resetBlock) ∧
    (∀ off, s.resetBlock.readReg off = 0#32) ∧ s.resetBlock.phase = .unconfigured ∧ s.resetBlock.inFlight = none ∧
      s.resetBlock.consumer.run = false ∧ s.resetBlock.regions = [] ∧
      ∀ a, a < memSize → s.resetBlock.mem.written a = none

/-- The machine's invariant holds after reset. -/
def Obligations.ResetMeetsTheInvariant : Prop := State.reset.Inv

/-- Every step keeps memory in canonical form. -/
def Obligations.StepKeepsMemoryCanonical : Prop :=
  ∀ s t : State, s.mem.wf = true → step s = .next t → t.mem.wf = true

/-- 10 R33, R36, R52, R57: every step keeps the modes legal: SEL = 0 in single-ring mode, the consumer runs exactly in
RUNNING (that START's call falls into the step that enters RUNNING is the model's choice, log 30), the configuration SETUP
validated stays legal, a command in flight stays where its checks let it come, and ORDER keeps its 255 entries. -/
def Obligations.StepKeepsTheModesLegal : Prop :=
  ∀ s t : State, s.ModeInv → step s = .next t → t.ModeInv

/-- 60 R302: every step keeps the allocator's regions lawful and pairwise disjoint. -/
def Obligations.StepKeepsRegionsDisjoint : Prop :=
  ∀ s t : State, s.RegionsInv → step s = .next t → t.RegionsInv

/-- 30 R119, 41 R180: every step of every agent keeps the rings allocated, linked and, once the consumer runs, closed, and
keeps the consumer inside them. -/
def Obligations.StepKeepsTheRingsClosed : Prop :=
  ∀ s t : State, s.Inv → step s = .next t → t.RingInv

/-- 60 R286: where the invariant holds, START and ACTIVATE are never stuck. -/
def Obligations.LinkCommandsAreNeverStuck : Prop :=
  ∀ (s : State) (slot : Slot), s.Inv →
    (∃ t, exec (.start slot) s = .next t) ∧ (∃ t, exec (.activate slot) s = .next t)
end

