-- ==== Sys2Proof/Laws/Memory.lean ====
section
/-! SUPPORT. The laws of memory: what a byte reads as after a write and after its range is left unconstrained,
little-endian reads and writes, and that every memory operation keeps the canonical form. -/
namespace Sys2Proof.Machine

/-! One cell -/

theorem findCell_insertCell (cells : List Host.Cell) (a : Nat) (v : Byte) (b : Nat) :
    findCell (insertCell cells a v) b = if a = b then some v else findCell cells b := by
  induction cells with
  | nil => simp [insertCell, findCell]
  | cons c rest ih =>
    obtain ⟨k, w⟩ := c
    simp only [insertCell]
    split
    · simp [findCell]
    · split
      · rename_i _ h; subst h; simp only [findCell]; split <;> rfl
      · rename_i _ h
        simp only [findCell, ih]
        split <;> rename_i hk
        · subst hk; simp [h]
        · rfl

theorem findCell_filter (cells : List Host.Cell) (r : Region) (b : Nat) :
    findCell (cells.filter fun c => !r.holds c.1) b = if r.holds b = true then none else findCell cells b := by
  induction cells with
  | nil => simp [findCell]
  | cons c rest ih =>
    obtain ⟨k, w⟩ := c
    by_cases hk : r.holds k = true
    · simp only [List.filter, hk, Bool.not_true, ih, findCell]
      by_cases hb : k = b
      · subst hb; simp [hk]
      · rw [if_neg hb]
    · rw [Bool.not_eq_true] at hk
      simp only [List.filter, hk, Bool.not_false, findCell, ih]
      by_cases hb : k = b
      · subst hb; simp [hk]
      · rw [if_neg hb, if_neg hb]

theorem mem_insertCell {cells : List Host.Cell} {a : Nat} {v : Byte} {c : Host.Cell} (h : c ∈ insertCell cells a v) :
    c = (a, v) ∨ c ∈ cells := by
  induction cells with
  | nil => simpa [insertCell] using h
  | cons d rest ih =>
    obtain ⟨k, w⟩ := d
    simp only [insertCell] at h
    split at h
    · simpa using h
    · split at h
      · rcases List.mem_cons.mp h with h | h
        · exact .inl h
        · exact .inr (List.mem_cons_of_mem _ h)
      · rcases List.mem_cons.mp h with h | h
        · exact .inr (by simp [h])
        · rcases ih h with h | h
          · exact .inl h
          · exact .inr (List.mem_cons_of_mem _ h)

theorem insertCell_rising {cells : List Host.Cell} (a : Nat) (v : Byte) (h : cells.Pairwise fun c d => c.1 < d.1) :
    (insertCell cells a v).Pairwise fun c d => c.1 < d.1 := by
  induction cells with
  | nil => simp [insertCell]
  | cons d rest ih =>
    obtain ⟨k, w⟩ := d
    have hm := List.pairwise_cons.mp h
    simp only [insertCell]
    split
    · rename_i hk
      refine List.pairwise_cons.mpr ⟨?_, h⟩
      intro c hc
      rcases List.mem_cons.mp hc with rfl | hc
      · exact hk
      · exact Nat.lt_trans hk (hm.1 c hc)
    · split
      · rename_i _ hk; subst hk; exact List.pairwise_cons.mpr ⟨hm.1, hm.2⟩
      · refine List.pairwise_cons.mpr ⟨?_, ih hm.2⟩
        intro c hc
        rcases mem_insertCell hc with rfl | hc
        · show k < a; omega
        · exact hm.1 c hc

theorem findCell_of_mem {cells : List Host.Cell} (h : cells.Pairwise fun c d => c.1 < d.1) {c : Host.Cell}
    (hc : c ∈ cells) : findCell cells c.1 = some c.2 := by
  induction cells with
  | nil => simp at hc
  | cons d rest ih =>
    obtain ⟨k, w⟩ := d
    have hm := List.pairwise_cons.mp h
    rw [findCell]
    rcases List.mem_cons.mp hc with rfl | hc
    · simp
    · have : k ≠ c.1 := Nat.ne_of_lt (hm.1 c hc)
      rw [if_neg this]
      exact ih hm.2 hc

theorem mem_of_findCell {cells : List Host.Cell} {a : Nat} {v : Byte} (h : findCell cells a = some v) :
    (a, v) ∈ cells := by
  induction cells with
  | nil => cases h
  | cons d rest ih =>
    obtain ⟨k, w⟩ := d
    rw [findCell] at h
    split at h
    · rename_i hk; cases h; subst hk; simp
    · exact List.mem_cons_of_mem _ (ih h)

/-! One byte -/

@[simp] theorem Memory.setByte_fresh (m : Memory) (a : Nat) (v : Byte) : (m.setByte a v).fresh = m.fresh := rfl
@[simp] theorem Memory.forget_fresh (m : Memory) (r : Region) : (m.forget r).fresh = r :: m.fresh := rfl
@[simp] theorem Memory.unwritten_setByte (m : Memory) (a : Nat) (v : Byte) (b : Nat) :
    (m.setByte a v).unwritten b = m.unwritten b := rfl

theorem Memory.written_setByte (m : Memory) (a : Nat) (v : Byte) (b : Nat) :
    (m.setByte a v).written b = if a = b then some v else m.written b := findCell_insertCell _ _ _ _

/-- A byte that has been written reads as the value written last. -/
theorem Memory.byte_of_written {m : Memory} {a : Nat} {v : Byte} (h : m.written a = some v) : m.byte a = v := by
  simp [Memory.byte, h]

/-- A byte that has not been written reads as its free value. -/
theorem Memory.byte_of_unwritten {m : Memory} {a : Nat} (h : m.written a = none) : m.byte a = m.unwritten a := by
  simp [Memory.byte, h]

/-- A byte reads as the value written there last. -/
theorem Memory.byte_setByte (m : Memory) (a : Nat) (v : Byte) (b : Nat) :
    (m.setByte a v).byte b = if a = b then v else m.byte b := by
  simp only [Memory.byte, Memory.written_setByte, Memory.unwritten_setByte]
  split <;> rfl

/-- A range left unconstrained holds no written byte; elsewhere nothing changes. -/
theorem Memory.written_forget (m : Memory) (r : Region) (a : Nat) :
    (m.forget r).written a = if r.holds a = true then none else m.written a := findCell_filter _ _ _

/-- A byte after its range is left unconstrained: a free value of its own draw inside, unchanged outside
(60_exceptions.md rule R302). -/
theorem Memory.byte_forget (m : Memory) (r : Region) (a : Nat) :
    (m.forget r).byte a = if r.holds a = true then Config.unwrittenByte (m.fresh.length + 1) a else m.byte a := by
  simp only [Memory.byte, Memory.written_forget, Memory.unwritten, Memory.forget_fresh, freshDraw]
  by_cases h : r.holds a = true
  · simp [h]
  · simp [h]

/-- Leaving a range unconstrained leaves every byte outside it alone. -/
theorem Memory.byte_forget_of_outside (m : Memory) {r : Region} {a : Nat} (h : a < r.base ∨ r.base + r.size ≤ a) :
    (m.forget r).byte a = m.byte a := by
  rw [Memory.byte_forget, if_neg]
  simp only [Region.holds, Bool.and_eq_true, decide_eq_true_eq]
  omega

/-! The canonical form -/

/-- The canonical form as a list property: rising addresses, each in memory. -/
theorem Memory.wf_iff (m : Memory) :
    m.wf = true ↔ m.cells.Pairwise (fun c d => c.1 < d.1) ∧ ∀ c ∈ m.cells, c.1 < memSize := by
  obtain ⟨cells, fresh⟩ := m
  simp only [Memory.wf]
  induction cells with
  | nil => simp [cellsRising]
  | cons c cells ih =>
    obtain ⟨k, v⟩ := c
    cases cells with
    | nil => simp [cellsRising]
    | cons d cells =>
      obtain ⟨k', v'⟩ := d
      simp only [cellsRising, Bool.and_eq_true, decide_eq_true_eq, ih]
      constructor
      · rintro ⟨hk, hp, hm⟩
        refine ⟨List.pairwise_cons.mpr ⟨?_, hp⟩, ?_⟩
        · intro c hc
          rcases List.mem_cons.mp hc with rfl | hc
          · exact hk
          · exact Nat.lt_trans hk ((List.pairwise_cons.mp hp).1 c hc)
        · intro c hc
          rcases List.mem_cons.mp hc with rfl | hc
          · exact Nat.lt_trans hk (hm (k', v') (by simp))
          · exact hm c hc
      · rintro ⟨hp, hm⟩
        rw [List.pairwise_cons] at hp
        exact ⟨hp.1 (k', v') (by simp), hp.2, fun c hc => hm c (List.mem_cons_of_mem _ hc)⟩

/-- Writing one byte of the address space keeps the canonical form. -/
theorem Memory.wf_setByte {m : Memory} (h : m.wf = true) {a : Nat} (ha : a < memSize) (v : Byte) :
    (m.setByte a v).wf = true := by
  rw [Memory.wf_iff] at h ⊢
  refine ⟨insertCell_rising a v h.1, fun c hc => ?_⟩
  rcases mem_insertCell hc with rfl | hc
  · exact ha
  · exact h.2 c hc

/-- Leaving a range unconstrained keeps the canonical form. -/
theorem Memory.wf_forget {m : Memory} (h : m.wf = true) (r : Region) : (m.forget r).wf = true := by
  rw [Memory.wf_iff] at h ⊢
  exact ⟨h.1.filter _, fun c hc => h.2 c (List.mem_filter.mp hc).1⟩

/-- Memories in canonical form with the same bytes written and the same ranges unconstrained are the same data. -/
theorem Memory.eq_of_written_eq {m n : Memory} (hm : m.wf = true) (hn : n.wf = true) (hf : m.fresh = n.fresh)
    (h : ∀ a, m.written a = n.written a) : m = n := by
  rw [Memory.wf_iff] at hm hn
  have sub : ∀ {p q : List Host.Cell}, p.Pairwise (fun c d => c.1 < d.1) → (∀ a, findCell p a = findCell q a) →
      ∀ c ∈ p, c ∈ q := by
    intro p q hp hpq c hc
    have := findCell_of_mem hp hc
    rw [hpq] at this
    exact mem_of_findCell this
  have hcells : m.cells = n.cells := by
    refine List.Perm.eq_of_pairwise ?_ hm.1 hn.1 ?_
    · intro c d _ _ hcd hdc; omega
    · have nd : ∀ {p : List Host.Cell}, p.Pairwise (fun c d => c.1 < d.1) → p.Nodup := fun hp =>
        hp.imp (fun hcd heq => by rw [heq] at hcd; exact Nat.lt_irrefl _ hcd)
      exact (List.perm_ext_iff_of_nodup (nd hm.1) (nd hn.1)).mpr fun c =>
        ⟨sub hm.1 h c, sub hn.1 (fun a => (h a).symm) c⟩
  cases m; cases n; simp_all

/-! Little-endian reads and writes -/

@[simp] theorem Memory.write_fresh (m : Memory) (a n v : Nat) : (m.write a n v).fresh = m.fresh := by
  induction n generalizing m a v with
  | zero => rfl
  | succ n ih => rw [Memory.write, ih]; rfl

/-- The bytes written by a write, and those written before. -/
theorem Memory.written_write (m : Memory) (a n v b : Nat) :
    (m.write a n v).written b =
      if a ≤ b ∧ b < a + n then some (BitVec.ofNat 8 (v / 256 ^ (b - a))) else m.written b := by
  induction n generalizing m a v with
  | zero => simp only [Memory.write]; rw [if_neg (by omega)]
  | succ n ih =>
    simp only [Memory.write, ih, Memory.written_setByte]
    by_cases hb : a = b
    · subst hb; simp
    · by_cases hin : a ≤ b ∧ b < a + (n + 1)
      · have h1 : a + 1 ≤ b ∧ b < a + 1 + n := by omega
        rw [if_pos h1, if_pos hin]
        have h2 : b - a = (b - (a + 1)) + 1 := by omega
        rw [h2, Nat.pow_succ', Nat.div_div_eq_div_mul]
      · have h1 : ¬ (a + 1 ≤ b ∧ b < a + 1 + n) := by omega
        rw [if_neg h1, if_neg hin, if_neg hb]

/-- A byte after a write: the value's byte at its place inside the written bytes, unchanged outside them. -/
theorem Memory.byte_write (m : Memory) (a n v b : Nat) :
    (m.write a n v).byte b = if a ≤ b ∧ b < a + n then BitVec.ofNat 8 (v / 256 ^ (b - a)) else m.byte b := by
  simp only [Memory.byte, Memory.written_write, Memory.unwritten, Memory.write_fresh]
  split <;> rfl

/-- A write leaves every byte outside it alone. -/
theorem Memory.byte_write_of_outside (m : Memory) {a n v b : Nat} (h : b < a ∨ a + n ≤ b) :
    (m.write a n v).byte b = m.byte b := by
  rw [Memory.byte_write, if_neg (by omega)]

/-- A read depends only on the bytes it reads. -/
theorem Memory.read_congr {m m' : Memory} {a n : Nat} (h : ∀ b, a ≤ b → b < a + n → m.byte b = m'.byte b) :
    m.read a n = m'.read a n := by
  induction n generalizing a with
  | zero => rfl
  | succ n ih =>
    simp only [Memory.read]
    rw [h a (by omega) (by omega), ih fun b h1 h2 => h b (by omega) (by omega)]

/-- Reads that agree agree in every byte they read. -/
theorem Memory.byte_eq_of_read_eq {m m' : Memory} {a n : Nat} (h : m.read a n = m'.read a n) {b : Nat} (h1 : a ≤ b)
    (h2 : b < a + n) : m.byte b = m'.byte b := by
  induction n generalizing a with
  | zero => omega
  | succ n ih =>
    have hm := (m.byte a).isLt
    have hm' := (m'.byte a).isLt
    simp only [Memory.read] at h
    by_cases hb : b = a
    · subst hb
      apply BitVec.eq_of_toNat_eq
      omega
    · exact ih (a := a + 1) (by omega) (by omega) (by omega)

/-- A read returns a number of the width it reads. -/
theorem Memory.read_lt (m : Memory) (a n : Nat) : m.read a n < 256 ^ n := by
  induction n generalizing a with
  | zero => simp [Memory.read]
  | succ n ih =>
    have := (m.byte a).isLt
    have := ih (a + 1)
    simp only [Memory.read, Nat.pow_succ']
    omega

/-- A read of what was just written returns it, cut to the width. -/
theorem Memory.read_write_same (m : Memory) (a n v : Nat) : (m.write a n v).read a n = v % 256 ^ n := by
  induction n generalizing m a v with
  | zero => simp [Memory.read, Nat.mod_one]
  | succ n ih =>
    simp only [Memory.write, Memory.read, ih]
    have hb : ((Memory.write (m.setByte a (BitVec.ofNat 8 v)) (a + 1) n (v / 256)).byte a).toNat = v % 256 := by
      rw [Memory.byte_write_of_outside _ (.inl (by omega)), Memory.byte_setByte, if_pos rfl, BitVec.toNat_ofNat]
    rw [hb, Nat.pow_succ', Nat.mod_mul]

/-- A read disjoint from a write is not changed by it. -/
theorem Memory.read_write_of_disjoint (m : Memory) {a n v b k : Nat} (h : b + k ≤ a ∨ a + n ≤ b) :
    (m.write a n v).read b k = m.read b k :=
  Memory.read_congr fun _ _ _ => Memory.byte_write_of_outside m (by omega)

/-- Writing bytes of the address space keeps the canonical form. -/
theorem Memory.wf_write {m : Memory} (h : m.wf = true) {a n : Nat} (ha : a + n ≤ memSize) (v : Nat) :
    (m.write a n v).wf = true := by
  induction n generalizing m a v with
  | zero => exact h
  | succ n ih => exact ih (Memory.wf_setByte h (by omega) _) (by omega) _

/-- A block write that is made keeps the canonical form. -/
theorem Memory.wf_store {m m' : Memory} (h : m.wf = true) {a n v : Nat} (hs : m.store a n v = some m') :
    m'.wf = true := by
  unfold Memory.store memoryExists at hs
  split at hs
  · rename_i hex
    cases hs
    exact Memory.wf_write h (by simpa using hex) v
  · cases hs

/-- A block write is made exactly where the memory exists. -/
theorem Memory.store_eq_some {m m' : Memory} {a n v : Nat} :
    m.store a n v = some m' ↔ a + n ≤ memSize ∧ m' = m.write a n v := by
  unfold Memory.store memoryExists
  by_cases h : a + n ≤ memSize <;> simp [h, eq_comm]

/-- A read by the block or the consumer is made exactly where the memory exists. -/
theorem Memory.load_eq_some {m : Memory} {a n v : Nat} :
    m.load a n = some v ↔ a + n ≤ memSize ∧ v = m.read a n := by
  unfold Memory.load memoryExists
  by_cases h : a + n ≤ memSize <;> simp [h, eq_comm]

/-- Reset's memory is in canonical form. -/
theorem reset_memory_wf : State.reset.mem.wf = true := rfl

end Sys2Proof.Machine
end

