-- ==== Sys2Proof/Laws/State.lean ====
section
/-! SUPPORT. What each update of the state writes and what it leaves: one lemma per field per update, so that no proof
unfolds a record update. -/
namespace Sys2Proof.Machine

/-! `State.raise` -/

@[simp] theorem State.raise_phase (s : State) (e : Error) : (s.raise e).phase = s.phase := rfl
@[simp] theorem State.raise_sel (s : State) (e : Error) : (s.raise e).sel = s.sel := rfl
@[simp] theorem State.raise_ovr (s : State) (e : Error) : (s.raise e).ovr = s.ovr := rfl
@[simp] theorem State.raise_err (s : State) (e : Error) : (s.raise e).err = e.code := rfl
@[simp] theorem State.raise_check (s : State) (e : Error) : (s.raise e).check = e.check := rfl
@[simp] theorem State.raise_entry (s : State) (e : Error) : (s.raise e).entry = e.entry := rfl
@[simp] theorem State.raise_width (s : State) (e : Error) : (s.raise e).width = s.width := rfl
@[simp] theorem State.raise_height (s : State) (e : Error) : (s.raise e).height = s.height := rfl
@[simp] theorem State.raise_bitplaneCnt (s : State) (e : Error) : (s.raise e).bitplaneCnt = s.bitplaneCnt := rfl
@[simp] theorem State.raise_maxUnit (s : State) (e : Error) : (s.raise e).maxUnit = s.maxUnit := rfl
@[simp] theorem State.raise_brightness (s : State) (e : Error) : (s.raise e).brightness = s.brightness := rfl
@[simp] theorem State.raise_double (s : State) (e : Error) : (s.raise e).double = s.double := rfl
@[simp] theorem State.raise_clkdiv (s : State) (e : Error) : (s.raise e).clkdiv = s.clkdiv := rfl
@[simp] theorem State.raise_fbBase (s : State) (e : Error) : (s.raise e).fbBase = s.fbBase := rfl
@[simp] theorem State.raise_seglist (s : State) (e : Error) : (s.raise e).seglist = s.seglist := rfl
@[simp] theorem State.raise_bpBase (s : State) (e : Error) : (s.raise e).bpBase = s.bpBase := rfl
@[simp] theorem State.raise_planeSize (s : State) (e : Error) : (s.raise e).planeSize = s.planeSize := rfl
@[simp] theorem State.raise_orderLen (s : State) (e : Error) : (s.raise e).orderLen = s.orderLen := rfl
@[simp] theorem State.raise_ring0 (s : State) (e : Error) : (s.raise e).ring0 = s.ring0 := rfl
@[simp] theorem State.raise_ring1 (s : State) (e : Error) : (s.raise e).ring1 = s.ring1 := rfl
@[simp] theorem State.raise_order (s : State) (e : Error) : (s.raise e).order = s.order := rfl
@[simp] theorem State.raise_consumer (s : State) (e : Error) : (s.raise e).consumer = s.consumer := rfl
@[simp] theorem State.raise_cnt (s : State) (e : Error) : (s.raise e).cnt = s.cnt := rfl
@[simp] theorem State.raise_inFlight (s : State) (e : Error) : (s.raise e).inFlight = none := rfl
@[simp] theorem State.raise_mem (s : State) (e : Error) : (s.raise e).mem = s.mem := rfl
@[simp] theorem State.raise_regions (s : State) (e : Error) : (s.raise e).regions = s.regions := rfl
@[simp] theorem State.raise_starts (s : State) (e : Error) : (s.raise e).starts = s.starts := rfl
@[simp] theorem State.raise_out (s : State) (e : Error) : (s.raise e).out = s.out := rfl
@[simp] theorem State.raise_rdata (s : State) (e : Error) : (s.raise e).rdata = s.rdata := rfl
@[simp] theorem State.raise_hostOps (s : State) (e : Error) : (s.raise e).hostOps = s.hostOps := rfl
@[simp] theorem State.raise_lapGuard (s : State) (e : Error) : (s.raise e).lapGuard = s.lapGuard := rfl
@[simp] theorem State.raise_allocAnswers (s : State) (e : Error) : (s.raise e).allocAnswers = s.allocAnswers := rfl
@[simp] theorem State.raise_turns (s : State) (e : Error) : (s.raise e).turns = s.turns := rfl
@[simp] theorem State.raise_params (s : State) (e : Error) : (s.raise e).params = s.params := rfl
@[simp] theorem State.raise_draws (s : State) (e : Error) : (s.raise e).draws = s.draws := rfl

/-! `State.succeed` -/

@[simp] theorem State.succeed_phase (s : State) : (s.succeed).phase = s.phase := rfl
@[simp] theorem State.succeed_sel (s : State) : (s.succeed).sel = s.sel := rfl
@[simp] theorem State.succeed_ovr (s : State) : (s.succeed).ovr = s.ovr := rfl
@[simp] theorem State.succeed_err (s : State) : (s.succeed).err = .ok := rfl
@[simp] theorem State.succeed_check (s : State) : (s.succeed).check = 0#8 := rfl
@[simp] theorem State.succeed_entry (s : State) : (s.succeed).entry = 0#16 := rfl
@[simp] theorem State.succeed_width (s : State) : (s.succeed).width = s.width := rfl
@[simp] theorem State.succeed_height (s : State) : (s.succeed).height = s.height := rfl
@[simp] theorem State.succeed_bitplaneCnt (s : State) : (s.succeed).bitplaneCnt = s.bitplaneCnt := rfl
@[simp] theorem State.succeed_maxUnit (s : State) : (s.succeed).maxUnit = s.maxUnit := rfl
@[simp] theorem State.succeed_brightness (s : State) : (s.succeed).brightness = s.brightness := rfl
@[simp] theorem State.succeed_double (s : State) : (s.succeed).double = s.double := rfl
@[simp] theorem State.succeed_clkdiv (s : State) : (s.succeed).clkdiv = s.clkdiv := rfl
@[simp] theorem State.succeed_fbBase (s : State) : (s.succeed).fbBase = s.fbBase := rfl
@[simp] theorem State.succeed_seglist (s : State) : (s.succeed).seglist = s.seglist := rfl
@[simp] theorem State.succeed_bpBase (s : State) : (s.succeed).bpBase = s.bpBase := rfl
@[simp] theorem State.succeed_planeSize (s : State) : (s.succeed).planeSize = s.planeSize := rfl
@[simp] theorem State.succeed_orderLen (s : State) : (s.succeed).orderLen = s.orderLen := rfl
@[simp] theorem State.succeed_ring0 (s : State) : (s.succeed).ring0 = s.ring0 := rfl
@[simp] theorem State.succeed_ring1 (s : State) : (s.succeed).ring1 = s.ring1 := rfl
@[simp] theorem State.succeed_order (s : State) : (s.succeed).order = s.order := rfl
@[simp] theorem State.succeed_consumer (s : State) : (s.succeed).consumer = s.consumer := rfl
@[simp] theorem State.succeed_cnt (s : State) : (s.succeed).cnt = s.cnt := rfl
@[simp] theorem State.succeed_inFlight (s : State) : (s.succeed).inFlight = none := rfl
@[simp] theorem State.succeed_mem (s : State) : (s.succeed).mem = s.mem := rfl
@[simp] theorem State.succeed_regions (s : State) : (s.succeed).regions = s.regions := rfl
@[simp] theorem State.succeed_starts (s : State) : (s.succeed).starts = s.starts := rfl
@[simp] theorem State.succeed_out (s : State) : (s.succeed).out = s.out := rfl
@[simp] theorem State.succeed_rdata (s : State) : (s.succeed).rdata = s.rdata := rfl
@[simp] theorem State.succeed_hostOps (s : State) : (s.succeed).hostOps = s.hostOps := rfl
@[simp] theorem State.succeed_lapGuard (s : State) : (s.succeed).lapGuard = s.lapGuard := rfl
@[simp] theorem State.succeed_allocAnswers (s : State) : (s.succeed).allocAnswers = s.allocAnswers := rfl
@[simp] theorem State.succeed_turns (s : State) : (s.succeed).turns = s.turns := rfl
@[simp] theorem State.succeed_params (s : State) : (s.succeed).params = s.params := rfl
@[simp] theorem State.succeed_draws (s : State) : (s.succeed).draws = s.draws := rfl

/-! `State.toStage` -/

@[simp] theorem State.toStage_phase (s : State) (stage : Stage) : (s.toStage stage).phase = s.phase := rfl
@[simp] theorem State.toStage_sel (s : State) (stage : Stage) : (s.toStage stage).sel = s.sel := rfl
@[simp] theorem State.toStage_ovr (s : State) (stage : Stage) : (s.toStage stage).ovr = s.ovr := rfl
@[simp] theorem State.toStage_err (s : State) (stage : Stage) : (s.toStage stage).err = s.err := rfl
@[simp] theorem State.toStage_check (s : State) (stage : Stage) : (s.toStage stage).check = s.check := rfl
@[simp] theorem State.toStage_entry (s : State) (stage : Stage) : (s.toStage stage).entry = s.entry := rfl
@[simp] theorem State.toStage_width (s : State) (stage : Stage) : (s.toStage stage).width = s.width := rfl
@[simp] theorem State.toStage_height (s : State) (stage : Stage) : (s.toStage stage).height = s.height := rfl
@[simp] theorem State.toStage_bitplaneCnt (s : State) (stage : Stage) : (s.toStage stage).bitplaneCnt = s.bitplaneCnt := rfl
@[simp] theorem State.toStage_maxUnit (s : State) (stage : Stage) : (s.toStage stage).maxUnit = s.maxUnit := rfl
@[simp] theorem State.toStage_brightness (s : State) (stage : Stage) : (s.toStage stage).brightness = s.brightness := rfl
@[simp] theorem State.toStage_double (s : State) (stage : Stage) : (s.toStage stage).double = s.double := rfl
@[simp] theorem State.toStage_clkdiv (s : State) (stage : Stage) : (s.toStage stage).clkdiv = s.clkdiv := rfl
@[simp] theorem State.toStage_fbBase (s : State) (stage : Stage) : (s.toStage stage).fbBase = s.fbBase := rfl
@[simp] theorem State.toStage_seglist (s : State) (stage : Stage) : (s.toStage stage).seglist = s.seglist := rfl
@[simp] theorem State.toStage_bpBase (s : State) (stage : Stage) : (s.toStage stage).bpBase = s.bpBase := rfl
@[simp] theorem State.toStage_planeSize (s : State) (stage : Stage) : (s.toStage stage).planeSize = s.planeSize := rfl
@[simp] theorem State.toStage_orderLen (s : State) (stage : Stage) : (s.toStage stage).orderLen = s.orderLen := rfl
@[simp] theorem State.toStage_ring0 (s : State) (stage : Stage) : (s.toStage stage).ring0 = s.ring0 := rfl
@[simp] theorem State.toStage_ring1 (s : State) (stage : Stage) : (s.toStage stage).ring1 = s.ring1 := rfl
@[simp] theorem State.toStage_order (s : State) (stage : Stage) : (s.toStage stage).order = s.order := rfl
@[simp] theorem State.toStage_consumer (s : State) (stage : Stage) : (s.toStage stage).consumer = s.consumer := rfl
@[simp] theorem State.toStage_cnt (s : State) (stage : Stage) : (s.toStage stage).cnt = s.cnt := rfl
@[simp] theorem State.toStage_inFlight (s : State) (stage : Stage) : (s.toStage stage).inFlight = s.inFlight.map fun c => { c with stage := stage } := rfl
@[simp] theorem State.toStage_mem (s : State) (stage : Stage) : (s.toStage stage).mem = s.mem := rfl
@[simp] theorem State.toStage_regions (s : State) (stage : Stage) : (s.toStage stage).regions = s.regions := rfl
@[simp] theorem State.toStage_starts (s : State) (stage : Stage) : (s.toStage stage).starts = s.starts := rfl
@[simp] theorem State.toStage_out (s : State) (stage : Stage) : (s.toStage stage).out = s.out := rfl
@[simp] theorem State.toStage_rdata (s : State) (stage : Stage) : (s.toStage stage).rdata = s.rdata := rfl
@[simp] theorem State.toStage_hostOps (s : State) (stage : Stage) : (s.toStage stage).hostOps = s.hostOps := rfl
@[simp] theorem State.toStage_lapGuard (s : State) (stage : Stage) : (s.toStage stage).lapGuard = s.lapGuard := rfl
@[simp] theorem State.toStage_allocAnswers (s : State) (stage : Stage) : (s.toStage stage).allocAnswers = s.allocAnswers := rfl
@[simp] theorem State.toStage_turns (s : State) (stage : Stage) : (s.toStage stage).turns = s.turns := rfl
@[simp] theorem State.toStage_params (s : State) (stage : Stage) : (s.toStage stage).params = s.params := rfl
@[simp] theorem State.toStage_draws (s : State) (stage : Stage) : (s.toStage stage).draws = s.draws := rfl

/-! `State.accept` -/

@[simp] theorem State.accept_phase (s : State) (w : Word) : (s.accept w).phase = s.phase := rfl
@[simp] theorem State.accept_sel (s : State) (w : Word) : (s.accept w).sel = s.sel := rfl
@[simp] theorem State.accept_ovr (s : State) (w : Word) : (s.accept w).ovr = s.ovr := rfl
@[simp] theorem State.accept_err (s : State) (w : Word) : (s.accept w).err = s.err := rfl
@[simp] theorem State.accept_check (s : State) (w : Word) : (s.accept w).check = s.check := rfl
@[simp] theorem State.accept_entry (s : State) (w : Word) : (s.accept w).entry = s.entry := rfl
@[simp] theorem State.accept_width (s : State) (w : Word) : (s.accept w).width = s.width := rfl
@[simp] theorem State.accept_height (s : State) (w : Word) : (s.accept w).height = s.height := rfl
@[simp] theorem State.accept_bitplaneCnt (s : State) (w : Word) : (s.accept w).bitplaneCnt = s.bitplaneCnt := rfl
@[simp] theorem State.accept_maxUnit (s : State) (w : Word) : (s.accept w).maxUnit = s.maxUnit := rfl
@[simp] theorem State.accept_brightness (s : State) (w : Word) : (s.accept w).brightness = s.brightness := rfl
@[simp] theorem State.accept_double (s : State) (w : Word) : (s.accept w).double = s.double := rfl
@[simp] theorem State.accept_clkdiv (s : State) (w : Word) : (s.accept w).clkdiv = s.clkdiv := rfl
@[simp] theorem State.accept_fbBase (s : State) (w : Word) : (s.accept w).fbBase = s.fbBase := rfl
@[simp] theorem State.accept_seglist (s : State) (w : Word) : (s.accept w).seglist = s.seglist := rfl
@[simp] theorem State.accept_bpBase (s : State) (w : Word) : (s.accept w).bpBase = s.bpBase := rfl
@[simp] theorem State.accept_planeSize (s : State) (w : Word) : (s.accept w).planeSize = s.planeSize := rfl
@[simp] theorem State.accept_orderLen (s : State) (w : Word) : (s.accept w).orderLen = s.orderLen := rfl
@[simp] theorem State.accept_ring0 (s : State) (w : Word) : (s.accept w).ring0 = s.ring0 := rfl
@[simp] theorem State.accept_ring1 (s : State) (w : Word) : (s.accept w).ring1 = s.ring1 := rfl
@[simp] theorem State.accept_order (s : State) (w : Word) : (s.accept w).order = s.order := rfl
@[simp] theorem State.accept_consumer (s : State) (w : Word) : (s.accept w).consumer = s.consumer := rfl
@[simp] theorem State.accept_cnt (s : State) (w : Word) : (s.accept w).cnt = s.cnt := rfl
@[simp] theorem State.accept_inFlight (s : State) (w : Word) : (s.accept w).inFlight = some { word := w, fbBase := s.fbBase, seglist := s.seglist, clkdiv := s.clkdiv, stage := .begin } := rfl
@[simp] theorem State.accept_mem (s : State) (w : Word) : (s.accept w).mem = s.mem := rfl
@[simp] theorem State.accept_regions (s : State) (w : Word) : (s.accept w).regions = s.regions := rfl
@[simp] theorem State.accept_starts (s : State) (w : Word) : (s.accept w).starts = s.starts := rfl
@[simp] theorem State.accept_out (s : State) (w : Word) : (s.accept w).out = s.out := rfl
@[simp] theorem State.accept_rdata (s : State) (w : Word) : (s.accept w).rdata = s.rdata := rfl
@[simp] theorem State.accept_hostOps (s : State) (w : Word) : (s.accept w).hostOps = s.hostOps := rfl
@[simp] theorem State.accept_lapGuard (s : State) (w : Word) : (s.accept w).lapGuard = s.lapGuard := rfl
@[simp] theorem State.accept_allocAnswers (s : State) (w : Word) : (s.accept w).allocAnswers = s.allocAnswers := rfl
@[simp] theorem State.accept_turns (s : State) (w : Word) : (s.accept w).turns = s.turns := rfl
@[simp] theorem State.accept_params (s : State) (w : Word) : (s.accept w).params = s.params := rfl
@[simp] theorem State.accept_draws (s : State) (w : Word) : (s.accept w).draws = s.draws := rfl

/-! `State.runSched` -/

@[simp] theorem State.runSched_phase (s : State) : (s.runSched).phase = s.phase := rfl
@[simp] theorem State.runSched_sel (s : State) : (s.runSched).sel = s.sel := rfl
@[simp] theorem State.runSched_ovr (s : State) : (s.runSched).ovr = s.ovr := rfl
@[simp] theorem State.runSched_err (s : State) : (s.runSched).err = s.err := rfl
@[simp] theorem State.runSched_check (s : State) : (s.runSched).check = s.check := rfl
@[simp] theorem State.runSched_entry (s : State) : (s.runSched).entry = s.entry := rfl
@[simp] theorem State.runSched_width (s : State) : (s.runSched).width = s.width := rfl
@[simp] theorem State.runSched_height (s : State) : (s.runSched).height = s.height := rfl
@[simp] theorem State.runSched_bitplaneCnt (s : State) : (s.runSched).bitplaneCnt = s.bitplaneCnt := rfl
@[simp] theorem State.runSched_maxUnit (s : State) : (s.runSched).maxUnit = s.maxUnit := rfl
@[simp] theorem State.runSched_brightness (s : State) : (s.runSched).brightness = s.brightness := rfl
@[simp] theorem State.runSched_double (s : State) : (s.runSched).double = s.double := rfl
@[simp] theorem State.runSched_clkdiv (s : State) : (s.runSched).clkdiv = s.clkdiv := rfl
@[simp] theorem State.runSched_fbBase (s : State) : (s.runSched).fbBase = s.fbBase := rfl
@[simp] theorem State.runSched_seglist (s : State) : (s.runSched).seglist = s.seglist := rfl
@[simp] theorem State.runSched_bpBase (s : State) : (s.runSched).bpBase = s.bpBase := rfl
@[simp] theorem State.runSched_planeSize (s : State) : (s.runSched).planeSize = s.planeSize := rfl
@[simp] theorem State.runSched_orderLen (s : State) : (s.runSched).orderLen = BitVec.ofNat 8 (orderLength s.planes) := rfl
@[simp] theorem State.runSched_ring0 (s : State) : (s.runSched).ring0 = s.ring0 := rfl
@[simp] theorem State.runSched_ring1 (s : State) : (s.runSched).ring1 = s.ring1 := rfl
@[simp] theorem State.runSched_order (s : State) : (s.runSched).order = orderTable s.planes := rfl
@[simp] theorem State.runSched_consumer (s : State) : (s.runSched).consumer = s.consumer := rfl
@[simp] theorem State.runSched_cnt (s : State) : (s.runSched).cnt = countTable s.planes s.cnt := rfl
@[simp] theorem State.runSched_inFlight (s : State) : (s.runSched).inFlight = s.inFlight := rfl
@[simp] theorem State.runSched_mem (s : State) : (s.runSched).mem = s.mem := rfl
@[simp] theorem State.runSched_regions (s : State) : (s.runSched).regions = s.regions := rfl
@[simp] theorem State.runSched_starts (s : State) : (s.runSched).starts = s.starts := rfl
@[simp] theorem State.runSched_out (s : State) : (s.runSched).out = s.out := rfl
@[simp] theorem State.runSched_rdata (s : State) : (s.runSched).rdata = s.rdata := rfl
@[simp] theorem State.runSched_hostOps (s : State) : (s.runSched).hostOps = s.hostOps := rfl
@[simp] theorem State.runSched_lapGuard (s : State) : (s.runSched).lapGuard = s.lapGuard := rfl
@[simp] theorem State.runSched_allocAnswers (s : State) : (s.runSched).allocAnswers = s.allocAnswers := rfl
@[simp] theorem State.runSched_turns (s : State) : (s.runSched).turns = s.turns := rfl
@[simp] theorem State.runSched_params (s : State) : (s.runSched).params = s.params := rfl
@[simp] theorem State.runSched_draws (s : State) : (s.runSched).draws = s.draws := rfl

/-! `State.beginSetup` -/

@[simp] theorem State.beginSetup_phase (s : State) : (s.beginSetup).phase = s.phase := rfl
@[simp] theorem State.beginSetup_sel (s : State) : (s.beginSetup).sel = s.sel := rfl
@[simp] theorem State.beginSetup_ovr (s : State) : (s.beginSetup).ovr = s.ovr := rfl
@[simp] theorem State.beginSetup_err (s : State) : (s.beginSetup).err = s.err := rfl
@[simp] theorem State.beginSetup_check (s : State) : (s.beginSetup).check = s.check := rfl
@[simp] theorem State.beginSetup_entry (s : State) : (s.beginSetup).entry = s.entry := rfl
@[simp] theorem State.beginSetup_width (s : State) : (s.beginSetup).width = s.width := rfl
@[simp] theorem State.beginSetup_height (s : State) : (s.beginSetup).height = s.height := rfl
@[simp] theorem State.beginSetup_bitplaneCnt (s : State) : (s.beginSetup).bitplaneCnt = s.bitplaneCnt := rfl
@[simp] theorem State.beginSetup_maxUnit (s : State) : (s.beginSetup).maxUnit = s.maxUnit := rfl
@[simp] theorem State.beginSetup_brightness (s : State) : (s.beginSetup).brightness = s.brightness := rfl
@[simp] theorem State.beginSetup_double (s : State) : (s.beginSetup).double = s.double := rfl
@[simp] theorem State.beginSetup_clkdiv (s : State) : (s.beginSetup).clkdiv = s.clkdiv := rfl
@[simp] theorem State.beginSetup_fbBase (s : State) : (s.beginSetup).fbBase = s.fbBase := rfl
@[simp] theorem State.beginSetup_seglist (s : State) : (s.beginSetup).seglist = s.seglist := rfl
@[simp] theorem State.beginSetup_bpBase (s : State) : (s.beginSetup).bpBase = s.bpBase := rfl
@[simp] theorem State.beginSetup_planeSize (s : State) : (s.beginSetup).planeSize = BitVec.ofNat 32 s.planeBytes := rfl
@[simp] theorem State.beginSetup_orderLen (s : State) : (s.beginSetup).orderLen = BitVec.ofNat 8 (orderLength s.planes) := rfl
@[simp] theorem State.beginSetup_ring0 (s : State) : (s.beginSetup).ring0 = s.ring0 := rfl
@[simp] theorem State.beginSetup_ring1 (s : State) : (s.beginSetup).ring1 = s.ring1 := rfl
@[simp] theorem State.beginSetup_order (s : State) : (s.beginSetup).order = orderTable s.planes := rfl
@[simp] theorem State.beginSetup_consumer (s : State) : (s.beginSetup).consumer = s.consumer := rfl
@[simp] theorem State.beginSetup_cnt (s : State) : (s.beginSetup).cnt = countTable s.planes s.cnt := rfl
@[simp] theorem State.beginSetup_inFlight (s : State) : (s.beginSetup).inFlight = s.inFlight := rfl
@[simp] theorem State.beginSetup_mem (s : State) : (s.beginSetup).mem = s.mem := rfl
@[simp] theorem State.beginSetup_regions (s : State) : (s.beginSetup).regions = s.regions := rfl
@[simp] theorem State.beginSetup_starts (s : State) : (s.beginSetup).starts = s.starts := rfl
@[simp] theorem State.beginSetup_out (s : State) : (s.beginSetup).out = s.out := rfl
@[simp] theorem State.beginSetup_rdata (s : State) : (s.beginSetup).rdata = s.rdata := rfl
@[simp] theorem State.beginSetup_hostOps (s : State) : (s.beginSetup).hostOps = s.hostOps := rfl
@[simp] theorem State.beginSetup_lapGuard (s : State) : (s.beginSetup).lapGuard = s.lapGuard := rfl
@[simp] theorem State.beginSetup_allocAnswers (s : State) : (s.beginSetup).allocAnswers = s.allocAnswers := rfl
@[simp] theorem State.beginSetup_turns (s : State) : (s.beginSetup).turns = s.turns := rfl
@[simp] theorem State.beginSetup_params (s : State) : (s.beginSetup).params = s.params := rfl
@[simp] theorem State.beginSetup_draws (s : State) : (s.beginSetup).draws = s.draws := rfl

/-! `State.periphStart` -/

@[simp] theorem State.periphStart_phase (s : State) (head : Word) (width : Nat) (div : Word) : (s.periphStart head width div).phase = s.phase := rfl
@[simp] theorem State.periphStart_sel (s : State) (head : Word) (width : Nat) (div : Word) : (s.periphStart head width div).sel = s.sel := rfl
@[simp] theorem State.periphStart_ovr (s : State) (head : Word) (width : Nat) (div : Word) : (s.periphStart head width div).ovr = s.ovr := rfl
@[simp] theorem State.periphStart_err (s : State) (head : Word) (width : Nat) (div : Word) : (s.periphStart head width div).err = s.err := rfl
@[simp] theorem State.periphStart_check (s : State) (head : Word) (width : Nat) (div : Word) : (s.periphStart head width div).check = s.check := rfl
@[simp] theorem State.periphStart_entry (s : State) (head : Word) (width : Nat) (div : Word) : (s.periphStart head width div).entry = s.entry := rfl
@[simp] theorem State.periphStart_width (s : State) (head : Word) (width : Nat) (div : Word) : (s.periphStart head width div).width = s.width := rfl
@[simp] theorem State.periphStart_height (s : State) (head : Word) (width : Nat) (div : Word) : (s.periphStart head width div).height = s.height := rfl
@[simp] theorem State.periphStart_bitplaneCnt (s : State) (head : Word) (width : Nat) (div : Word) : (s.periphStart head width div).bitplaneCnt = s.bitplaneCnt := rfl
@[simp] theorem State.periphStart_maxUnit (s : State) (head : Word) (width : Nat) (div : Word) : (s.periphStart head width div).maxUnit = s.maxUnit := rfl
@[simp] theorem State.periphStart_brightness (s : State) (head : Word) (width : Nat) (div : Word) : (s.periphStart head width div).brightness = s.brightness := rfl
@[simp] theorem State.periphStart_double (s : State) (head : Word) (width : Nat) (div : Word) : (s.periphStart head width div).double = s.double := rfl
@[simp] theorem State.periphStart_clkdiv (s : State) (head : Word) (width : Nat) (div : Word) : (s.periphStart head width div).clkdiv = s.clkdiv := rfl
@[simp] theorem State.periphStart_fbBase (s : State) (head : Word) (width : Nat) (div : Word) : (s.periphStart head width div).fbBase = s.fbBase := rfl
@[simp] theorem State.periphStart_seglist (s : State) (head : Word) (width : Nat) (div : Word) : (s.periphStart head width div).seglist = s.seglist := rfl
@[simp] theorem State.periphStart_bpBase (s : State) (head : Word) (width : Nat) (div : Word) : (s.periphStart head width div).bpBase = s.bpBase := rfl
@[simp] theorem State.periphStart_planeSize (s : State) (head : Word) (width : Nat) (div : Word) : (s.periphStart head width div).planeSize = s.planeSize := rfl
@[simp] theorem State.periphStart_orderLen (s : State) (head : Word) (width : Nat) (div : Word) : (s.periphStart head width div).orderLen = s.orderLen := rfl
@[simp] theorem State.periphStart_ring0 (s : State) (head : Word) (width : Nat) (div : Word) : (s.periphStart head width div).ring0 = s.ring0 := rfl
@[simp] theorem State.periphStart_ring1 (s : State) (head : Word) (width : Nat) (div : Word) : (s.periphStart head width div).ring1 = s.ring1 := rfl
@[simp] theorem State.periphStart_order (s : State) (head : Word) (width : Nat) (div : Word) : (s.periphStart head width div).order = s.order := rfl
@[simp] theorem State.periphStart_consumer (s : State) (head : Word) (width : Nat) (div : Word) : (s.periphStart head width div).consumer = { run := true, cur := head, off := 0, link := none, visit := .arriving } := rfl
@[simp] theorem State.periphStart_cnt (s : State) (head : Word) (width : Nat) (div : Word) : (s.periphStart head width div).cnt = s.cnt := rfl
@[simp] theorem State.periphStart_inFlight (s : State) (head : Word) (width : Nat) (div : Word) : (s.periphStart head width div).inFlight = s.inFlight := rfl
@[simp] theorem State.periphStart_mem (s : State) (head : Word) (width : Nat) (div : Word) : (s.periphStart head width div).mem = s.mem := rfl
@[simp] theorem State.periphStart_regions (s : State) (head : Word) (width : Nat) (div : Word) : (s.periphStart head width div).regions = s.regions := rfl
@[simp] theorem State.periphStart_starts (s : State) (head : Word) (width : Nat) (div : Word) : (s.periphStart head width div).starts = s.starts ++ [{ head := head, width := width, div := div }] := rfl
@[simp] theorem State.periphStart_out (s : State) (head : Word) (width : Nat) (div : Word) : (s.periphStart head width div).out = s.out := rfl
@[simp] theorem State.periphStart_rdata (s : State) (head : Word) (width : Nat) (div : Word) : (s.periphStart head width div).rdata = s.rdata := rfl
@[simp] theorem State.periphStart_hostOps (s : State) (head : Word) (width : Nat) (div : Word) : (s.periphStart head width div).hostOps = s.hostOps := rfl
@[simp] theorem State.periphStart_lapGuard (s : State) (head : Word) (width : Nat) (div : Word) : (s.periphStart head width div).lapGuard = s.lapGuard := rfl
@[simp] theorem State.periphStart_allocAnswers (s : State) (head : Word) (width : Nat) (div : Word) : (s.periphStart head width div).allocAnswers = s.allocAnswers := rfl
@[simp] theorem State.periphStart_turns (s : State) (head : Word) (width : Nat) (div : Word) : (s.periphStart head width div).turns = s.turns := rfl
@[simp] theorem State.periphStart_params (s : State) (head : Word) (width : Nat) (div : Word) : (s.periphStart head width div).params = s.params := rfl
@[simp] theorem State.periphStart_draws (s : State) (head : Word) (width : Nat) (div : Word) : (s.periphStart head width div).draws = s.draws := rfl

/-! `State.overrun` -/

@[simp] theorem State.overrun_phase (s : State) : (s.overrun).phase = s.phase := rfl
@[simp] theorem State.overrun_sel (s : State) : (s.overrun).sel = s.sel := rfl
@[simp] theorem State.overrun_ovr (s : State) : (s.overrun).ovr = true := rfl
@[simp] theorem State.overrun_err (s : State) : (s.overrun).err = s.err := rfl
@[simp] theorem State.overrun_check (s : State) : (s.overrun).check = s.check := rfl
@[simp] theorem State.overrun_entry (s : State) : (s.overrun).entry = s.entry := rfl
@[simp] theorem State.overrun_width (s : State) : (s.overrun).width = s.width := rfl
@[simp] theorem State.overrun_height (s : State) : (s.overrun).height = s.height := rfl
@[simp] theorem State.overrun_bitplaneCnt (s : State) : (s.overrun).bitplaneCnt = s.bitplaneCnt := rfl
@[simp] theorem State.overrun_maxUnit (s : State) : (s.overrun).maxUnit = s.maxUnit := rfl
@[simp] theorem State.overrun_brightness (s : State) : (s.overrun).brightness = s.brightness := rfl
@[simp] theorem State.overrun_double (s : State) : (s.overrun).double = s.double := rfl
@[simp] theorem State.overrun_clkdiv (s : State) : (s.overrun).clkdiv = s.clkdiv := rfl
@[simp] theorem State.overrun_fbBase (s : State) : (s.overrun).fbBase = s.fbBase := rfl
@[simp] theorem State.overrun_seglist (s : State) : (s.overrun).seglist = s.seglist := rfl
@[simp] theorem State.overrun_bpBase (s : State) : (s.overrun).bpBase = s.bpBase := rfl
@[simp] theorem State.overrun_planeSize (s : State) : (s.overrun).planeSize = s.planeSize := rfl
@[simp] theorem State.overrun_orderLen (s : State) : (s.overrun).orderLen = s.orderLen := rfl
@[simp] theorem State.overrun_ring0 (s : State) : (s.overrun).ring0 = s.ring0 := rfl
@[simp] theorem State.overrun_ring1 (s : State) : (s.overrun).ring1 = s.ring1 := rfl
@[simp] theorem State.overrun_order (s : State) : (s.overrun).order = s.order := rfl
@[simp] theorem State.overrun_consumer (s : State) : (s.overrun).consumer = s.consumer := rfl
@[simp] theorem State.overrun_cnt (s : State) : (s.overrun).cnt = s.cnt := rfl
@[simp] theorem State.overrun_inFlight (s : State) : (s.overrun).inFlight = s.inFlight := rfl
@[simp] theorem State.overrun_mem (s : State) : (s.overrun).mem = s.mem := rfl
@[simp] theorem State.overrun_regions (s : State) : (s.overrun).regions = s.regions := rfl
@[simp] theorem State.overrun_starts (s : State) : (s.overrun).starts = s.starts := rfl
@[simp] theorem State.overrun_out (s : State) : (s.overrun).out = s.out := rfl
@[simp] theorem State.overrun_rdata (s : State) : (s.overrun).rdata = s.rdata := rfl
@[simp] theorem State.overrun_hostOps (s : State) : (s.overrun).hostOps = s.hostOps := rfl
@[simp] theorem State.overrun_lapGuard (s : State) : (s.overrun).lapGuard = s.lapGuard := rfl
@[simp] theorem State.overrun_allocAnswers (s : State) : (s.overrun).allocAnswers = s.allocAnswers := rfl
@[simp] theorem State.overrun_turns (s : State) : (s.overrun).turns = s.turns := rfl
@[simp] theorem State.overrun_params (s : State) : (s.overrun).params = s.params := rfl
@[simp] theorem State.overrun_draws (s : State) : (s.overrun).draws = s.draws := rfl

/-! `State.popHostOp` -/

@[simp] theorem State.popHostOp_phase (s : State) : (s.popHostOp).phase = s.phase := rfl
@[simp] theorem State.popHostOp_sel (s : State) : (s.popHostOp).sel = s.sel := rfl
@[simp] theorem State.popHostOp_ovr (s : State) : (s.popHostOp).ovr = s.ovr := rfl
@[simp] theorem State.popHostOp_err (s : State) : (s.popHostOp).err = s.err := rfl
@[simp] theorem State.popHostOp_check (s : State) : (s.popHostOp).check = s.check := rfl
@[simp] theorem State.popHostOp_entry (s : State) : (s.popHostOp).entry = s.entry := rfl
@[simp] theorem State.popHostOp_width (s : State) : (s.popHostOp).width = s.width := rfl
@[simp] theorem State.popHostOp_height (s : State) : (s.popHostOp).height = s.height := rfl
@[simp] theorem State.popHostOp_bitplaneCnt (s : State) : (s.popHostOp).bitplaneCnt = s.bitplaneCnt := rfl
@[simp] theorem State.popHostOp_maxUnit (s : State) : (s.popHostOp).maxUnit = s.maxUnit := rfl
@[simp] theorem State.popHostOp_brightness (s : State) : (s.popHostOp).brightness = s.brightness := rfl
@[simp] theorem State.popHostOp_double (s : State) : (s.popHostOp).double = s.double := rfl
@[simp] theorem State.popHostOp_clkdiv (s : State) : (s.popHostOp).clkdiv = s.clkdiv := rfl
@[simp] theorem State.popHostOp_fbBase (s : State) : (s.popHostOp).fbBase = s.fbBase := rfl
@[simp] theorem State.popHostOp_seglist (s : State) : (s.popHostOp).seglist = s.seglist := rfl
@[simp] theorem State.popHostOp_bpBase (s : State) : (s.popHostOp).bpBase = s.bpBase := rfl
@[simp] theorem State.popHostOp_planeSize (s : State) : (s.popHostOp).planeSize = s.planeSize := rfl
@[simp] theorem State.popHostOp_orderLen (s : State) : (s.popHostOp).orderLen = s.orderLen := rfl
@[simp] theorem State.popHostOp_ring0 (s : State) : (s.popHostOp).ring0 = s.ring0 := rfl
@[simp] theorem State.popHostOp_ring1 (s : State) : (s.popHostOp).ring1 = s.ring1 := rfl
@[simp] theorem State.popHostOp_order (s : State) : (s.popHostOp).order = s.order := rfl
@[simp] theorem State.popHostOp_consumer (s : State) : (s.popHostOp).consumer = s.consumer := rfl
@[simp] theorem State.popHostOp_cnt (s : State) : (s.popHostOp).cnt = s.cnt := rfl
@[simp] theorem State.popHostOp_inFlight (s : State) : (s.popHostOp).inFlight = s.inFlight := rfl
@[simp] theorem State.popHostOp_mem (s : State) : (s.popHostOp).mem = s.mem := rfl
@[simp] theorem State.popHostOp_regions (s : State) : (s.popHostOp).regions = s.regions := rfl
@[simp] theorem State.popHostOp_starts (s : State) : (s.popHostOp).starts = s.starts := rfl
@[simp] theorem State.popHostOp_out (s : State) : (s.popHostOp).out = s.out := rfl
@[simp] theorem State.popHostOp_rdata (s : State) : (s.popHostOp).rdata = s.rdata := rfl
@[simp] theorem State.popHostOp_hostOps (s : State) : (s.popHostOp).hostOps = s.hostOps.drop 1 := rfl
@[simp] theorem State.popHostOp_lapGuard (s : State) : (s.popHostOp).lapGuard = s.lapGuard := rfl
@[simp] theorem State.popHostOp_allocAnswers (s : State) : (s.popHostOp).allocAnswers = s.allocAnswers := rfl
@[simp] theorem State.popHostOp_turns (s : State) : (s.popHostOp).turns = s.turns := rfl
@[simp] theorem State.popHostOp_params (s : State) : (s.popHostOp).params = s.params := rfl
@[simp] theorem State.popHostOp_draws (s : State) : (s.popHostOp).draws = s.draws := rfl

/-! `State.latched` -/

@[simp] theorem State.latched_phase (s : State) (c : InFlight) : (s.latched c).phase = s.phase := rfl
@[simp] theorem State.latched_sel (s : State) (c : InFlight) : (s.latched c).sel = s.sel := rfl
@[simp] theorem State.latched_ovr (s : State) (c : InFlight) : (s.latched c).ovr = s.ovr := rfl
@[simp] theorem State.latched_err (s : State) (c : InFlight) : (s.latched c).err = s.err := rfl
@[simp] theorem State.latched_check (s : State) (c : InFlight) : (s.latched c).check = s.check := rfl
@[simp] theorem State.latched_entry (s : State) (c : InFlight) : (s.latched c).entry = s.entry := rfl
@[simp] theorem State.latched_width (s : State) (c : InFlight) : (s.latched c).width = s.width := rfl
@[simp] theorem State.latched_height (s : State) (c : InFlight) : (s.latched c).height = s.height := rfl
@[simp] theorem State.latched_bitplaneCnt (s : State) (c : InFlight) : (s.latched c).bitplaneCnt = s.bitplaneCnt := rfl
@[simp] theorem State.latched_maxUnit (s : State) (c : InFlight) : (s.latched c).maxUnit = s.maxUnit := rfl
@[simp] theorem State.latched_brightness (s : State) (c : InFlight) : (s.latched c).brightness = s.brightness := rfl
@[simp] theorem State.latched_double (s : State) (c : InFlight) : (s.latched c).double = s.double := rfl
@[simp] theorem State.latched_clkdiv (s : State) (c : InFlight) : (s.latched c).clkdiv = c.clkdiv := rfl
@[simp] theorem State.latched_fbBase (s : State) (c : InFlight) : (s.latched c).fbBase = c.fbBase := rfl
@[simp] theorem State.latched_seglist (s : State) (c : InFlight) : (s.latched c).seglist = c.seglist := rfl
@[simp] theorem State.latched_bpBase (s : State) (c : InFlight) : (s.latched c).bpBase = s.bpBase := rfl
@[simp] theorem State.latched_planeSize (s : State) (c : InFlight) : (s.latched c).planeSize = s.planeSize := rfl
@[simp] theorem State.latched_orderLen (s : State) (c : InFlight) : (s.latched c).orderLen = s.orderLen := rfl
@[simp] theorem State.latched_ring0 (s : State) (c : InFlight) : (s.latched c).ring0 = s.ring0 := rfl
@[simp] theorem State.latched_ring1 (s : State) (c : InFlight) : (s.latched c).ring1 = s.ring1 := rfl
@[simp] theorem State.latched_order (s : State) (c : InFlight) : (s.latched c).order = s.order := rfl
@[simp] theorem State.latched_consumer (s : State) (c : InFlight) : (s.latched c).consumer = s.consumer := rfl
@[simp] theorem State.latched_cnt (s : State) (c : InFlight) : (s.latched c).cnt = s.cnt := rfl
@[simp] theorem State.latched_inFlight (s : State) (c : InFlight) : (s.latched c).inFlight = s.inFlight := rfl
@[simp] theorem State.latched_mem (s : State) (c : InFlight) : (s.latched c).mem = s.mem := rfl
@[simp] theorem State.latched_regions (s : State) (c : InFlight) : (s.latched c).regions = s.regions := rfl
@[simp] theorem State.latched_starts (s : State) (c : InFlight) : (s.latched c).starts = s.starts := rfl
@[simp] theorem State.latched_out (s : State) (c : InFlight) : (s.latched c).out = s.out := rfl
@[simp] theorem State.latched_rdata (s : State) (c : InFlight) : (s.latched c).rdata = s.rdata := rfl
@[simp] theorem State.latched_hostOps (s : State) (c : InFlight) : (s.latched c).hostOps = s.hostOps := rfl
@[simp] theorem State.latched_lapGuard (s : State) (c : InFlight) : (s.latched c).lapGuard = s.lapGuard := rfl
@[simp] theorem State.latched_allocAnswers (s : State) (c : InFlight) : (s.latched c).allocAnswers = s.allocAnswers := rfl
@[simp] theorem State.latched_turns (s : State) (c : InFlight) : (s.latched c).turns = s.turns := rfl
@[simp] theorem State.latched_params (s : State) (c : InFlight) : (s.latched c).params = s.params := rfl
@[simp] theorem State.latched_draws (s : State) (c : InFlight) : (s.latched c).draws = s.draws := rfl

/-! `State.finishSetup` -/

@[simp] theorem State.finishSetup_phase (s : State) : (s.finishSetup).phase = .ready := rfl
@[simp] theorem State.finishSetup_sel (s : State) : (s.finishSetup).sel = .zero := rfl
@[simp] theorem State.finishSetup_ovr (s : State) : (s.finishSetup).ovr = s.ovr := rfl
@[simp] theorem State.finishSetup_err (s : State) : (s.finishSetup).err = .ok := rfl
@[simp] theorem State.finishSetup_check (s : State) : (s.finishSetup).check = 0#8 := rfl
@[simp] theorem State.finishSetup_entry (s : State) : (s.finishSetup).entry = 0#16 := rfl
@[simp] theorem State.finishSetup_width (s : State) : (s.finishSetup).width = s.width := rfl
@[simp] theorem State.finishSetup_height (s : State) : (s.finishSetup).height = s.height := rfl
@[simp] theorem State.finishSetup_bitplaneCnt (s : State) : (s.finishSetup).bitplaneCnt = s.bitplaneCnt := rfl
@[simp] theorem State.finishSetup_maxUnit (s : State) : (s.finishSetup).maxUnit = s.maxUnit := rfl
@[simp] theorem State.finishSetup_brightness (s : State) : (s.finishSetup).brightness = s.brightness := rfl
@[simp] theorem State.finishSetup_double (s : State) : (s.finishSetup).double = s.double := rfl
@[simp] theorem State.finishSetup_clkdiv (s : State) : (s.finishSetup).clkdiv = s.clkdiv := rfl
@[simp] theorem State.finishSetup_fbBase (s : State) : (s.finishSetup).fbBase = s.fbBase := rfl
@[simp] theorem State.finishSetup_seglist (s : State) : (s.finishSetup).seglist = s.seglist := rfl
@[simp] theorem State.finishSetup_bpBase (s : State) : (s.finishSetup).bpBase = s.bpBase := rfl
@[simp] theorem State.finishSetup_planeSize (s : State) : (s.finishSetup).planeSize = s.planeSize := rfl
@[simp] theorem State.finishSetup_orderLen (s : State) : (s.finishSetup).orderLen = s.orderLen := rfl
@[simp] theorem State.finishSetup_ring0 (s : State) : (s.finishSetup).ring0 = s.ring0 := rfl
@[simp] theorem State.finishSetup_ring1 (s : State) : (s.finishSetup).ring1 = s.ring1 := rfl
@[simp] theorem State.finishSetup_order (s : State) : (s.finishSetup).order = s.order := rfl
@[simp] theorem State.finishSetup_consumer (s : State) : (s.finishSetup).consumer = s.consumer := rfl
@[simp] theorem State.finishSetup_cnt (s : State) : (s.finishSetup).cnt = s.cnt := rfl
@[simp] theorem State.finishSetup_inFlight (s : State) : (s.finishSetup).inFlight = none := rfl
@[simp] theorem State.finishSetup_mem (s : State) : (s.finishSetup).mem = s.mem := rfl
@[simp] theorem State.finishSetup_regions (s : State) : (s.finishSetup).regions = s.regions := rfl
@[simp] theorem State.finishSetup_starts (s : State) : (s.finishSetup).starts = s.starts := rfl
@[simp] theorem State.finishSetup_out (s : State) : (s.finishSetup).out = s.out := rfl
@[simp] theorem State.finishSetup_rdata (s : State) : (s.finishSetup).rdata = s.rdata := rfl
@[simp] theorem State.finishSetup_hostOps (s : State) : (s.finishSetup).hostOps = s.hostOps := rfl
@[simp] theorem State.finishSetup_lapGuard (s : State) : (s.finishSetup).lapGuard = s.lapGuard := rfl
@[simp] theorem State.finishSetup_allocAnswers (s : State) : (s.finishSetup).allocAnswers = s.allocAnswers := rfl
@[simp] theorem State.finishSetup_turns (s : State) : (s.finishSetup).turns = s.turns := rfl
@[simp] theorem State.finishSetup_params (s : State) : (s.finishSetup).params = s.params := rfl
@[simp] theorem State.finishSetup_draws (s : State) : (s.finishSetup).draws = s.draws := rfl

/-! `State.finishActivate` -/

@[simp] theorem State.finishActivate_phase (s : State) (slot : Slot) : (s.finishActivate slot).phase = s.phase := rfl
@[simp] theorem State.finishActivate_sel (s : State) (slot : Slot) : (s.finishActivate slot).sel = slot := rfl
@[simp] theorem State.finishActivate_ovr (s : State) (slot : Slot) : (s.finishActivate slot).ovr = s.ovr := rfl
@[simp] theorem State.finishActivate_err (s : State) (slot : Slot) : (s.finishActivate slot).err = .ok := rfl
@[simp] theorem State.finishActivate_check (s : State) (slot : Slot) : (s.finishActivate slot).check = 0#8 := rfl
@[simp] theorem State.finishActivate_entry (s : State) (slot : Slot) : (s.finishActivate slot).entry = 0#16 := rfl
@[simp] theorem State.finishActivate_width (s : State) (slot : Slot) : (s.finishActivate slot).width = s.width := rfl
@[simp] theorem State.finishActivate_height (s : State) (slot : Slot) : (s.finishActivate slot).height = s.height := rfl
@[simp] theorem State.finishActivate_bitplaneCnt (s : State) (slot : Slot) : (s.finishActivate slot).bitplaneCnt = s.bitplaneCnt := rfl
@[simp] theorem State.finishActivate_maxUnit (s : State) (slot : Slot) : (s.finishActivate slot).maxUnit = s.maxUnit := rfl
@[simp] theorem State.finishActivate_brightness (s : State) (slot : Slot) : (s.finishActivate slot).brightness = s.brightness := rfl
@[simp] theorem State.finishActivate_double (s : State) (slot : Slot) : (s.finishActivate slot).double = s.double := rfl
@[simp] theorem State.finishActivate_clkdiv (s : State) (slot : Slot) : (s.finishActivate slot).clkdiv = s.clkdiv := rfl
@[simp] theorem State.finishActivate_fbBase (s : State) (slot : Slot) : (s.finishActivate slot).fbBase = s.fbBase := rfl
@[simp] theorem State.finishActivate_seglist (s : State) (slot : Slot) : (s.finishActivate slot).seglist = s.seglist := rfl
@[simp] theorem State.finishActivate_bpBase (s : State) (slot : Slot) : (s.finishActivate slot).bpBase = s.bpBase := rfl
@[simp] theorem State.finishActivate_planeSize (s : State) (slot : Slot) : (s.finishActivate slot).planeSize = s.planeSize := rfl
@[simp] theorem State.finishActivate_orderLen (s : State) (slot : Slot) : (s.finishActivate slot).orderLen = s.orderLen := rfl
@[simp] theorem State.finishActivate_ring0 (s : State) (slot : Slot) : (s.finishActivate slot).ring0 = s.ring0 := rfl
@[simp] theorem State.finishActivate_ring1 (s : State) (slot : Slot) : (s.finishActivate slot).ring1 = s.ring1 := rfl
@[simp] theorem State.finishActivate_order (s : State) (slot : Slot) : (s.finishActivate slot).order = s.order := rfl
@[simp] theorem State.finishActivate_consumer (s : State) (slot : Slot) : (s.finishActivate slot).consumer = s.consumer := rfl
@[simp] theorem State.finishActivate_cnt (s : State) (slot : Slot) : (s.finishActivate slot).cnt = s.cnt := rfl
@[simp] theorem State.finishActivate_inFlight (s : State) (slot : Slot) : (s.finishActivate slot).inFlight = none := rfl
@[simp] theorem State.finishActivate_mem (s : State) (slot : Slot) : (s.finishActivate slot).mem = s.mem := rfl
@[simp] theorem State.finishActivate_regions (s : State) (slot : Slot) : (s.finishActivate slot).regions = s.regions := rfl
@[simp] theorem State.finishActivate_starts (s : State) (slot : Slot) : (s.finishActivate slot).starts = s.starts := rfl
@[simp] theorem State.finishActivate_out (s : State) (slot : Slot) : (s.finishActivate slot).out = s.out := rfl
@[simp] theorem State.finishActivate_rdata (s : State) (slot : Slot) : (s.finishActivate slot).rdata = s.rdata := rfl
@[simp] theorem State.finishActivate_hostOps (s : State) (slot : Slot) : (s.finishActivate slot).hostOps = s.hostOps := rfl
@[simp] theorem State.finishActivate_lapGuard (s : State) (slot : Slot) : (s.finishActivate slot).lapGuard = s.guardAfterFlip slot := rfl
@[simp] theorem State.finishActivate_allocAnswers (s : State) (slot : Slot) : (s.finishActivate slot).allocAnswers = s.allocAnswers := rfl
@[simp] theorem State.finishActivate_turns (s : State) (slot : Slot) : (s.finishActivate slot).turns = s.turns := rfl
@[simp] theorem State.finishActivate_params (s : State) (slot : Slot) : (s.finishActivate slot).params = s.params := rfl
@[simp] theorem State.finishActivate_draws (s : State) (slot : Slot) : (s.finishActivate slot).draws = s.draws := rfl

/-! `State.finishStart` -/

@[simp] theorem State.finishStart_phase (s : State) (slot : Slot) (div : Word) : (s.finishStart slot div).phase = .running := rfl
@[simp] theorem State.finishStart_sel (s : State) (slot : Slot) (div : Word) : (s.finishStart slot div).sel = slot := rfl
@[simp] theorem State.finishStart_ovr (s : State) (slot : Slot) (div : Word) : (s.finishStart slot div).ovr = s.ovr := rfl
@[simp] theorem State.finishStart_err (s : State) (slot : Slot) (div : Word) : (s.finishStart slot div).err = .ok := rfl
@[simp] theorem State.finishStart_check (s : State) (slot : Slot) (div : Word) : (s.finishStart slot div).check = 0#8 := rfl
@[simp] theorem State.finishStart_entry (s : State) (slot : Slot) (div : Word) : (s.finishStart slot div).entry = 0#16 := rfl
@[simp] theorem State.finishStart_width (s : State) (slot : Slot) (div : Word) : (s.finishStart slot div).width = s.width := rfl
@[simp] theorem State.finishStart_height (s : State) (slot : Slot) (div : Word) : (s.finishStart slot div).height = s.height := rfl
@[simp] theorem State.finishStart_bitplaneCnt (s : State) (slot : Slot) (div : Word) : (s.finishStart slot div).bitplaneCnt = s.bitplaneCnt := rfl
@[simp] theorem State.finishStart_maxUnit (s : State) (slot : Slot) (div : Word) : (s.finishStart slot div).maxUnit = s.maxUnit := rfl
@[simp] theorem State.finishStart_brightness (s : State) (slot : Slot) (div : Word) : (s.finishStart slot div).brightness = s.brightness := rfl
@[simp] theorem State.finishStart_double (s : State) (slot : Slot) (div : Word) : (s.finishStart slot div).double = s.double := rfl
@[simp] theorem State.finishStart_clkdiv (s : State) (slot : Slot) (div : Word) : (s.finishStart slot div).clkdiv = s.clkdiv := rfl
@[simp] theorem State.finishStart_fbBase (s : State) (slot : Slot) (div : Word) : (s.finishStart slot div).fbBase = s.fbBase := rfl
@[simp] theorem State.finishStart_seglist (s : State) (slot : Slot) (div : Word) : (s.finishStart slot div).seglist = s.seglist := rfl
@[simp] theorem State.finishStart_bpBase (s : State) (slot : Slot) (div : Word) : (s.finishStart slot div).bpBase = s.bpBase := rfl
@[simp] theorem State.finishStart_planeSize (s : State) (slot : Slot) (div : Word) : (s.finishStart slot div).planeSize = s.planeSize := rfl
@[simp] theorem State.finishStart_orderLen (s : State) (slot : Slot) (div : Word) : (s.finishStart slot div).orderLen = s.orderLen := rfl
@[simp] theorem State.finishStart_ring0 (s : State) (slot : Slot) (div : Word) : (s.finishStart slot div).ring0 = s.ring0 := rfl
@[simp] theorem State.finishStart_ring1 (s : State) (slot : Slot) (div : Word) : (s.finishStart slot div).ring1 = s.ring1 := rfl
@[simp] theorem State.finishStart_order (s : State) (slot : Slot) (div : Word) : (s.finishStart slot div).order = s.order := rfl
@[simp] theorem State.finishStart_consumer (s : State) (slot : Slot) (div : Word) : (s.finishStart slot div).consumer = { run := true, cur := (s.ring slot).head, off := 0, link := none, visit := .arriving } := rfl
@[simp] theorem State.finishStart_cnt (s : State) (slot : Slot) (div : Word) : (s.finishStart slot div).cnt = s.cnt := rfl
@[simp] theorem State.finishStart_inFlight (s : State) (slot : Slot) (div : Word) : (s.finishStart slot div).inFlight = none := rfl
@[simp] theorem State.finishStart_mem (s : State) (slot : Slot) (div : Word) : (s.finishStart slot div).mem = s.mem := rfl
@[simp] theorem State.finishStart_regions (s : State) (slot : Slot) (div : Word) : (s.finishStart slot div).regions = s.regions := rfl
@[simp] theorem State.finishStart_starts (s : State) (slot : Slot) (div : Word) : (s.finishStart slot div).starts = s.starts ++ [{ head := (s.ring slot).head, width := transferWidth, div := div }] := rfl
@[simp] theorem State.finishStart_out (s : State) (slot : Slot) (div : Word) : (s.finishStart slot div).out = s.out := rfl
@[simp] theorem State.finishStart_rdata (s : State) (slot : Slot) (div : Word) : (s.finishStart slot div).rdata = s.rdata := rfl
@[simp] theorem State.finishStart_hostOps (s : State) (slot : Slot) (div : Word) : (s.finishStart slot div).hostOps = s.hostOps := rfl
@[simp] theorem State.finishStart_lapGuard (s : State) (slot : Slot) (div : Word) : (s.finishStart slot div).lapGuard = s.lapGuard := rfl
@[simp] theorem State.finishStart_allocAnswers (s : State) (slot : Slot) (div : Word) : (s.finishStart slot div).allocAnswers = s.allocAnswers := rfl
@[simp] theorem State.finishStart_turns (s : State) (slot : Slot) (div : Word) : (s.finishStart slot div).turns = s.turns := rfl
@[simp] theorem State.finishStart_params (s : State) (slot : Slot) (div : Word) : (s.finishStart slot div).params = s.params := rfl
@[simp] theorem State.finishStart_draws (s : State) (slot : Slot) (div : Word) : (s.finishStart slot div).draws = s.draws := rfl

/-! `State.grant` -/

@[simp] theorem State.grant_phase (s : State) (r : Region) : (s.grant r).phase = s.phase := rfl
@[simp] theorem State.grant_sel (s : State) (r : Region) : (s.grant r).sel = s.sel := rfl
@[simp] theorem State.grant_ovr (s : State) (r : Region) : (s.grant r).ovr = s.ovr := rfl
@[simp] theorem State.grant_err (s : State) (r : Region) : (s.grant r).err = s.err := rfl
@[simp] theorem State.grant_check (s : State) (r : Region) : (s.grant r).check = s.check := rfl
@[simp] theorem State.grant_entry (s : State) (r : Region) : (s.grant r).entry = s.entry := rfl
@[simp] theorem State.grant_width (s : State) (r : Region) : (s.grant r).width = s.width := rfl
@[simp] theorem State.grant_height (s : State) (r : Region) : (s.grant r).height = s.height := rfl
@[simp] theorem State.grant_bitplaneCnt (s : State) (r : Region) : (s.grant r).bitplaneCnt = s.bitplaneCnt := rfl
@[simp] theorem State.grant_maxUnit (s : State) (r : Region) : (s.grant r).maxUnit = s.maxUnit := rfl
@[simp] theorem State.grant_brightness (s : State) (r : Region) : (s.grant r).brightness = s.brightness := rfl
@[simp] theorem State.grant_double (s : State) (r : Region) : (s.grant r).double = s.double := rfl
@[simp] theorem State.grant_clkdiv (s : State) (r : Region) : (s.grant r).clkdiv = s.clkdiv := rfl
@[simp] theorem State.grant_fbBase (s : State) (r : Region) : (s.grant r).fbBase = s.fbBase := rfl
@[simp] theorem State.grant_seglist (s : State) (r : Region) : (s.grant r).seglist = s.seglist := rfl
@[simp] theorem State.grant_bpBase (s : State) (r : Region) : (s.grant r).bpBase = s.bpBase := rfl
@[simp] theorem State.grant_planeSize (s : State) (r : Region) : (s.grant r).planeSize = s.planeSize := rfl
@[simp] theorem State.grant_orderLen (s : State) (r : Region) : (s.grant r).orderLen = s.orderLen := rfl
@[simp] theorem State.grant_ring0 (s : State) (r : Region) : (s.grant r).ring0 = s.ring0 := rfl
@[simp] theorem State.grant_ring1 (s : State) (r : Region) : (s.grant r).ring1 = s.ring1 := rfl
@[simp] theorem State.grant_order (s : State) (r : Region) : (s.grant r).order = s.order := rfl
@[simp] theorem State.grant_consumer (s : State) (r : Region) : (s.grant r).consumer = s.consumer := rfl
@[simp] theorem State.grant_cnt (s : State) (r : Region) : (s.grant r).cnt = s.cnt := rfl
@[simp] theorem State.grant_inFlight (s : State) (r : Region) : (s.grant r).inFlight = s.inFlight := rfl
@[simp] theorem State.grant_mem (s : State) (r : Region) : (s.grant r).mem = s.mem.forget r := rfl
@[simp] theorem State.grant_regions (s : State) (r : Region) : (s.grant r).regions = r :: s.regions := rfl
@[simp] theorem State.grant_starts (s : State) (r : Region) : (s.grant r).starts = s.starts := rfl
@[simp] theorem State.grant_out (s : State) (r : Region) : (s.grant r).out = s.out := rfl
@[simp] theorem State.grant_rdata (s : State) (r : Region) : (s.grant r).rdata = s.rdata := rfl
@[simp] theorem State.grant_hostOps (s : State) (r : Region) : (s.grant r).hostOps = s.hostOps := rfl
@[simp] theorem State.grant_lapGuard (s : State) (r : Region) : (s.grant r).lapGuard = s.lapGuard := rfl
@[simp] theorem State.grant_allocAnswers (s : State) (r : Region) : (s.grant r).allocAnswers = s.allocAnswers := rfl
@[simp] theorem State.grant_turns (s : State) (r : Region) : (s.grant r).turns = s.turns := rfl
@[simp] theorem State.grant_params (s : State) (r : Region) : (s.grant r).params = s.params := rfl
@[simp] theorem State.grant_draws (s : State) (r : Region) : (s.grant r).draws = s.draws := rfl

/-! `State.commit` -/

@[simp] theorem State.commit_none (s : State) : s.commit none = s := rfl
@[simp] theorem State.commit_phase (s : State) (r : SetupResults) : (s.commit (some r)).phase = s.phase := rfl
@[simp] theorem State.commit_sel (s : State) (r : SetupResults) : (s.commit (some r)).sel = s.sel := rfl
@[simp] theorem State.commit_ovr (s : State) (r : SetupResults) : (s.commit (some r)).ovr = s.ovr := rfl
@[simp] theorem State.commit_err (s : State) (r : SetupResults) : (s.commit (some r)).err = s.err := rfl
@[simp] theorem State.commit_check (s : State) (r : SetupResults) : (s.commit (some r)).check = s.check := rfl
@[simp] theorem State.commit_entry (s : State) (r : SetupResults) : (s.commit (some r)).entry = s.entry := rfl
@[simp] theorem State.commit_width (s : State) (r : SetupResults) : (s.commit (some r)).width = s.width := rfl
@[simp] theorem State.commit_height (s : State) (r : SetupResults) : (s.commit (some r)).height = s.height := rfl
@[simp] theorem State.commit_bitplaneCnt (s : State) (r : SetupResults) : (s.commit (some r)).bitplaneCnt = s.bitplaneCnt := rfl
@[simp] theorem State.commit_maxUnit (s : State) (r : SetupResults) : (s.commit (some r)).maxUnit = s.maxUnit := rfl
@[simp] theorem State.commit_brightness (s : State) (r : SetupResults) : (s.commit (some r)).brightness = s.brightness := rfl
@[simp] theorem State.commit_double (s : State) (r : SetupResults) : (s.commit (some r)).double = s.double := rfl
@[simp] theorem State.commit_clkdiv (s : State) (r : SetupResults) : (s.commit (some r)).clkdiv = s.clkdiv := rfl
@[simp] theorem State.commit_fbBase (s : State) (r : SetupResults) : (s.commit (some r)).fbBase = s.fbBase := rfl
@[simp] theorem State.commit_seglist (s : State) (r : SetupResults) : (s.commit (some r)).seglist = s.seglist := rfl
@[simp] theorem State.commit_bpBase (s : State) (r : SetupResults) : (s.commit (some r)).bpBase = r.bpBase := rfl
@[simp] theorem State.commit_planeSize (s : State) (r : SetupResults) : (s.commit (some r)).planeSize = BitVec.ofNat 32 s.planeBytes := rfl
@[simp] theorem State.commit_orderLen (s : State) (r : SetupResults) : (s.commit (some r)).orderLen = BitVec.ofNat 8 (orderLength s.planes) := rfl
@[simp] theorem State.commit_ring0 (s : State) (r : SetupResults) : (s.commit (some r)).ring0 = r.ring0 := rfl
@[simp] theorem State.commit_ring1 (s : State) (r : SetupResults) : (s.commit (some r)).ring1 = s.ring1 := rfl
@[simp] theorem State.commit_order (s : State) (r : SetupResults) : (s.commit (some r)).order = orderTable s.planes := rfl
@[simp] theorem State.commit_consumer (s : State) (r : SetupResults) : (s.commit (some r)).consumer = s.consumer := rfl
@[simp] theorem State.commit_cnt (s : State) (r : SetupResults) : (s.commit (some r)).cnt = countTable s.planes s.cnt := rfl
@[simp] theorem State.commit_inFlight (s : State) (r : SetupResults) : (s.commit (some r)).inFlight = s.inFlight := rfl
@[simp] theorem State.commit_mem (s : State) (r : SetupResults) : (s.commit (some r)).mem = s.mem := rfl
@[simp] theorem State.commit_regions (s : State) (r : SetupResults) : (s.commit (some r)).regions = s.regions := rfl
@[simp] theorem State.commit_starts (s : State) (r : SetupResults) : (s.commit (some r)).starts = s.starts := rfl
@[simp] theorem State.commit_out (s : State) (r : SetupResults) : (s.commit (some r)).out = s.out := rfl
@[simp] theorem State.commit_rdata (s : State) (r : SetupResults) : (s.commit (some r)).rdata = s.rdata := rfl
@[simp] theorem State.commit_hostOps (s : State) (r : SetupResults) : (s.commit (some r)).hostOps = s.hostOps := rfl
@[simp] theorem State.commit_lapGuard (s : State) (r : SetupResults) : (s.commit (some r)).lapGuard = s.lapGuard := rfl
@[simp] theorem State.commit_allocAnswers (s : State) (r : SetupResults) : (s.commit (some r)).allocAnswers = s.allocAnswers := rfl
@[simp] theorem State.commit_turns (s : State) (r : SetupResults) : (s.commit (some r)).turns = s.turns := rfl
@[simp] theorem State.commit_params (s : State) (r : SetupResults) : (s.commit (some r)).params = s.params := rfl
@[simp] theorem State.commit_draws (s : State) (r : SetupResults) : (s.commit (some r)).draws = s.draws := rfl

/-! `State.resetBlock` -/

@[simp] theorem State.resetBlock_phase (s : State) : (s.resetBlock).phase = State.reset.phase := rfl
@[simp] theorem State.resetBlock_sel (s : State) : (s.resetBlock).sel = State.reset.sel := rfl
@[simp] theorem State.resetBlock_ovr (s : State) : (s.resetBlock).ovr = State.reset.ovr := rfl
@[simp] theorem State.resetBlock_err (s : State) : (s.resetBlock).err = State.reset.err := rfl
@[simp] theorem State.resetBlock_check (s : State) : (s.resetBlock).check = State.reset.check := rfl
@[simp] theorem State.resetBlock_entry (s : State) : (s.resetBlock).entry = State.reset.entry := rfl
@[simp] theorem State.resetBlock_width (s : State) : (s.resetBlock).width = State.reset.width := rfl
@[simp] theorem State.resetBlock_height (s : State) : (s.resetBlock).height = State.reset.height := rfl
@[simp] theorem State.resetBlock_bitplaneCnt (s : State) : (s.resetBlock).bitplaneCnt = State.reset.bitplaneCnt := rfl
@[simp] theorem State.resetBlock_maxUnit (s : State) : (s.resetBlock).maxUnit = State.reset.maxUnit := rfl
@[simp] theorem State.resetBlock_brightness (s : State) : (s.resetBlock).brightness = State.reset.brightness := rfl
@[simp] theorem State.resetBlock_double (s : State) : (s.resetBlock).double = State.reset.double := rfl
@[simp] theorem State.resetBlock_clkdiv (s : State) : (s.resetBlock).clkdiv = State.reset.clkdiv := rfl
@[simp] theorem State.resetBlock_fbBase (s : State) : (s.resetBlock).fbBase = State.reset.fbBase := rfl
@[simp] theorem State.resetBlock_seglist (s : State) : (s.resetBlock).seglist = State.reset.seglist := rfl
@[simp] theorem State.resetBlock_bpBase (s : State) : (s.resetBlock).bpBase = State.reset.bpBase := rfl
@[simp] theorem State.resetBlock_planeSize (s : State) : (s.resetBlock).planeSize = State.reset.planeSize := rfl
@[simp] theorem State.resetBlock_orderLen (s : State) : (s.resetBlock).orderLen = State.reset.orderLen := rfl
@[simp] theorem State.resetBlock_ring0 (s : State) : (s.resetBlock).ring0 = State.reset.ring0 := rfl
@[simp] theorem State.resetBlock_ring1 (s : State) : (s.resetBlock).ring1 = State.reset.ring1 := rfl
@[simp] theorem State.resetBlock_order (s : State) : (s.resetBlock).order = State.reset.order := rfl
@[simp] theorem State.resetBlock_consumer (s : State) : (s.resetBlock).consumer = State.reset.consumer := rfl
@[simp] theorem State.resetBlock_cnt (s : State) : (s.resetBlock).cnt = State.reset.cnt := rfl
@[simp] theorem State.resetBlock_inFlight (s : State) : (s.resetBlock).inFlight = State.reset.inFlight := rfl
@[simp] theorem State.resetBlock_mem (s : State) : (s.resetBlock).mem = s.mem.forget Region.everything := rfl
@[simp] theorem State.resetBlock_regions (s : State) : (s.resetBlock).regions = State.reset.regions := rfl
@[simp] theorem State.resetBlock_starts (s : State) : (s.resetBlock).starts = s.starts := rfl
@[simp] theorem State.resetBlock_out (s : State) : (s.resetBlock).out = s.out := rfl
@[simp] theorem State.resetBlock_rdata (s : State) : (s.resetBlock).rdata = s.rdata := rfl
@[simp] theorem State.resetBlock_hostOps (s : State) : (s.resetBlock).hostOps = s.hostOps := rfl
@[simp] theorem State.resetBlock_lapGuard (s : State) : (s.resetBlock).lapGuard = State.reset.lapGuard := rfl
@[simp] theorem State.resetBlock_allocAnswers (s : State) : (s.resetBlock).allocAnswers = s.allocAnswers := rfl
@[simp] theorem State.resetBlock_turns (s : State) : (s.resetBlock).turns = s.turns := rfl
@[simp] theorem State.resetBlock_params (s : State) : (s.resetBlock).params = s.params := rfl
@[simp] theorem State.resetBlock_draws (s : State) : (s.resetBlock).draws = s.draws := rfl

/-! `State.withCommandWord` -/

@[simp] theorem State.withCommandWord_phase (s : State) (w : Word) : (s.withCommandWord w).phase = s.phase := rfl
@[simp] theorem State.withCommandWord_sel (s : State) (w : Word) : (s.withCommandWord w).sel = s.sel := rfl
@[simp] theorem State.withCommandWord_ovr (s : State) (w : Word) : (s.withCommandWord w).ovr = s.ovr := rfl
@[simp] theorem State.withCommandWord_err (s : State) (w : Word) : (s.withCommandWord w).err = s.err := rfl
@[simp] theorem State.withCommandWord_check (s : State) (w : Word) : (s.withCommandWord w).check = s.check := rfl
@[simp] theorem State.withCommandWord_entry (s : State) (w : Word) : (s.withCommandWord w).entry = s.entry := rfl
@[simp] theorem State.withCommandWord_width (s : State) (w : Word) : (s.withCommandWord w).width = s.width := rfl
@[simp] theorem State.withCommandWord_height (s : State) (w : Word) : (s.withCommandWord w).height = s.height := rfl
@[simp] theorem State.withCommandWord_bitplaneCnt (s : State) (w : Word) : (s.withCommandWord w).bitplaneCnt = s.bitplaneCnt := rfl
@[simp] theorem State.withCommandWord_maxUnit (s : State) (w : Word) : (s.withCommandWord w).maxUnit = s.maxUnit := rfl
@[simp] theorem State.withCommandWord_brightness (s : State) (w : Word) : (s.withCommandWord w).brightness = s.brightness := rfl
@[simp] theorem State.withCommandWord_double (s : State) (w : Word) : (s.withCommandWord w).double = s.double := rfl
@[simp] theorem State.withCommandWord_clkdiv (s : State) (w : Word) : (s.withCommandWord w).clkdiv = s.clkdiv := rfl
@[simp] theorem State.withCommandWord_fbBase (s : State) (w : Word) : (s.withCommandWord w).fbBase = s.fbBase := rfl
@[simp] theorem State.withCommandWord_seglist (s : State) (w : Word) : (s.withCommandWord w).seglist = s.seglist := rfl
@[simp] theorem State.withCommandWord_bpBase (s : State) (w : Word) : (s.withCommandWord w).bpBase = s.bpBase := rfl
@[simp] theorem State.withCommandWord_planeSize (s : State) (w : Word) : (s.withCommandWord w).planeSize = s.planeSize := rfl
@[simp] theorem State.withCommandWord_orderLen (s : State) (w : Word) : (s.withCommandWord w).orderLen = s.orderLen := rfl
@[simp] theorem State.withCommandWord_ring0 (s : State) (w : Word) : (s.withCommandWord w).ring0 = s.ring0 := rfl
@[simp] theorem State.withCommandWord_ring1 (s : State) (w : Word) : (s.withCommandWord w).ring1 = s.ring1 := rfl
@[simp] theorem State.withCommandWord_order (s : State) (w : Word) : (s.withCommandWord w).order = s.order := rfl
@[simp] theorem State.withCommandWord_consumer (s : State) (w : Word) : (s.withCommandWord w).consumer = s.consumer := rfl
@[simp] theorem State.withCommandWord_cnt (s : State) (w : Word) : (s.withCommandWord w).cnt = s.cnt := rfl
@[simp] theorem State.withCommandWord_inFlight (s : State) (w : Word) : (s.withCommandWord w).inFlight = none := rfl
@[simp] theorem State.withCommandWord_mem (s : State) (w : Word) : (s.withCommandWord w).mem = s.mem := rfl
@[simp] theorem State.withCommandWord_regions (s : State) (w : Word) : (s.withCommandWord w).regions = s.regions := rfl
@[simp] theorem State.withCommandWord_starts (s : State) (w : Word) : (s.withCommandWord w).starts = s.starts := rfl
@[simp] theorem State.withCommandWord_out (s : State) (w : Word) : (s.withCommandWord w).out = s.out := rfl
@[simp] theorem State.withCommandWord_rdata (s : State) (w : Word) : (s.withCommandWord w).rdata = s.rdata := rfl
@[simp] theorem State.withCommandWord_hostOps (s : State) (w : Word) : (s.withCommandWord w).hostOps = .wr cmdOffset w :: s.hostOps := rfl
@[simp] theorem State.withCommandWord_lapGuard (s : State) (w : Word) : (s.withCommandWord w).lapGuard = none := rfl
@[simp] theorem State.withCommandWord_allocAnswers (s : State) (w : Word) : (s.withCommandWord w).allocAnswers = s.allocAnswers := rfl
@[simp] theorem State.withCommandWord_turns (s : State) (w : Word) : (s.withCommandWord w).turns = .command :: s.turns := rfl
@[simp] theorem State.withCommandWord_params (s : State) (w : Word) : (s.withCommandWord w).params = s.params := rfl
@[simp] theorem State.withCommandWord_draws (s : State) (w : Word) : (s.withCommandWord w).draws = s.draws := rfl

/-! `State.allocFail`: the result registers hold free values (44_setup_control.md rule R256) -/

@[simp] theorem State.allocFail_phase (s : State) : s.allocFail.phase = .failed := rfl
@[simp] theorem State.allocFail_sel (s : State) : s.allocFail.sel = s.sel := rfl
@[simp] theorem State.allocFail_ovr (s : State) : s.allocFail.ovr = s.ovr := rfl
@[simp] theorem State.allocFail_err (s : State) : s.allocFail.err = .allocFail := rfl
@[simp] theorem State.allocFail_check (s : State) : s.allocFail.check = 0#8 := rfl
@[simp] theorem State.allocFail_entry (s : State) : s.allocFail.entry = 0#16 := rfl
@[simp] theorem State.allocFail_width (s : State) : s.allocFail.width = s.width := rfl
@[simp] theorem State.allocFail_height (s : State) : s.allocFail.height = s.height := rfl
@[simp] theorem State.allocFail_bitplaneCnt (s : State) : s.allocFail.bitplaneCnt = s.bitplaneCnt := rfl
@[simp] theorem State.allocFail_maxUnit (s : State) : s.allocFail.maxUnit = s.maxUnit := rfl
@[simp] theorem State.allocFail_brightness (s : State) : s.allocFail.brightness = s.brightness := rfl
@[simp] theorem State.allocFail_double (s : State) : s.allocFail.double = s.double := rfl
@[simp] theorem State.allocFail_clkdiv (s : State) : s.allocFail.clkdiv = s.clkdiv := rfl
@[simp] theorem State.allocFail_fbBase (s : State) : s.allocFail.fbBase = s.fbBase := rfl
@[simp] theorem State.allocFail_seglist (s : State) : s.allocFail.seglist = s.seglist := rfl
@[simp] theorem State.allocFail_orderLen (s : State) : s.allocFail.orderLen = s.orderLen := rfl
@[simp] theorem State.allocFail_consumer (s : State) : s.allocFail.consumer = s.consumer := rfl
@[simp] theorem State.allocFail_cnt (s : State) : s.allocFail.cnt = s.cnt := rfl
@[simp] theorem State.allocFail_inFlight (s : State) : s.allocFail.inFlight = none := rfl
@[simp] theorem State.allocFail_mem (s : State) : s.allocFail.mem = s.mem := rfl
@[simp] theorem State.allocFail_regions (s : State) : s.allocFail.regions = s.regions := rfl
@[simp] theorem State.allocFail_starts (s : State) : s.allocFail.starts = s.starts := rfl
@[simp] theorem State.allocFail_out (s : State) : s.allocFail.out = s.out := rfl
@[simp] theorem State.allocFail_rdata (s : State) : s.allocFail.rdata = s.rdata := rfl
@[simp] theorem State.allocFail_hostOps (s : State) : s.allocFail.hostOps = s.hostOps := rfl
@[simp] theorem State.allocFail_lapGuard (s : State) : s.allocFail.lapGuard = s.lapGuard := rfl
@[simp] theorem State.allocFail_allocAnswers (s : State) : s.allocFail.allocAnswers = s.allocAnswers := rfl
@[simp] theorem State.allocFail_turns (s : State) : s.allocFail.turns = s.turns := rfl
@[simp] theorem State.allocFail_params (s : State) : s.allocFail.params = s.params := rfl
@[simp] theorem State.allocFail_draws (s : State) : s.allocFail.draws = s.draws + 1 := rfl

/-! `State.setRing` -/

@[simp] theorem State.setRing_phase (s : State) (slot : Slot) (r : Ring) : (s.setRing slot r).phase = s.phase := by cases slot <;> rfl
@[simp] theorem State.setRing_sel (s : State) (slot : Slot) (r : Ring) : (s.setRing slot r).sel = s.sel := by cases slot <;> rfl
@[simp] theorem State.setRing_ovr (s : State) (slot : Slot) (r : Ring) : (s.setRing slot r).ovr = s.ovr := by cases slot <;> rfl
@[simp] theorem State.setRing_err (s : State) (slot : Slot) (r : Ring) : (s.setRing slot r).err = s.err := by cases slot <;> rfl
@[simp] theorem State.setRing_check (s : State) (slot : Slot) (r : Ring) : (s.setRing slot r).check = s.check := by cases slot <;> rfl
@[simp] theorem State.setRing_entry (s : State) (slot : Slot) (r : Ring) : (s.setRing slot r).entry = s.entry := by cases slot <;> rfl
@[simp] theorem State.setRing_width (s : State) (slot : Slot) (r : Ring) : (s.setRing slot r).width = s.width := by cases slot <;> rfl
@[simp] theorem State.setRing_height (s : State) (slot : Slot) (r : Ring) : (s.setRing slot r).height = s.height := by cases slot <;> rfl
@[simp] theorem State.setRing_bitplaneCnt (s : State) (slot : Slot) (r : Ring) : (s.setRing slot r).bitplaneCnt = s.bitplaneCnt := by cases slot <;> rfl
@[simp] theorem State.setRing_maxUnit (s : State) (slot : Slot) (r : Ring) : (s.setRing slot r).maxUnit = s.maxUnit := by cases slot <;> rfl
@[simp] theorem State.setRing_brightness (s : State) (slot : Slot) (r : Ring) : (s.setRing slot r).brightness = s.brightness := by cases slot <;> rfl
@[simp] theorem State.setRing_double (s : State) (slot : Slot) (r : Ring) : (s.setRing slot r).double = s.double := by cases slot <;> rfl
@[simp] theorem State.setRing_clkdiv (s : State) (slot : Slot) (r : Ring) : (s.setRing slot r).clkdiv = s.clkdiv := by cases slot <;> rfl
@[simp] theorem State.setRing_fbBase (s : State) (slot : Slot) (r : Ring) : (s.setRing slot r).fbBase = s.fbBase := by cases slot <;> rfl
@[simp] theorem State.setRing_seglist (s : State) (slot : Slot) (r : Ring) : (s.setRing slot r).seglist = s.seglist := by cases slot <;> rfl
@[simp] theorem State.setRing_bpBase (s : State) (slot : Slot) (r : Ring) : (s.setRing slot r).bpBase = s.bpBase := by cases slot <;> rfl
@[simp] theorem State.setRing_planeSize (s : State) (slot : Slot) (r : Ring) : (s.setRing slot r).planeSize = s.planeSize := by cases slot <;> rfl
@[simp] theorem State.setRing_orderLen (s : State) (slot : Slot) (r : Ring) : (s.setRing slot r).orderLen = s.orderLen := by cases slot <;> rfl
@[simp] theorem State.setRing_order (s : State) (slot : Slot) (r : Ring) : (s.setRing slot r).order = s.order := by cases slot <;> rfl
@[simp] theorem State.setRing_consumer (s : State) (slot : Slot) (r : Ring) : (s.setRing slot r).consumer = s.consumer := by cases slot <;> rfl
@[simp] theorem State.setRing_cnt (s : State) (slot : Slot) (r : Ring) : (s.setRing slot r).cnt = s.cnt := by cases slot <;> rfl
@[simp] theorem State.setRing_inFlight (s : State) (slot : Slot) (r : Ring) : (s.setRing slot r).inFlight = s.inFlight := by cases slot <;> rfl
@[simp] theorem State.setRing_mem (s : State) (slot : Slot) (r : Ring) : (s.setRing slot r).mem = s.mem := by cases slot <;> rfl
@[simp] theorem State.setRing_regions (s : State) (slot : Slot) (r : Ring) : (s.setRing slot r).regions = s.regions := by cases slot <;> rfl
@[simp] theorem State.setRing_starts (s : State) (slot : Slot) (r : Ring) : (s.setRing slot r).starts = s.starts := by cases slot <;> rfl
@[simp] theorem State.setRing_out (s : State) (slot : Slot) (r : Ring) : (s.setRing slot r).out = s.out := by cases slot <;> rfl
@[simp] theorem State.setRing_rdata (s : State) (slot : Slot) (r : Ring) : (s.setRing slot r).rdata = s.rdata := by cases slot <;> rfl
@[simp] theorem State.setRing_hostOps (s : State) (slot : Slot) (r : Ring) : (s.setRing slot r).hostOps = s.hostOps := by cases slot <;> rfl
@[simp] theorem State.setRing_lapGuard (s : State) (slot : Slot) (r : Ring) : (s.setRing slot r).lapGuard = s.lapGuard := by cases slot <;> rfl
@[simp] theorem State.setRing_allocAnswers (s : State) (slot : Slot) (r : Ring) : (s.setRing slot r).allocAnswers = s.allocAnswers := by cases slot <;> rfl
@[simp] theorem State.setRing_turns (s : State) (slot : Slot) (r : Ring) : (s.setRing slot r).turns = s.turns := by cases slot <;> rfl
@[simp] theorem State.setRing_params (s : State) (slot : Slot) (r : Ring) : (s.setRing slot r).params = s.params := by cases slot <;> rfl
@[simp] theorem State.setRing_draws (s : State) (slot : Slot) (r : Ring) : (s.setRing slot r).draws = s.draws := by cases slot <;> rfl

@[simp] theorem State.ring_zero (s : State) : s.ring .zero = s.ring0 := rfl
@[simp] theorem State.ring_one (s : State) : s.ring .one = s.ring1 := rfl

/-- The ring registers after a write of one slot's. -/
theorem State.ring_setRing (s : State) (slot other : Slot) (r : Ring) :
    (s.setRing slot r).ring other = if other = slot then r else s.ring other := by
  cases slot <;> cases other <;> rfl

/-! `State.takeTurn`: a scripted entry is used up, or the counter of the free values moves -/

@[simp] theorem State.takeTurn_phase (s : State) : s.takeTurn.phase = s.phase := by unfold State.takeTurn; split <;> rfl
@[simp] theorem State.takeTurn_sel (s : State) : s.takeTurn.sel = s.sel := by unfold State.takeTurn; split <;> rfl
@[simp] theorem State.takeTurn_ovr (s : State) : s.takeTurn.ovr = s.ovr := by unfold State.takeTurn; split <;> rfl
@[simp] theorem State.takeTurn_err (s : State) : s.takeTurn.err = s.err := by unfold State.takeTurn; split <;> rfl
@[simp] theorem State.takeTurn_check (s : State) : s.takeTurn.check = s.check := by unfold State.takeTurn; split <;> rfl
@[simp] theorem State.takeTurn_entry (s : State) : s.takeTurn.entry = s.entry := by unfold State.takeTurn; split <;> rfl
@[simp] theorem State.takeTurn_width (s : State) : s.takeTurn.width = s.width := by unfold State.takeTurn; split <;> rfl
@[simp] theorem State.takeTurn_height (s : State) : s.takeTurn.height = s.height := by unfold State.takeTurn; split <;> rfl
@[simp] theorem State.takeTurn_bitplaneCnt (s : State) : s.takeTurn.bitplaneCnt = s.bitplaneCnt := by unfold State.takeTurn; split <;> rfl
@[simp] theorem State.takeTurn_maxUnit (s : State) : s.takeTurn.maxUnit = s.maxUnit := by unfold State.takeTurn; split <;> rfl
@[simp] theorem State.takeTurn_brightness (s : State) : s.takeTurn.brightness = s.brightness := by unfold State.takeTurn; split <;> rfl
@[simp] theorem State.takeTurn_double (s : State) : s.takeTurn.double = s.double := by unfold State.takeTurn; split <;> rfl
@[simp] theorem State.takeTurn_clkdiv (s : State) : s.takeTurn.clkdiv = s.clkdiv := by unfold State.takeTurn; split <;> rfl
@[simp] theorem State.takeTurn_fbBase (s : State) : s.takeTurn.fbBase = s.fbBase := by unfold State.takeTurn; split <;> rfl
@[simp] theorem State.takeTurn_seglist (s : State) : s.takeTurn.seglist = s.seglist := by unfold State.takeTurn; split <;> rfl
@[simp] theorem State.takeTurn_bpBase (s : State) : s.takeTurn.bpBase = s.bpBase := by unfold State.takeTurn; split <;> rfl
@[simp] theorem State.takeTurn_planeSize (s : State) : s.takeTurn.planeSize = s.planeSize := by unfold State.takeTurn; split <;> rfl
@[simp] theorem State.takeTurn_orderLen (s : State) : s.takeTurn.orderLen = s.orderLen := by unfold State.takeTurn; split <;> rfl
@[simp] theorem State.takeTurn_ring0 (s : State) : s.takeTurn.ring0 = s.ring0 := by unfold State.takeTurn; split <;> rfl
@[simp] theorem State.takeTurn_ring1 (s : State) : s.takeTurn.ring1 = s.ring1 := by unfold State.takeTurn; split <;> rfl
@[simp] theorem State.takeTurn_order (s : State) : s.takeTurn.order = s.order := by unfold State.takeTurn; split <;> rfl
@[simp] theorem State.takeTurn_consumer (s : State) : s.takeTurn.consumer = s.consumer := by unfold State.takeTurn; split <;> rfl
@[simp] theorem State.takeTurn_cnt (s : State) : s.takeTurn.cnt = s.cnt := by unfold State.takeTurn; split <;> rfl
@[simp] theorem State.takeTurn_inFlight (s : State) : s.takeTurn.inFlight = s.inFlight := by unfold State.takeTurn; split <;> rfl
@[simp] theorem State.takeTurn_mem (s : State) : s.takeTurn.mem = s.mem := by unfold State.takeTurn; split <;> rfl
@[simp] theorem State.takeTurn_regions (s : State) : s.takeTurn.regions = s.regions := by unfold State.takeTurn; split <;> rfl
@[simp] theorem State.takeTurn_starts (s : State) : s.takeTurn.starts = s.starts := by unfold State.takeTurn; split <;> rfl
@[simp] theorem State.takeTurn_out (s : State) : s.takeTurn.out = s.out := by unfold State.takeTurn; split <;> rfl
@[simp] theorem State.takeTurn_rdata (s : State) : s.takeTurn.rdata = s.rdata := by unfold State.takeTurn; split <;> rfl
@[simp] theorem State.takeTurn_hostOps (s : State) : s.takeTurn.hostOps = s.hostOps := by unfold State.takeTurn; split <;> rfl
@[simp] theorem State.takeTurn_lapGuard (s : State) : s.takeTurn.lapGuard = s.lapGuard := by unfold State.takeTurn; split <;> rfl
@[simp] theorem State.takeTurn_allocAnswers (s : State) : s.takeTurn.allocAnswers = s.allocAnswers := by unfold State.takeTurn; split <;> rfl
@[simp] theorem State.takeTurn_params (s : State) : s.takeTurn.params = s.params := by unfold State.takeTurn; split <;> rfl

/-! `State.takeAnswer`: a scripted entry is used up, or the counter of the free values moves -/

@[simp] theorem State.takeAnswer_phase (s : State) : s.takeAnswer.phase = s.phase := by unfold State.takeAnswer; split <;> rfl
@[simp] theorem State.takeAnswer_sel (s : State) : s.takeAnswer.sel = s.sel := by unfold State.takeAnswer; split <;> rfl
@[simp] theorem State.takeAnswer_ovr (s : State) : s.takeAnswer.ovr = s.ovr := by unfold State.takeAnswer; split <;> rfl
@[simp] theorem State.takeAnswer_err (s : State) : s.takeAnswer.err = s.err := by unfold State.takeAnswer; split <;> rfl
@[simp] theorem State.takeAnswer_check (s : State) : s.takeAnswer.check = s.check := by unfold State.takeAnswer; split <;> rfl
@[simp] theorem State.takeAnswer_entry (s : State) : s.takeAnswer.entry = s.entry := by unfold State.takeAnswer; split <;> rfl
@[simp] theorem State.takeAnswer_width (s : State) : s.takeAnswer.width = s.width := by unfold State.takeAnswer; split <;> rfl
@[simp] theorem State.takeAnswer_height (s : State) : s.takeAnswer.height = s.height := by unfold State.takeAnswer; split <;> rfl
@[simp] theorem State.takeAnswer_bitplaneCnt (s : State) : s.takeAnswer.bitplaneCnt = s.bitplaneCnt := by unfold State.takeAnswer; split <;> rfl
@[simp] theorem State.takeAnswer_maxUnit (s : State) : s.takeAnswer.maxUnit = s.maxUnit := by unfold State.takeAnswer; split <;> rfl
@[simp] theorem State.takeAnswer_brightness (s : State) : s.takeAnswer.brightness = s.brightness := by unfold State.takeAnswer; split <;> rfl
@[simp] theorem State.takeAnswer_double (s : State) : s.takeAnswer.double = s.double := by unfold State.takeAnswer; split <;> rfl
@[simp] theorem State.takeAnswer_clkdiv (s : State) : s.takeAnswer.clkdiv = s.clkdiv := by unfold State.takeAnswer; split <;> rfl
@[simp] theorem State.takeAnswer_fbBase (s : State) : s.takeAnswer.fbBase = s.fbBase := by unfold State.takeAnswer; split <;> rfl
@[simp] theorem State.takeAnswer_seglist (s : State) : s.takeAnswer.seglist = s.seglist := by unfold State.takeAnswer; split <;> rfl
@[simp] theorem State.takeAnswer_bpBase (s : State) : s.takeAnswer.bpBase = s.bpBase := by unfold State.takeAnswer; split <;> rfl
@[simp] theorem State.takeAnswer_planeSize (s : State) : s.takeAnswer.planeSize = s.planeSize := by unfold State.takeAnswer; split <;> rfl
@[simp] theorem State.takeAnswer_orderLen (s : State) : s.takeAnswer.orderLen = s.orderLen := by unfold State.takeAnswer; split <;> rfl
@[simp] theorem State.takeAnswer_ring0 (s : State) : s.takeAnswer.ring0 = s.ring0 := by unfold State.takeAnswer; split <;> rfl
@[simp] theorem State.takeAnswer_ring1 (s : State) : s.takeAnswer.ring1 = s.ring1 := by unfold State.takeAnswer; split <;> rfl
@[simp] theorem State.takeAnswer_order (s : State) : s.takeAnswer.order = s.order := by unfold State.takeAnswer; split <;> rfl
@[simp] theorem State.takeAnswer_consumer (s : State) : s.takeAnswer.consumer = s.consumer := by unfold State.takeAnswer; split <;> rfl
@[simp] theorem State.takeAnswer_cnt (s : State) : s.takeAnswer.cnt = s.cnt := by unfold State.takeAnswer; split <;> rfl
@[simp] theorem State.takeAnswer_inFlight (s : State) : s.takeAnswer.inFlight = s.inFlight := by unfold State.takeAnswer; split <;> rfl
@[simp] theorem State.takeAnswer_mem (s : State) : s.takeAnswer.mem = s.mem := by unfold State.takeAnswer; split <;> rfl
@[simp] theorem State.takeAnswer_regions (s : State) : s.takeAnswer.regions = s.regions := by unfold State.takeAnswer; split <;> rfl
@[simp] theorem State.takeAnswer_starts (s : State) : s.takeAnswer.starts = s.starts := by unfold State.takeAnswer; split <;> rfl
@[simp] theorem State.takeAnswer_out (s : State) : s.takeAnswer.out = s.out := by unfold State.takeAnswer; split <;> rfl
@[simp] theorem State.takeAnswer_rdata (s : State) : s.takeAnswer.rdata = s.rdata := by unfold State.takeAnswer; split <;> rfl
@[simp] theorem State.takeAnswer_hostOps (s : State) : s.takeAnswer.hostOps = s.hostOps := by unfold State.takeAnswer; split <;> rfl
@[simp] theorem State.takeAnswer_lapGuard (s : State) : s.takeAnswer.lapGuard = s.lapGuard := by unfold State.takeAnswer; split <;> rfl
@[simp] theorem State.takeAnswer_turns (s : State) : s.takeAnswer.turns = s.turns := by unfold State.takeAnswer; split <;> rfl
@[simp] theorem State.takeAnswer_params (s : State) : s.takeAnswer.params = s.params := by unfold State.takeAnswer; split <;> rfl

end Sys2Proof.Machine
end

