-- ==== Sys2Proof/Laws/Ops.lean ====
section
/-! SUPPORT. What each shared operation can do, said once: the flow of a command, checks, stores, the allocator. -/
namespace Sys2Proof.Machine

/-! The flow of a command -/

@[simp] theorem Flow.on_andThen (s : State) (k : State → Flow) : (Flow.on s).andThen k = k s := rfl
@[simp] theorem Flow.over_andThen (s : State) (k : State → Flow) : (Flow.over s).andThen k = .over s := rfl
@[simp] theorem Flow.stuck_andThen (f : Fault) (k : State → Flow) : (Flow.stuck f).andThen k = .stuck f := rfl
@[simp] theorem Flow.on_outcome (s : State) : (Flow.on s).outcome = .next s := rfl
@[simp] theorem Flow.over_outcome (s : State) : (Flow.over s).outcome = .next s := rfl
@[simp] theorem Flow.stuck_outcome (f : Fault) : (Flow.stuck f).outcome = .fault f := rfl

/-- A command made of parts answers a next state in two ways: it completed early, or it went through. -/
theorem Flow.andThen_eq_on {x : Flow} {k : State → Flow} {t : State} :
    x.andThen k = .on t ↔ ∃ s, x = .on s ∧ k s = .on t := by
  cases x <;> simp

theorem Flow.andThen_eq_over {x : Flow} {k : State → Flow} {t : State} :
    x.andThen k = .over t ↔ x = .over t ∨ ∃ s, x = .on s ∧ k s = .over t := by
  cases x <;> simp

theorem Flow.outcome_eq_next {x : Flow} {t : State} : x.outcome = .next t ↔ x = .on t ∨ x = .over t := by
  cases x <;> simp [Flow.outcome]

theorem Flow.outcome_ne_refused (x : Flow) (r : Refusal) : x.outcome ≠ .refused r := by
  cases x <;> simp [Flow.outcome]

@[simp] theorem State.guard_none (s : State) : s.guard none = .on s := rfl
@[simp] theorem State.guard_some (s : State) (e : Error) : s.guard (some e) = .over (s.raise e) := rfl
@[simp] theorem State.rejectOr_none (s next : State) : s.rejectOr none next = next := rfl
@[simp] theorem State.rejectOr_some (s next : State) (e : Error) : s.rejectOr (some e) next = s.raise e := rfl

/-! Stores -/

/-- One store: memory is written where it exists, the block is stuck elsewhere. -/
theorem State.store_eq (s : State) (w : Store) :
    s.store w =
      if w.addr + 4 ≤ memSize then .on { s with mem := s.mem.write w.addr 4 w.value.toNat } else .stuck .noMemory := by
  unfold State.store Memory.store memoryExists
  by_cases h : w.addr + 4 ≤ memSize <;> simp [h]

/-- Stores in order: all are made if all fall into memory. -/
theorem State.storeAll_eq_on (s : State) {ws : List Store} (h : ∀ w ∈ ws, w.addr + 4 ≤ memSize) :
    s.storeAll ws = .on { s with mem := s.mem.afterStores ws } := by
  induction ws generalizing s with
  | nil => rfl
  | cons w rest ih =>
    rw [State.storeAll, State.store_eq, if_pos (h w (by simp)), Flow.on_andThen,
      ih _ fun w hw => h w (List.mem_cons_of_mem _ hw)]
    rfl

/-- Stores that are made change memory alone, and fall into memory. -/
theorem State.storeAll_cases {s t : State} {ws : List Store} (h : s.storeAll ws = .on t) :
    t = { s with mem := s.mem.afterStores ws } ∧ ∀ w ∈ ws, w.addr + 4 ≤ memSize := by
  induction ws generalizing s with
  | nil => cases h; exact ⟨rfl, by simp⟩
  | cons w rest ih =>
    rw [State.storeAll, State.store_eq] at h
    split at h
    · rename_i hw
      obtain ⟨ht, hr⟩ := ih h
      refine ⟨ht, fun v hv => ?_⟩
      rcases List.mem_cons.mp hv with rfl | hv
      · exact hw
      · exact hr v hv
    · cases h

/-- Stores never complete a command. -/
theorem State.storeAll_ne_over (s : State) (ws : List Store) (t : State) : s.storeAll ws ≠ .over t := by
  induction ws generalizing s with
  | nil => simp [State.storeAll]
  | cons w rest ih =>
    rw [State.storeAll, State.store_eq]
    split
    · exact ih _
    · simp

theorem Memory.afterStores_append (m : Memory) (ws vs : List Store) :
    m.afterStores (ws ++ vs) = (m.afterStores ws).afterStores vs := by
  induction ws generalizing m with
  | nil => rfl
  | cons w rest ih => exact ih _

/-- Stores leave every byte alone that none of them reaches. -/
theorem Memory.byte_afterStores (m : Memory) {ws : List Store} {b : Nat}
    (h : ∀ w ∈ ws, b < w.addr ∨ w.addr + 4 ≤ b) : (m.afterStores ws).byte b = m.byte b := by
  induction ws generalizing m with
  | nil => rfl
  | cons w rest ih =>
    rw [Memory.afterStores, ih _ fun v hv => h v (List.mem_cons_of_mem _ hv)]
    exact Memory.byte_write_of_outside m (h w (by simp))

/-- Stores write no byte that none of them reaches. -/
theorem Memory.written_afterStores (m : Memory) {ws : List Store} {b : Nat}
    (h : ∀ w ∈ ws, b < w.addr ∨ w.addr + 4 ≤ b) : (m.afterStores ws).written b = m.written b := by
  induction ws generalizing m with
  | nil => rfl
  | cons w rest ih =>
    rw [Memory.afterStores, ih _ fun v hv => h v (List.mem_cons_of_mem _ hv), Memory.written_write,
      if_neg (by have := h w (by simp); omega)]

/-- Stores leave every read alone that none of them reaches. -/
theorem Memory.read_afterStores (m : Memory) {ws : List Store} {a n : Nat}
    (h : ∀ w ∈ ws, a + n ≤ w.addr ∨ w.addr + 4 ≤ a) : (m.afterStores ws).read a n = m.read a n :=
  Memory.read_congr fun b h1 h2 => Memory.byte_afterStores m fun w hw => by have := h w hw; omega

/-- Stores into memory keep the canonical form. -/
theorem Memory.wf_afterStores {m : Memory} (hm : m.wf = true) {ws : List Store} (h : ∀ w ∈ ws, w.addr + 4 ≤ memSize) :
    (m.afterStores ws).wf = true := by
  induction ws generalizing m with
  | nil => exact hm
  | cons w rest ih =>
    exact ih (Memory.wf_write hm (h w (by simp)) _) fun v hv => h v (List.mem_cons_of_mem _ hv)

/-! The allocator -/

/-- All an allocator call can do: no answer; FAIL, with the answer used up; or a region that obeys the law, recorded and
its bytes left unconstrained. -/
theorem State.alloc_cases (s : State) (size : Nat) (avoid : List Region) :
    s.alloc size avoid = .silent ∨ s.alloc size avoid = .failed s.takeAnswer ∨
      ∃ base, s.regionLegal size avoid base = true ∧
        s.alloc size avoid =
          .granted base (s.takeAnswer.grant { base := base.toNat, size := size }) := by
  unfold State.alloc
  cases s.nextAnswer with
  | silent => exact .inl rfl
  | fail => exact .inr (.inl rfl)
  | region base =>
    by_cases h : s.regionLegal size avoid base = true
    · exact .inr (.inr ⟨base, h, by simp [h]⟩)
    · exact .inr (.inl (by simp [h]))

/-- A scripted region that obeys the law is granted. -/
theorem State.alloc_region {s : State} {size : Nat} {avoid : List Region} {base : Word} {rest : List AllocAnswer}
    (ha : s.allocAnswers = .region base :: rest) (h : s.regionLegal size avoid base = true) :
    s.alloc size avoid =
      .granted base (State.grant { s with allocAnswers := rest } { base := base.toNat, size := size }) := by
  simp [State.alloc, State.nextAnswer, State.takeAnswer, ha, h]

/-- A scripted FAIL fails the call. -/
theorem State.alloc_fail {s : State} (size : Nat) (avoid : List Region) {rest : List AllocAnswer}
    (ha : s.allocAnswers = .fail :: rest) : s.alloc size avoid = .failed { s with allocAnswers := rest } := by
  simp [State.alloc, State.nextAnswer, State.takeAnswer, ha]

/-- What the law of a region says (60_exceptions.md rule R302). -/
theorem State.regionLegal_iff (s : State) (size : Nat) (avoid : List Region) (base : Word) :
    s.regionLegal size avoid base = true ↔
      base ≠ 0#32 ∧ base.toNat % 4 = 0 ∧ base.toNat + size ≤ memSize ∧
        ∀ r ∈ s.regions ++ [s.window, s.framebuffer] ++ avoid,
          Region.disjoint { base := base.toNat, size := size } r = true := by
  simp only [State.regionLegal, Bool.and_eq_true, bne_iff_ne, decide_eq_true_eq, List.all_eq_true]
  tauto

/-- The bytes of a range. -/
theorem Region.holds_iff (r : Region) (a : Nat) : r.holds a = true ↔ r.base ≤ a ∧ a < r.base + r.size := by
  simp [Region.holds]

/-- Two disjoint ranges share no byte. -/
theorem Region.not_both_of_disjoint {p q : Region} (h : Region.disjoint p q = true) {a : Nat}
    (hp : p.base ≤ a ∧ a < p.base + p.size) : ¬ (q.base ≤ a ∧ a < q.base + q.size) := by
  simp only [Region.disjoint, Bool.or_eq_true, beq_iff_eq, decide_eq_true_eq] at h
  omega

theorem Region.disjoint_comm (p q : Region) : Region.disjoint p q = Region.disjoint q p := by
  rw [Bool.eq_iff_iff]
  simp only [Region.disjoint, Bool.or_eq_true, beq_iff_eq, decide_eq_true_eq]
  omega

end Sys2Proof.Machine
end

