-- ==== Sys2Proof/Laws/Builder.lean ====
section
/-! SUPPORT. The chain builder: the chunks of a segment, the ring that BUILD's stores leave, what BUILD can do, and what
reading a segment list gives. -/
namespace Sys2Proof.Machine

/-! Sizing and splitting -/

/-- A segment has at least one chunk; all chunks but the last fall short of it, all of them cover it (rule R142). -/
theorem ceilDiv_bounds {len unit : Nat} (hu : 1 ≤ unit) (hl : 1 ≤ len) :
    1 ≤ ceilDiv len unit ∧ (ceilDiv len unit - 1) * unit < len ∧ len ≤ ceilDiv len unit * unit := by
  unfold ceilDiv
  have hd := Nat.div_add_mod (len + unit - 1) unit
  have hm := Nat.mod_lt (len + unit - 1) (show 0 < unit by omega)
  have h1 : 1 ≤ (len + unit - 1) / unit := (Nat.le_div_iff_mul_le (by omega)).mpr (by omega)
  obtain ⟨k, hk⟩ := Nat.exists_eq_add_of_le h1
  rw [hk] at hd ⊢
  rw [Nat.mul_add] at hd
  refine ⟨by omega, ?_, ?_⟩
  · rw [Nat.add_sub_cancel_left, Nat.mul_comm]; omega
  · rw [Nat.add_mul, Nat.mul_comm k]; omega

theorem Segment.split_length (unit : Nat) (g : Segment) : (g.split unit).length = g.chunkCount unit := by
  simp [Segment.split]

/-- The number of descriptors is the number of chunks (rule R141, rule R144). -/
theorem chunksOf_length (unit : Nat) (segments : List Segment) :
    (chunksOf unit segments).length = descriptorCount unit segments := by
  simp [chunksOf, descriptorCount, List.length_flatMap, Segment.split_length]

/-- A chunk is not empty, not longer than the unit, and inside its segment (rule R142). -/
theorem Segment.chunk_bounds {unit : Nat} {g : Segment} {c : Chunk} (hu : 1 ≤ unit) (hl : 1 ≤ g.len)
    (hc : c ∈ g.split unit) : 1 ≤ c.len ∧ c.len ≤ unit ∧ g.ptr ≤ c.addr ∧ c.addr + c.len ≤ g.ptr + g.len := by
  obtain ⟨h1, h2, h3⟩ : 1 ≤ g.chunkCount unit ∧ (g.chunkCount unit - 1) * unit < g.len ∧
    g.len ≤ g.chunkCount unit * unit := ceilDiv_bounds hu hl
  simp only [Segment.split, List.mem_map, List.mem_range] at hc
  obtain ⟨t, ht, rfl⟩ := hc
  have hmul : g.chunkCount unit * unit = (g.chunkCount unit - 1) * unit + unit := by
    obtain ⟨k, hk⟩ := Nat.exists_eq_add_of_le h1
    rw [hk, Nat.add_sub_cancel_left, Nat.add_mul]; omega
  simp only [Segment.chunk]
  by_cases hlast : t + 1 < g.chunkCount unit
  · have : (t + 1) * unit ≤ (g.chunkCount unit - 1) * unit := Nat.mul_le_mul_right _ (by omega)
    rw [Nat.add_mul, Nat.one_mul] at this
    simp only [if_pos hlast]
    omega
  · have ht' : t = g.chunkCount unit - 1 := by omega
    simp only [if_neg hlast]
    rw [ht']
    omega

/-- A ring of buildable segments has a descriptor. -/
theorem descriptorCount_pos {unit : Nat} {segments : List Segment} (hu : 1 ≤ unit) (hb : segmentsBuildable segments) :
    1 ≤ descriptorCount unit segments := by
  obtain ⟨hne, hl⟩ := hb
  obtain ⟨g, rest, rfl⟩ := List.exists_cons_of_ne_nil hne
  have := (ceilDiv_bounds hu (hl g (by simp))).1
  simp only [descriptorCount, List.map_cons, List.sum_cons, Segment.chunkCount]
  omega

/-! The stores of BUILD -/

/-- Word 0 as a number (30_encoding.md rule R117). -/
theorem descriptorWord0_toNat {len : Nat} (h : len < 4096) :
    (descriptorWord0 len).toNat = 0x80000000 + 4096 * len + len := by
  have h1 : len <<< 12 ||| len = len <<< 12 + len := (Nat.shiftLeft_add_eq_or_of_lt h len).symm
  have h2 : len <<< 12 = 4096 * len := by rw [Nat.shiftLeft_eq]; omega
  have h3 : 1 <<< 31 ||| (4096 * len + len) = 1 <<< 31 + (4096 * len + len) :=
    (Nat.shiftLeft_add_eq_or_of_lt (by omega) 1).symm
  simp only [descriptorWord0, BitVec.toNat_or, BitVec.toNat_shiftLeft, BitVec.toNat_ofNat, Nat.or_assoc]
  rw [Nat.mod_eq_of_lt (show len < 2 ^ 32 by omega), h2, Nat.mod_eq_of_lt (show 4096 * len < 2 ^ 32 by omega), ← h2, h1, h2]
  exact h3.trans (by omega)

/-- The stores of one descriptor fall into its 12 bytes. -/
theorem descriptorStores_inside {at_ : Nat} {c : Chunk} {link : Nat} {w : Store} (h : w ∈ descriptorStores at_ c link) :
    at_ ≤ w.addr ∧ w.addr + 4 ≤ at_ + 12 := by
  simp only [descriptorStores, nextField, List.mem_cons, List.not_mem_nil, or_false] at h
  rcases h with rfl | rfl | rfl <;> exact ⟨by simp, by simp⟩

/-- The stores of the fill pass fall into the pool. -/
theorem fillStores_inside {at_ : Nat} {chunks : List Chunk} {w : Store} (h : w ∈ fillStores at_ chunks) :
    at_ ≤ w.addr ∧ w.addr + 4 ≤ at_ + 12 * chunks.length := by
  induction chunks generalizing at_ with
  | nil => simp [fillStores] at h
  | cons c rest ih =>
    cases rest with
    | nil => exact descriptorStores_inside h
    | cons c' rest =>
      rcases List.mem_append.mp h with h | h
      · have := descriptorStores_inside h
        simp only [List.length_cons] at *; omega
      · have := ih h
        simp only [List.length_cons] at *; omega

/-- The three words of one descriptor after its stores. -/
theorem Memory.afterStores_descriptor (m : Memory) (at_ : Nat) (c : Chunk) (link : Nat) :
    (m.afterStores (descriptorStores at_ c link)).read at_ 4 = (descriptorWord0 c.len).toNat ∧
      (m.afterStores (descriptorStores at_ c link)).read (at_ + 4) 4 = c.addr % 2 ^ 32 ∧
      (m.afterStores (descriptorStores at_ c link)).read (at_ + 8) 4 = link % 2 ^ 32 := by
  simp only [descriptorStores, Memory.afterStores, nextField]
  refine ⟨?_, ?_, ?_⟩
  · rw [Memory.read_write_of_disjoint _ (.inl (by omega)), Memory.read_write_of_disjoint _ (.inl (by omega)),
      Memory.read_write_same]
    exact Nat.mod_eq_of_lt (descriptorWord0 c.len).isLt
  · rw [Memory.read_write_of_disjoint _ (.inl (by omega)), Memory.read_write_same, BitVec.toNat_ofNat]
    exact Nat.mod_mod _ _
  · rw [Memory.read_write_same, BitVec.toNat_ofNat]
    exact Nat.mod_mod _ _

/-- The descriptors after the fill pass: each one's chunk, and the link to the following one, null at the last
(rule R144, rule R145). -/
theorem Memory.afterStores_fill (m : Memory) (at_ : Nat) (chunks : List Chunk) (i : Nat) (h : i < chunks.length) :
    (m.afterStores (fillStores at_ chunks)).read (at_ + 12 * i) 4 = (descriptorWord0 chunks[i].len).toNat ∧
      (m.afterStores (fillStores at_ chunks)).read (at_ + 12 * i + 4) 4 = chunks[i].addr % 2 ^ 32 ∧
      (m.afterStores (fillStores at_ chunks)).read (at_ + 12 * i + 8) 4 =
        if i + 1 < chunks.length then (at_ + 12 * (i + 1)) % 2 ^ 32 else 0 := by
  induction chunks generalizing m at_ i with
  | nil => simp at h
  | cons c rest ih =>
    cases rest with
    | nil =>
      have : i = 0 := by simpa using h
      subst this
      simpa [fillStores] using Memory.afterStores_descriptor m at_ c 0
    | cons c' rest =>
      rw [fillStores, Memory.afterStores_append]
      cases i with
      | zero =>
        have hout : ∀ k, k ≤ 8 → Memory.read ((m.afterStores (descriptorStores at_ c (at_ + 12))).afterStores
            (fillStores (at_ + 12) (c' :: rest))) (at_ + k) 4 =
              (m.afterStores (descriptorStores at_ c (at_ + 12))).read (at_ + k) 4 := fun k hk =>
          Memory.read_afterStores _ fun w hw => by have := (fillStores_inside hw).1; omega
        obtain ⟨h0, h1, h2⟩ := Memory.afterStores_descriptor m at_ c (at_ + 12)
        exact ⟨(hout 0 (by omega)).trans h0, (hout 4 (by omega)).trans h1,
          ((hout 8 (by omega)).trans h2).trans (if_pos (by simp)).symm⟩
      | succ i =>
        have := ih (m.afterStores (descriptorStores at_ c (at_ + 12))) (at_ + 12) i (by simpa using h)
        have ha : at_ + 12 + 12 * i = at_ + 12 * (i + 1) := by omega
        have hb : at_ + 12 + 12 * (i + 1) = at_ + 12 * (i + 1 + 1) := by omega
        rw [ha, hb] at this
        simpa using this

/-- The stores of BUILD fall into the pool. -/
theorem buildStores_inside {pool : Word} {unit : Nat} {segments : List Segment}
    (hn : 1 ≤ descriptorCount unit segments) {w : Store} (h : w ∈ buildStores pool unit segments) :
    pool.toNat ≤ w.addr ∧ w.addr + 4 ≤ pool.toNat + 12 * descriptorCount unit segments := by
  rcases List.mem_append.mp h with h | h
  · rw [← chunksOf_length]; exact fillStores_inside h
  · rw [List.mem_singleton] at h
    subst h
    simp only [closingStore, nextField, descriptorAddr]
    omega

/-- The descriptors after BUILD: each one's chunk, and a link to the following one, the last one's to the first
(rule R144 to rule R146). -/
theorem Memory.afterStores_build (m : Memory) {pool : Word} {unit : Nat} {segments : List Segment}
    (hfit : pool.toNat + 12 * descriptorCount unit segments ≤ memSize) (i : Nat)
    (h : i < (chunksOf unit segments).length) :
    (m.afterStores (buildStores pool unit segments)).read (pool.toNat + 12 * i) 4 =
        (descriptorWord0 (chunksOf unit segments)[i].len).toNat ∧
      (m.afterStores (buildStores pool unit segments)).read (pool.toNat + 12 * i + 4) 4 =
        (chunksOf unit segments)[i].addr % 2 ^ 32 ∧
      (m.afterStores (buildStores pool unit segments)).read (pool.toNat + 12 * i + 8) 4 =
        pool.toNat + 12 * ((i + 1) % (chunksOf unit segments).length) := by
  obtain ⟨h0, h1, h2⟩ := Memory.afterStores_fill m pool.toNat (chunksOf unit segments) i h
  have hl := chunksOf_length unit segments
  have hp := pool.isLt
  simp only [buildStores, Memory.afterStores_append, Memory.afterStores, closingStore, nextField, descriptorAddr]
  rw [memSize] at hfit
  rw [Memory.read_write_of_disjoint _ (by omega), Memory.read_write_of_disjoint _ (by omega), h0, h1]
  refine ⟨rfl, rfl, ?_⟩
  by_cases hi : i + 1 < (chunksOf unit segments).length
  · rw [Memory.read_write_of_disjoint _ (by omega), h2, if_pos hi, Nat.mod_eq_of_lt hi]
    omega
  · have : i = descriptorCount unit segments - 1 := by omega
    subst this
    rw [Memory.read_write_same, show descriptorCount unit segments - 1 + 1 = (chunksOf unit segments).length by omega,
      Nat.mod_self]
    omega

/-- BUILD's stores leave a closed ring of the chunks (rule R144 to rule R146). -/
theorem Memory.isRing_build (m : Memory) {pool : Word} {unit : Nat} {segments : List Segment}
    (hfit : pool.toNat + 12 * descriptorCount unit segments ≤ memSize)
    (hc : ∀ c ∈ chunksOf unit segments, c.len < 4096 ∧ c.addr < memSize) :
    (m.afterStores (buildStores pool unit segments)).isRing pool.toNat (chunksOf unit segments) := by
  intro i h
  obtain ⟨h0, h1, h2⟩ := Memory.afterStores_build m hfit i h
  obtain ⟨hlen, haddr⟩ := hc _ (List.getElem_mem h)
  rw [Nat.mod_eq_of_lt (show _ < 2 ^ 32 from haddr)] at h1
  simp only [Memory.isDescriptor, h0, h1, h2, descriptorWord0_toNat hlen, beq_self_eq_true, Bool.and_self]

/-- BUILD's stores leave every byte outside the pool alone (rule R143). -/
theorem Memory.byte_build (m : Memory) {pool : Word} {unit : Nat} {segments : List Segment} {a : Nat}
    (hn : 1 ≤ descriptorCount unit segments)
    (ha : a < pool.toNat ∨ pool.toNat + 12 * descriptorCount unit segments ≤ a) :
    (m.afterStores (buildStores pool unit segments)).byte a = m.byte a :=
  Memory.byte_afterStores m fun w hw => by have := buildStores_inside hn hw; omega

/-! BUILD -/

/-- All BUILD can do: the allocator never answers; it fails, with nothing written; or the pool is granted, filled and
described in the ring registers (rule R143 to rule R147). -/
theorem State.build_cases (s : State) (slot : Slot) (segments : List Segment) (avoid : List Region)
    (hn : 1 ≤ descriptorCount s.unit segments) :
    s.build slot segments avoid = .stuck .allocatorSilent ∨
      s.build slot segments avoid = .over s.takeAnswer.allocFail ∨
      ∃ pool, s.regionLegal (poolBytes s.unit segments) avoid pool = true ∧
        s.build slot segments avoid =
          .on (State.setRing
            { s.takeAnswer with
              regions := { base := pool.toNat, size := poolBytes s.unit segments } :: s.regions
              mem :=
                (s.mem.forget { base := pool.toNat, size := poolBytes s.unit segments }).afterStores
                (buildStores pool s.unit segments) }
            slot (builtRing pool (descriptorCount s.unit segments))) := by
  unfold State.build
  rcases s.alloc_cases (poolBytes s.unit segments) avoid with h | h | ⟨pool, hp, h⟩
  · rw [h]; exact .inl rfl
  · rw [h]; exact .inr (.inl rfl)
  · rw [h]
    refine .inr (.inr ⟨pool, hp, ?_⟩)
    have hfit := ((s.regionLegal_iff _ _ _).mp hp).2.2.1
    simp only
    rw [State.storeAll_eq_on _ fun w hw => ?_]
    · simp [State.grant]
    · have := buildStores_inside hn hw
      unfold poolBytes at hfit
      omega

/-- BUILD with its pool granted by the next scripted answer. -/
theorem State.build_granted {s : State} {slot : Slot} {segments : List Segment} {avoid : List Region} {pool : Word}
    {rest : List AllocAnswer} (hn : 1 ≤ descriptorCount s.unit segments) (ha : s.allocAnswers = .region pool :: rest)
    (hp : s.regionLegal (poolBytes s.unit segments) avoid pool = true) :
    s.build slot segments avoid =
      .on (State.setRing
        { s with
          allocAnswers := rest
          regions := { base := pool.toNat, size := poolBytes s.unit segments } :: s.regions
          mem :=
            (s.mem.forget { base := pool.toNat, size := poolBytes s.unit segments }).afterStores
                (buildStores pool s.unit segments) }
        slot (builtRing pool (descriptorCount s.unit segments))) := by
  have hfit := ((s.regionLegal_iff _ _ _).mp hp).2.2.1
  unfold State.build
  rw [State.alloc_region ha hp]
  simp only
  rw [State.storeAll_eq_on _ fun w hw => ?_]
  · rfl
  · have := buildStores_inside hn hw
    unfold poolBytes at hfit
    omega

/-- BUILD with its pool refused by the next scripted answer (rule R143, 60_exceptions.md rule R283). -/
theorem State.build_refused {s : State} (slot : Slot) (segments : List Segment) (avoid : List Region)
    {rest : List AllocAnswer} (ha : s.allocAnswers = .fail :: rest) :
    s.build slot segments avoid = .over ({ s with allocAnswers := rest } : State).allocFail := by
  unfold State.build
  rw [State.alloc_fail _ _ ha]

/-! The segment list -/

/-- Reading on from an entry in memory: what its class says (rule R148). -/
theorem readList_succ {m : Memory} {list fuel : Nat} {got : List Segment}
    (h : list + 8 * got.length + 8 ≤ memSize) :
    readList m list (fuel + 1) got =
      match m.entryClass list got.length with
      | .sentinel => .read got
      | .invalid => .bad (Error.badEntry got.length)
      | .segment => readList m list fuel (got ++ [m.listEntry list got.length]) := by
  have h1 : m.load (entryAddr list got.length) 4 = some (m.read (list + 8 * got.length) 4) :=
    Memory.load_eq_some.mpr ⟨by simp only [entryAddr]; omega, rfl⟩
  have h2 : m.load (entryAddr list got.length + 4) 4 = some (m.read (list + 8 * got.length + 4) 4) :=
    Memory.load_eq_some.mpr ⟨by simp only [entryAddr]; omega, rfl⟩
  rw [readList, h1, h2]
  rfl

/-- Reading past entries that are all segments. -/
theorem readList_segments {m : Memory} {list fuel : Nat} (n : Nat) {got : List Segment}
    (hmem : list + 8 * (got.length + n) ≤ memSize)
    (hseg : ∀ i, got.length ≤ i → i < got.length + n → m.entryClass list i = .segment) :
    readList m list (fuel + n) got =
      readList m list fuel (got ++ (List.range' got.length n).map (m.listEntry list)) := by
  induction n generalizing got with
  | zero => simp
  | succ n ih =>
    rw [show fuel + (n + 1) = fuel + n + 1 by omega, readList_succ (by omega), hseg _ (by omega) (by omega)]
    simp only
    rw [ih (by simp; omega) (fun i h1 h2 => hseg i (by simp at h1; omega) (by simp at h2; omega))]
    simp [List.range'_succ]

/-- The first entries of a list that are all segments, read (rule R148). -/
theorem readList_prefix {m : Memory} {list j : Nat} (hj : j ≤ maxSegments) (hmem : list + 8 * j ≤ memSize)
    (hseg : ∀ i, i < j → m.entryClass list i = .segment) :
    readList m list maxSegments [] = readList m list (maxSegments - j) (m.listEntries list j) := by
  have := readList_segments (m := m) (list := list) (fuel := maxSegments - j) j (got := []) (by simpa using hmem)
    (fun i _ h => hseg i (by simpa using h))
  rw [Nat.sub_add_cancel hj] at this
  rw [this, Memory.listEntries, List.range_eq_range']
  rfl

@[simp] theorem Memory.listEntries_length (m : Memory) (list n : Nat) : (m.listEntries list n).length = n := by
  simp [Memory.listEntries]

/-- A list that ends with a sentinel is read whole. -/
theorem readList_sentinel {m : Memory} {list j : Nat} (hj : j ≤ 255) (hmem : list + 8 * j + 8 ≤ memSize)
    (hseg : ∀ i, i < j → m.entryClass list i = .segment) (hend : m.entryClass list j = .sentinel) :
    readList m list maxSegments [] = .read (m.listEntries list j) := by
  rw [readList_prefix (by unfold maxSegments; omega) (by omega) hseg,
    show maxSegments - j = (255 - j) + 1 by unfold maxSegments; omega,
    readList_succ (by simp; omega), Memory.listEntries_length, hend]

/-- A list with an invalid entry is bad, by that entry's index (rule R148 check 6). -/
theorem readList_invalid {m : Memory} {list j : Nat} (hj : j ≤ 255) (hmem : list + 8 * j + 8 ≤ memSize)
    (hseg : ∀ i, i < j → m.entryClass list i = .segment) (hbad : m.entryClass list j = .invalid) :
    readList m list maxSegments [] = .bad (Error.badEntry j) := by
  rw [readList_prefix (by unfold maxSegments; omega) (by omega) hseg,
    show maxSegments - j = (255 - j) + 1 by unfold maxSegments; omega,
    readList_succ (by simp; omega), Memory.listEntries_length, hbad]

/-- A list with no sentinel in 256 entries is bad (rule R148 check 7). -/
theorem readList_endless {m : Memory} {list : Nat} (hmem : list + 8 * 256 ≤ memSize)
    (hseg : ∀ i, i < 256 → m.entryClass list i = .segment) :
    readList m list maxSegments [] = .bad (Error.config 7#8) := by
  rw [readList_prefix (Nat.le_refl _) hmem hseg, Nat.sub_self]
  rfl

/-- What an entry of class `segment` is (30_encoding.md rule R121). -/
theorem Memory.entryClass_segment {m : Memory} {list i : Nat} (h : m.entryClass list i = .segment) :
    (m.listEntry list i).ptr ≠ 0 ∧ 1 ≤ (m.listEntry list i).len ∧
      (m.listEntry list i).ptr + (m.listEntry list i).len ≤ memSize := by
  unfold Memory.entryClass classify at h
  split at h
  · cases h
  · split at h
    · cases h
    · omega

/-- The entries read of a list: at least one, unless no fuel is left. -/
theorem Memory.listLength_bounds (m : Memory) (list fuel j : Nat) :
    j ≤ m.listLength list fuel j ∧ m.listLength list fuel j ≤ j + fuel ∧ (0 < fuel → j < m.listLength list fuel j) := by
  induction fuel generalizing j with
  | zero => simp [Memory.listLength]
  | succ n ih =>
    have := ih (j + 1)
    simp only [Memory.listLength]
    split <;> omega

/-- How long a list is depends only on the bytes of the entries read (20_memory.md rule R79). -/
theorem Memory.listLength_congr {m m' : Memory} {list fuel j : Nat}
    (h : ∀ b, list + 8 * j ≤ b → b < list + 8 * m.listLength list fuel j → m'.byte b = m.byte b) :
    m'.listLength list fuel j = m.listLength list fuel j := by
  induction fuel generalizing j with
  | zero => rfl
  | succ n ih =>
    have hj := (m.listLength_bounds list (n + 1) j).2.2 (by omega)
    have h1 : m'.read (list + 8 * j) 4 = m.read (list + 8 * j) 4 :=
      Memory.read_congr fun b h1 h2 => h b (by omega) (by omega)
    have h2 : m'.read (list + 8 * j + 4) 4 = m.read (list + 8 * j + 4) 4 :=
      Memory.read_congr fun b h1 h2 => h b (by omega) (by omega)
    have hc : m'.entryClass list j = m.entryClass list j := by simp only [Memory.entryClass, Memory.listEntry, h1, h2]
    simp only [Memory.listLength] at h ⊢
    rw [hc]
    cases hs : m.entryClass list j with
    | segment => rw [hs] at h; exact ih fun b h1 h2 => h b (by omega) h2
    | sentinel => rfl
    | invalid => rfl

/-- The list SEGLIST names is the same in memories that agree on its bytes. -/
theorem State.namedList_congr {s t : State} (hl : t.seglist = s.seglist)
    (h : ∀ b, s.namedList.base ≤ b → b < s.namedList.base + s.namedList.size → t.mem.byte b = s.mem.byte b) :
    t.namedList = s.namedList := by
  unfold State.namedList at h ⊢
  rw [hl]
  by_cases h0 : s.seglist = 0#32 ∨ s.seglist.toNat % 4 ≠ 0
  · rw [if_pos h0, if_pos h0]
  · rw [if_neg h0] at h
    rw [if_neg h0, if_neg h0, Memory.listLength_congr fun b h1 h2 => h b (by simpa using h1) h2]

/-- A list that ends with a sentinel is its entries and the sentinel: what BUILD_RING reads is the list SEGLIST names
(30_encoding.md rule R120). -/
theorem Memory.listLength_sentinel {m : Memory} {list j : Nat} (hj : j ≤ 255)
    (hseg : ∀ i, i < j → m.entryClass list i = .segment) (hend : m.entryClass list j = .sentinel) :
    m.listLength list maxSegments 0 = j + 1 := by
  have go : ∀ n fuel i, i + n = j → n < fuel → m.listLength list fuel i = j + 1 := by
    intro n
    induction n with
    | zero =>
      intro fuel i hi hf
      obtain ⟨k, rfl⟩ := Nat.exists_eq_add_of_lt hf
      rw [show i = j by omega]
      simp [Memory.listLength, hend]
    | succ n ih =>
      intro fuel i hi hf
      obtain ⟨k, rfl⟩ := Nat.exists_eq_add_of_lt hf
      rw [show n + 1 + k + 1 = (n + k + 1) + 1 by omega, Memory.listLength, hseg i (by omega)]
      exact ih _ _ (by omega) (by omega)
  exact go j _ 0 (by omega) (by unfold maxSegments; omega)

/-- Every segment of a list read to its sentinel has a byte: reading never takes in an empty one (rule R148). -/
theorem readList_read {m : Memory} {list fuel : Nat} {got segments : List Segment}
    (h : readList m list fuel got = .read segments) (hg : ∀ g ∈ got, 1 ≤ g.len) : ∀ g ∈ segments, 1 ≤ g.len := by
  induction fuel generalizing got with
  | zero => cases h
  | succ n ih =>
    rw [readList] at h
    split at h
    · rename_i ptr len _ _
      unfold classify at h
      by_cases h1 : ptr = 0 ∧ len = 0
      · rw [if_pos h1] at h; cases h; exact hg
      · by_cases h2 : ptr = 0 ∨ len = 0 ∨ memSize < ptr + len
        · rw [if_neg h1, if_pos h2] at h; cases h
        · rw [if_neg h1, if_neg h2] at h
          refine ih h fun g hgm => ?_
          rcases List.mem_append.mp hgm with hgm | hgm
          · exact hg g hgm
          · rw [List.mem_singleton] at hgm
            subst hgm
            show 1 ≤ len
            omega
    · cases h

/-- The checks of a list read to its sentinel (rule R148 checks 8 and 11). -/
theorem checkList_eq_none {unit : Nat} {segments : List Segment} :
    checkList unit segments = none ↔ segments ≠ [] ∧ poolBytes unit segments < memSize := by
  unfold checkList
  by_cases h1 : segments = []
  · simp [h1]
  · by_cases h2 : memSize ≤ poolBytes unit segments
    · simp [h1, h2]
    · simp [h1, h2]; omega

/-- The register checks of BUILD_RING pass exactly in READY, on a slot that exists, with an aligned list (rule R148). -/
theorem checkBuildRing_eq_none {slot : Slot} {s : State} :
    checkBuildRing slot s = none ↔
      s.phase = .ready ∧ s.slotExists slot = true ∧ s.seglist ≠ 0#32 ∧ s.seglist.toNat % 4 = 0 := by
  unfold checkBuildRing State.slotExists
  cases hp : s.phase <;> cases hd : s.double <;> cases slot <;> simp_all

end Sys2Proof.Machine
end

