-- ==== Sys2Proof/Laws/Flip.lean ====
section
/-! SUPPORT. START and ACTIVATE: what their checks admit, and what their link stores leave. -/
namespace Sys2Proof.Machine

/-- Aligned stores of one value: each address holds it at the end, whichever of them coincide. -/
theorem Memory.read_afterStores_value (m : Memory) {ws : List Store} {v : Word} (hv : ∀ w ∈ ws, w.value = v)
    (ha : ∀ w ∈ ws, w.addr % 4 = 0) {w : Store} (hw : w ∈ ws) : (m.afterStores ws).read w.addr 4 = v.toNat := by
  induction ws generalizing m w with
  | nil => simp at hw
  | cons w0 rest ih =>
    have hv' : ∀ x ∈ rest, x.value = v := fun x hx => hv x (List.mem_cons_of_mem _ hx)
    have ha' : ∀ x ∈ rest, x.addr % 4 = 0 := fun x hx => ha x (List.mem_cons_of_mem _ hx)
    by_cases hex : ∃ x ∈ rest, x.addr = w.addr
    · obtain ⟨x, hx, hxw⟩ := hex
      rw [← hxw]
      exact ih _ hv' ha' hx
    · push Not at hex
      rcases List.mem_cons.mp hw with rfl | hr
      · rw [Memory.afterStores, Memory.read_afterStores _ fun x hx => ?_, Memory.read_write_same, hv w hw]
        · exact Nat.mod_eq_of_lt v.isLt
        · have h1 := ha w hw
          have h2 := ha' x hx
          have h3 := hex x hx
          omega
      · exact absurd rfl (hex w hr)

/-- The link stores name the head, at the `next` words of the tails (41_flip.md rule R170, rule R175). -/
theorem State.linkStore_eq (s : State) (head : Word) (slot : Slot) :
    s.linkStore head slot = { addr := (s.tailLink slot).base, value := head } := rfl

theorem State.mem_startStores {s : State} {slot : Slot} {w : Store} :
    w ∈ s.startStores slot ↔ ∃ x ∈ s.slots, s.linkStore (s.ring slot).head x = w := by
  simp [State.startStores]

/-- Slot 0 always exists, slot 1 in double mode (00_scope.md rule R13). -/
theorem State.mem_slots {s : State} {slot : Slot} : slot ∈ s.slots ↔ s.slotExists slot = true := by
  unfold State.slots State.slotExists
  cases s.double <;> cases slot <;> decide

theorem State.slots_of_double {s : State} (h : s.double = true) : s.slots = [.zero, .one] := by
  simp [State.slots, h]

/-- START's checks pass exactly in READY, on a slot that exists (rule R170). -/
theorem checkStart_eq_none {slot : Slot} {s : State} :
    checkStart slot s = none ↔ s.phase = .ready ∧ s.slotExists slot = true := by
  unfold checkStart State.slotExists
  cases hp : s.phase <;> cases hd : s.double <;> cases slot <;> simp_all

/-- ACTIVATE's checks in double mode pass exactly in READY and RUNNING (rule R175). -/
theorem checkActivate_eq_none {s : State} :
    checkActivateState s = none ∧ checkActivate s = none ↔ s.isSetUp = true := by
  unfold checkActivateState checkActivate State.isSetUp
  cases hp : s.phase <;> simp_all

/-- Stores at the tails' links, all naming one head: every tail names it at the end, and no other byte changes. -/
theorem State.links_after (s : State) {slots : List Slot} (head : Word)
    (ha : ∀ x ∈ slots, (s.ring x).tail.toNat % 4 = 0) :
    (∀ x ∈ slots, (s.mem.afterStores (slots.map (s.linkStore head))).nextOf (s.ring x).tail.toNat = head.toNat) ∧
      ∀ a, (∀ x ∈ slots, Region.holds (s.tailLink x) a = false) →
        (s.mem.afterStores (slots.map (s.linkStore head))).byte a = s.mem.byte a := by
  constructor
  · intro x hx
    refine Memory.read_afterStores_value s.mem (w := s.linkStore head x) ?_ ?_ (List.mem_map_of_mem hx)
    · intro w hw
      obtain ⟨y, _, rfl⟩ := List.mem_map.mp hw
      rfl
    · intro w hw
      obtain ⟨y, hy, rfl⟩ := List.mem_map.mp hw
      have := ha y hy
      simp only [State.linkStore, nextField]
      omega
  · intro a h
    refine Memory.byte_afterStores _ fun w hw => ?_
    obtain ⟨y, hy, rfl⟩ := List.mem_map.mp hw
    have := h y hy
    rw [Bool.eq_false_iff, ne_eq, Region.holds_iff] at this
    simp only [State.tailLink] at this
    simp only [State.linkStore]
    omega

end Sys2Proof.Machine
end

