-- ==== Sys2Proof/Laws/Scheduler.lean ====
section
/-! SUPPORT. The scheduler: the minimum counter, and the lengths and entries of the tables SCHED leaves. -/
namespace Sys2Proof.Machine

/-- The minimum counter is one of the counters. -/
theorem leastCount_mem {counts : List Nat} (h : counts ≠ []) : leastCount counts ∈ counts := by
  induction counts with
  | nil => exact absurd rfl h
  | cons c rest ih =>
    cases rest with
    | nil => simp [leastCount]
    | cons c' rest =>
      simp only [leastCount]
      rcases Nat.le_total c (leastCount (c' :: rest)) with hle | hle
      · rw [Nat.min_eq_left hle]; simp
      · rw [Nat.min_eq_right hle]; exact List.mem_cons_of_mem _ (ih (by simp))

/-- No counter is below the minimum. -/
theorem leastCount_le {counts : List Nat} {c : Nat} (h : c ∈ counts) : leastCount counts ≤ c := by
  induction counts with
  | nil => simp at h
  | cons d rest ih =>
    cases rest with
    | nil => simp at h; simp [leastCount, h]
    | cons d' rest =>
      simp only [leastCount]
      rcases List.mem_cons.mp h with rfl | h
      · exact Nat.min_le_left _ _
      · exact Nat.le_trans (Nat.min_le_right _ _) (ih h)

/-- The plane picked is one of the planes. -/
theorem pickPlane_lt {counts : List Nat} (h : counts ≠ []) : pickPlane counts < counts.length :=
  List.findIdx_lt_length_of_exists ⟨_, leastCount_mem h, by simp⟩

@[simp] theorem bumpCount_length (planes : Nat) (counts : List Nat) (q : Nat) :
    (bumpCount planes counts q).length = counts.length := by simp [bumpCount]

/-- One plane is placed at each position, and no counter is lost. -/
theorem placePlanes_length (planes positions : Nat) (counts : List Nat) :
    (placePlanes planes positions counts).1.length = positions ∧
      (placePlanes planes positions counts).2.length = counts.length := by
  induction positions generalizing counts with
  | zero => exact ⟨rfl, rfl⟩
  | succ n ih =>
    have := ih (bumpCount planes counts (pickPlane counts))
    simp only [placePlanes, List.length_cons, this.1, this.2, bumpCount_length, and_self]

/-- Every plane placed is one of the planes. -/
theorem placePlanes_lt {planes positions : Nat} {counts : List Nat} (h : counts ≠ []) :
    ∀ q ∈ (placePlanes planes positions counts).1, q < counts.length := by
  induction positions generalizing counts with
  | zero => simp [placePlanes]
  | succ n ih =>
    intro q hq
    have hne : bumpCount planes counts (pickPlane counts) ≠ [] := by
      rw [ne_eq, ← List.length_eq_zero_iff, bumpCount_length, List.length_eq_zero_iff]; exact h
    simp only [placePlanes, List.mem_cons] at hq
    rcases hq with rfl | hq
    · exact pickPlane_lt h
    · simpa using ih hne q hq

/-- The ordering has 2^B − 1 positions (43_scheduler.md rule R231). -/
@[simp] theorem ordering_length (planes : Nat) : (ordering planes).length = 2 ^ planes - 1 :=
  (placePlanes_length ..).1

/-- Every entry of the ordering is a plane (30_encoding.md rule R123). -/
theorem ordering_lt {planes q : Nat} (h : q ∈ ordering planes) : q < planes := by
  cases planes with
  | zero => simp [ordering, sched, placePlanes, orderLength] at h
  | succ n =>
    have := placePlanes_lt (counts := List.replicate (n + 1) 0) (by simp) q h
    simpa using this

theorem two_pow_sub_one_le {planes : Nat} (h : planes ≤ 8) : 2 ^ planes - 1 ≤ 255 := by
  have := Nat.pow_le_pow_right (n := 2) (by omega) h
  omega

/-- ORDER has 255 entries (10_state.md rule R57). -/
theorem orderTable_length {planes : Nat} (h : planes ≤ 8) : (orderTable planes).length = orderEntries := by
  have := two_pow_sub_one_le h
  simp only [orderTable, List.length_append, List.length_map, ordering_length, List.length_replicate, orderEntries]
  omega

/-- The entries of ORDER: the ordering, then 0 (43_scheduler.md rule R231). -/
theorem orderTable_getD (planes k : Nat) :
    (orderTable planes).getD k 0#4 =
      if k < 2 ^ planes - 1 then BitVec.ofNat 4 ((ordering planes).getD k 0) else 0#4 := by
  unfold orderTable
  split
  · rename_i h
    rw [List.getD_append _ _ _ _ (by simpa using h)]
    simp [List.getD_eq_getElem?_getD, List.getElem?_eq_getElem (show k < (ordering planes).length by simpa using h)]
  · rename_i h
    rw [List.getD_append_right _ _ _ _ (by simpa using h)]
    simp only [List.getD_eq_getElem?_getD, List.getElem?_replicate]
    split <;> rfl

/-- There are 8 counters (10_state.md rule R59). -/
theorem countTable_length {planes : Nat} {old : List (BitVec 16)} (h : planes ≤ 8) (ho : old.length = counterEntries) :
    (countTable planes old).length = counterEntries := by
  have : (sched planes).2.length = planes := by simpa [sched] using (placePlanes_length planes (orderLength planes) (List.replicate planes 0)).2
  simp only [countTable, List.length_append, List.length_map, this, List.length_drop, ho, counterEntries]
  omega

/-- The first 2^B − 1 entries of ORDER name the planes of the ordering (43_scheduler.md rule R237). -/
theorem orderTable_planes {planes : Nat} (h : planes ≤ 8) :
    ((orderTable planes).take (2 ^ planes - 1)).map BitVec.toNat = ordering planes := by
  have hl : ((ordering planes).map (BitVec.ofNat 4)).length = 2 ^ planes - 1 := by simp
  rw [orderTable, ← hl, List.take_left, List.map_map]
  have hid : (ordering planes).map (BitVec.toNat ∘ BitVec.ofNat 4) = (ordering planes).map id :=
    List.map_congr_left fun q hq => by
      have := ordering_lt hq
      simp only [Function.comp, BitVec.toNat_ofNat, id]
      exact Nat.mod_eq_of_lt (by omega)
  rw [hid, List.map_id]

/-- The checks SCHEDULE makes leave a plane count in 1 .. 8 (43_scheduler.md rule R230). -/
theorem checkSchedule_eq_none {s : State} :
    checkSchedule s = none ↔ s.phase ≠ .failed ∧ 1 ≤ s.planes ∧ s.planes ≤ 8 := by
  unfold checkSchedule
  by_cases h1 : s.phase = .failed
  · simp [h1]
  · by_cases h2 : s.planes = 0 ∨ 8 < s.planes
    · simp only [h1, h2, if_true, if_false]; simp; omega
    · rw [if_neg h1, if_neg h2]
      exact ⟨fun _ => ⟨h1, by omega, by omega⟩, fun _ => rfl⟩

end Sys2Proof.Machine
end

