-- ==== Sys2Proof/Laws/Control.lean ====
section
/-! SUPPORT. SETUP: what its checks admit, the segments it builds rings of, and that the law of a region looks at no
more of the state than the allocator's record, the window and the framebuffer. -/
namespace Sys2Proof.Machine

/-- The bounds of a legal configuration (00_scope.md rule R8 to rule R11). -/
theorem State.configLegal_bounds {s : State} (h : s.configLegal = true) :
    2 ≤ s.panelWidth ∧ 2 ≤ s.panelHeight ∧ s.panelHeight % 2 = 0 ∧ s.panelHeight ≤ 32 ∧ 1 ≤ s.planes ∧ s.planes ≤ 8 ∧
      2 ≤ s.unit ∧ s.unit ≤ 4094 := by
  simp only [State.configLegal, Bool.and_eq_true, decide_eq_true_eq] at h
  omega

/-- SETUP's checks pass exactly in UNCONFIGURED with a legal configuration (44_setup_control.md rule R250, rule R251). -/
theorem checkSetup_eq_none {s : State} : checkSetup s = none ↔ s.phase = .unconfigured ∧ s.configLegal = true := by
  simp only [State.configLegal, Bool.and_eq_true, decide_eq_true_eq]
  unfold checkSetup
  by_cases h0 : s.phase ≠ .unconfigured
  · rw [if_pos h0]
    exact ⟨fun h => (by cases h), fun h => absurd h.1 h0⟩
  rw [if_neg h0]
  by_cases h1 : s.panelWidth < 2
  · rw [if_pos h1]
    exact ⟨fun h => (by cases h), fun h => by omega⟩
  rw [if_neg h1]
  by_cases h2 : s.panelHeight % 2 ≠ 0 ∨ s.panelHeight < 2 ∨ 32 < s.panelHeight
  · rw [if_pos h2]
    exact ⟨fun h => (by cases h), fun h => by omega⟩
  rw [if_neg h2]
  by_cases h3 : s.planes = 0 ∨ 8 < s.planes
  · rw [if_pos h3]
    exact ⟨fun h => (by cases h), fun h => by omega⟩
  rw [if_neg h3]
  by_cases h4 : s.unit % 2 ≠ 0 ∨ s.unit < 2 ∨ 4094 < s.unit
  · rw [if_pos h4]
    exact ⟨fun h => (by cases h), fun h => by omega⟩
  rw [if_neg h4]
  by_cases h5 : s.limitLegal = false
  · rw [if_pos h5]
    exact ⟨fun h => (by cases h), fun h => by simp [h5] at h⟩
  rw [if_neg h5]
  refine ⟨fun _ => ⟨not_not.mp h0, ⟨⟨⟨⟨by omega, by omega, by omega⟩, by omega, by omega⟩, ?_⟩, by simpa using h5⟩⟩,
    fun _ => rfl⟩
  omega

/-- The law of a region looks only at the allocator's record, the window and the framebuffer. -/
theorem State.regionLegal_congr {s t : State} (h1 : s.regions = t.regions) (h2 : s.params = t.params)
    (h3 : s.fbBase = t.fbBase) (h4 : s.width = t.width) (h5 : s.height = t.height) (size : Nat) (avoid : List Region)
    (base : Word) : s.regionLegal size avoid base = t.regionLegal size avoid base := by
  simp only [State.regionLegal, State.window, State.framebuffer, h1, h2, h3, h4, h5]

/-- Segments of one length: the count is the number of segments times the chunks of one (00_scope.md rule R15, NDESC). -/
theorem descriptorCount_map_const {unit len : Nat} (planes : List Nat) {f : Nat → Segment}
    (hf : ∀ p, (f p).len = len) : descriptorCount unit (planes.map f) = planes.length * ceilDiv len unit := by
  induction planes with
  | nil => simp [descriptorCount]
  | cons p rest ih =>
    simp only [descriptorCount, List.map_cons, List.sum_cons, List.length_cons] at *
    rw [ih]
    simp only [Segment.chunkCount, hf]
    rw [Nat.add_mul]
    omega

/-- The chunks of segments that lie in memory fit a descriptor (30_encoding.md rule R118). -/
theorem chunksOf_fit {unit : Nat} {segments : List Segment} (hu : 1 ≤ unit) (hu' : unit < 4096)
    (h : ∀ g ∈ segments, 1 ≤ g.len ∧ g.ptr + g.len ≤ memSize) {c : Chunk} (hc : c ∈ chunksOf unit segments) :
    c.len < 4096 ∧ c.addr < memSize := by
  obtain ⟨g, hg, hcg⟩ := List.mem_flatMap.mp hc
  obtain ⟨h1, h2⟩ := h g hg
  have := Segment.chunk_bounds hu h1 hcg
  omega

/-- After SCHED the segments SETUP builds a ring of are the planes of the ordering (rule R253, 43_scheduler.md
rule R237). -/
theorem State.setupSegments_of_sched {s : State} (slot : Slot) (hp : s.planes ≤ 8) (ho : s.order = orderTable s.planes) :
    s.setupSegments slot =
      (ordering s.planes).map fun p => { ptr := s.planeBase slot p, len := s.planeBytes } := by
  unfold State.setupSegments State.orderPlanes
  rw [ho, orderLength, orderTable_planes hp]

/-- SETUP's arena call granted by the next scripted answer (rule R252). -/
theorem State.allocArena_granted {s : State} {arena : Word} {rest : List AllocAnswer}
    (ha : s.allocAnswers = .region arena :: rest) (hr : s.regionLegal s.arenaBytes [s.namedList] arena = true) :
    s.allocArena =
      .on
        { s with
          allocAnswers := rest
          regions := { base := arena.toNat, size := s.arenaBytes } :: s.regions
          mem := s.mem.forget { base := arena.toNat, size := s.arenaBytes }
          bpBase := arena } := by
  unfold State.allocArena
  rw [State.alloc_region ha hr]
  rfl

/-- All SETUP's arena call can do (rule R252, rule R256). -/
theorem State.allocArena_cases (s : State) :
    s.allocArena = .stuck .allocatorSilent ∨ s.allocArena = .over s.takeAnswer.allocFail ∨
      ∃ arena, s.regionLegal s.arenaBytes [s.namedList] arena = true ∧
        s.allocArena =
          .on { s.takeAnswer.grant { base := arena.toNat, size := s.arenaBytes } with bpBase := arena } := by
  unfold State.allocArena
  rcases s.alloc_cases s.arenaBytes [s.namedList] with h | h | ⟨arena, hr, h⟩
  · rw [h]; exact .inl rfl
  · rw [h]; exact .inr (.inl rfl)
  · rw [h]; exact .inr (.inr ⟨arena, hr, rfl⟩)

end Sys2Proof.Machine
end

