-- ==== Sys2Proof/Laws/Decode.lean ====
section
/-! SUPPORT. The fields of an encoding, and what a word decodes to by its fields. -/
namespace Sys2Proof

/-- The four fields of a command's word (30_encoding.md rule R100). -/
theorem encode_fields (i : Instr) :
    (encode i).extractLsb' 4 4 = 0#4 ∧ (encode i).extractLsb' 9 23 = 0#23 ∧
      (encode i).extractLsb' 0 4 = opcode i ∧ (encode i).extractLsb' 8 1 = slotBit i := by
  cases i with
  | nop => decide
  | setup => decide
  | schedule => decide
  | buildRing s => cases s <;> decide
  | start s => cases s <;> decide
  | activate s => cases s <;> decide
  | encode s => cases s <;> decide

/-- A word is its four fields put together. -/
theorem word_eq_fields (w : Word) :
    w = w.extractLsb' 9 23 ++ w.extractLsb' 8 1 ++ w.extractLsb' 4 4 ++ w.extractLsb' 0 4 := by
  apply BitVec.eq_of_getLsbD_eq
  intro i hi
  simp only [BitVec.getLsbD_append, BitVec.getLsbD_extractLsb']
  by_cases h0 : i < 4
  · simp [h0]
  by_cases h1 : i < 8
  · have : i - 4 < 4 := by omega
    simp [h0, this, show 4 + (i - 4) = i by omega]
  by_cases h2 : i < 9
  · simp [show i = 8 by omega]
  · have a : ¬ i - 4 < 4 := by omega
    have b : i - 4 - 4 ≠ 0 := by omega
    simp [h0, a, b, show i - 4 - 4 - 1 < 23 by omega, show 9 + (i - 4 - 4 - 1) = i by omega]

/-- The slot field holds the slot's bit. -/
theorem slotField_bit (w : Word) : (slotField w).bit = w.extractLsb' 8 1 := by
  unfold slotField
  split
  · rename_i h; rw [h]; rfl
  · rename_i h
    generalize w.extractLsb' 8 1 = b at h
    revert b; decide

/-- A slot is known by its bit. -/
theorem Slot.bit_injective {s t : Slot} (h : s.bit = t.bit) : s = t := by
  cases s <;> cases t <;> first | rfl | exact absurd h (by decide)

/-- A word with a reserved bit set is illegal (rule R103). -/
theorem decode_of_reserved {w : Word} (h : ¬ (w.extractLsb' 4 4 = 0#4 ∧ w.extractLsb' 9 23 = 0#23)) :
    decode w = .illegal .reservedBits := if_neg h

/-- A word with no reserved bit set decodes by its opcode (rule R101). -/
theorem decode_of_clear {w : Word} (h : w.extractLsb' 4 4 = 0#4 ∧ w.extractLsb' 9 23 = 0#23) :
    decode w = decodeOp w := if_pos h

/-- The encoding of a command is a legal word (rule R105). -/
theorem legalWord_encode (i : Instr) : legalWord (encode i) = true := by
  cases i with
  | nop => decide
  | setup => decide
  | schedule => decide
  | buildRing s => cases s <;> decide
  | start s => cases s <;> decide
  | activate s => cases s <;> decide
  | encode s => cases s <;> decide

end Sys2Proof
end

