-- ==== Sys2Proof/Laws/Encoder.lean ====
section
/-! SUPPORT. ENCODE: where its words stand, what its checks admit, and what its words leave in memory. -/
namespace Sys2Proof.Machine

/-! Places -/

theorem State.mem_places {s : State} {w : WordPlace} :
    w ∈ s.places ↔ w.plane < s.planes ∧ w.row < s.rows ∧ w.col < s.panelWidth := by
  obtain ⟨p, r, c⟩ := w
  simp [State.places, List.mem_flatMap, List.mem_map, List.mem_range]

/-- A word's index in its buffer: 2 × (index + 1) bytes do not exceed the buffer (20_memory.md rule R76). -/
theorem State.wordIndex_lt {s : State} {row col : Nat} (hr : row < s.rows) (hc : col < s.panelWidth) :
    2 * (row * s.panelWidth + col) + 2 ≤ s.planeBytes := by
  have h1 : (row + 1) * s.panelWidth ≤ s.rows * s.panelWidth := Nat.mul_le_mul_right _ hr
  have h2 : 2 * s.rows ≤ s.panelHeight := Nat.mul_div_le s.panelHeight 2
  have h3 : 2 * s.rows * s.panelWidth ≤ s.panelHeight * s.panelWidth := Nat.mul_le_mul_right _ h2
  rw [Nat.add_mul, Nat.one_mul] at h1
  rw [Nat.mul_assoc, Nat.mul_comm s.panelHeight] at h3
  unfold State.planeBytes
  omega

/-- The word's two bytes are inside its slot's buffers (42_encoder.md rule R210). -/
theorem State.wordAddr_inside {s : State} (slot : Slot) {w : WordPlace} (h : w ∈ s.places) :
    (s.slotBuffers slot).base ≤ s.wordAddr slot w.plane w.row w.col ∧
      s.wordAddr slot w.plane w.row w.col + 2 ≤ (s.slotBuffers slot).base + (s.slotBuffers slot).size := by
  obtain ⟨hp, hr, hc⟩ := State.mem_places.mp h
  have h1 := State.wordIndex_lt hr hc
  have h2 : (w.plane + 1) * s.planeBytes ≤ s.planes * s.planeBytes := Nat.mul_le_mul_right _ hp
  rw [Nat.add_mul, Nat.one_mul] at h2
  simp only [State.slotBuffers, State.wordAddr, State.planeBase, Nat.add_zero, Nat.add_mul]
  omega

/-- Two words of a slot stand apart unless they are the same word (42_encoder.md rule R201). -/
theorem State.wordAddr_apart {s : State} (slot : Slot) {w v : WordPlace} (hw : w ∈ s.places) (hv : v ∈ s.places)
    (hne : w ≠ v) :
    s.wordAddr slot w.plane w.row w.col + 2 ≤ s.wordAddr slot v.plane v.row v.col ∨
      s.wordAddr slot v.plane v.row v.col + 2 ≤ s.wordAddr slot w.plane w.row w.col := by
  obtain ⟨p, r, c⟩ := w
  obtain ⟨q, t, d⟩ := v
  obtain ⟨_, hr, hc⟩ := State.mem_places.mp hw
  obtain ⟨_, ht, hd⟩ := State.mem_places.mp hv
  have h1 := State.wordIndex_lt hr hc
  have h2 := State.wordIndex_lt ht hd
  simp only at hr hc ht hd h1 h2
  simp only [State.wordAddr, State.planeBase, Nat.add_mul]
  rcases Nat.lt_trichotomy p q with h | h | h
  · have : (p + 1) * s.planeBytes ≤ q * s.planeBytes := Nat.mul_le_mul_right _ h
    rw [Nat.add_mul, Nat.one_mul] at this
    omega
  · subst h
    rcases Nat.lt_trichotomy r t with h | h | h
    · have : (r + 1) * s.panelWidth ≤ t * s.panelWidth := Nat.mul_le_mul_right _ h
      rw [Nat.add_mul, Nat.one_mul] at this
      omega
    · subst h
      have : c ≠ d := fun h => hne (by rw [h])
      omega
    · have : (t + 1) * s.panelWidth ≤ r * s.panelWidth := Nat.mul_le_mul_right _ h
      rw [Nat.add_mul, Nat.one_mul] at this
      omega
  · have : (q + 1) * s.planeBytes ≤ p * s.planeBytes := Nat.mul_le_mul_right _ h
    rw [Nat.add_mul, Nat.one_mul] at this
    omega

/-- The six bytes a word reads are bytes of the framebuffer (20_memory.md rule R77). -/
theorem State.laneAddr_inside {s : State} (fb : Nat) {row col lane : Nat} (hr : row < s.rows) (hc : col < s.panelWidth)
    (hl : lane < laneCount) :
    fb ≤ s.laneAddr fb row col lane ∧ s.laneAddr fb row col lane < fb + 3 * (s.panelWidth * s.panelHeight) := by
  have h2 : 2 * s.rows ≤ s.panelHeight := Nat.mul_div_le s.panelHeight 2
  have h1 : (row + s.rows + 1) * s.panelWidth ≤ s.panelHeight * s.panelWidth := Nat.mul_le_mul_right _ (by omega)
  rw [Nat.add_mul, Nat.one_mul, Nat.mul_comm s.panelHeight] at h1
  have h3 : row * s.panelWidth ≤ (row + s.rows) * s.panelWidth := Nat.mul_le_mul_right _ (by omega)
  simp only [laneCount] at hl
  simp only [State.laneAddr, State.pixelAddr]
  split <;> omega

/-! The word function -/

/-- A word depends on the framebuffer bytes it reads and on nothing else of memory (42_encoder.md rule R211). -/
theorem State.outputWord_congr {s : State} {m m' : Memory} {fb plane row col : Nat}
    (h : ∀ lane, lane < laneCount → m.byte (s.laneAddr fb row col lane) = m'.byte (s.laneAddr fb row col lane)) :
    s.outputWord m fb plane row col = s.outputWord m' fb plane row col := by
  unfold State.outputWord State.laneBytes
  rw [List.map_congr_left fun lane hl => h lane (List.mem_range.mp hl)]

/-! ENCODE's words -/

/-- One word: made exactly where its bytes exist. -/
theorem State.encodeWord_eq_some {s : State} {slot : Slot} {fb : Nat} {w : WordPlace} {m m' : Memory} :
    s.encodeWord slot fb w m = some m' ↔
      s.lanesExist fb w.row w.col = true ∧ s.wordAddr slot w.plane w.row w.col + 2 ≤ memSize ∧
        m' = m.write (s.wordAddr slot w.plane w.row w.col) 2 (s.outputWord m fb w.plane w.row w.col).toNat := by
  unfold State.encodeWord
  by_cases h : s.lanesExist fb w.row w.col = true
  · rw [if_pos h, Memory.store_eq_some]; simp [h]
  · rw [if_neg h]; simp [h]

/-- Words change only the bytes they are written to. -/
theorem State.byte_encodeWords_of_no_word {s : State} {slot : Slot} {fb : Nat} {ws : List WordPlace} {m m' : Memory}
    (h : s.encodeWords slot fb ws m = some m') {a : Nat}
    (ha : ∀ w ∈ ws, a < s.wordAddr slot w.plane w.row w.col ∨ s.wordAddr slot w.plane w.row w.col + 2 ≤ a) :
    m'.byte a = m.byte a := by
  induction ws generalizing m with
  | nil => cases h; rfl
  | cons w rest ih =>
    rw [State.encodeWords] at h
    split at h
    · cases h
    · rename_i m1 h1
      obtain ⟨-, -, rfl⟩ := State.encodeWord_eq_some.mp h1
      rw [ih h fun v hv => ha v (List.mem_cons_of_mem _ hv)]
      exact Memory.byte_write_of_outside _ (ha w (by simp))

/-- Words change only the bytes of their slot's buffers (42_encoder.md rule R210). -/
theorem State.byte_encodeWords {s : State} {slot : Slot} {fb : Nat} {ws : List WordPlace} {m m' : Memory}
    (h : s.encodeWords slot fb ws m = some m') (hw : ∀ w ∈ ws, w ∈ s.places) {a : Nat}
    (ha : (s.slotBuffers slot).holds a = false) : m'.byte a = m.byte a :=
  State.byte_encodeWords_of_no_word h fun w hm => by
    have := State.wordAddr_inside slot (hw w hm)
    rw [Bool.eq_false_iff, ne_eq, Region.holds_iff] at ha
    omega

/-- Words into memory keep the canonical form. -/
theorem State.wf_encodeWords {s : State} {slot : Slot} {fb : Nat} {ws : List WordPlace} {m m' : Memory}
    (h : s.encodeWords slot fb ws m = some m') (hm : m.wf = true) : m'.wf = true := by
  induction ws generalizing m with
  | nil => cases h; exact hm
  | cons w rest ih =>
    rw [State.encodeWords] at h
    split at h
    · cases h
    · rename_i m1 h1
      obtain ⟨-, hfit, rfl⟩ := State.encodeWord_eq_some.mp h1
      exact ih h (Memory.wf_write hm hfit _)

/-- Where the framebuffer and the slot's buffers are in memory, every word is made. -/
theorem State.encodeWords_made {s : State} {slot : Slot} {fb : Nat}
    (hfb : fb + 3 * (s.panelWidth * s.panelHeight) ≤ memSize) (hb : (s.slotBuffers slot).inMemory = true)
    {ws : List WordPlace} (hw : ∀ w ∈ ws, w ∈ s.places) (m : Memory) : ∃ m', s.encodeWords slot fb ws m = some m' := by
  induction ws generalizing m with
  | nil => exact ⟨m, rfl⟩
  | cons w rest ih =>
    have hp := State.mem_places.mp (hw w (by simp))
    have hin := State.wordAddr_inside slot (hw w (by simp))
    have hbuf : (s.slotBuffers slot).base + (s.slotBuffers slot).size ≤ memSize := by
      simpa [Region.inMemory] using hb
    have hl : s.lanesExist fb w.row w.col = true := by
      simp only [State.lanesExist, List.all_eq_true, List.mem_range, memoryExists, decide_eq_true_eq]
      intro lane hlane
      have := State.laneAddr_inside fb hp.2.1 hp.2.2 hlane
      omega
    have h1 := State.encodeWord_eq_some (m := m).mpr ⟨hl, show s.wordAddr slot w.plane w.row w.col + 2 ≤ memSize by omega, rfl⟩
    obtain ⟨m', h2⟩ := ih (fun v hv => hw v (List.mem_cons_of_mem _ hv)) _
    exact ⟨m', by rw [State.encodeWords, h1]; exact h2⟩

/-- Where the framebuffer shares no byte with the slot's buffers, each word made is WORD on the framebuffer's bytes
(42_encoder.md rule R201, rule R209, rule R211). -/
theorem State.read_encodeWords {s : State} {slot : Slot} {fb : Nat} {ws : List WordPlace} {m m0 m' : Memory}
    (h : s.encodeWords slot fb ws m = some m') (hw : ∀ w ∈ ws, w ∈ s.places)
    (hd : ∀ a, fb ≤ a → a < fb + 3 * (s.panelWidth * s.panelHeight) → (s.slotBuffers slot).holds a = false)
    (hm : ∀ a, fb ≤ a → a < fb + 3 * (s.panelWidth * s.panelHeight) → m.byte a = m0.byte a) {w : WordPlace}
    (hmem : w ∈ ws) :
    m'.read (s.wordAddr slot w.plane w.row w.col) 2 = (s.outputWord m0 fb w.plane w.row w.col).toNat := by
  induction ws generalizing m with
  | nil => simp at hmem
  | cons v rest ih =>
    rw [State.encodeWords] at h
    split at h
    · cases h
    · rename_i m1 h1
      obtain ⟨-, -, rfl⟩ := State.encodeWord_eq_some.mp h1
      have hrest : ∀ x ∈ rest, x ∈ s.places := fun x hx => hw x (List.mem_cons_of_mem _ hx)
      by_cases hin : w ∈ rest
      · refine ih h hrest (fun a h1 h2 => ?_) hin
        have hv := State.wordAddr_inside slot (hw v (by simp))
        have := hd a h1 h2
        rw [Bool.eq_false_iff, ne_eq, Region.holds_iff] at this
        rw [Memory.byte_write_of_outside _ (by omega), hm a h1 h2]
      · have hwv : w = v := by
          rcases List.mem_cons.mp hmem with h | h
          · exact h
          · exact absurd h hin
        subst hwv
        have hkeep : ∀ {ws : List WordPlace} {k k' : Memory}, s.encodeWords slot fb ws k = some k' →
            (∀ x ∈ ws, x ∈ s.places ∧ x ≠ w) →
            k'.read (s.wordAddr slot w.plane w.row w.col) 2 = k.read (s.wordAddr slot w.plane w.row w.col) 2 := by
          intro ws
          induction ws with
          | nil => intro k k' hk _; cases hk; rfl
          | cons x xs ihx =>
            intro k k' hk hx
            rw [State.encodeWords] at hk
            split at hk
            · cases hk
            · rename_i k1 hk1
              obtain ⟨-, -, rfl⟩ := State.encodeWord_eq_some.mp hk1
              rw [ihx hk fun y hy => hx y (List.mem_cons_of_mem _ hy)]
              obtain ⟨hxp, hxw⟩ := hx x (by simp)
              refine Memory.read_write_of_disjoint _ ?_
              have := State.wordAddr_apart slot hxp (hw w (by simp)) hxw
              omega
        rw [hkeep h fun x hx => ⟨hrest x hx, fun hxw => hin (hxw ▸ hx)⟩, Memory.read_write_same]
        have hp := State.mem_places.mp (hw w (by simp))
        rw [State.outputWord_congr (m' := m0) fun lane hl => by
          have := State.laneAddr_inside fb hp.2.1 hp.2.2 hl
          exact hm _ this.1 this.2]
        exact Nat.mod_eq_of_lt (BitVec.isLt _)

/-- ENCODE's checks pass exactly in READY and RUNNING, on a slot that exists and is not active, with a framebuffer
(42_encoder.md rule R200, rule R208). -/
theorem checkEncode_eq_none {slot : Slot} {s : State} :
    checkEncode slot s = none ↔
      s.isSetUp = true ∧ s.slotExists slot = true ∧ s.fbBase ≠ 0#32 ∧
        ¬ (s.phase = .running ∧ s.double = true ∧ slot = s.sel) := by
  unfold checkEncode State.slotExists State.isSetUp
  by_cases hf : s.fbBase = 0#32 <;> cases hp : s.phase <;> cases hd : s.double <;> cases slot <;> simp_all

/-- ENCODE whose checks pass, its memory in place: the words, then the result (42_encoder.md rule R200). -/
theorem execEncode_of_words {s : State} {slot : Slot} {m : Memory} (hc : checkEncode slot s = none)
    (hw : s.encodeWords slot s.fbBase.toNat s.places s.mem = some m) :
    execEncode slot s = .next (State.succeed { s with mem := m }) := by
  simp [execEncode, hc, hw]

end Sys2Proof.Machine
end

