-- ==== Sys2Proof/Laws/PerInstr.lean ====
section
/-! SUPPORT. The family `EncodeLegal` of LAWS.json: what holds of every command as syntax, one lemma per constructor. -/
namespace Sys2Proof.Laws.EncodeLegal

/-- The word of a command passes the decode test of 30_encoding.md rule R105, carries the command's opcode, and a slot
only where rule R102 gives the command one. -/
def Statement (i : Instr) : Prop :=
  legalWord (encode i) = true ∧ (encode i).extractLsb' 0 4 = opcode i ∧
    ((opcode i).toNat < 3 → (encode i).extractLsb' 8 1 = 0#1)

theorem nop : Statement .nop := by unfold Statement; decide

theorem setup : Statement .setup := by unfold Statement; decide

theorem schedule : Statement .schedule := by unfold Statement; decide

theorem buildRing (slot : Slot) : Statement (.buildRing slot) :=
  ⟨legalWord_encode _, (encode_fields _).2.2.1, fun h => absurd h (by show ¬ 3 < 3; decide)⟩

theorem start (slot : Slot) : Statement (.start slot) :=
  ⟨legalWord_encode _, (encode_fields _).2.2.1, fun h => absurd h (by show ¬ 4 < 3; decide)⟩

theorem activate (slot : Slot) : Statement (.activate slot) :=
  ⟨legalWord_encode _, (encode_fields _).2.2.1, fun h => absurd h (by show ¬ 5 < 3; decide)⟩

theorem encode (slot : Slot) : Statement (.encode slot) :=
  ⟨legalWord_encode _, (encode_fields _).2.2.1, fun h => absurd h (by show ¬ 6 < 3; decide)⟩

end Sys2Proof.Laws.EncodeLegal
end

