-- ==== Sys2Proof/Laws/Rings.lean ====
section
/-! SUPPORT. Rings in memory: what keeps the links of a ring, that BUILD leaves a linked ring, and where a tail's link
stands. -/
namespace Sys2Proof.Machine

/-- The links of a ring are in its pool: a memory that agrees there is linked alike. -/
theorem Memory.linked_congr {m m' : Memory} {r : Ring} (h : m.linked r)
    (hm : ∀ b, r.head.toNat ≤ b → b < r.head.toNat + 12 * r.count.toNat → m'.byte b = m.byte b) : m'.linked r := by
  intro i hi
  rw [← h i hi]
  exact Memory.read_congr fun b h1 h2 => hm b (by omega) (by omega)

/-- A write outside a ring's pool keeps its links. -/
theorem Memory.linked_write_outside {m : Memory} {r : Ring} (h : m.linked r) {a n v : Nat}
    (ho : a + n ≤ r.pool.base ∨ r.pool.base + r.pool.size ≤ a) : (m.write a n v).linked r :=
  Memory.linked_congr h fun b h1 h2 => Memory.byte_write_of_outside m (by simp only [Ring.pool] at ho; omega)

/-- The tail's own link is none of the links between the descriptors of its ring (30_encoding.md rule R119). -/
theorem Memory.linked_write_tail {m : Memory} {r : Ring} (h : m.linked r)
    (ht : r.tail.toNat = r.head.toNat + 12 * (r.count.toNat - 1)) (v : Nat) :
    (m.write (nextField r.tail.toNat) 4 v).linked r := by
  intro i hi
  rw [← h i hi]
  exact Memory.read_write_of_disjoint m (by simp only [nextField]; omega)

/-- The tail's link is in the pool. -/
theorem State.tailLink_in_pool {s : State} {slot : Slot} (h : s.ringAllocated (s.ring slot)) :
    (s.ring slot).pool.base ≤ (s.tailLink slot).base ∧
      (s.tailLink slot).base + 4 ≤ (s.ring slot).pool.base + (s.ring slot).pool.size := by
  obtain ⟨h1, h2, -⟩ := h
  simp only [State.tailLink, nextField, Ring.pool, h2]
  omega

/-- The registers of a ring BUILD built in a pool that fits the address space (10_state.md rule R56). -/
theorem builtRing_toNat {pool : Word} {n : Nat} (hn : 1 ≤ n) (hfit : pool.toNat + 12 * n ≤ memSize) :
    (builtRing pool n).count.toNat = n ∧ (builtRing pool n).tail.toNat = pool.toNat + 12 * (n - 1) ∧
      (builtRing pool n).pool = { base := pool.toNat, size := 12 * n } := by
  rw [memSize] at hfit
  have hc : (builtRing pool n).count.toNat = n := by
    simp only [builtRing, BitVec.toNat_ofNat]; omega
  refine ⟨hc, ?_, ?_⟩
  · simp only [builtRing, descriptorAddr, BitVec.toNat_ofNat]; omega
  · rw [Ring.pool, hc]; rfl

/-- BUILD's stores leave a linked ring (40_chain_builder.md rule R144 to rule R147). -/
theorem Memory.linked_build (m : Memory) {pool : Word} {unit : Nat} {segments : List Segment}
    (hn : 1 ≤ descriptorCount unit segments) (hfit : pool.toNat + 12 * descriptorCount unit segments ≤ memSize) :
    (m.afterStores (buildStores pool unit segments)).linked (builtRing pool (descriptorCount unit segments)) := by
  intro i hi
  rw [(builtRing_toNat hn hfit).1] at hi
  have hl := chunksOf_length unit segments
  have := (Memory.afterStores_build m hfit i (by omega)).2.2
  rw [Nat.mod_eq_of_lt (by omega)] at this
  exact this

/-- Memories that agree on a range still do once the same stores are made in both. -/
theorem Memory.afterStores_agree {m m' : Memory} {lo hi : Nat} (h : ∀ b, lo ≤ b → b < hi → m'.byte b = m.byte b)
    (ws : List Store) : ∀ b, lo ≤ b → b < hi → (m'.afterStores ws).byte b = (m.afterStores ws).byte b := by
  induction ws generalizing m m' with
  | nil => exact h
  | cons w rest ih =>
    refine ih fun b h1 h2 => ?_
    rw [Memory.byte_write, Memory.byte_write, h b h1 h2]

end Sys2Proof.Machine
end

