-- ==== Sys2Proof/Laws/Step.lean ====
section
/-! SUPPORT. What one step can do, said once: the agent whose turn it is, the host's moves, the stores and words of a
command in flight, the consumer's steps. -/
namespace Sys2Proof.Machine

/-- A step is the event of the agent whose turn it is: the block's, the consumer's, a reset, or the host's. -/
theorem step_cases {s t : State} (h : step s = .next t) :
    (∃ choice, s.whoseTurn = .block choice ∧ t = s.takeTurn.blockStep choice) ∨
      (∃ linkNow, s.whoseTurn = .consumer linkNow ∧ t = s.takeTurn.consumerStep linkNow) ∨
      s.whoseTurn = .reset ∧ t = s.takeTurn.resetBlock ∨
      ∃ whole, s.whoseTurn = (if whole then .command else .host) ∧ s.takeTurn.hostStep whole = .next t := by
  unfold step State.event at h
  split at h
  · rename_i hw; exact .inr (.inr (.inr ⟨false, by simpa using hw, h⟩))
  · rename_i hw; exact .inr (.inr (.inr ⟨true, by simpa using hw, h⟩))
  · rename_i hw; cases h; exact .inl ⟨_, hw, rfl⟩
  · rename_i hw; cases h; exact .inr (.inl ⟨_, hw, rfl⟩)
  · rename_i hw; cases h; exact .inr (.inr (.inl ⟨hw, rfl⟩))

/-- Taking a turn changes the turns left and the counter of free values, nothing else. -/
theorem State.takeTurn_eq (s : State) :
    s.takeTurn = { s with turns := s.takeTurn.turns, draws := s.takeTurn.draws } := by
  unfold State.takeTurn
  split <;> rfl

/-- Taking an allocator answer changes the answers left and the counter of free values, nothing else. -/
theorem State.takeAnswer_eq (s : State) :
    s.takeAnswer = { s with allocAnswers := s.takeAnswer.allocAnswers, draws := s.takeAnswer.draws } := by
  unfold State.takeAnswer
  split <;> rfl

/-- All a host write that is a move can do: the W1C write of STATUS, an overrun, a wait at the lap guard, a command whose
regions are placed as 20_memory.md rule R81 asks, a register write (44_setup_control.md rule R261). -/
theorem State.hostWrite_cases {s t : State} {whole : Bool} {off : Nat} {v : Word}
    (h : s.hostWrite whole off v = .next t) :
    (off = statusOffset ∧ t = s.popHostOp.writeStatus v) ∨
      (off ≠ statusOffset ∧ s.busy = true ∧ t = s.popHostOp.overrun) ∨
      (off = cmdOffset ∧ s.busy = false ∧ s.lapBlocked v = true ∧ t = s) ∨
      (off = cmdOffset ∧ s.busy = false ∧ s.lapBlocked v = false ∧ s.launchRefused v = false ∧ whole = true ∧
        s.popHostOp.runWord v = .next t) ∨
      (off = cmdOffset ∧ s.busy = false ∧ s.lapBlocked v = false ∧ s.launchRefused v = false ∧ whole = false ∧
        t = s.popHostOp.accept v) ∨
      (off ≠ statusOffset ∧ off ≠ cmdOffset ∧ s.busy = false ∧ t = s.popHostOp.writeReg off v) := by
  unfold State.hostWrite at h
  by_cases h1 : off = statusOffset
  · rw [if_pos h1] at h; cases h; exact .inl ⟨h1, rfl⟩
  rw [if_neg h1] at h
  by_cases h2 : s.busy = true
  · rw [if_pos h2] at h; cases h; exact .inr (.inl ⟨h1, h2, rfl⟩)
  rw [if_neg h2] at h
  rw [Bool.not_eq_true] at h2
  by_cases h3 : off = cmdOffset
  · rw [if_pos h3] at h
    by_cases h4 : s.lapBlocked v = true
    · rw [if_pos h4] at h; cases h; exact .inr (.inr (.inl ⟨h3, h2, h4, rfl⟩))
    · rw [if_neg h4] at h
      rw [Bool.not_eq_true] at h4
      by_cases h6 : s.launchRefused v = true
      · rw [if_pos h6] at h; cases h
      · rw [if_neg h6] at h
        rw [Bool.not_eq_true] at h6
        by_cases h5 : whole = true
        · rw [if_pos h5] at h; exact .inr (.inr (.inr (.inl ⟨h3, h2, h4, h6, h5, h⟩)))
        · rw [if_neg h5] at h; cases h
          exact .inr (.inr (.inr (.inr (.inl ⟨h3, h2, h4, h6, by simpa using h5, rfl⟩))))
  · rw [if_neg h3] at h; cases h
    exact .inr (.inr (.inr (.inr (.inr ⟨h1, h3, h2, rfl⟩))))

/-- A host memory write that is a move: in memory, clear of the window and of every region, and nothing else changes
(20_memory.md rule R89, 60_exceptions.md rule R305). -/
theorem State.hostMemWrite_cases {s t : State} {size : Nat} {addr v : Word} (h : s.hostMemWrite size addr v = .next t) :
    hostWriteSize size = true ∧ addr.toNat + size ≤ memSize ∧
      (∀ r ∈ s.window :: s.regions, Region.disjoint { base := addr.toNat, size := size } r = true) ∧
      t = { s.popHostOp with mem := s.mem.write addr.toNat size v.toNat } := by
  unfold State.hostMemWrite at h
  split at h
  · cases h
  · rename_i h1
    split at h
    · cases h
    · rename_i h2
      split at h
      · rename_i h3
        cases h
        exact ⟨by simpa using h1, by simpa [memoryExists] using h2, List.all_eq_true.mp h3, rfl⟩
      · cases h

/-- All a host move can do: nothing, a read, a write, a memory write, the end of a wait, a skip, a reset. -/
theorem State.hostStep_cases {s t : State} {whole : Bool} (h : s.hostStep whole = .next t) :
    t = s ∨ t = s.popHostOp ∨ (∃ n, t = { s with hostOps := s.hostOps.drop n }) ∨
      (∃ off, t = { s.popHostOp with rdata := s.rdata ++ [s.readReg off] }) ∨
      (∃ off v, s.hostOps.head? = some (.wr off v) ∧ windowOffset off = true ∧ s.hostWrite whole off v = .next t) ∨
      (∃ size addr v, s.hostMemWrite size addr v = .next t) ∨
      s.hostOps.head? = some .reset ∧ t = s.popHostOp.resetBlock := by
  unfold State.hostStep at h
  split at h
  · cases h; exact .inl rfl
  · split at h
    · cases h; exact .inr (.inr (.inr (.inl ⟨_, rfl⟩)))
    · cases h
  · rename_i off v ho
    split at h
    · rename_i hw; exact .inr (.inr (.inr (.inr (.inl ⟨off, v, ho, hw, h⟩))))
    · cases h
  · exact .inr (.inr (.inr (.inr (.inr (.inl ⟨_, _, _, h⟩)))))
  · split at h
    · cases h; exact .inl rfl
    · cases h; exact .inr (.inl rfl)
  · cases h
    split
    · exact .inr (.inl rfl)
    · exact .inr (.inr (.inl ⟨_, rfl⟩))
  · rename_i ho; cases h; exact .inr (.inr (.inr (.inr (.inr (.inr ⟨ho, rfl⟩)))))

/-- One store of a command in flight: none left, the store made, or the block stuck (60_exceptions.md rule R286). -/
theorem State.storeStep_cases (s : State) (left : List Store) (again : List Store → Stage) (done : State) :
    (left = [] ∧ s.storeStep left again done = done) ∨
      (∃ w rest, left = w :: rest ∧ w.addr + 4 ≤ memSize ∧
        s.storeStep left again done =
          State.toStage { s with mem := s.mem.write w.addr 4 w.value.toNat } (again rest)) ∨
      s.storeStep left again done = s := by
  cases left with
  | nil => exact .inl ⟨rfl, rfl⟩
  | cons w rest =>
    simp only [State.storeStep, State.store_eq]
    by_cases h : w.addr + 4 ≤ memSize
    · exact .inr (.inl ⟨w, rest, rfl, h, by simp [h]⟩)
    · exact .inr (.inr (by simp [h]))

/-- One access of ENCODE: the end, a byte read, a word written, or the block stuck (42_encoder.md rule R209). -/
theorem State.wordStep_cases (s : State) (c : InFlight) (choice : Nat) (slot : Slot) (jobs : List WordJob) :
    s.wordStep c choice slot jobs = s.succeed ∨ s.wordStep c choice slot jobs = s ∨
      (∃ i j lane b, jobs[i]? = some j ∧
        s.wordStep c choice slot jobs = s.toStage (.words slot (jobs.set i { j with lanes := j.lanes.set lane b }))) ∨
      ∃ i j v, jobs[i]? = some j ∧ s.wordAddr slot j.plane j.row j.col + 2 ≤ memSize ∧
        s.wordStep c choice slot jobs =
          State.toStage { s with mem := s.mem.write (s.wordAddr slot j.plane j.row j.col) 2 v }
            (.words slot (jobs.eraseIdx i)) := by
  unfold State.wordStep
  simp only
  split
  · exact .inl rfl
  · rename_i j hj
    split
    · split
      · exact .inr (.inl rfl)
      · exact .inr (.inr (.inl ⟨_, j, _, _, hj, rfl⟩))
    · split
      · exact .inr (.inl rfl)
      · rename_i m hm
        obtain ⟨hfit, rfl⟩ := Memory.store_eq_some.mp hm
        exact .inr (.inr (.inr ⟨_, j, _, hj, hfit, rfl⟩))

/-- All a consumer step can do: nothing, a Load, a Link, an Emit, an Advance (60_exceptions.md rule R301). -/
theorem State.consumerStep_cases (s : State) (linkNow : Bool) :
    s.consumerStep linkNow = s ∨
      (∃ visit, s.consumer.run = true ∧
        s.consumerStep linkNow = { s with consumer := { s.consumer with off := 0, visit := visit } }) ∨
      (s.consumer.run = true ∧ nextField s.consumer.cur.toNat + 4 ≤ memSize ∧
        s.consumerStep linkNow =
          { s with
            consumer :=
              { s.consumer with
                link := some (BitVec.ofNat 32 (s.mem.read (nextField s.consumer.cur.toNat) 4)) } }) ∨
      (∃ word, s.consumer.run = true ∧
        s.consumerStep linkNow =
          { s with out := s.out ++ [word], consumer := { s.consumer with off := s.consumer.off + 2 } }) ∨
      ∃ next, s.consumer.run = true ∧ s.consumer.link = some next ∧ next ≠ 0#32 ∧
        s.consumerStep linkNow =
          { s with
            lapGuard := s.guardAfterAdvance next
            consumer := { s.consumer with cur := next, link := none, visit := .arriving } } := by
  unfold State.consumerStep
  by_cases hr : s.consumer.run = true
  · rw [if_pos hr]
    split
    · exact .inl rfl
    · unfold State.consumerLoad
      split
      · exact .inr (.inl ⟨_, hr, rfl⟩)
      · exact .inl rfl
    · split
      · unfold State.consumerLink
        split
        · rename_i next hn
          obtain ⟨hfit, rfl⟩ := Memory.load_eq_some.mp hn
          exact .inr (.inr (.inl ⟨hr, hfit, rfl⟩))
        · exact .inl rfl
      · split
        · unfold State.consumerEmit
          split
          · exact .inr (.inr (.inr (.inl ⟨_, hr, rfl⟩)))
          · exact .inl rfl
        · unfold State.consumerAdvance
          split
          · exact .inl rfl
          · rename_i next hl
            by_cases h0 : next = 0#32
            · rw [if_pos h0]; exact .inl rfl
            · rw [if_neg h0]; exact .inr (.inr (.inr (.inr ⟨next, hr, hl, h0, rfl⟩)))
  · rw [if_neg hr]; exact .inl rfl

end Sys2Proof.Machine
end

