-- ==== Sys2Proof/Tests/Slice0.lean ====
section
/-!
SUPPORT. The model's own tests. Expected values are those of 95_test_vectors.md (the vector's or program's name stands
in each docstring) or were worked out by hand from the rule cited. The second half shows, for every statement that has
hypotheses, a concrete input that meets them all.
-/
namespace Sys2Proof.Machine.Tests

-- One thread for this file: its kernel evaluations, run side by side, ask for more memory than a checker may have.
set_option Elab.async false

/-! Helpers -/

/-- The next state an outcome answers, reset where it answers none. -/
def after : Host.Outcome State Fault Refusal → State
  | .next t => t
  | _ => State.reset

/-- An outcome answers a next state. -/
def answers : Host.Outcome State Fault Refusal → Bool
  | .next _ => true
  | _ => false

theorem next_of_answers {o : Host.Outcome State Fault Refusal} (h : answers o = true) : o = .next (after o) := by
  cases o <;> first | rfl | cases h

/-- The memory of a list of bytes from an address on. -/
def bytesAt (a : Nat) (bytes : List Nat) : Memory :=
  bytes.foldl (fun (acc : Memory × Nat) b => (acc.1.setByte acc.2 (BitVec.ofNat 8 b), acc.2 + 1)) (Memory.unknown, a) |>.1

/-- A memory with 32-bit words written at addresses. -/
def words32 (m : Memory) (ws : List (Nat × Nat)) : Memory := ws.foldl (fun m w => m.write w.1 4 w.2) m

/-- The 32-bit words of memory from an address on. -/
def dump32 (m : Memory) (a n : Nat) : List Nat := (List.range n).map fun i => m.read (a + 4 * i) 4

/-- The 16-bit words of memory from an address on. -/
def dump16 (m : Memory) (a n : Nat) : List Nat := (List.range n).map fun i => m.read (a + 2 * i) 2

/-- Reset with a configuration. -/
def configured (w h b unit limit : Nat) (double : Bool) : State :=
  { State.reset with
    width := BitVec.ofNat 16 w, height := BitVec.ofNat 16 h, bitplaneCnt := BitVec.ofNat 4 b
    maxUnit := BitVec.ofNat 12 unit, brightness := BitVec.ofNat 16 limit, double := double }

/-- A state that makes one host move first, in a turn of the given kind. -/
def moving (s : State) (turn : Turn) (op : HostOp) : State := { s with turns := [turn], hostOps := [op] }

/-- Program P1 before SETUP, with the bump allocator's answers. -/
def p1 : State :=
  { configured 4 4 2 8 3 true with
    clkdiv := 4#32, fbBase := 0x20000#32
    allocAnswers := [.region 0x10000#32, .region 0x10040#32, .region 0x10088#32] }

/-- Program P4 before SETUP, with a frame and the bump allocator's answers. -/
def p4 : State :=
  { configured 2 2 1 4 1 true with
    fbBase := 0x20000#32
    mem := bytesAt 0x20000 [0x80, 0, 0, 0, 0x80, 0, 0, 0, 0x80, 0xFF, 0xFF, 0xFF]
    allocAnswers := [.region 0x10000#32, .region 0x10008#32, .region 0x10014#32] }

/-- Program P4 after SETUP. -/
def p4Ready : State := after (exec .setup p4)

/-- Program P4 with its consumer running on ring 0. -/
def p4Running : State := after (exec (.start .zero) p4Ready)

/-- Program P2's geometry (single-ring mode) before and after SETUP. -/
def p2 : State :=
  { configured 2 2 2 4 1 false with
    clkdiv := 1#32, fbBase := 0x20000#32, allocAnswers := [.region 0x10000#32, .region 0x10008#32] }
def p2Ready : State := after (exec .setup p2)

/-- The start state of vectors F1 to F6. -/
def flipReady : State :=
  { configured 64 32 3 4092 16 true with
    phase := .ready, clkdiv := 2#32
    ring0 := { head := 0x3000#32, tail := 0x3048#32, count := 7#32 }
    ring1 := { head := 0x4000#32, tail := 0x4048#32, count := 7#32 }
    mem := words32 Memory.unknown [(0x3050, 0x3000), (0x4050, 0x4000)] }

/-- A READY state whose BUILD_RING reads the given segments at 0x30000, then a sentinel, with one allocator answer (vectors B1 to B17). -/
def building (unit : Nat) (list : List (Nat × Nat)) (answer : AllocAnswer) : State :=
  { configured 2 2 1 unit 1 true with
    phase := .ready, seglist := 0x30000#32, allocAnswers := [answer]
    mem := words32 Memory.unknown ((list ++ [(0, 0)]).zipIdx.flatMap fun (e : (Nat × Nat) × Nat) => [(0x30000 + 8 * e.2, e.1.1), (0x30004 + 8 * e.2, e.1.2)]) }

/-- A READY state with one bitplane arena at 0x1000 and a framebuffer of the given bytes at 0x20000 (vectors E1 to E6). -/
def encoding (w h b limit : Nat) (pixels : List Nat) : State :=
  { configured w h b 4 limit true with
    phase := .ready, bpBase := 0x1000#32, fbBase := 0x20000#32, mem := bytesAt 0x20000 pixels }

/-- Vector E4's framebuffer. -/
def e4 : State :=
  encoding 4 2 1 3 [0x80, 0, 0, 0, 0x80, 0, 0, 0, 0x80, 0xFF, 0xFF, 0xFF, 0, 0, 0, 0, 0, 0, 0, 0, 0, 0, 0, 0]

/-! Well-formedness: an ill-formed term for each check -/

theorem test_wellformed_refuses_reserved_low_bits : reservedBitsClear 0x00000016#32 = false := by decide
theorem test_wellformed_refuses_reserved_high_bits : reservedBitsClear 0x80000004#32 = false := by decide
theorem test_wellformed_refuses_reserved_opcode : opcodeAssigned 0x00000007#32 = false := by decide
theorem test_wellformed_refuses_slot_on_slotless : slotAllowed 0x00000102#32 = false := by decide
theorem test_wellformed_refuses_illegal_words :
    [0x00000016#32, 0x00000206#32, 0x80000004#32, 0x00000007#32, 0x0000000F#32, 0x00000101#32].map legalWord =
      [false, false, false, false, false, false] := by decide
theorem test_wellformed_refuses_window_offsets :
    [0x001, 0x006, 0x500, 0x504].map windowOffset = [false, false, false, false] ∧ windowOffset 0x4FC = true := by decide
theorem test_wellformed_refuses_host_sizes :
    [0, 3, 8].map hostWriteSize = [false, false, false] ∧ [1, 2, 4].map hostWriteSize = [true, true, true] := by decide
theorem test_wellformed_refuses_host_moves :
    (HostOp.rd 2).wellFormed = false ∧ (HostOp.wr 0x500 0#32).wellFormed = false ∧
      (HostOp.mwr 3 0#32 0#32).wellFormed = false := by decide

/-! Decoding: words written out from the format of 30_encoding.md rule R100 -/

/-- X1: OP 0x0, SLOT 0. -/
theorem test_decode_nop : decode 0b00000000000000000000000_0_0000_0000#32 = .command .nop := by decide
/-- X2: OP 0x1, SLOT 0. -/
theorem test_decode_setup : decode 0b00000000000000000000000_0_0000_0001#32 = .command .setup := by decide
/-- X3: OP 0x2, SLOT 0. -/
theorem test_decode_schedule : decode 0b00000000000000000000000_0_0000_0010#32 = .command .schedule := by decide
/-- X4 and the word of rule R148: OP 0x3, both slots. -/
theorem test_decode_build_ring :
    decode 0b00000000000000000000000_1_0000_0011#32 = .command (.buildRing .one) ∧
      decode 0b00000000000000000000000_0_0000_0011#32 = .command (.buildRing .zero) := by decide
/-- X5 and the word of rule R170: OP 0x4, both slots. -/
theorem test_decode_start :
    decode 0b00000000000000000000000_0_0000_0100#32 = .command (.start .zero) ∧
      decode 0b00000000000000000000000_1_0000_0100#32 = .command (.start .one) := by decide
/-- X6 and the word of rule R175: OP 0x5, both slots. -/
theorem test_decode_activate :
    decode 0b00000000000000000000000_1_0000_0101#32 = .command (.activate .one) ∧
      decode 0b00000000000000000000000_0_0000_0101#32 = .command (.activate .zero) := by decide
/-- X7 and the word of rule R200: OP 0x6, both slots. -/
theorem test_decode_encode :
    decode 0b00000000000000000000000_1_0000_0110#32 = .command (.encode .one) ∧
      decode 0b00000000000000000000000_0_0000_0110#32 = .command (.encode .zero) := by decide
/-- X8 to X15: illegal words, each for its reason. -/
theorem test_decode_illegal :
    [0x00000101#32, 0x00000007#32, 0x0000000F#32, 0x00000016#32, 0x00000206#32, 0x80000004#32, 0xFFFFFFFF#32,
        0x00000100#32].map decode =
      [.illegal .slotOnSlotless, .illegal .reservedOpcode, .illegal .reservedOpcode, .illegal .reservedBits,
        .illegal .reservedBits, .illegal .reservedBits, .illegal .reservedBits, .illegal .slotOnSlotless] := by decide
/-- Rule R106: a command assembles to OP | (s << 8). -/
theorem test_assembler :
    assembly (.buildRing .one) = "BUILD_RING 1" ∧ encode (.buildRing .one) = 0x00000103#32 ∧
      assembly (.encode .zero) = "ENCODE 0" ∧ encode (.encode .zero) = 0x00000006#32 ∧ assembly .nop = "NOP" := by decide
/-- The table numbers a command word's bits as rule R100 does; a row of fewer bits leaves the rest 0. -/
theorem test_decode_table_word :
    decodeTableWord 32 0x00000105 = some (.activate .one) ∧ decodeTableWord 32 0x00000107 = none ∧
      decodeTableWord 8 0x06 = some (.encode .zero) := by decide

/-! NOP -/

/-- U10: NOP in FAILED clears ERR and not STATE. -/
theorem test_nop_failed :
    (after (exec .nop { State.reset with phase := .failed, double := true, err := .allocFail })).status =
      0x0000000B#32 := by decide

/-! SETUP -/

/-- P1 after SETUP: the result registers and STATUS. -/
theorem test_setup_registers :
    let t := after (exec .setup p1)
    t.status = 0x00000009#32 ∧ t.bpBase = 0x10000#32 ∧ t.planeSize = 16#32 ∧ t.orderLen = 3#8 ∧
      t.order.take 4 = [0#4, 1#4, 1#4, 0#4] ∧ t.ring0 = ⟨0x10040#32, 0x1007C#32, 6#32⟩ ∧
      t.ring1 = ⟨0x10088#32, 0x100C4#32, 6#32⟩ := by decide +kernel
/-- P1 after SETUP: both rings' descriptors. -/
theorem test_setup_rings :
    dump32 (after (exec .setup p1)).mem 0x10040 36 =
      [0x80008008, 0x10000, 0x1004C, 0x80008008, 0x10008, 0x10058, 0x80008008, 0x10010, 0x10064,
        0x80008008, 0x10018, 0x10070, 0x80008008, 0x10010, 0x1007C, 0x80008008, 0x10018, 0x10040,
        0x80008008, 0x10020, 0x10094, 0x80008008, 0x10028, 0x100A0, 0x80008008, 0x10030, 0x100AC,
        0x80008008, 0x10038, 0x100B8, 0x80008008, 0x10030, 0x100C4, 0x80008008, 0x10038, 0x10088] := by decide +kernel

/-! SCHEDULE -/

/-- S13: B = 2 in UNCONFIGURED. -/
theorem test_schedule :
    let t := after (exec .schedule (configured 0 0 2 0 0 false))
    t.order.take 5 = [0#4, 1#4, 1#4, 0#4, 0#4] ∧ t.order.length = 255 ∧ t.orderLen = 3#8 ∧ t.status = 0#32 := by decide +kernel
/-- S3 and S7: the ordering of B = 3, its final counters, and the first positions of B = 7. -/
theorem test_schedule_orderings :
    sched 3 = ([0, 1, 2, 2, 1, 2, 2], [8, 8, 8]) ∧
      (ordering 7).take 16 = [0, 1, 2, 3, 4, 5, 6, 6, 5, 6, 6, 4, 5, 6, 6, 5] := by decide +kernel

/-! BUILD_RING -/

/-- B5: two segments of 5 bytes with M = 4 give four descriptors. -/
theorem test_build_ring :
    let t := after (exec (.buildRing .one) (building 4 [(0x1000, 5), (0x3000, 5)] (.region 0x2000#32)))
    dump32 t.mem 0x2000 12 =
        [0x80004004, 0x1000, 0x200C, 0x80001001, 0x1004, 0x2018, 0x80004004, 0x3000, 0x2024, 0x80001001, 0x3004,
          0x2000] ∧
      t.ring1 = ⟨0x2000#32, 0x2024#32, 4#32⟩ ∧ t.ring0 = Ring.unbuilt ∧ t.errInfo = 0#32 := by decide +kernel
/-- B10, B11 and B15: an entry with no pointer, an entry past 2^32, a pool of 2^32 bytes. -/
theorem test_build_ring_rejects :
    ([building 4 [(0x1000, 4), (0, 4), (0, 0)] .fail, building 4 [(0xFFFFFFF0, 0x20)] .fail,
        building 2 [(0x10000000, 0x60000000)] .fail].map fun s => (after (exec (.buildRing .zero) s)).errInfo) =
      [0x00010006#32, 0x00000006#32, 0x0000000B#32] := by decide +kernel

/-! START -/

/-- F3: START 1. -/
theorem test_start :
    let t := after (exec (.start .one) flipReady)
    t.status = 0x0000000E#32 ∧ t.mem.read 0x3050 4 = 0x4000 ∧ t.mem.read 0x4050 4 = 0x4000 ∧
      t.starts = [⟨0x4000#32, 16, 2#32⟩] ∧ t.consumer = ⟨true, 0x4000#32, 0, none, .arriving⟩ := by decide +kernel
/-- F6: a second START writes nothing and makes no call. -/
theorem test_start_twice :
    let t := after (exec (.start .zero) flipReady)
    let u := after (exec (.start .one) t)
    u.status = 0x0000060A#32 ∧ u.mem = t.mem ∧ u.starts = t.starts := by decide +kernel

/-! ACTIVATE -/

/-- F4: ACTIVATE 1 in READY. -/
theorem test_activate :
    let t := after (exec (.activate .one) flipReady)
    t.status = 0x0000000D#32 ∧ t.mem.read 0x3050 4 = 0x4000 ∧ t.mem.read 0x4050 4 = 0x4000 ∧ t.starts = [] := by
  decide +kernel
/-- F8 and F7: in UNCONFIGURED the single-ring no-op, and NOT_SETUP in double mode. -/
theorem test_activate_unconfigured :
    (after (exec (.activate .one) State.reset)).status = 0#32 ∧
      (after (exec (.activate .zero) { State.reset with double := true })).status = 0x00000308#32 := by decide

/-! ENCODE -/

/-- E4: the words of ENCODE 0; E10's null framebuffer. -/
theorem test_encode :
    dump16 (after (exec (.encode .zero) e4)).mem 0x1000 4 = [0x0001, 0x0002, 0x0004, 0x3007] ∧
      (after (exec (.encode .zero) { e4 with fbBase := 0#32 })).errInfo = 9#32 := by decide +kernel
/-- E6: the half-B pairing and the row address of row 0, into slot 1. -/
theorem test_encode_rows :
    dump16 (after (exec (.encode .one) (encoding 2 4 1 1
        [0x80, 0, 0, 0, 0, 0, 0, 0x80, 0, 0, 0, 0, 0, 0, 0x80, 0, 0, 0, 0x80, 0x80, 0x80, 0, 0, 0]))).mem 0x1008 4 =
      [0x0121, 0x3100, 0x003A, 0x3000] := by decide +kernel

/-! One step of the machine -/

/-- From reset, a fetched SETUP runs in the very next step and reports check 1 (WIDTH = 0 < 2, rule R250). -/
theorem test_step_runs_fetched_word :
    (after (step (State.reset.withFetchWord 32 0x00000001))).errInfo = 1#32 ∧
      (after (step (State.reset.withFetchWord 32 0x00000001))).status = 0x00000200#32 := by decide
/-- P5: a reserved opcode answers BAD_COMMAND in FAILED. -/
theorem test_step_bad_command :
    (after (step (moving { State.reset with phase := .failed, double := true } .command (.wr 0 0x0000000F#32)))).status =
      0x0000070B#32 := by decide
/-- U14: a CMD write while BUSY is dropped and sets OVR; the command in flight goes on. -/
theorem test_step_overrun :
    let s := e4.accept 0x00000006#32
    let t := after (step (moving s .host (.wr 0 0x00000105#32)))
    t.ovr = true ∧ t.err = s.err ∧ t.inFlight = s.inFlight ∧ t.status = 0x00000039#32 := by decide +kernel
/-- U16 and U11: WIDTH takes 16 bits in UNCONFIGURED, and drops the write in READY. -/
theorem test_step_width :
    (after (step (moving State.reset .host (.wr 0x010 0x00010040#32)))).width = 0x0040#16 ∧
      (after (step (moving flipReady .host (.wr 0x010 0x00000020#32)))).width = 64#16 := by decide +kernel
/-- HO1: a consumer that has emitted the tail's last word reads the link an ACTIVATE wrote, and goes to HEAD1. -/
theorem test_consumer_hand_off :
    let r := after (exec (.start .zero) flipReady)
    let at6 := { r with consumer := ⟨true, 0x3048#32, 2048, none, .playing 0x5000#32 2048#12⟩ }
    let t := ((after (exec (.activate .one) at6)).consumerStep false).consumerStep false
    t.consumer.cur = 0x4000#32 ∧ t.lapGuard = none ∧ (after (exec (.activate .one) at6)).lapGuard = some .zero := by
  decide +kernel
/-- B1's writes in order (the note under B7): the last `next` is 0 until the closing write. -/
theorem test_build_store_order :
    (buildStores 0x2000#32 4 [⟨0x1000, 10⟩]).map (fun w => (w.addr, w.value)) =
      [(0x2000, 0x80004004#32), (0x2004, 0x1000#32), (0x2008, 0x200C#32), (0x200C, 0x80004004#32),
        (0x2010, 0x1004#32), (0x2014, 0x2018#32), (0x2018, 0x80002002#32), (0x201C, 0x1008#32), (0x2020, 0#32),
        (0x2020, 0x2000#32)] := by decide

/-- Rule R84: the read of an invalid entry's `len` leaves BUSY = 1; the next block step raises check 6. -/
theorem test_list_error_step :
    let s := (building 4 [(0x1000, 0)] .fail).accept 0x00000003#32
    (s.blockRun [0, 0, 0]).busy = true ∧ (s.blockRun [0, 0, 0, 0]).busy = false ∧
      (s.blockRun [0, 0, 0, 0]).errInfo = 0x00000006#32 := by decide +kernel
/-- Rule R306: reads and a wait left over do not keep a run going, a command FRAME would skip neither; one it reaches
does. -/
theorem test_run_ended :
    ({ State.reset with hostOps := [.rd 4, .wr 0x02C 0#32, .wait] } : State).runEnded = true ∧
      ({ State.reset with err := .notSetup, hostOps := [.skipUnlessOk 2, .wr 0 5#32, .wait] } : State).runEnded = true ∧
      ({ State.reset with hostOps := [.rd 4, .skipUnlessOk 2, .wr 0 5#32, .wait] } : State).runEnded = false ∧
      (State.reset.accept 0#32).runEnded = false := by decide

/-! Witnesses: a concrete input for the hypotheses of every statement that has some, each clause at a boundary -/

/-- Steps: a host CMD write to accept, and one to run whole. -/
theorem witness_StepRunsTheDecodedCommand :
    let s := moving p4Ready .command (.wr 0 0x00000104#32)
    s.turns = .command :: [] ∧ s.hostOps = .wr 0 0x00000104#32 :: [] ∧ s.inFlight = none ∧
      s.lapBlocked 0x00000104#32 = false ∧ s.launchRefused 0x00000104#32 = false ∧
      decode 0x00000104#32 = .command (.start .one) ∧
      (moving p4Ready .command (.wr 0 0x00000006#32)).launchRefused 0x00000006#32 = false := by decide +kernel
theorem witness_AcceptanceLatchesTheCommand :
    let s := moving p4Ready .host (.wr 0 0x00000006#32)
    s.turns = .host :: [] ∧ s.hostOps = .wr 0 0x00000006#32 :: [] ∧ s.inFlight = none ∧
      s.lapBlocked 0x00000006#32 = false ∧ s.launchRefused 0x00000006#32 = false := by decide +kernel
/-- SETUP of P4 once its arena is granted: in flight, and BP_BASE, ORDER_LEN and PLANE_SIZE still read 0. -/
theorem witness_AcceptanceLatchesTheCommand_progress :
    let s := (p4.accept 0x00000001#32).blockRun [0, 0]
    s.inFlight ≠ none ∧ s.regions.length = 1 ∧ [0x040, 0x044, 0x048].map s.readReg = [0#32, 0#32, 0#32] := by
  decide +kernel
/-- Each clause: a bit of [7:4], a bit of [31:9], the opcodes 7 and 15, and the slot bit on the slotless 0 and 2. -/
theorem witness_IllegalWordsCompleteWithBadCommand :
    (∀ w : Word,
      let s := moving p4Ready .command (.wr 0 w)
      s.turns = .command :: [] ∧ s.hostOps = .wr 0 w :: [] ∧ s.inFlight = none) ∧
      ([0x00000016#32, 0x00000206#32, 0x80000004#32, 0x00000007#32, 0x0000000F#32, 0x00000100#32, 0x00000102#32].map
          fun w : Word =>
        (w.extractLsb' 4 4 != 0#4, w.extractLsb' 9 23 != 0#23, decide (0x7 ≤ (w.extractLsb' 0 4).toNat),
          decide ((w.extractLsb' 0 4).toNat < 0x3 ∧ w.extractLsb' 8 1 = 1#1))) =
        [(true, false, false, false), (false, true, false, false), (false, true, false, false),
          (false, false, true, false), (false, false, true, false), (false, false, false, true),
          (false, false, false, true)] :=
  ⟨fun _ => ⟨rfl, rfl, show p4Ready.inFlight = none by decide +kernel⟩, by decide⟩
theorem witness_BlockStepsReachTheCommandsEffect :
    p4Ready.inFlight = none ∧ p4Ready.runWord 0x00000004#32 = .next (after (p4Ready.runWord 0x00000004#32)) :=
  ⟨by decide +kernel, next_of_answers (by decide +kernel)⟩
theorem witness_CommandsDoNotReadTheConsumer :
    exec (.activate .one) p4Running = .next (after (exec (.activate .one) p4Running)) :=
  next_of_answers (by decide +kernel)
/-- A NOP in flight that the block's next turn completes. -/
def nopInFlight : State := { State.reset.accept 0#32 with turns := [.block 0] }
/-- The run from it: once its turns are used up, the oracle's change nothing that matters. -/
def nopRun : Nat → State
  | 0 => nopInFlight
  | n + 1 => after (step (nopRun n))
theorem idle_step {s : State} (h : s.inFlight = none ∧ s.hostOps = []) :
    step s = .next (after (step s)) ∧ (after (step s)).inFlight = none ∧ (after (step s)).hostOps = [] := by
  have h1 : s.takeTurn.inFlight = none := by simp [h.1]
  have h2 : s.takeTurn.hostOps = [] := by simp [h.2]
  unfold step
  generalize s.takeTurn = u at h1 h2
  cases s.whoseTurn with
  | host => simp [State.event, State.hostStep, h1, h2, after]
  | command => simp [State.event, State.hostStep, h1, h2, after]
  | block choice => simp [State.event, State.blockStep, h1, h2, after]
  | reset => exact ⟨rfl, rfl, h2⟩
  | consumer linkNow =>
    obtain h | ⟨_, _, h⟩ | ⟨_, _, h⟩ | ⟨_, _, h⟩ | ⟨_, _, _, _, h⟩ := u.consumerStep_cases linkNow <;>
      simp [State.event, h, h1, h2, after]
theorem nopRun_idle (n : Nat) : (nopRun (n + 1)).inFlight = none ∧ (nopRun (n + 1)).hostOps = [] := by
  induction n with
  | zero => decide +kernel
  | succ n ih => exact (idle_step ih).2
/-- A run that is fair to the block and in which it is never stuck. -/
theorem witness_CommandsDoNotReadTheConsumer_ends :
    IsRun nopRun ∧ FairToTheBlock nopRun ∧ (∀ n, ¬ (nopRun n).blockStuck) ∧ (nopRun 0).inFlight ≠ none := by
  refine ⟨fun n => ?_, fun n h => absurd (nopRun_idle n).1 (h (n + 1) (by omega)), fun n => ?_, by decide⟩
  · cases n with
    | zero => exact next_of_answers (by decide +kernel)
    | succ n => exact (idle_step (nopRun_idle n)).1
  · rintro ⟨choice, hw, hf, hs⟩
    cases n with
    | zero =>
      have : choice = 0 := by simpa [nopRun, nopInFlight, State.whoseTurn] using hw.symm
      subst this
      exact absurd hs (by decide +kernel)
    | succ n => exact hf (nopRun_idle n).1
/-- Stuck commands: silence at each call, a list and a framebuffer that reach 2^32. -/
theorem witness_NoCommandIsRefused :
    (p4.phase = .unconfigured ∧ p4.configLegal = true ∧ p4.double = true ∧
      ({ p4 with allocAnswers := [.silent] } : State).nextAnswer = .silent ∧
      p4.regionLegal (2 * 1 * 4) [p4.namedList] 0x10000#32 = true ∧
      ({ p4 with regions := [⟨0x10000, 8⟩] } : State).regionLegal (12 * 1) [p4.namedList] 0x10008#32 = true) ∧
    (∀ s ∈ [building 4 [(0x1000, 10)] .silent],
      s.phase = .ready ∧ s.slotExists .one = true ∧ s.seglist ≠ 0#32 ∧ s.seglist.toNat % 4 = 0 ∧
        s.mem.entryClass s.seglist.toNat 0 = .segment ∧ s.mem.entryClass s.seglist.toNat 1 = .sentinel ∧
        12 * descriptorCount s.unit (s.mem.listEntries s.seglist.toNat 1) < memSize ∧ s.nextAnswer = .silent) ∧
    memSize < ({ p4Ready with seglist := 0xFFFFFFFC#32 } : State).seglist.toNat + 8 * 0 + 8 ∧
    ∀ s ∈ [({ p4Ready with fbBase := 0xFFFFFFFF#32 } : State)],
      s.isSetUp = true ∧ s.configLegal = true ∧ s.slotExists .one = true ∧ s.framebufferRead.inMemory = false := by
  decide +kernel
theorem witness_FailedStateRunsOnlyNop : (after (exec .setup { p4 with allocAnswers := [.fail] })).phase = .failed := by
  decide +kernel

/-- The scheduler, at both ends of the plane counts. -/
theorem witness_ScheduleWritesTheOrdering :
    ∀ b ∈ [1, 8], (configured 0 0 b 0 0 false).phase ≠ .failed ∧ 1 ≤ (configured 0 0 b 0 0 false).planes ∧
      (configured 0 0 b 0 0 false).planes ≤ 8 := by decide
theorem witness_ScheduleRejectsIllegalPlaneCounts :
    (∀ b ∈ [0, 9, 15], (configured 0 0 b 0 0 false).phase ≠ .failed ∧
      ((configured 0 0 b 0 0 false).planes = 0 ∨ 8 < (configured 0 0 b 0 0 false).planes)) := by decide
theorem witness_OrderingPicksTheLeastCounter : 0 < 2 ^ 1 - 1 ∧ 254 < 2 ^ 8 - 1 := by decide
theorem witness_EveryPlaneOccursByItsWeight : (1 ≤ 1 ∧ 1 ≤ 8 ∧ 0 < 1) ∧ (1 ≤ 8 ∧ 8 ≤ 8 ∧ 7 < 8) := by decide

/-- The output word, at the first and the last plane, row and column of P1. -/
theorem witness_OutputWordFields :
    p1.planes ≤ 8 ∧ p1.rows ≤ 16 ∧ (0 < p1.planes ∧ 0 < p1.rows ∧ 0 < p1.panelWidth) ∧
      (1 < p1.planes ∧ 1 < p1.rows ∧ 3 < p1.panelWidth) := by decide

/-- The builder: a one-byte segment with M = 1, vector B3's exact multiple, vector B5's list. -/
theorem witness_ChunksSplitTheSegment :
    (1 ≤ 1 ∧ 1 ≤ (⟨0x1000, 1⟩ : Segment).len) ∧ 1 ≤ 4 ∧ 1 ≤ (⟨0x1000, 8⟩ : Segment).len ∧
      (⟨0x1000, 8⟩ : Segment).len % 4 = 0 := by decide
theorem witness_DescriptorCountIsTheSegmentSum :
    let b5 : List Segment := [⟨0x1000, 5⟩, ⟨0x3000, 5⟩]
    let multiples : List Segment := [⟨0x1000, 8⟩, ⟨0x3000, 5⟩]
    1 ≤ 4 ∧ b5 ≠ [] ∧ (∀ g ∈ b5, 1 ≤ g.len) ∧ multiples ≠ [] ∧ (∀ g ∈ multiples, 1 ≤ g.len) ∧
      ∀ g ∈ multiples.dropLast, g.len % 4 = 0 := by decide

/-- Vector B1's ring as BUILD_RING leaves it. -/
def b1Built : State := after (exec (.buildRing .zero) (building 4 [(0x1000, 10)] (.region 0x2000#32)))
theorem witness_ARingIsASingleCycle :
    let chunks := chunksOf 4 [⟨0x1000, 10⟩]
    b1Built.mem.isRing 0x2000 chunks ∧ 0 < chunks.length ∧ 2 < chunks.length := by
  refine ⟨?_, by decide, by decide⟩
  have h : ∀ i : Fin (chunksOf 4 [⟨0x1000, 10⟩]).length,
      b1Built.mem.isDescriptor (0x2000 + 12 * i) (chunksOf 4 [⟨0x1000, 10⟩])[i].len (chunksOf 4 [⟨0x1000, 10⟩])[i].addr
        (0x2000 + 12 * ((i.val + 1) % (chunksOf 4 [⟨0x1000, 10⟩]).length)) = true := by decide +kernel
  exact fun i hi => h ⟨i, hi⟩

/-- A memory with `n` list entries (0x1000, 4) written from 0x30000 on. -/
def manyEntries (rest : Memory) : Nat → Memory
  | 0 => rest
  | n + 1 => ((manyEntries rest n).write (0x30000 + 8 * n) 4 0x1000).write (0x30000 + 8 * n + 4) 4 4
theorem manyEntries_entry {rest : Memory} {n i : Nat} (hi : i < n) :
    (manyEntries rest n).listEntry 0x30000 i = ⟨0x1000, 4⟩ := by
  induction n with
  | zero => omega
  | succ n ih =>
    simp only [Memory.listEntry, manyEntries] at *
    by_cases h : i = n
    · subst h
      rw [Memory.read_write_of_disjoint _ (by omega), Memory.read_write_same, Memory.read_write_same]
      rfl
    · rw [Memory.read_write_of_disjoint _ (by omega), Memory.read_write_of_disjoint _ (by omega),
        Memory.read_write_of_disjoint _ (by omega), Memory.read_write_of_disjoint _ (by omega), ih (by omega)]
theorem manyEntries_above {rest : Memory} {n i : Nat} (hi : n ≤ i) :
    (manyEntries rest n).listEntry 0x30000 i = rest.listEntry 0x30000 i := by
  induction n with
  | zero => rfl
  | succ n ih =>
    rw [← ih (by omega)]
    simp only [Memory.listEntry, manyEntries]
    rw [Memory.read_write_of_disjoint _ (by omega), Memory.read_write_of_disjoint _ (by omega),
      Memory.read_write_of_disjoint _ (by omega), Memory.read_write_of_disjoint _ (by omega)]
/-- A READY state with `n` list entries (0x1000, 4) at 0x30000, then the entry of the two given words. -/
def longList (n ptr len : Nat) : State :=
  { building 4 [] (.region 0x2000#32) with
    mem := manyEntries (words32 Memory.unknown [(0x30000 + 8 * n, ptr), (0x30000 + 8 * n + 4, len)]) n }
theorem longList_segment {n i ptr len : Nat} (hi : i < n) :
    (longList n ptr len).mem.entryClass 0x30000 i = .segment := by
  simp only [longList, Memory.entryClass]; rw [manyEntries_entry hi]; decide

/-- BUILD_RING of a list of one segment, of two, and of the longest list, 255 segments, with its pool granted. -/
theorem witness_BuildRingBuildsTheRing :
    (∀ c ∈ [(building 4 [(0x1000, 10)] (.region 0x2000#32), 1),
        (building 4 [(0x1000, 5), (0x3000, 5)] (.region 0x2000#32), 2)],
      let s := c.1
      let j := c.2
      s.phase = .ready ∧ s.slotExists .one = true ∧ s.seglist ≠ 0#32 ∧ s.seglist.toNat % 4 = 0 ∧ 1 ≤ s.unit ∧
        1 ≤ j ∧ j ≤ 255 ∧ s.seglist.toNat + 8 * j + 8 ≤ memSize ∧
        (∀ i, i < j → s.mem.entryClass s.seglist.toNat i = .segment) ∧
        s.mem.entryClass s.seglist.toNat j = .sentinel ∧
        12 * descriptorCount s.unit (s.mem.listEntries s.seglist.toNat j) < memSize ∧
        s.allocAnswers = .region 0x2000#32 :: [] ∧
        s.regionLegal (12 * descriptorCount s.unit (s.mem.listEntries s.seglist.toNat j))
          [{ base := s.seglist.toNat, size := 8 * (j + 1) }] 0x2000#32 = true) := by decide +kernel
theorem witness_BuildRingBuildsTheRing_longest :
    let s := longList 255 0 0
    (s.phase = .ready ∧ s.slotExists .one = true ∧ s.seglist = 0x30000#32 ∧ 1 ≤ s.unit ∧
      0x30000 + 8 * 255 + 8 ≤ memSize ∧ s.allocAnswers = .region 0x2000#32 :: []) ∧
      (∀ i, i < 255 → s.mem.entryClass 0x30000 i = .segment) ∧ s.mem.entryClass 0x30000 255 = .sentinel ∧
      s.mem.listEntries 0x30000 255 = List.replicate 255 ⟨0x1000, 4⟩ ∧
      descriptorCount 4 (List.replicate 255 ⟨0x1000, 4⟩) = 255 ∧
      s.regionLegal (12 * 255) [{ base := 0x30000, size := 8 * (255 + 1) }] 0x2000#32 = true := by
  refine ⟨by decide, fun i hi => longList_segment hi, ?_, ?_, by decide +kernel, by decide +kernel⟩
  · simp only [longList, Memory.entryClass]; rw [manyEntries_above (Nat.le_refl _)]; decide +kernel
  rw [Memory.listEntries, List.eq_replicate_iff]
  refine ⟨by simp, fun g hg => ?_⟩
  obtain ⟨i, hi, rfl⟩ := List.mem_map.mp hg
  exact manyEntries_entry (List.mem_range.mp hi)
theorem witness_BuildRingAllocationFailureIsFatal :
    let s := building 4 [(0x1000, 10)] .fail
    s.phase = .ready ∧ s.slotExists .zero = true ∧ s.seglist ≠ 0#32 ∧ s.seglist.toNat % 4 = 0 ∧
      s.seglist.toNat + 8 * 1 + 8 ≤ memSize ∧ s.mem.entryClass s.seglist.toNat 0 = .segment ∧
      s.mem.entryClass s.seglist.toNat 1 = .sentinel ∧
      12 * descriptorCount s.unit (s.mem.listEntries s.seglist.toNat 1) < memSize ∧ s.allocAnswers = .fail :: [] := by
  decide +kernel
theorem witness_BuildRingChecksItsRegistersInOrder :
    State.reset.phase = .unconfigured ∧ p4Running.phase = .running ∧ (p2Ready.phase = .ready ∧ p2Ready.double = false) ∧
      (p4Ready.phase = .ready ∧ p4Ready.slotExists .one = true ∧ p4Ready.seglist = 0#32) ∧
      ({ p4Ready with seglist := 0x30001#32 } : State).seglist.toNat % 4 ≠ 0 := by decide +kernel
/-- Each clause: an invalid entry at 0 and at 255, 256 segments, an empty list, a pool of more than 2^32 bytes. -/
theorem witness_BuildRingRejectsBadLists :
    let first := building 4 [(0x1000, 0)] .fail
    let empty := building 4 [(0, 0)] .fail
    let large := building 2 [(0x10000000, 0x60000000)] .fail
    (∀ s ∈ [first, empty, large],
      s.phase = .ready ∧ s.slotExists .zero = true ∧ s.seglist ≠ 0#32 ∧ s.seglist.toNat % 4 = 0 ∧
        s.seglist.toNat + 8 * 256 ≤ memSize) ∧
      first.mem.entryClass 0x30000 0 = .invalid ∧ empty.mem.entryClass 0x30000 0 = .sentinel ∧
      large.mem.entryClass 0x30000 0 = .segment ∧ large.mem.entryClass 0x30000 1 = .sentinel ∧
      memSize ≤ 12 * descriptorCount large.unit (large.mem.listEntries 0x30000 1) := by decide +kernel
theorem witness_BuildRingRejectsBadLists_last :
    (∀ i, i < 255 → (longList 255 0 4).mem.entryClass 0x30000 i = .segment) ∧
      (longList 255 0 4).mem.entryClass 0x30000 255 = .invalid ∧
      ∀ i, i < 256 → (longList 256 0 0).mem.entryClass 0x30000 i = .segment := by
  refine ⟨fun i hi => longList_segment hi, ?_, fun i hi => longList_segment hi⟩
  simp only [longList, Memory.entryClass]; rw [manyEntries_above (Nat.le_refl _)]; decide +kernel

/-- START and ACTIVATE, on the rings of P4 and of vectors F1 to F6. -/
theorem witness_StartRunsTheConsumer :
    (∀ s ∈ [p4Ready, p2Ready, flipReady], s.phase = .ready ∧ s.slotExists .zero = true ∧
      ∀ x ∈ s.slots, (s.ring x).tail.toNat % 4 = 0 ∧ (s.ring x).tail.toNat + 12 ≤ memSize) := by decide +kernel
theorem witness_StartRejects :
    State.reset.phase = .unconfigured ∧ p4Running.phase = .running ∧ p2Ready.phase = .ready ∧ p2Ready.double = false := by
  decide +kernel
theorem witness_ActivateFlipsBothTails :
    (∀ s ∈ [p4Ready, p4Running], s.isSetUp = true ∧ s.double = true ∧
      ((s.ring .zero).tail.toNat % 4 = 0 ∧ (s.ring .zero).tail.toNat + 12 ≤ memSize) ∧
      (s.ring .one).tail.toNat % 4 = 0 ∧ (s.ring .one).tail.toNat + 12 ≤ memSize) := by decide +kernel
theorem witness_ActivateIsANoOpInSingleRingMode :
    (p2Ready.double = false ∧ p2Ready.phase ≠ .failed) ∧ State.reset.double = false ∧
      ({ p2Ready with phase := .failed } : State).phase = .failed := by decide +kernel
theorem witness_ActivateBeforeSetupFails : p4.double = true ∧ p4.phase = .unconfigured := by decide
/-- The consumer of P4 at the end of ring 0's only descriptor. -/
def p4AtTail : State :=
  { p4Running with consumer := ⟨true, p4Running.ring0.tail, 4, none, .playing 0x10000#32 4#12⟩ }
theorem witness_FlipHandsOffAtTheTail :
    p4AtTail.phase = .running ∧ p4AtTail.double = true ∧
      (∀ y ∈ [Slot.zero, .one], (p4AtTail.ring y).tail.toNat % 4 = 0 ∧ (p4AtTail.ring y).tail.toNat + 12 ≤ memSize) ∧
      (p4AtTail.ring .one).head ≠ 0#32 ∧ p4AtTail.consumer.run = true ∧
      p4AtTail.consumer.cur = (p4AtTail.ring .zero).tail ∧ p4AtTail.consumer.link = none ∧
      p4AtTail.consumer.visit = .playing 0x10000#32 4#12 ∧ (4#12).toNat ≤ p4AtTail.consumer.off ∧
      answers (exec (.activate .one) p4AtTail) = true := by decide +kernel
/-- An ACTIVATE 1 of P4 before its first link write. -/
def p4Flipping : State := (p4Running.accept 0x00000105#32).blockStep 0
theorem witness_FlipLinksAreNeverTorn :
    p4Flipping.inFlight.map InFlight.stage =
        some (.flipLinks .one [p4Running.linkStore 0x10014#32 .zero, p4Running.linkStore 0x10014#32 .one]) ∧
      ((∃ slot ∈ p4Flipping.slots, (p4Running.linkStore 0x10014#32 .zero).addr = (p4Flipping.tailLink slot).base) ∧
        ∃ slot ∈ p4Flipping.slots, (0x10014#32).toNat = (p4Flipping.ring slot).head.toNat) ∧
      ∀ x ∈ p4Flipping.slots, (p4Flipping.ring x).tail.toNat % 4 = 0 ∧ (p4Flipping.ring x).tail.toNat + 12 ≤ memSize := by
  decide +kernel

/-- ENCODE of either slot in READY, and of the preparing slot in RUNNING. -/
theorem witness_EncodeWritesEveryWord :
    (∀ c ∈ [(p4Ready, Slot.zero), (p4Ready, .one), (p4Running, .one), (p2Ready, .zero)],
      let s := c.1
      let slot := c.2
      s.mem.wf = true ∧ s.inFlight = none ∧ s.isSetUp = true ∧ s.slotExists slot = true ∧ s.fbBase ≠ 0#32 ∧
        ¬ (s.phase = .running ∧ s.double = true ∧ slot = s.sel) ∧ s.framebufferRead.inMemory = true ∧
        (s.slotBuffers slot).inMemory = true ∧ Region.disjoint s.framebufferRead (s.slotBuffers slot) = true) := by
  decide +kernel
theorem witness_EncodeTwiceIsEncodeOnce :
    answers (exec (.encode .zero) e4) = true ∧ e4.framebufferRead.inMemory = true ∧
      (e4.slotBuffers .zero).inMemory = true ∧ Region.disjoint e4.framebufferRead (e4.slotBuffers .zero) = true := by
  decide +kernel
/-- The choices of an ENCODE of P4: 7 accesses for each of its 1 × 1 × 2 words, and two steps. -/
theorem witness_EveryEncodeOrderReachesTheSameState :
    (List.replicate 16 5).length = 7 * (p4Ready.planes * p4Ready.rows * p4Ready.panelWidth) + 2 ∧
      after (exec (.encode .one) p4Ready) =
        (p4Ready.accept (encode (.encode .one))).blockRun (List.replicate 16 5) := by decide +kernel
theorem witness_EncodeChecksInOrder :
    State.reset.phase = .unconfigured ∧ (p2Ready.isSetUp = true ∧ p2Ready.double = false) ∧
      (({ p4Ready with fbBase := 0#32 } : State).isSetUp = true ∧ p4Ready.slotExists .one = true) ∧
      p4Running.phase = .running ∧ p4Running.double = true ∧ p4Running.fbBase ≠ 0#32 ∧ Slot.zero = p4Running.sel := by
  decide +kernel
theorem witness_EncodeNeverWritesTheActiveSlot :
    p4Running.phase = .running ∧ p4Running.double = true ∧
      answers (exec (.encode .one) p4Running) = true ∧
      (p4Running.slotBuffers p4Running.sel).holds 0x10000 = true ∧
      (p4Running.slotBuffers p4Running.sel).holds 0x10003 = true := by decide +kernel

/-- SETUP: each check at its bounds, and P1, P2 and P5's allocator answers. -/
theorem witness_SetupReportsTheFirstFailingCheck :
    let u1 := configured 64 32 3 4092 16 true
    flipReady.phase ≠ .unconfigured ∧ u1.phase = .unconfigured ∧ (configured 1 32 3 4092 16 true).panelWidth < 2 ∧
      (¬ u1.panelWidth < 2 ∧ (configured 64 33 3 4092 16 true).panelHeight % 2 ≠ 0 ∧
        32 < (configured 64 34 3 4092 16 true).panelHeight ∧ (configured 64 0 3 4092 16 true).panelHeight < 2) ∧
      ((configured 64 32 0 4092 16 true).planes = 0 ∧ 8 < (configured 64 32 9 4092 16 true).planes) ∧
      ((configured 64 32 3 4093 16 true).unit % 2 ≠ 0 ∧ (configured 64 32 3 0 16 true).unit < 2 ∧
        4094 < (configured 64 32 3 4095 16 true).unit) ∧
      (u1.params.limitCheck = .strict ∧ ¬ (0 < (configured 64 32 3 4092 0 true).limit) ∧
        ¬ ((configured 64 32 3 4092 64 true).limit < u1.panelWidth)) ∧
      ¬ (configured 64 32 3 4092 65 true).limit ≤ u1.panelWidth := by decide
theorem witness_SetupBuildsTheRings :
    (p1.phase = .unconfigured ∧ p1.configLegal = true ∧ p1.double = true ∧
      p1.allocAnswers = .region 0x10000#32 :: .region 0x10040#32 :: .region 0x10088#32 :: [] ∧
      p1.regionLegal (2 * 2 * 16) [p1.namedList] 0x10000#32 = true ∧
      ({ p1 with regions := [⟨0x10000, 64⟩] } : State).regionLegal (12 * 6) [p1.namedList] 0x10040#32 = true ∧
      ({ p1 with regions := [⟨0x10040, 72⟩, ⟨0x10000, 64⟩] } : State).regionLegal (12 * 6) [p1.namedList] 0x10088#32 = true) ∧
    (p2.phase = .unconfigured ∧ p2.configLegal = true ∧ p2.double = false ∧
      p2.allocAnswers = .region 0x10000#32 :: .region 0x10008#32 :: [] ∧
      p2.regionLegal (1 * 2 * 4) [p2.namedList] 0x10000#32 = true ∧
      ({ p2 with regions := [⟨0x10000, 8⟩] } : State).regionLegal (12 * 3) [p2.namedList] 0x10008#32 = true) := by decide
theorem witness_SetupAllocationFailureIsFatal :
    p4.phase = .unconfigured ∧ p4.configLegal = true ∧ p4.double = true ∧
      p4.regionLegal (2 * 1 * 4) [p4.namedList] 0x10000#32 = true ∧
      ({ p4 with regions := [⟨0x10000, 8⟩] } : State).regionLegal (12 * 1) [p4.namedList] 0x10008#32 = true ∧
      ({ p4 with allocAnswers := [.fail] } : State).allocAnswers = .fail :: [] ∧
      ({ p4 with allocAnswers := [.region 0x10000#32, .fail] } : State).allocAnswers =
        .region 0x10000#32 :: .fail :: [] ∧
      ({ p4 with allocAnswers := [.region 0x10000#32, .region 0x10008#32, .fail] } : State).allocAnswers =
        .region 0x10000#32 :: .region 0x10008#32 :: .fail :: [] := by decide

/-- The register window: the ends of the map, and a write in each kind of STATE. -/
theorem witness_ReadsReturnTheRegister :
    (∀ off ∈ [0x000, 0x00C, 0x06C, 0x0FC, 0x4F8, 0x4FC],
      (moving p4Running .host (.rd off)).turns = .host :: [] ∧ (moving p4Running .host (.rd off)).hostOps = .rd off :: [] ∧
        windowOffset off = true) := by decide
theorem witness_RegisterWritesFollowTheAccessCodes :
    (∀ off ∈ [0x010, 0x024, 0x028, 0x02C, 0x030, 0x040, 0x00C, 0x4FC],
      (∀ s ∈ [State.reset, p4Running],
        (moving s .host (.wr off 1#32)).turns = .host :: [] ∧ (moving s .host (.wr off 1#32)).hostOps = .wr off 1#32 :: [] ∧
          (moving s .host (.wr off 1#32)).inFlight = none) ∧
        windowOffset off = true ∧ off ≠ 0x000 ∧ off ≠ 0x004) ∧
      State.reset.phase = .unconfigured ∧ p4Running.phase ≠ .unconfigured := by decide +kernel
theorem witness_OverrunIsStickyUntilCleared :
    (∀ off ∈ [0x000, 0x4FC], (moving (p4Running.accept 0#32) .host (.wr off 1#32)).inFlight ≠ none ∧ off ≠ 0x004 ∧
      windowOffset off = true) ∧ windowOffset 0x004 = true := by decide +kernel
/-- OVR = 1, and a step that is neither a reset nor a write of 1 to STATUS[5]. -/
theorem witness_OverrunIsStickyUntilCleared_step :
    (∀ op ∈ [HostOp.wr 0x004 0xFFFFFFDF#32, .rd 0x004, .wr 0x010 0#32],
      let s := moving { p4Ready with ovr := true } .host op
      answers (step s) = true ∧ s.ovr = true ∧ s.resets = false ∧ s.clearsOverrun = false) := by decide +kernel
theorem witness_ConfigurationIsLatched :
    let s := moving p4Ready .host (.wr 0x010 1#32)
    answers (step s) = true ∧ s.phase ≠ .unconfigured ∧ s.resets = false := by decide +kernel
theorem witness_StateChangesOnlyAsTheSpecSays_reset : (moving p4Running .host .reset).resets = true := by decide +kernel

/-- The agents. -/
theorem witness_AllocatorGrantsLawfulRegions :
    p4.alloc 8 [] =
      .granted 0x10000#32 (State.grant { p4 with allocAnswers := p4.allocAnswers.drop 1 } ⟨0x10000, 8⟩) := by
  decide +kernel
theorem witness_ConsumerStepsFollowTheDescriptor :
    (p4Running.consumer.run = true ∧ p4Running.consumer.visit = .arriving ∧
      p4Running.consumer.cur.toNat + 12 ≤ memSize ∧
      let d0 := p4Running.mem.read p4Running.consumer.cur.toNat 4
      d0.testBit 31 = true ∧ d0 / 4096 % 4096 = 4 ∧ p4Running.mem.read (p4Running.consumer.cur.toNat + 4) 4 % 2 = 0) ∧
    (p4AtTail.consumer.visit = .playing 0x10000#32 4#12 ∧ p4AtTail.consumer.link = none ∧
      (4#12).toNat ≤ p4AtTail.consumer.off) ∧
    (p4Running.consumerStep false).consumer.visit = .playing 0x10000#32 4#12 ∧
      (p4Running.consumerStep false).consumer.off < (4#12).toNat ∧
      (p4AtTail.consumerStep false).consumer.link = some 0x10008#32 := by decide +kernel
/-- P4's first descriptor, a chunk of four bytes, and a list of 4 / 2 + 3 choices. -/
theorem witness_ConsumerPlaysTheWholeDescriptor :
    let cur := p4Running.consumer.cur.toNat
    let d0 := p4Running.mem.read cur 4
    let buf := p4Running.mem.read (cur + 4) 4
    p4Running.consumer.run = true ∧ p4Running.consumer.visit = .arriving ∧ p4Running.consumer.link = none ∧
      cur + 12 ≤ memSize ∧ d0.testBit 31 = true ∧ d0 / 4096 % 4096 = 4 ∧ 4 % 2 = 0 ∧ buf % 2 = 0 ∧
      buf + 4 ≤ memSize ∧ p4Running.mem.read (cur + 8) 4 ≠ 0 ∧
      [false, true, false, false, true].length = 4 / 2 + 3 := by decide +kernel
/-- Vector B7's odd chunk, an owner bit of 0, a length of 0, an odd buffer, and a null link. -/
theorem witness_ConsumerStopsOnMalformedDescriptors :
    let at_ := fun (d0 buf : Nat) => words32 Memory.unknown [(0x3000, d0), (0x3004, buf)]
    let run : Consumer := ⟨true, 0x3000#32, 0, none, .arriving⟩
    run.run = true ∧ run.visit = .arriving ∧ 0x3000 + 8 ≤ memSize ∧
      (at_ 0x80001001 0x1FFE).read 0x3000 4 / 4096 % 4096 % 2 = 1 ∧
      ((at_ 0x00004004 0x1000).read 0x3000 4).testBit 31 = false ∧ (at_ 0x80000000 0x1000).read 0x3000 4 / 4096 % 4096 = 0 ∧
      (at_ 0x80004004 0x1001).read 0x3004 4 % 2 = 1 ∧
      ({ p4AtTail with consumer := { p4AtTail.consumer with link := some 0#32 } } : State).consumer.link = some 0#32 := by
  decide +kernel
/-- The host waits for the slot a flip of P4 left. -/
def p4Left : State := after (exec (.activate .one) p4Running)
theorem witness_GuardedHostWaitsForTheHandOff :
    decode 0x00000006#32 = .command (.encode .zero) ∧ p4Left.lapGuard = some .zero ∧ p4Left.inFlight = none ∧
      p4Left.params.lapWait = .guarded ∧
      ({ p4Left with params := { p4Left.params with lapWait := .unguarded } } : State).params.lapWait = .unguarded ∧
      p4Left.launchRefused 0x00000006#32 = false := by
  decide +kernel
/-- Host moves: offsets outside the window, a write of 3 bytes and one whose last byte is past 2^32, a write beside the
regions, one into the arena, one into the window. -/
theorem witness_HostMovesKeepToTheInterface :
    windowOffset 0x002 = false ∧ windowOffset 0x500 = false ∧
      (¬ (3 = 1 ∨ 3 = 2 ∨ 3 = 4) ∧ memSize < (0xFFFFFFFD#32).toNat + 4) ∧
      ((∀ r ∈ p4Ready.window :: p4Ready.regions, Region.disjoint r ⟨0x20000, 4⟩ = true) ∧ 0x20000 + 4 ≤ memSize) ∧
      (∃ r ∈ p4Ready.window :: p4Ready.regions, Region.disjoint r ⟨0x10007, 1⟩ = false) ∧
      ∃ r ∈ p4Ready.window :: p4Ready.regions, Region.disjoint r ⟨0xF00004FC, 4⟩ = false := by decide +kernel
/-- Launches the model refuses: a framebuffer whose last byte is the arena's first, a list inside the framebuffer. -/
def fbOnArena : State := { p4Ready with fbBase := 0xFFF5#32 }
def listOnFb : State :=
  { p4Ready with seglist := 0x20000#32, mem := words32 p4Ready.mem [(0x20000, 0x1000), (0x20004, 4), (0x20008, 0), (0x2000C, 0)] }
theorem witness_HostMovesKeepToTheInterface_launch :
    (checkEncode .one fbOnArena = none ∧ fbOnArena.lapBlocked 0x00000106#32 = false ∧ fbOnArena.inFlight = none ∧
      ∃ r ∈ fbOnArena.window :: fbOnArena.regions, Region.disjoint fbOnArena.framebuffer r = false) ∧
    (checkBuildRing .one listOnFb = none ∧ listOnFb.lapBlocked 0x00000103#32 = false ∧ listOnFb.inFlight = none ∧
      listOnFb.namedList = ⟨0x20000, 16⟩ ∧
      ∃ r ∈ listOnFb.window :: listOnFb.framebuffer :: listOnFb.regions,
        Region.disjoint listOnFb.namedList r = false) ∧
    decode 0x00000106#32 = .command (.encode .one) ∧ decode 0x00000103#32 = .command (.buildRing .one) := by
  decide +kernel

/-- The invariant, on P4 with its consumer running. -/
theorem witness_ModeInv : p4Running.ModeInv :=
  { selSingle := by decide +kernel
    selUnconfigured := by decide +kernel
    runs := by decide +kernel
    legal := by decide +kernel
    tables := by decide +kernel
    flight := by
      have h : p4Running.inFlight = none := by decide +kernel
      rw [h]; exact fun _ h => by cases h }
theorem witness_RegionsInv : p4Running.RegionsInv :=
  { lawful := by decide +kernel
    apart := by decide +kernel }
theorem p4Running_ringStands : ∀ slot ∈ p4Running.slots, p4Running.ringStands slot := by
  have hc : ∀ slot ∈ p4Running.slots, (p4Running.ring slot).count.toNat = 1 := by decide +kernel
  have ha : ∀ slot ∈ p4Running.slots,
      (1 ≤ (p4Running.ring slot).count.toNat ∧
        (p4Running.ring slot).tail.toNat =
          (p4Running.ring slot).head.toNat + 12 * ((p4Running.ring slot).count.toNat - 1) ∧
        (p4Running.ring slot).pool ∈ p4Running.regions) ∧
      Region.disjoint (p4Running.ring slot).pool p4Running.arena = true := by decide +kernel
  intro slot hs
  exact ⟨(ha slot hs).1, (ha slot hs).2, fun i hi => by have := hc slot hs; omega⟩
theorem witness_Inv : p4Running.Inv :=
  { memory := by decide +kernel
    mode := witness_ModeInv
    regions := witness_RegionsInv
    rings :=
      { arena := by decide +kernel
        stands := fun _ => p4Running_ringStands
        apart := by decide +kernel
        closed := by
          have h : ∀ slot ∈ p4Running.slots, ∃ x ∈ p4Running.slots,
              p4Running.mem.nextOf (p4Running.ring slot).tail.toNat = (p4Running.ring x).head.toNat := by decide +kernel
          exact fun _ => h
        inside := by
          have h : ∃ slot ∈ p4Running.slots, ∃ i < (p4Running.ring slot).count.toNat,
              p4Running.consumer.cur.toNat = (p4Running.ring slot).head.toNat + 12 * i := by decide +kernel
          have hl : p4Running.consumer.link = none := by decide +kernel
          exact fun _ => ⟨h, by rw [hl]; exact fun _ h => by cases h⟩
        flight := by
          have h : p4Running.inFlight = none := by decide +kernel
          rw [h]; exact fun _ h => by cases h } }
/-- A step of each kind from it. -/
theorem witness_steps_from_Inv :
    (∀ t ∈ [Turn.host, .command, .block 0, .consumer false, .reset],
      let s := moving p4Running t (.wr 0 0x00000106#32)
      answers (step s) = true ∧ s.phase = .running) := by decide +kernel
/-- P4's consumer is in ring 0, whose tail names its head. -/
theorem witness_ConsumerStaysInTheActivatedRing :
    p4Running.phase = .running ∧ Slot.zero ∈ p4Running.slots ∧
      p4Running.mem.nextOf (p4Running.ring .zero).tail.toNat = (p4Running.ring .zero).head.toNat ∧
      (∃ i < (p4Running.ring .zero).count.toNat, p4Running.consumer.cur.toNat = (p4Running.ring .zero).head.toNat + 12 * i) ∧
      p4Running.consumer.link = none := by decide +kernel

end Sys2Proof.Machine.Tests
end

section
/-!
The registers and modes of the block (10_state.md): what a command, a block step and every other step can do to STATE,
SEL, RUN, the configuration and OVR, said once; then the register window and the host's moves.
-/
namespace Sys2Proof.Machine

/-! The modes, and what no command writes -/

/-- The configuration that 10_state.md rule R52 latches, and the parameters. -/
structure Settings where
  width : BitVec 16
  height : BitVec 16
  bitplaneCnt : BitVec 4
  maxUnit : BitVec 12
  brightness : BitVec 16
  double : Bool
  params : Params

def State.settings (s : State) : Settings :=
  { width := s.width, height := s.height, bitplaneCnt := s.bitplaneCnt, maxUnit := s.maxUnit
    brightness := s.brightness, double := s.double, params := s.params }

/-- What only the host's register writes and a reset change: the configuration and OVR (10_state.md rule R38). -/
def State.hostOwned (s : State) : Settings × Bool := (s.settings, s.ovr)

/-- STATE, SEL and RUN. -/
structure Modes where
  phase : Phase
  sel : Slot
  run : Bool

def State.modes (s : State) : Modes := { phase := s.phase, sel := s.sel, run := s.consumer.run }

/-- ORDER has its 255 entries and there are 8 counters (10_state.md rule R57, rule R59). -/
def State.TablesFull (s : State) : Prop := s.order.length = orderEntries ∧ s.cnt.length = counterEntries

/-- A command in flight stands where its checks have let it come. -/
def State.FlightFits (s : State) : Prop := ∀ c, s.inFlight = some c → s.stageFits c.stage = true

theorem State.settings_eq_iff {s t : State} :
    t.settings = s.settings ↔
      t.width = s.width ∧ t.height = s.height ∧ t.bitplaneCnt = s.bitplaneCnt ∧ t.maxUnit = s.maxUnit ∧
        t.brightness = s.brightness ∧ t.double = s.double ∧ t.params = s.params := by
  simp [State.settings]

theorem State.hostOwned_eq_iff {s t : State} : t.hostOwned = s.hostOwned ↔ t.settings = s.settings ∧ t.ovr = s.ovr := by
  simp [State.hostOwned]

theorem State.modes_eq_iff {s : State} {m : Modes} :
    s.modes = m ↔ s.phase = m.phase ∧ s.sel = m.sel ∧ s.consumer.run = m.run := by
  cases m
  simp [State.modes]

/-- Whether a configuration is legal is a matter of the settings. -/
theorem State.configLegal_congr {s t : State} (h : t.settings = s.settings) : t.configLegal = s.configLegal := by
  cases s
  cases t
  obtain ⟨rfl, rfl, rfl, rfl, rfl, -, rfl⟩ := State.settings_eq_iff.mp h
  rfl

/-- Where a command may stand is a matter of the settings and STATE. -/
theorem State.stageFits_congr {s t : State} (h : t.settings = s.settings) (hp : t.phase = s.phase) (stage : Stage) :
    t.stageFits stage = s.stageFits stage := by
  have hd : t.double = s.double := congrArg Settings.double h
  unfold State.stageFits
  simp only [State.configLegal_congr h, State.isSetUp, State.slotExists, hp, hd]

/-- A state in which the modes, the settings and OVR stand as they did and no table entry is lost. -/
structure State.Undisturbed (s t : State) : Prop where
  hostOwned : t.hostOwned = s.hostOwned
  modes : t.modes = s.modes
  tables : s.TablesFull → t.TablesFull

/-- The ways STATE, SEL and RUN change while a command runs, each with what its checks have found: not at all, SETUP's
end, START's end, ACTIVATE's end, ALLOC_FAIL (10_state.md rule R36). -/
inductive State.ModeMove (s t : State) : Prop
  | stay (h : t.modes = s.modes)
  | setUp (hp : s.phase = .unconfigured) (hl : s.configLegal = true)
      (h : t.modes = { s.modes with phase := .ready, sel := .zero })
  | start (slot : Slot) (hp : s.phase = .ready) (hs : s.slotExists slot = true)
      (h : t.modes = { phase := .running, sel := slot, run := true })
  | flip (slot : Slot) (hp : s.isSetUp = true) (hd : s.double = true) (h : t.modes = { s.modes with sel := slot })
  | fail (hp : s.phase = .unconfigured ∨ s.phase = .ready) (h : t.modes = { s.modes with phase := .failed })

/-- What a whole command and each step of one keep to. -/
structure State.CommandEffect (s t : State) : Prop where
  hostOwned : t.hostOwned = s.hostOwned
  move : s.ModeMove t
  tables : s.TablesFull → t.TablesFull
  flight : t.FlightFits

/-! Updates that disturb no mode -/

theorem State.Undisturbed.refl (s : State) : s.Undisturbed s := ⟨rfl, rfl, id⟩

theorem State.Undisturbed.trans {s t u : State} (h : s.Undisturbed t) (h' : t.Undisturbed u) : s.Undisturbed u :=
  ⟨h'.hostOwned.trans h.hostOwned, h'.modes.trans h.modes, h'.tables ∘ h.tables⟩

theorem State.Undisturbed.settings {s t : State} (h : s.Undisturbed t) : t.settings = s.settings :=
  congrArg Prod.fst h.hostOwned

theorem State.Undisturbed.phase {s t : State} (h : s.Undisturbed t) : t.phase = s.phase := congrArg Modes.phase h.modes

theorem State.undisturbed_withMem (s : State) (m : Memory) : s.Undisturbed { s with mem := m } := ⟨rfl, rfl, id⟩

theorem State.undisturbed_takeAnswer (s : State) : s.Undisturbed s.takeAnswer := by
  rw [State.takeAnswer_eq]
  exact ⟨rfl, rfl, id⟩

theorem State.undisturbed_grant (s : State) (r : Region) : s.Undisturbed (s.takeAnswer.grant r) :=
  s.undisturbed_takeAnswer.trans ⟨rfl, rfl, id⟩

theorem State.undisturbed_setRing (s : State) (slot : Slot) (r : Ring) : s.Undisturbed (s.setRing slot r) := by
  cases slot <;> exact ⟨rfl, rfl, id⟩

/-- SCHED(B) leaves full tables for a legal B (43_scheduler.md rule R231). -/
theorem State.undisturbed_runSched {s : State} (h : s.planes ≤ 8) : s.Undisturbed s.runSched :=
  ⟨rfl, rfl, fun ⟨_, hc⟩ => ⟨orderTable_length h, countTable_length h hc⟩⟩

theorem State.undisturbed_beginSetup {s : State} (h : s.planes ≤ 8) : s.Undisturbed s.beginSetup :=
  (State.undisturbed_runSched h).trans ⟨rfl, rfl, id⟩

theorem State.undisturbed_commit {s : State} {setup : Option SetupResults} (h : setup.isSome = true → s.planes ≤ 8) :
    s.Undisturbed (s.commit setup) := by
  cases setup with
  | none => exact .refl s
  | some r => exact (State.undisturbed_beginSetup (h rfl)).trans ⟨rfl, rfl, id⟩

theorem State.planes_le_of_configLegal {s : State} (h : s.configLegal = true) : s.planes ≤ 8 := by
  obtain ⟨-, -, -, -, -, hp, -⟩ := State.configLegal_bounds h
  exact hp

/-! The ends of a command -/

theorem State.flightFits_of_idle {s : State} (h : s.inFlight = none) : s.FlightFits := by
  intro c hc
  rw [h] at hc
  cases hc

/-- A result written, and nothing else of the modes. -/
theorem State.Undisturbed.raise {s u : State} (h : s.Undisturbed u) (e : Error) : s.CommandEffect (u.raise e) :=
  ⟨h.hostOwned, .stay h.modes, h.tables, State.flightFits_of_idle rfl⟩

theorem State.Undisturbed.succeed {s u : State} (h : s.Undisturbed u) : s.CommandEffect u.succeed := h.raise _

/-- The end of SETUP (44_setup_control.md rule R254). -/
theorem State.Undisturbed.finishSetup {s u : State} (h : s.Undisturbed u) (hp : s.phase = .unconfigured)
    (hl : s.configLegal = true) : s.CommandEffect u.finishSetup :=
  ⟨h.hostOwned, .setUp hp hl (by rw [← h.modes]; rfl), h.tables, State.flightFits_of_idle rfl⟩

/-- The end of START (41_flip.md rule R170). -/
theorem State.Undisturbed.finishStart {s u : State} (h : s.Undisturbed u) {slot : Slot} (hp : s.phase = .ready)
    (hs : s.slotExists slot = true) (div : Word) : s.CommandEffect (u.finishStart slot div) :=
  ⟨h.hostOwned, .start slot hp hs rfl, h.tables, State.flightFits_of_idle rfl⟩

/-- The end of ACTIVATE in double mode (41_flip.md rule R175). -/
theorem State.Undisturbed.finishActivate {s u : State} (h : s.Undisturbed u) (slot : Slot) (hp : s.isSetUp = true)
    (hd : s.double = true) : s.CommandEffect (u.finishActivate slot) :=
  ⟨h.hostOwned, .flip slot hp hd (by rw [← h.modes]; rfl), h.tables, State.flightFits_of_idle rfl⟩

/-- ALLOC_FAIL (60_exceptions.md rule R283): the free values fill ORDER as well (log 9). -/
theorem State.Undisturbed.allocFail {s u : State} (h : s.Undisturbed u)
    (hp : s.phase = .unconfigured ∨ s.phase = .ready) : s.CommandEffect u.allocFail :=
  ⟨h.hostOwned, .fail hp (by rw [← h.modes]; rfl),
    fun ht => ⟨by simp [State.allocFail, State.loseResults], (h.tables ht).2⟩, State.flightFits_of_idle rfl⟩

/-! A command run whole -/

/-- A part of a command that may allocate, begun in `s`: it goes on with the modes undisturbed, or ends with
ALLOC_FAIL. -/
def Flow.AllocatesFrom (s : State) : Flow → Prop
  | .on t => s.Undisturbed t
  | .over t => ∃ u, s.Undisturbed u ∧ t = u.allocFail
  | .stuck _ => True

theorem Flow.AllocatesFrom.andThen {s : State} {x : Flow} (hx : x.AllocatesFrom s) {k : State → Flow}
    (hk : ∀ t, s.Undisturbed t → (k t).AllocatesFrom s) : (x.andThen k).AllocatesFrom s := by
  rcases x with t | t | f
  · exact hk t hx
  · exact hx
  · trivial

/-- Undisturbed states before the part do not show. -/
theorem Flow.AllocatesFrom.of_undisturbed {s t : State} (h : s.Undisturbed t) {x : Flow} (hx : x.AllocatesFrom t) :
    x.AllocatesFrom s := by
  rcases x with u | v | f
  · exact h.trans hx
  · obtain ⟨u, hu, rfl⟩ := hx
    exact ⟨u, h.trans hu, rfl⟩
  · trivial

/-- A command that ends with such a part and a last update: the update is made, or ALLOC_FAIL. -/
theorem Flow.AllocatesFrom.outcome_cases {s t : State} {x : Flow} (hx : x.AllocatesFrom s) {k : State → State}
    (h : (x.andThen fun u => .on (k u)).outcome = .next t) :
    ∃ u, s.Undisturbed u ∧ (t = k u ∨ t = u.allocFail) := by
  rcases x with u | v | f
  · cases h; exact ⟨u, hx, .inl rfl⟩
  · cases h
    obtain ⟨u, hu, ht⟩ := hx
    exact ⟨u, hu, .inr ht⟩
  · cases h

theorem State.build_allocates (s : State) (slot : Slot) (segments : List Segment) (avoid : List Region) :
    (s.build slot segments avoid).AllocatesFrom s := by
  unfold State.build
  rcases s.alloc_cases (poolBytes s.unit segments) avoid with h | h | ⟨pool, -, h⟩
  · rw [h]; trivial
  · rw [h]; exact ⟨_, s.undisturbed_takeAnswer, rfl⟩
  · rw [h]
    refine Flow.AllocatesFrom.andThen (s := s) ?_ fun t ht => ht.trans (t.undisturbed_setRing _ _)
    generalize hg : State.grant _ _ = g
    have hu : s.Undisturbed g := hg ▸ s.undisturbed_grant _
    rcases hx : g.storeAll (buildStores pool s.unit segments) with u | u | f
    · rw [(State.storeAll_cases hx).1]; exact hu.trans (g.undisturbed_withMem _)
    · exact absurd hx (State.storeAll_ne_over _ _ _)
    · trivial

theorem State.allocArena_allocates (s : State) : s.allocArena.AllocatesFrom s := by
  rcases s.allocArena_cases with h | h | ⟨arena, -, h⟩
  · rw [h]; trivial
  · rw [h]; exact ⟨_, s.undisturbed_takeAnswer, rfl⟩
  · rw [h]
    have hg := s.undisturbed_grant { base := arena.toNat, size := s.arenaBytes }
    exact ⟨hg.hostOwned, hg.modes, hg.tables⟩

theorem State.buildRings_allocates (s : State) (slots : List Slot) : (s.buildRings slots).AllocatesFrom s := by
  induction slots generalizing s with
  | nil => exact .refl s
  | cons slot rest ih => exact (s.build_allocates slot _ _).andThen fun t ht => (ih t).of_undisturbed ht

/-- A check of a whole command: it ends the command with its error, or the command goes on. -/
theorem State.guard_outcome {s t : State} {e : Option Error} {k : State → Flow}
    (h : ((s.guard e).andThen k).outcome = .next t) :
    (∃ err, t = s.raise err) ∨ (e = none ∧ (k s).outcome = .next t) := by
  cases e with
  | none => exact .inr ⟨rfl, h⟩
  | some err => cases h; exact .inl ⟨err, rfl⟩

/-- Stores and a last update: memory alone has changed before the update. -/
theorem State.storeAll_outcome {s t : State} {ws : List Store} {k : State → State}
    (h : ((s.storeAll ws).andThen fun u => .on (k u)).outcome = .next t) : ∃ m, t = k { s with mem := m } := by
  rcases hx : s.storeAll ws with u | u | f
  · rw [hx] at h
    cases h
    exact ⟨_, congrArg k (State.storeAll_cases hx).1⟩
  · exact absurd hx (State.storeAll_ne_over _ _ _)
  · rw [hx] at h; cases h

theorem State.exists_raise_effect {s t : State} (h : ∃ err, t = s.raise err) : s.CommandEffect t := by
  obtain ⟨err, rfl⟩ := h
  exact (State.Undisturbed.refl s).raise err

theorem execSetup_effect {s t : State} (h : execSetup s = .next t) : s.CommandEffect t := by
  rcases State.guard_outcome h with he | ⟨hc, h⟩
  · exact State.exists_raise_effect he
  obtain ⟨hp, hl⟩ := checkSetup_eq_none.mp hc
  have hb := State.undisturbed_beginSetup (State.planes_le_of_configLegal hl)
  have hx : (s.beginSetup.allocArena.andThen fun t => t.buildRings t.slots).AllocatesFrom s :=
    (s.beginSetup.allocArena_allocates.of_undisturbed hb).andThen fun t ht =>
      (t.buildRings_allocates _).of_undisturbed ht
  have hassoc : ((s.beginSetup.allocArena.andThen fun t => t.buildRings t.slots).andThen fun u =>
      .on u.finishSetup).outcome = .next t := by
    rw [← h]
    cases s.beginSetup.allocArena <;> rfl
  obtain ⟨u, hu, rfl | rfl⟩ := hx.outcome_cases hassoc
  · exact hu.finishSetup hp hl
  · exact hu.allocFail (.inl hp)

theorem execSchedule_effect {s t : State} (h : execSchedule s = .next t) : s.CommandEffect t := by
  rcases State.guard_outcome h with he | ⟨hc, h⟩
  · exact State.exists_raise_effect he
  cases h
  exact (State.undisturbed_runSched (checkSchedule_eq_none.mp hc).2.2).succeed

theorem execBuildRing_effect {s t : State} {slot : Slot} (h : execBuildRing slot s = .next t) : s.CommandEffect t := by
  rcases State.guard_outcome h with he | ⟨hc, h⟩
  · exact State.exists_raise_effect he
  obtain ⟨hp, -, -⟩ := checkBuildRing_eq_none.mp hc
  unfold State.withList at h
  split at h
  · cases h
  · cases h; exact (State.Undisturbed.refl s).raise _
  · split at h
    · cases h; exact (State.Undisturbed.refl s).raise _
    · obtain ⟨u, hu, rfl | rfl⟩ := (s.build_allocates slot _ _).outcome_cases h
      · exact hu.succeed
      · exact hu.allocFail (.inr hp)

theorem execStart_effect {s t : State} {slot : Slot} (h : execStart slot s = .next t) : s.CommandEffect t := by
  rcases State.guard_outcome h with he | ⟨hc, h⟩
  · exact State.exists_raise_effect he
  obtain ⟨hp, hs⟩ := checkStart_eq_none.mp hc
  obtain ⟨m, rfl⟩ := State.storeAll_outcome (k := fun u => u.finishStart slot s.clkdiv) h
  exact (s.undisturbed_withMem m).finishStart hp hs _

theorem execActivate_effect {s t : State} {slot : Slot} (h : execActivate slot s = .next t) : s.CommandEffect t := by
  rcases State.guard_outcome h with he | ⟨hc, h⟩
  · exact State.exists_raise_effect he
  by_cases hd : s.double = false
  · rw [if_pos hd] at h; cases h; exact (State.Undisturbed.refl s).succeed
  rw [if_neg hd] at h
  rcases State.guard_outcome h with he | ⟨hc', h⟩
  · exact State.exists_raise_effect he
  obtain ⟨m, rfl⟩ := State.storeAll_outcome (k := fun u => u.finishActivate slot) h
  exact (s.undisturbed_withMem m).finishActivate slot (checkActivate_eq_none.mp ⟨hc, hc'⟩) (by simpa using hd)

theorem execEncode_effect {s t : State} {slot : Slot} (h : execEncode slot s = .next t) : s.CommandEffect t := by
  rcases State.guard_outcome h with he | ⟨-, h⟩
  · exact State.exists_raise_effect he
  split at h
  · cases h
  · cases h; exact (s.undisturbed_withMem _).succeed

/-- A word performed whole keeps to the modes (44_setup_control.md rule R262; log 2). -/
theorem State.runWord_effect {s t : State} {w : Word} (h : s.runWord w = .next t) : s.CommandEffect t := by
  unfold State.runWord at h
  split at h
  · cases h; exact (State.Undisturbed.refl s).raise _
  · rename_i i _
    cases i with
    | nop => cases h; exact (State.Undisturbed.refl s).succeed
    | setup => exact execSetup_effect h
    | schedule => exact execSchedule_effect h
    | buildRing slot => exact execBuildRing_effect h
    | start slot => exact execStart_effect h
    | activate slot => exact execActivate_effect h
    | encode slot => exact execEncode_effect h

/-! One block step -/

theorem State.CommandEffect.refl {s : State} (h : s.FlightFits) : s.CommandEffect s := ⟨rfl, .stay rfl, id, h⟩

/-- A command that goes on to a stage that fits the state it was in. -/
theorem State.Undisturbed.toStage {s u : State} (h : s.Undisturbed u) {stage : Stage} (hs : s.stageFits stage = true) :
    s.CommandEffect (u.toStage stage) := by
  refine ⟨h.hostOwned, .stay h.modes, h.tables, fun c hc => ?_⟩
  rw [State.toStage_inFlight, Option.map_eq_some_iff] at hc
  obtain ⟨_, -, rfl⟩ := hc
  exact (State.stageFits_congr (s := s) (t := u.toStage stage) h.settings h.phase stage).trans hs

theorem State.rejectOr_effect {s next : State} {e : Option Error} (h : e = none → s.CommandEffect next) :
    s.CommandEffect (s.rejectOr e next) := by
  cases e with
  | none => exact h rfl
  | some err => exact (State.Undisturbed.refl s).raise err

theorem State.stageFits_list {s : State} {slot : Slot} {got : List Segment} {ptr : Option Word} :
    s.stageFits (.list slot got ptr) = true ↔ s.phase = .ready ∧ s.slotExists slot = true := by
  simp [State.stageFits]

theorem State.beginCommand_effect (s : State) (c : InFlight) (i : Instr) : s.CommandEffect (s.beginCommand c i) := by
  have hs := State.Undisturbed.refl s
  cases i with
  | nop => exact hs.succeed
  | setup =>
    refine State.rejectOr_effect fun hc => hs.toStage ?_
    obtain ⟨hp, hl⟩ := checkSetup_eq_none.mp hc
    simp [State.stageFits, hp, hl]
  | schedule =>
    exact State.rejectOr_effect fun hc => (State.undisturbed_runSched (checkSchedule_eq_none.mp hc).2.2).succeed
  | buildRing slot =>
    refine State.rejectOr_effect fun hc => hs.toStage (State.stageFits_list.mpr ?_)
    obtain ⟨hp, he, -, -⟩ := checkBuildRing_eq_none.mp hc
    exact ⟨hp, he⟩
  | start slot =>
    refine State.rejectOr_effect fun hc => hs.toStage ?_
    obtain ⟨hp, he⟩ := checkStart_eq_none.mp hc
    simp [State.stageFits, hp, he]
  | activate slot =>
    refine State.rejectOr_effect fun hc => ?_
    split
    · exact hs.succeed
    · rename_i hd
      refine State.rejectOr_effect fun hc' => hs.toStage ?_
      simpa [State.stageFits, checkActivate_eq_none.mp ⟨hc, hc'⟩] using hd
  | encode slot =>
    refine State.rejectOr_effect fun hc => hs.toStage ?_
    obtain ⟨hp, he, -, -⟩ := checkEncode_eq_none.mp hc
    exact (Bool.and_eq_true _ _).mpr ⟨hp, he⟩

theorem State.beginWord_effect (s : State) (c : InFlight) : s.CommandEffect (s.beginWord c) := by
  unfold State.beginWord
  split
  · exact (State.Undisturbed.refl s).raise _
  · exact s.beginCommand_effect c _

/-- BUILD_RING goes on in READY with its slot, or is about to be rejected. -/
theorem State.stageFits_listStage {s : State} {slot : Slot} (hp : s.phase = .ready) (hs : s.slotExists slot = true)
    (unit : Nat) (got : List Segment) (ptr len : Nat) : s.stageFits (listStage unit slot got ptr len) = true := by
  unfold listStage
  split
  · split
    · simp [State.stageFits, hp, hs]
    · rfl
  · rfl
  · split
    · exact State.stageFits_list.mpr ⟨hp, hs⟩
    · rfl

/-- Reading a list entry: the block is stuck, or has the entry's `ptr`, or goes on with the entry (rule R148). -/
theorem State.listStep_cases (s : State) (c : InFlight) (slot : Slot) (got : List Segment) (ptr : Option Word) :
    s.listStep c slot got ptr = s ∨
      (∃ p, s.listStep c slot got ptr = s.toStage (.list slot got (some p))) ∨
      ∃ p len, s.listStep c slot got ptr = s.toStage (listStage s.unit slot got p len) := by
  cases ptr with
  | none =>
    cases hl : s.mem.load (entryAddr c.seglist.toNat got.length) 4 with
    | none => exact .inl (by simp [State.listStep, hl])
    | some p => exact .inr (.inl ⟨BitVec.ofNat 32 p, by simp [State.listStep, hl]⟩)
  | some p =>
    cases hl : s.mem.load (entryAddr c.seglist.toNat got.length + 4) 4 with
    | none => exact .inl (by simp [State.listStep, hl])
    | some len => exact .inr (.inr ⟨p.toNat, len, by simp [State.listStep, hl]⟩)

/-- SETUP's arena call: no answer, FAIL, or a region (44_setup_control.md rule R252). -/
theorem State.arenaStep_cases (s : State) :
    s.arenaStep = s ∨ s.arenaStep = s.takeAnswer.toStage (.allocFailed (some s.setupStart)) ∨
      ∃ region r segments, s.arenaStep = (s.takeAnswer.grant region).toStage (.pool (some r) .zero segments) := by
  unfold State.arenaStep
  rcases s.alloc_cases s.arenaBytes [s.namedList] with h | h | ⟨base, -, h⟩
  · rw [h]; exact .inl rfl
  · rw [h]; exact .inr (.inl rfl)
  · rw [h]; exact .inr (.inr ⟨_, _, _, rfl⟩)

/-- BUILD's pool call: no answer, FAIL, or a region to fill (40_chain_builder.md rule R143). -/
theorem State.poolStep_cases (s : State) (c : InFlight) (setup : Option SetupResults) (slot : Slot)
    (segments : List Segment) :
    s.poolStep c setup slot segments = s ∨
      s.poolStep c setup slot segments = s.takeAnswer.toStage (.allocFailed setup) ∨
      ∃ region ring left,
        s.poolStep c setup slot segments = (s.takeAnswer.grant region).toStage (.fill setup slot ring left) := by
  unfold State.poolStep
  rcases s.alloc_cases (poolBytes s.unit segments) (s.poolAvoid c setup segments) with h | h | ⟨base, -, h⟩
  · rw [h]; exact .inl rfl
  · rw [h]; exact .inr (.inl rfl)
  · rw [h]; exact .inr (.inr ⟨_, _, _, rfl⟩)

section
variable {s : State} (h : s.FlightFits)
include h

theorem State.listStep_effect (c : InFlight) {slot : Slot} (hp : s.phase = .ready) (hs : s.slotExists slot = true)
    (got : List Segment) (ptr : Option Word) : s.CommandEffect (s.listStep c slot got ptr) := by
  rcases s.listStep_cases c slot got ptr with he | ⟨p, he⟩ | ⟨p, len, he⟩
  · rw [he]; exact .refl h
  · rw [he]; exact (State.Undisturbed.refl s).toStage (State.stageFits_list.mpr ⟨hp, hs⟩)
  · rw [he]; exact (State.Undisturbed.refl s).toStage (State.stageFits_listStage hp hs _ _ _ _)

theorem State.arenaStep_effect (hp : s.phase = .unconfigured) (hl : s.configLegal = true) :
    s.CommandEffect s.arenaStep := by
  rcases s.arenaStep_cases with he | he | ⟨region, r, segments, he⟩
  · rw [he]; exact .refl h
  · rw [he]; exact s.undisturbed_takeAnswer.toStage (by simp [State.stageFits, hp, hl])
  · rw [he]; exact (s.undisturbed_grant region).toStage (by simp [State.stageFits, hp, hl, State.slotExists])

/-- The command keeps to the STATE it allocates in. -/
theorem State.poolStep_effect (c : InFlight) {setup : Option SetupResults} {slot : Slot} {segments : List Segment}
    (hf : s.stageFits (.pool setup slot segments) = true) : s.CommandEffect (s.poolStep c setup slot segments) := by
  rcases s.poolStep_cases c setup slot segments with he | he | ⟨region, ring, left, he⟩
  · rw [he]; exact .refl h
  · rw [he]
    refine s.undisturbed_takeAnswer.toStage ?_
    cases setup <;> exact ((Bool.and_eq_true _ _).mp hf).1
  · rw [he]
    refine (s.undisturbed_grant region).toStage ?_
    cases setup <;> exact hf

theorem State.storeStep_effect {left : List Store} {again : List Store → Stage} {done : State}
    (hagain : ∀ rest, s.stageFits (again rest) = true) (hdone : s.CommandEffect done) :
    s.CommandEffect (s.storeStep left again done) := by
  rcases s.storeStep_cases left again done with ⟨-, he⟩ | ⟨w, rest, -, -, he⟩ | he
  · rw [he]; exact hdone
  · rw [he]; exact (s.undisturbed_withMem _).toStage (hagain rest)
  · rw [he]; exact .refl h

theorem State.wordStep_effect (c : InFlight) (choice : Nat) {slot : Slot} {jobs : List WordJob}
    (hf : s.stageFits (.words slot jobs) = true) : s.CommandEffect (s.wordStep c choice slot jobs) := by
  rcases s.wordStep_cases c choice slot jobs with he | he | ⟨_, _, _, _, -, he⟩ | ⟨_, _, _, -, -, he⟩
  · rw [he]; exact (State.Undisturbed.refl s).succeed
  · rw [he]; exact .refl h
  · rw [he]; exact (State.Undisturbed.refl s).toStage hf
  · rw [he]; exact (s.undisturbed_withMem _).toStage hf

end

theorem State.afterRing_effect {s : State} {setup : Option SetupResults} {slot : Slot} {ring : Ring} {left : List Store}
    (hf : s.stageFits (.fill setup slot ring left) = true) : s.CommandEffect (s.afterRing setup slot ring) := by
  unfold State.afterRing
  cases setup with
  | none => exact (s.undisturbed_setRing slot ring).succeed
  | some r =>
    simp only [State.stageFits, Bool.and_eq_true, beq_iff_eq] at hf
    obtain ⟨⟨hp, hl⟩, -⟩ := hf
    simp only
    split
    · rename_i hd
      exact (State.Undisturbed.refl s).toStage (by simp [State.stageFits, hp, hl, State.slotExists, hd.1])
    · have hc := State.undisturbed_commit (setup := some r) fun _ => State.planes_le_of_configLegal hl
      exact (hc.trans (State.undisturbed_setRing _ slot ring)).finishSetup hp hl

theorem State.allocFailed_effect {s : State} {setup : Option SetupResults}
    (hf : s.stageFits (.allocFailed setup) = true) : s.CommandEffect (s.commit setup).allocFail := by
  cases setup with
  | none => exact (State.Undisturbed.refl s).allocFail (.inr (by simpa [State.stageFits] using hf))
  | some r =>
    simp only [State.stageFits, Bool.and_eq_true, beq_iff_eq] at hf
    exact (State.undisturbed_commit fun _ => State.planes_le_of_configLegal hf.2).allocFail (.inl hf.1)

/-- A block step of a command that stands where its checks let it come keeps to the modes
(44_setup_control.md rule R262). -/
theorem State.blockStep_effect {s : State} (h : s.FlightFits) (choice : Nat) :
    s.CommandEffect (s.blockStep choice) := by
  unfold State.blockStep
  split
  · exact .refl h
  rename_i c hc
  have hf := h c hc
  cases hstage : c.stage with rw [hstage] at hf
  | begin => exact s.beginWord_effect c
  | list slot got ptr =>
    obtain ⟨hp, hs⟩ := State.stageFits_list.mp hf
    exact State.listStep_effect h c hp hs got ptr
  | arena =>
    simp only [State.stageFits, Bool.and_eq_true, beq_iff_eq] at hf
    exact State.arenaStep_effect h hf.1 hf.2
  | pool setup slot segments => exact State.poolStep_effect h c hf
  | fill setup slot ring left =>
    exact State.storeStep_effect h (fun _ => by cases setup <;> exact hf) (State.afterRing_effect hf)
  | rejected e => exact (State.Undisturbed.refl s).raise e
  | allocFailed setup => exact State.allocFailed_effect hf
  | startLinks slot left =>
    refine State.storeStep_effect h (fun _ => hf) ?_
    simp only [State.stageFits, Bool.and_eq_true, beq_iff_eq] at hf
    exact (State.Undisturbed.refl s).finishStart hf.1 hf.2 _
  | flipLinks slot left =>
    refine State.storeStep_effect h (fun _ => hf) ?_
    simp only [State.stageFits, Bool.and_eq_true] at hf
    exact (State.Undisturbed.refl s).finishActivate slot hf.1 hf.2
  | words slot jobs => exact State.wordStep_effect h c choice hf

/-! No block step writes what the host owns, wherever its command stands -/

theorem State.commit_hostOwned (s : State) (setup : Option SetupResults) :
    (s.commit setup).hostOwned = s.hostOwned := by
  cases setup <;> rfl

theorem State.afterRing_hostOwned (s : State) (setup : Option SetupResults) (slot : Slot) (ring : Ring) :
    (s.afterRing setup slot ring).hostOwned = s.hostOwned := by
  unfold State.afterRing
  cases setup with
  | none => exact (s.undisturbed_setRing slot ring).hostOwned
  | some r =>
    simp only
    split
    · rfl
    · exact (State.undisturbed_setRing _ slot ring).hostOwned

theorem State.storeStep_hostOwned {s done : State} (left : List Store) (again : List Store → Stage)
    (h : done.hostOwned = s.hostOwned) : (s.storeStep left again done).hostOwned = s.hostOwned := by
  rcases s.storeStep_cases left again done with ⟨-, he⟩ | ⟨w, rest, -, -, he⟩ | he
  · rw [he, h]
  · rw [he]; rfl
  · rw [he]

theorem State.blockStep_hostOwned (s : State) (choice : Nat) : (s.blockStep choice).hostOwned = s.hostOwned := by
  unfold State.blockStep
  split
  · rfl
  rename_i c _
  cases c.stage with
  | begin => exact (s.beginWord_effect c).hostOwned
  | list slot got ptr =>
    rcases s.listStep_cases c slot got ptr with he | ⟨_, he⟩ | ⟨_, _, he⟩ <;> simp only [he] <;> rfl
  | arena =>
    rcases s.arenaStep_cases with he | he | ⟨region, _, _, he⟩ <;> simp only [he]
    · exact s.undisturbed_takeAnswer.hostOwned
    · exact (s.undisturbed_grant region).hostOwned
  | pool setup slot segments =>
    rcases s.poolStep_cases c setup slot segments with he | he | ⟨region, _, _, he⟩ <;> simp only [he]
    · exact s.undisturbed_takeAnswer.hostOwned
    · exact (s.undisturbed_grant region).hostOwned
  | fill setup slot ring left => exact State.storeStep_hostOwned _ _ (s.afterRing_hostOwned setup slot ring)
  | rejected e => rfl
  | allocFailed setup => exact s.commit_hostOwned setup
  | startLinks slot left => exact State.storeStep_hostOwned _ _ rfl
  | flipLinks slot left => exact State.storeStep_hostOwned _ _ rfl
  | words slot jobs =>
    rcases s.wordStep_cases c choice slot jobs with he | he | ⟨_, _, _, _, -, he⟩ | ⟨_, _, _, -, -, he⟩ <;>
      simp only [he] <;> rfl

/-! One step of any agent -/

/-- What the block and its registers hold, as far as the modes go. -/
structure BlockView where
  settings : Settings
  ovr : Bool
  modes : Modes
  order : List (BitVec 4)
  cnt : List (BitVec 16)
  inFlight : Option InFlight

def State.view (s : State) : BlockView :=
  { settings := s.settings, ovr := s.ovr, modes := s.modes, order := s.order, cnt := s.cnt, inFlight := s.inFlight }

theorem State.view_takeTurn (s : State) : s.takeTurn.view = s.view := by
  rw [State.takeTurn_eq]
  rfl

/-- The consumer's steps move it and drive words; they do not start or stop it. -/
theorem State.view_consumerStep (s : State) (linkNow : Bool) : (s.consumerStep linkNow).view = s.view := by
  rcases s.consumerStep_cases linkNow with h | ⟨_, -, h⟩ | ⟨-, -, h⟩ | ⟨_, -, h⟩ | ⟨_, -, -, -, h⟩ <;> rw [h] <;> rfl

/-- All one step that is no reset can do to the block and its registers. `u` is the state as the block step, the command
or the host's write finds it. -/
inductive State.StepKind (s t : State) : Prop
  | rests (h : t.view = s.view)
  | block (u : State) (hu : u.view = s.view) (choice : Nat) (ht : t = u.blockStep choice)
  | word (u : State) (hu : u.view = s.view) (w : Word) (ht : u.runWord w = .next t)
  | accept (u : State) (hu : u.view = s.view) (w : Word) (ht : t = u.accept w)
  | register (u : State) (hu : u.view = s.view) (hb : s.inFlight = none) (off : Nat) (v : Word)
      (ht : t = u.writeReg off v)
  | status (u : State) (hu : u.view = s.view) (v : Word) (hv : s.clearsOverrun = v.getLsbD 5) (ht : t = u.writeStatus v)
  | overrun (u : State) (hu : u.view = s.view) (ht : t = u.overrun)

/-- A reset, from outside or by the host's program (70_reset_and_hazards.md rule R320). -/
theorem State.step_of_resets {s : State} (h : s.resets = true) : ∃ u : State, step s = .next u.resetBlock := by
  have hops := s.takeTurn_hostOps
  simp only [State.resets, Bool.or_eq_true, Bool.and_eq_true, beq_iff_eq] at h
  unfold step State.event
  rcases h with h | ⟨h | h, hr⟩ <;> rw [h]
  · exact ⟨_, rfl⟩
  · exact ⟨_, by simp only [State.hostStep, hops, hr]; rfl⟩
  · exact ⟨_, by simp only [State.hostStep, hops, hr]; rfl⟩

theorem State.stepKind_of_hostWrite {s u t : State} (hu : u.view = s.view) {whole : Bool} {off : Nat} {v : Word}
    (hc : off = statusOffset → s.clearsOverrun = v.getLsbD 5) (h : u.hostWrite whole off v = .next t) :
    s.StepKind t := by
  have hp : u.popHostOp.view = s.view := hu
  rcases State.hostWrite_cases h with ⟨ho, rfl⟩ | ⟨-, -, rfl⟩ | ⟨-, -, -, rfl⟩ | ⟨-, -, -, -, -, hw⟩ |
    ⟨-, -, -, -, -, rfl⟩ | ⟨-, -, hb, rfl⟩
  · exact .status _ hp v (hc ho) rfl
  · exact .overrun _ hp rfl
  · exact .rests hu
  · exact .word _ hp v hw
  · exact .accept _ hp v rfl
  · have hi : u.inFlight = s.inFlight := congrArg BlockView.inFlight hu
    exact .register _ hp (by simpa [State.busy, hi] using hb) off v rfl

/-- What a step that is no reset can do, by the agent whose turn it is. -/
theorem State.stepKind {s t : State} (h : step s = .next t) (hr : s.resets = false) : s.StepKind t := by
  have hturn := s.view_takeTurn
  rcases step_cases h with ⟨choice, -, rfl⟩ | ⟨linkNow, -, rfl⟩ | ⟨hw, -⟩ | ⟨whole, hw, hs⟩
  · exact .block _ hturn choice rfl
  · exact .rests ((State.view_consumerStep _ linkNow).trans hturn)
  · simp [State.resets, hw] at hr
  have hhost : s.whoseTurn = .host ∨ s.whoseTurn = .command := by cases whole <;> simp [hw]
  have hops := s.takeTurn_hostOps
  rcases State.hostStep_cases hs with rfl | rfl | ⟨n, rfl⟩ | ⟨off, rfl⟩ | ⟨off, v, hop, -, hs⟩ | ⟨size, addr, v, hs⟩ |
    ⟨hop, -⟩
  · exact .rests hturn
  · exact .rests hturn
  · exact .rests hturn
  · exact .rests hturn
  · refine State.stepKind_of_hostWrite hturn (fun ho => ?_) hs
    rw [hops] at hop
    rcases hhost with hh | hh <;> simp [State.clearsOverrun, hop, ho, hh]
  · obtain ⟨-, -, -, rfl⟩ := State.hostMemWrite_cases hs
    exact .rests hturn
  · rw [hops] at hop
    rcases hhost with hh | hh <;> simp [State.resets, hop, hh] at hr

/-! Register writes -/

/-- A register write changes the settings at most (10_state.md rule R52). -/
theorem State.view_writeReg (s : State) (off : Nat) (v : Word) :
    (s.writeReg off v).view = { s.view with settings := (s.writeReg off v).settings } := by
  unfold State.writeReg
  split
  case h_1 | h_2 | h_3 | h_4 | h_5 | h_6 => unfold State.ifUnconfigured; split <;> rfl
  case h_7 => unfold State.ifNotRunning; split <;> rfl
  case h_8 | h_9 | h_10 => rfl

/-- Outside UNCONFIGURED it does not change the settings either. -/
theorem State.settings_writeReg {s : State} (hp : s.phase ≠ .unconfigured) (off : Nat) (v : Word) :
    (s.writeReg off v).settings = s.settings := by
  unfold State.writeReg
  split
  case h_1 | h_2 | h_3 | h_4 | h_5 | h_6 => rw [State.ifUnconfigured, if_neg hp]
  case h_7 => unfold State.ifNotRunning; split <;> rfl
  case h_8 | h_9 | h_10 => rfl

/-- A write to STATUS changes OVR alone, by bit 5 (10_state.md rule R38, rule R41). -/
theorem State.writeStatus_eq (s : State) (v : Word) : s.writeStatus v = { s with ovr := s.ovr && !v.getLsbD 5 } := by
  unfold State.writeStatus
  cases v.getLsbD 5
  · rw [if_neg Bool.false_ne_true, Bool.not_false, Bool.and_true]
  · rw [if_pos rfl, Bool.not_true, Bool.and_false]

/-! The invariant of the modes -/

theorem State.ModeInv.flightFits {s : State} (h : s.ModeInv) : s.FlightFits := h.flight

/-- The invariant outlives whatever keeps to the modes. -/
theorem State.CommandEffect.modeInv {s t : State} (h : s.CommandEffect t) (hs : s.ModeInv) : t.ModeInv := by
  obtain ⟨hown, hmove, htab, hfit⟩ := h
  have hset : t.settings = s.settings := congrArg Prod.fst hown
  have hd : t.double = s.double := congrArg Settings.double hset
  have hl := State.configLegal_congr hset
  obtain ⟨single, unconf, runs, legal, -, tables⟩ := hs
  suffices h : (s.double = false → t.sel = .zero) ∧ (t.phase = .unconfigured → t.sel = .zero) ∧
      (t.consumer.run = true ↔ t.phase = .running) ∧ (t.isSetUp = true → s.configLegal = true) by
    obtain ⟨h1, h2, h3, h4⟩ := h
    exact ⟨hd ▸ h1, h2, h3, hl ▸ h4, hfit, htab tables⟩
  unfold State.isSetUp at legal ⊢
  cases hmove with
  | stay h =>
    obtain ⟨hp, hsel, hrun⟩ := State.modes_eq_iff.mp h
    rw [hp, hsel, hrun]
    exact ⟨single, unconf, runs, legal⟩
  | setUp hp0 hl0 h =>
    obtain ⟨hp, hsel, hrun⟩ := State.modes_eq_iff.mp h
    have hstop : ¬ s.consumer.run = true := fun hr => by simp [runs.mp hr] at hp0
    rw [hp, hsel, hrun]
    exact ⟨fun _ => rfl, fun _ => rfl, ⟨fun hr => absurd hr hstop, nofun⟩, fun _ => hl0⟩
  | start slot hp0 hs h =>
    obtain ⟨hp, hsel, hrun⟩ := State.modes_eq_iff.mp h
    rw [hp, hsel, hrun]
    exact ⟨fun hd => by simpa [State.slotExists, hd] using hs, nofun, by simp, fun _ => legal (by simp [hp0])⟩
  | flip slot hp0 hd0 h =>
    obtain ⟨hp, hsel, hrun⟩ := State.modes_eq_iff.mp h
    rw [hp, hsel, hrun]
    refine ⟨fun hd => by simp [hd0] at hd, fun hu => ?_, runs, legal⟩
    have hu' : s.phase = .unconfigured := hu
    simp [State.isSetUp, hu'] at hp0
  | fail hp0 h =>
    obtain ⟨hp, hsel, hrun⟩ := State.modes_eq_iff.mp h
    have hstop : ¬ s.consumer.run = true := fun hr => by simp [runs.mp hr] at hp0
    rw [hp, hsel, hrun]
    exact ⟨single, nofun, ⟨fun hr => absurd hr hstop, nofun⟩, nofun⟩

/-- What leaves the block and its registers alone keeps to the modes. -/
theorem State.CommandEffect.of_view {s t : State} (h : t.view = s.view) (hs : s.FlightFits) : s.CommandEffect t := by
  have hset : t.settings = s.settings := congrArg BlockView.settings h
  have hmodes : t.modes = s.modes := congrArg BlockView.modes h
  have hi : t.inFlight = s.inFlight := congrArg BlockView.inFlight h
  have ho : t.order = s.order := congrArg BlockView.order h
  have hc : t.cnt = s.cnt := congrArg BlockView.cnt h
  refine ⟨State.hostOwned_eq_iff.mpr ⟨hset, congrArg BlockView.ovr h⟩, .stay hmodes, ?_, fun c hc => ?_⟩
  · unfold State.TablesFull
    rw [ho, hc]
    exact id
  · rw [State.stageFits_congr hset (congrArg Modes.phase hmodes)]
    exact hs c (hi ▸ hc)

theorem State.ModeInv.of_view {s t : State} (hs : s.ModeInv) (h : t.view = s.view) : t.ModeInv :=
  (State.CommandEffect.of_view h hs.flightFits).modeInv hs

/-- A command just accepted has made no check yet. -/
theorem State.accept_effect (s : State) (w : Word) : s.CommandEffect (s.accept w) :=
  ⟨rfl, .stay rfl, id, fun c hc => by cases hc; rfl⟩

theorem State.ModeInv.overrun {s : State} (hs : s.ModeInv) : s.overrun.ModeInv :=
  { hs with }

theorem State.ModeInv.writeStatus {s : State} (hs : s.ModeInv) (v : Word) : (s.writeStatus v).ModeInv := by
  rw [State.writeStatus_eq]
  exact { hs with }

/-- With no command in flight a register write keeps the invariant: in UNCONFIGURED no part of it rests on the
configuration. -/
theorem State.ModeInv.writeReg {s : State} (hs : s.ModeInv) (hi : s.inFlight = none) (off : Nat) (v : Word) :
    (s.writeReg off v).ModeInv := by
  have hview := s.view_writeReg off v
  by_cases hp : s.phase = .unconfigured
  · have hmodes : (s.writeReg off v).modes = s.modes := congrArg BlockView.modes hview
    have hi' : (s.writeReg off v).inFlight = none := (congrArg BlockView.inFlight hview).trans hi
    have ho : (s.writeReg off v).order = s.order := congrArg BlockView.order hview
    have hc : (s.writeReg off v).cnt = s.cnt := congrArg BlockView.cnt hview
    obtain ⟨hphase, hsel, hrun⟩ := State.modes_eq_iff.mp hmodes
    have hsel0 : (s.writeReg off v).sel = .zero := hsel.trans (hs.selUnconfigured hp)
    have hphase0 : (s.writeReg off v).phase = .unconfigured := hphase.trans hp
    exact
      { selSingle := fun _ => hsel0
        selUnconfigured := fun _ => hsel0
        runs := by rw [hphase, hrun]; exact hs.runs
        legal := fun h => by simp [State.isSetUp, hphase0] at h
        flight := State.flightFits_of_idle hi'
        tables := by rw [ho, hc]; exact hs.tables }
  · rw [State.settings_writeReg hp] at hview
    exact hs.of_view hview

theorem State.resetBlock_modeInv (s : State) : s.resetBlock.ModeInv :=
  { selSingle := fun _ => rfl
    selUnconfigured := fun _ => rfl
    runs := ⟨nofun, nofun⟩
    legal := nofun
    flight := nofun
    tables := ⟨List.length_replicate, List.length_replicate⟩ }

/-! Over every step -/

theorem State.step_modeInv {s t : State} (hs : s.ModeInv) (h : step s = .next t) : t.ModeInv := by
  by_cases hr : s.resets = true
  · obtain ⟨u, hu⟩ := State.step_of_resets hr
    cases hu.symm.trans h
    exact u.resetBlock_modeInv
  cases State.stepKind h (by simpa using hr) with
  | rests hv => exact hs.of_view hv
  | block u hu choice ht =>
    have hm := hs.of_view hu
    exact ht ▸ (State.blockStep_effect hm.flightFits choice).modeInv hm
  | word u hu w hw => exact (State.runWord_effect hw).modeInv (hs.of_view hu)
  | accept u hu w ht => exact ht ▸ (u.accept_effect w).modeInv (hs.of_view hu)
  | register u hu hb off v ht =>
    exact ht ▸ (hs.of_view hu).writeReg ((congrArg BlockView.inFlight hu).trans hb) off v
  | status u hu v _ ht => exact ht ▸ (hs.of_view hu).writeStatus v
  | overrun u hu ht => exact ht ▸ (hs.of_view hu).overrun

/-- Outside UNCONFIGURED only a reset changes the settings. -/
theorem State.step_settings {s t : State} (h : step s = .next t) (hp : s.phase ≠ .unconfigured)
    (hr : s.resets = false) : t.settings = s.settings := by
  have hset : ∀ {u : State}, u.view = s.view → u.settings = s.settings := congrArg BlockView.settings
  cases State.stepKind h hr with
  | rests hv => exact hset hv
  | block u hu choice ht => rw [ht, ← hset hu]; exact congrArg Prod.fst (u.blockStep_hostOwned choice)
  | word u hu w hw => rw [← hset hu]; exact congrArg Prod.fst (State.runWord_effect hw).hostOwned
  | accept u hu w ht => rw [ht, ← hset hu]; rfl
  | register u hu _ off v ht =>
    have hup : u.phase = s.phase := congrArg (Modes.phase ∘ BlockView.modes) hu
    rw [ht, State.settings_writeReg (hup ▸ hp), hset hu]
  | status u hu v _ ht => rw [ht, State.writeStatus_eq, ← hset hu]; rfl
  | overrun u hu ht => rw [ht, ← hset hu]; rfl

/-- OVR, once set, stays set but for a reset and the write to STATUS that clears it. -/
theorem State.step_ovr {s t : State} (h : step s = .next t) (hovr : s.ovr = true) (hr : s.resets = false)
    (hc : s.clearsOverrun = false) : t.ovr = true := by
  have hset : ∀ {u : State}, u.view = s.view → u.ovr = true := fun hu => (congrArg BlockView.ovr hu).trans hovr
  cases State.stepKind h hr with
  | rests hv => exact hset hv
  | block u hu choice ht => rw [ht, ← hset hu]; exact congrArg Prod.snd (u.blockStep_hostOwned choice)
  | word u hu w hw => rw [← hset hu]; exact congrArg Prod.snd (State.runWord_effect hw).hostOwned
  | accept u hu w ht => rw [ht, State.accept_ovr, hset hu]
  | register u hu _ off v ht => rw [ht, ← hset hu]; exact congrArg BlockView.ovr (u.view_writeReg off v)
  | status u hu v hv ht => simp only [ht, State.writeStatus_eq, hset hu, ← hv, hc, Bool.not_false, Bool.and_self]
  | overrun u hu ht => rw [ht]; rfl

/-- The transitions of STATE in one step that is no reset. -/
def PhaseMove (p q : Phase) : Prop :=
  q = p ∨ (p = .unconfigured ∧ q = .ready) ∨ (p = .ready ∧ q = .running) ∨
    ((p = .unconfigured ∨ p = .ready) ∧ q = .failed)

theorem State.ModeMove.phaseMove {s t : State} (h : s.ModeMove t) : PhaseMove s.phase t.phase := by
  cases h with
  | stay h => exact .inl (congrArg Modes.phase h)
  | setUp hp _ h => exact .inr (.inl ⟨hp, congrArg Modes.phase h⟩)
  | start _ hp _ h => exact .inr (.inr (.inl ⟨hp, congrArg Modes.phase h⟩))
  | flip _ _ _ h => exact .inl (congrArg Modes.phase h)
  | fail hp h => exact .inr (.inr (.inr ⟨hp, congrArg Modes.phase h⟩))

theorem State.step_phaseMove {s t : State} (hs : s.ModeInv) (h : step s = .next t) (hr : s.resets = false) :
    PhaseMove s.phase t.phase := by
  have hphase : ∀ {u : State}, u.view = s.view → u.phase = s.phase := congrArg (Modes.phase ∘ BlockView.modes)
  cases State.stepKind h hr with
  | rests hv => exact .inl (hphase hv)
  | block u hu choice ht =>
    rw [ht, ← hphase hu]
    exact (State.blockStep_effect (hs.of_view hu).flightFits choice).move.phaseMove
  | word u hu w hw => rw [← hphase hu]; exact (State.runWord_effect hw).move.phaseMove
  | accept u hu w ht => rw [ht, ← hphase hu]; exact .inl rfl
  | register u hu _ off v ht =>
    rw [ht, ← hphase hu]
    exact .inl (congrArg (Modes.phase ∘ BlockView.modes) (u.view_writeReg off v))
  | status u hu v _ ht => rw [ht, State.writeStatus_eq, ← hphase hu]; exact .inl rfl
  | overrun u hu ht => rw [ht, ← hphase hu]; exact .inl rfl

/-- Settles O57: STATE, SEL and RUN move only as `State.ModeMove` says, with what the checks have found. -/
theorem stepKeepsTheModesLegal : Obligations.StepKeepsTheModesLegal := fun _ _ => State.step_modeInv

/-- Settles O45: only a register write reaches the settings, and outside UNCONFIGURED its access code keeps it off. -/
theorem configurationIsLatched : Obligations.ConfigurationIsLatched := fun _ _ h hp hr =>
  State.settings_eq_iff.mp (State.step_settings h hp hr)

/-- Settles O46: a command's end moves STATE as its own checks allow, and no other step but a reset moves it. -/
theorem stateChangesOnlyAsTheSpecSays : Obligations.StateChangesOnlyAsTheSpecSays := by
  intro s t hs h
  refine ⟨fun hr => ?_, State.step_phaseMove hs h⟩
  obtain ⟨u, hu⟩ := State.step_of_resets hr
  cases hu.symm.trans h
  rfl

/-! A turn of the host with a move at hand -/

section
variable {s : State} {ts : List Turn} {ops : List HostOp}

/-- A scripted turn is its agent's event. -/
theorem step_of_turn {t : Turn} (h : s.turns = t :: ts) : step s = ({ s with turns := ts } : State).event t := by
  simp [step, State.whoseTurn, State.takeTurn, h]

theorem State.popHostOp_of_cons {op : HostOp} (h : s.hostOps = op :: ops) :
    s.popHostOp = { s with hostOps := ops } := by
  simp [State.popHostOp, h]

theorem State.hostStep_rd (whole : Bool) {off : Nat} (h : s.hostOps = .rd off :: ops) :
    s.hostStep whole =
      if windowOffset off then .next { s with hostOps := ops, rdata := s.rdata ++ [s.readReg off] }
      else .refused (.windowAccess off) := by
  simp [State.hostStep, h, State.popHostOp_of_cons h]

theorem State.hostStep_wr (whole : Bool) {off : Nat} {v : Word} (h : s.hostOps = .wr off v :: ops) :
    s.hostStep whole = if windowOffset off then s.hostWrite whole off v else .refused (.windowAccess off) := by
  simp [State.hostStep, h]

theorem State.hostStep_mwr (whole : Bool) {size : Nat} {addr v : Word} (h : s.hostOps = .mwr size addr v :: ops) :
    s.hostStep whole = s.hostMemWrite size addr v := by
  simp [State.hostStep, h]

theorem State.hostWrite_status (whole : Bool) {op : HostOp} (h : s.hostOps = op :: ops) (v : Word) :
    s.hostWrite whole statusOffset v = .next { s with hostOps := ops, ovr := s.ovr && !v.getLsbD 5 } := by
  rw [State.hostWrite, if_pos rfl, State.popHostOp_of_cons h, State.writeStatus_eq]

theorem State.hostWrite_busy (whole : Bool) {op : HostOp} (h : s.hostOps = op :: ops) {off : Nat}
    (hoff : off ≠ statusOffset) (hi : s.inFlight ≠ none) (v : Word) :
    s.hostWrite whole off v = .next { s with hostOps := ops, ovr := true } := by
  have hb : s.busy = true := Option.isSome_iff_ne_none.mpr hi
  rw [State.hostWrite, if_neg hoff, if_pos hb, State.popHostOp_of_cons h, State.overrun]

theorem State.hostWrite_register (whole : Bool) {op : HostOp} (h : s.hostOps = op :: ops) {off : Nat}
    (hs : off ≠ statusOffset) (hc : off ≠ cmdOffset) (hi : s.inFlight = none) (v : Word) :
    s.hostWrite whole off v = .next (State.writeReg { s with hostOps := ops } off v) := by
  simp [State.hostWrite, State.busy, hs, hc, hi, State.popHostOp_of_cons h]

theorem State.hostWrite_refused (whole : Bool) (hi : s.inFlight = none) {v : Word} (hl : s.lapBlocked v = false)
    (hr : s.launchRefused v = true) : s.hostWrite whole cmdOffset v = .refused .overlappingRegions := by
  simp [State.hostWrite, State.busy, statusOffset, cmdOffset, hi, hl, hr]

/-- The host's turn, of either kind, with a write to the window to make. -/
theorem step_host_wr (whole : Bool) (ht : s.turns = (if whole then .command else .host) :: ts) {off : Nat} {v : Word}
    (h : s.hostOps = .wr off v :: ops) :
    step s =
      if windowOffset off then ({ s with turns := ts } : State).hostWrite whole off v
      else .refused (.windowAccess off) := by
  rw [step_of_turn ht]
  cases whole <;> exact State.hostStep_wr (s := { s with turns := ts }) _ h

/-- The host's turn with a write to memory to make. -/
theorem step_host_mwr (ht : s.turns = .host :: ts) {size : Nat} {addr v : Word}
    (h : s.hostOps = .mwr size addr v :: ops) :
    step s = ({ s with turns := ts } : State).hostMemWrite size addr v := by
  rw [step_of_turn ht]
  exact State.hostStep_mwr false h

/-- The host's turn with a read of the window to make. -/
theorem step_host_rd (ht : s.turns = .host :: ts) {off : Nat} (h : s.hostOps = .rd off :: ops) :
    step s =
      if windowOffset off then .next { s with turns := ts, hostOps := ops, rdata := s.rdata ++ [s.readReg off] }
      else .refused (.windowAccess off) := by
  rw [step_of_turn ht]
  exact State.hostStep_rd false h

end

/-! STATUS and the overrun bit -/

/-- Settles O44: stickiness by the kinds of a step, the two host writes by computing the host's turn. -/
theorem overrunIsStickyUntilCleared : Obligations.OverrunIsStickyUntilCleared := by
  refine ⟨rfl, fun s t => State.step_ovr, fun s ts ops off v hturn hops hoff => ?_⟩
  have hstep : ∃ whole, step s = ({ s with turns := ts } : State).hostWrite whole off v := by
    rcases hturn with ht | ht
    · exact ⟨false, (step_host_wr false ht hops).trans (if_pos hoff)⟩
    · exact ⟨true, (step_host_wr true ht hops).trans (if_pos hoff)⟩
  obtain ⟨whole, hstep⟩ := hstep
  rw [hstep]
  refine ⟨fun hi hne => State.hostWrite_busy (s := { s with turns := ts }) whole hops hne hi v, ?_⟩
  rintro rfl
  have hovr : (if v.getLsbD 5 then false else s.ovr) = (s.ovr && !v.getLsbD 5) := by
    cases v.getLsbD 5 <;> simp
  rw [hovr]
  exact State.hostWrite_status (s := { s with turns := ts }) whole hops v

/-- The fields of STATUS of more than one bit and SEL (10_state.md rule R41): the fields below are dropped, then those
above. -/
theorem State.status_fields (s : State) :
    s.status.extractLsb' 0 2 = s.phase.bits ∧ s.status.extractLsb' 2 1 = s.sel.bit ∧
      s.status.extractLsb' 6 2 = 0#2 ∧ s.status.extractLsb' 8 4 = s.err.bits ∧ s.status.extractLsb' 12 20 = 0#20 := by
  unfold State.status
  refine ⟨?phase, ?sel, ?reserved, ?err, ?high⟩
  all_goals repeat rw [BitVec.extractLsb'_append_eq_of_le (by decide)]
  case high => exact BitVec.extractLsb'_eq_self
  all_goals exact (BitVec.extractLsb'_append_eq_of_add_le (by decide)).trans BitVec.extractLsb'_eq_self

theorem State.status_flags (s : State) :
    s.status.getLsbD 3 = s.double ∧ s.status.getLsbD 4 = s.busy ∧ s.status.getLsbD 5 = s.ovr := by
  unfold State.status
  simp only [BitVec.getLsbD_append]
  simp

/-- Settles O41, field by field. -/
theorem statusLayout : Obligations.StatusLayout := by
  intro s v
  obtain ⟨hdouble, hbusy, hovr⟩ := s.status_flags
  obtain ⟨hphase, hsel, hreserved, herr, hhigh⟩ := s.status_fields
  exact ⟨hphase, hsel, hdouble, hbusy, hovr, hreserved, herr, hhigh, rfl, s.writeStatus_eq v⟩

/-! Reads -/

/-- From the end of the ring registers on the map has ORDER and nothing else (10_state.md rule R35, rule R57). -/
theorem State.readReg_of_ge (s : State) {off : Nat} (h : 0x06C ≤ off) :
    s.readReg off =
      if 0x100 ≤ off ∧ off % 4 = 0 ∧ off < 0x100 + 4 * orderEntries then (s.orderAt ((off - 0x100) / 4)).setWidth 32
      else 0#32 := by
  unfold State.readReg
  split
  case h_22 => rfl
  all_goals omega

theorem State.readReg_order (s : State) {k : Nat} (h : k < 255) :
    s.readReg (0x100 + 4 * k) = (s.orderAt k).setWidth 32 := by
  rw [s.readReg_of_ge (by omega), if_pos (by rw [orderEntries]; omega), show (0x100 + 4 * k - 0x100) / 4 = k by omega]

theorem State.readReg_unlisted (s : State) {off : Nat}
    (h : off ∈ [0x00C, 0x034, 0x038, 0x03C, 0x04C, 0x05C] ∨ (0x06C ≤ off ∧ off < 0x100) ∨ 0x4FC ≤ off) :
    s.readReg off = 0#32 := by
  rcases h with h | ⟨h, h'⟩ | h
  · simp only [List.mem_cons, List.not_mem_nil, or_false] at h
    rcases h with rfl | rfl | rfl | rfl | rfl | rfl <;> rfl
  · rw [s.readReg_of_ge h, if_neg (by omega)]
  · rw [s.readReg_of_ge (by omega), if_neg (by rw [orderEntries]; omega)]

/-- Settles O42: the listed registers by the map itself, ORDER and the unlisted offsets by two lemmas on the map. -/
theorem readsReturnTheRegister : Obligations.ReadsReturnTheRegister := by
  intro s ts ops off hturn hops hoff
  have hmode : s.readReg 0x024 = if s.double then 1#32 else 0#32 := by
    show (BitVec.ofBool s.double).setWidth 32 = _
    cases s.double <;> rfl
  exact ⟨by rw [step_host_rd hturn hops, if_pos hoff], rfl, rfl, rfl, rfl, rfl, rfl, hmode, rfl, rfl, rfl, rfl, rfl,
    rfl, rfl, rfl, rfl, rfl, rfl, rfl, fun k hk => s.readReg_order hk, s.readReg_unlisted⟩

/-! Writes -/

/-- A read-only register or an unused offset takes no write (10_state.md rule R35). -/
theorem State.writeReg_unlisted (s : State) {off : Nat}
    (h : off ∉ [0x010, 0x014, 0x018, 0x01C, 0x020, 0x024, 0x028, 0x02C, 0x030]) (v : Word) : s.writeReg off v = s := by
  unfold State.writeReg
  split
  case h_10 => rfl
  all_goals exact absurd (by decide) h

/-- The configuration registers take no write outside UNCONFIGURED (10_state.md rule R52). -/
theorem State.writeReg_configured {s : State} (hp : s.phase ≠ .unconfigured) {off : Nat}
    (h : off ∈ [0x010, 0x014, 0x018, 0x01C, 0x020, 0x024]) (v : Word) : s.writeReg off v = s := by
  simp only [List.mem_cons, List.not_mem_nil, or_false] at h
  rcases h with rfl | rfl | rfl | rfl | rfl | rfl <;> exact if_neg hp

/-- Settles O43: the host's turn is `State.writeReg`, whose guards are the access codes. -/
theorem registerWritesFollowTheAccessCodes : Obligations.RegisterWritesFollowTheAccessCodes := by
  intro s ts ops off v hturn hops hi hoff hc hst u
  have hstep : step s = .next (u.writeReg off v) := by
    rw [step_host_wr false hturn hops, if_pos hoff]
    exact State.hostWrite_register (s := { s with turns := ts }) false hops hst hc hi v
  rw [hstep]
  refine ⟨fun hp => ⟨?_, ?_, ?_, ?_, ?_, ?_⟩, fun hp h => ?configured, ?clkdiv, ?fbBase, ?seglist, fun h => ?unlisted⟩
  case configured => exact congrArg _ (State.writeReg_configured (s := u) hp h v)
  case unlisted => exact congrArg _ (u.writeReg_unlisted h v)
  all_goals rintro rfl
  case clkdiv | fbBase | seglist => rfl
  all_goals exact congrArg _ (if_pos hp)

/-! The host's interface -/

theorem hostWriteSize_iff {n : Nat} : hostWriteSize n = true ↔ n = 1 ∨ n = 2 ∨ n = 4 := by
  simp [hostWriteSize, or_assoc]

/-- A command whose memory is placed against 20_memory.md rule R81 is refused at its launch. -/
theorem State.launchRefused_of_command {s : State} {w : Word} {i : Instr} (hd : decode w = .command i)
    (hp : s.placementBroken i = true) : s.launchRefused w = true := by
  simp [State.launchRefused, hd, hp]

theorem State.placementBroken_encode {s : State} {slot : Slot} (hc : checkEncode slot s = none)
    (hr : ∃ r ∈ s.window :: s.regions, Region.disjoint s.framebuffer r = false) :
    s.placementBroken (.encode slot) = true := by
  have hf : s.framebufferPlaced = false := List.all_eq_false.mpr (by simpa using hr)
  simp [State.placementBroken, hc, hf]

theorem State.placementBroken_buildRing {s : State} {slot : Slot} (hc : checkBuildRing slot s = none)
    (hr : ∃ r ∈ s.window :: s.framebuffer :: s.regions, Region.disjoint s.namedList r = false) :
    s.placementBroken (.buildRing slot) = true := by
  have hf : s.listPlaced = false := List.all_eq_false.mpr (by simpa using hr)
  simp [State.placementBroken, hc, hf]

/-- A host write to memory: a move where its size is one of the three, it is in memory and it is clear of the window and
of every region (60_exceptions.md rule R305). -/
theorem State.hostMemWrite_eq (s : State) {size : Nat} {addr : Word} (hs : hostWriteSize size = true)
    (hm : addr.toNat + size ≤ memSize) (v : Word) :
    s.hostMemWrite size addr v =
      if ∀ r ∈ s.window :: s.regions, Region.disjoint r { base := addr.toNat, size := size } = true then
        .next { s.popHostOp with mem := s.mem.write addr.toNat size v.toNat }
      else .refused (.hostWriteToBlock addr.toNat) := by
  have hall : (s.window :: s.regions).all (Region.disjoint { base := addr.toNat, size := size }) = true ↔
      ∀ r ∈ s.window :: s.regions, Region.disjoint r { base := addr.toNat, size := size } = true := by
    simp only [List.all_eq_true, Region.disjoint_comm]
  simp only [State.hostMemWrite, hs, memoryExists, hm, decide_true, Bool.true_eq_false, if_false, hall]

/-- Settles O53, by the host's three checks: the window's offsets, the launch, the memory write. -/
theorem hostMovesKeepToTheInterface : Obligations.HostMovesKeepToTheInterface := by
  intro s ts ops off size addr v slot hturn
  have hcmd : s.hostOps = .wr 0 v :: ops → s.inFlight = none → s.lapBlocked v = false → s.launchRefused v = true →
      step s = .refused .overlappingRegions := fun hops hi hl hr =>
    (step_host_wr false hturn hops).trans
      (State.hostWrite_refused (s := { s with turns := ts }) false hi hl hr)
  have hmem : s.hostOps = .mwr size addr v :: ops → (size = 1 ∨ size = 2 ∨ size = 4) → addr.toNat + size ≤ memSize →
      step s =
        if ∀ r ∈ s.window :: s.regions, Region.disjoint r { base := addr.toNat, size := size } = true then
          .next { s with turns := ts, hostOps := ops, mem := s.mem.write addr.toNat size v.toNat }
        else .refused (.hostWriteToBlock addr.toNat) := by
    intro hops hsize hfit
    rw [step_host_mwr hturn hops, State.hostMemWrite_eq _ (hostWriteSize_iff.mpr hsize) hfit,
      State.popHostOp_of_cons (s := { s with turns := ts }) hops]
    rfl
  refine ⟨fun hops hoff => ?_, fun hops hoff => ?_, fun hops hi hl => ⟨fun hd hc hr => ?_, fun hd hc hr => ?_⟩,
    fun hops hsize => ?_, fun hops hsize hfit => ?_, fun hops hsize hfit => ⟨fun hr => ?_, fun hr => ?_⟩⟩
  · rw [step_host_rd hturn hops, hoff]; rfl
  · rw [step_host_wr false hturn hops, hoff]; rfl
  · exact hcmd hops hi hl (State.launchRefused_of_command hd (State.placementBroken_encode hc hr))
  · exact hcmd hops hi hl (State.launchRefused_of_command hd (State.placementBroken_buildRing hc hr))
  · rw [step_host_mwr hturn hops]
    exact if_pos (by simpa [← hostWriteSize_iff] using hsize)
  · have hm : memoryExists addr.toNat size = false := by simpa [memoryExists] using hfit
    have hs : ¬ hostWriteSize size = false := by simpa [hostWriteSize_iff] using hsize
    rw [step_host_mwr hturn hops, State.hostMemWrite, if_neg hs, if_pos hm]
  · rw [hmem hops hsize hfit, if_pos hr]
  · obtain ⟨r, hin, hd⟩ := hr
    rw [hmem hops hsize hfit, if_neg fun h => by simp [h r hin] at hd]

end Sys2Proof.Machine
end

section
/-!
Memory (20_memory.md): which steps leave it as it is, and that every write a step makes, every grant and every reset
keeps it in canonical form.
-/
namespace Sys2Proof.Machine

/-! What leaves memory as it is -/

/-- A check makes no access: memory is as the command leaves it where the check passes. -/
theorem State.rejectOr_mem {s next : State} (e : Option Error) (h : next.mem = s.mem) :
    (s.rejectOr e next).mem = s.mem := by
  cases e with
  | none => exact h
  | some err => rfl

/-- The first step of a command makes its checks and no access (44_setup_control.md rule R262). -/
@[simp] theorem State.beginCommand_mem (s : State) (c : InFlight) (i : Instr) : (s.beginCommand c i).mem = s.mem := by
  cases i with
  | nop => rfl
  | setup | schedule | buildRing | start | encode => exact State.rejectOr_mem _ rfl
  | activate slot =>
    refine State.rejectOr_mem _ ?_
    split
    · rfl
    · exact State.rejectOr_mem _ rfl

@[simp] theorem State.beginWord_mem (s : State) (c : InFlight) : (s.beginWord c).mem = s.mem := by
  unfold State.beginWord
  split
  · rfl
  · exact s.beginCommand_mem c _

@[simp] theorem State.listStep_mem (s : State) (c : InFlight) (slot : Slot) (got : List Segment) (ptr : Option Word) :
    (s.listStep c slot got ptr).mem = s.mem := by
  rcases s.listStep_cases c slot got ptr with he | ⟨_, he⟩ | ⟨_, _, he⟩
  · rw [he]
  · rw [he, State.toStage_mem]
  · rw [he, State.toStage_mem]

/-- The step after a built ring makes no access. -/
@[simp] theorem State.afterRing_mem (s : State) (setup : Option SetupResults) (slot : Slot) (ring : Ring) :
    (s.afterRing setup slot ring).mem = s.mem := by
  unfold State.afterRing
  cases setup with
  | none => simp
  | some r =>
    simp only
    split <;> simp

/-- The consumer writes no memory (60_exceptions.md rule R301). -/
@[simp] theorem State.consumerStep_mem (s : State) (linkNow : Bool) : (s.consumerStep linkNow).mem = s.mem := by
  rcases s.consumerStep_cases linkNow with h | ⟨_, -, h⟩ | ⟨-, -, h⟩ | ⟨_, -, h⟩ | ⟨_, -, -, -, h⟩ <;> rw [h]

@[simp] theorem State.writeStatus_mem (s : State) (v : Word) : (s.writeStatus v).mem = s.mem := by
  rw [State.writeStatus_eq]

@[simp] theorem State.writeReg_mem (s : State) (off : Nat) (v : Word) : (s.writeReg off v).mem = s.mem := by
  unfold State.writeReg
  split
  case h_1 | h_2 | h_3 | h_4 | h_5 | h_6 => unfold State.ifUnconfigured; split <;> rfl
  case h_7 => unfold State.ifNotRunning; split <;> rfl
  case h_8 | h_9 | h_10 => rfl

/-! A command run whole -/

/-- Memory is in canonical form where a part of a command leaves it; a stuck block leaves no state. -/
def Flow.MemoryWf : Flow → Prop
  | .on t => t.mem.wf = true
  | .over t => t.mem.wf = true
  | .stuck _ => True

theorem Flow.MemoryWf.andThen {x : Flow} (hx : x.MemoryWf) {k : State → Flow}
    (hk : ∀ t : State, t.mem.wf = true → (k t).MemoryWf) : (x.andThen k).MemoryWf := by
  rcases x with t | t | f
  · exact hk t hx
  · exact hx
  · trivial

theorem Flow.MemoryWf.of_outcome {x : Flow} (hx : x.MemoryWf) {t : State} (h : x.outcome = .next t) :
    t.mem.wf = true := by
  rcases Flow.outcome_eq_next.mp h with rfl | rfl <;> exact hx

/-- A granted region's bytes are unconstrained; nothing is written (60_exceptions.md rule R302). -/
theorem State.grant_memoryWf {s : State} (h : s.mem.wf = true) (r : Region) : (s.takeAnswer.grant r).mem.wf = true := by
  rw [State.grant_mem, State.takeAnswer_mem]
  exact Memory.wf_forget h r

theorem State.takeAnswer_memoryWf {s : State} (h : s.mem.wf = true) : s.takeAnswer.mem.wf = true := by
  rwa [State.takeAnswer_mem]

section
variable {s : State} (h : s.mem.wf = true)
include h

theorem State.guard_memoryWf (e : Option Error) : (s.guard e).MemoryWf := by
  cases e <;> exact h

theorem State.storeAll_memoryWf (ws : List Store) : (s.storeAll ws).MemoryWf := by
  rcases hx : s.storeAll ws with t | t | f
  · obtain ⟨rfl, hfit⟩ := State.storeAll_cases hx
    exact Memory.wf_afterStores h hfit
  · exact absurd hx (State.storeAll_ne_over _ _ _)
  · trivial

theorem State.build_memoryWf (slot : Slot) (segments : List Segment) (avoid : List Region) :
    (s.build slot segments avoid).MemoryWf := by
  unfold State.build
  rcases s.alloc_cases (poolBytes s.unit segments) avoid with ha | ha | ⟨pool, -, ha⟩ <;> rw [ha]
  · trivial
  · exact State.takeAnswer_memoryWf h
  · refine (State.storeAll_memoryWf (State.grant_memoryWf h _) _).andThen fun t ht => ?_
    rwa [Flow.MemoryWf, State.setRing_mem]

theorem State.allocArena_memoryWf : s.allocArena.MemoryWf := by
  rcases s.allocArena_cases with ha | ha | ⟨arena, -, ha⟩ <;> rw [ha]
  · trivial
  · exact State.takeAnswer_memoryWf h
  · exact State.grant_memoryWf h _

theorem State.withList_memoryWf {k : List Segment → Flow} (hk : ∀ segments, (k segments).MemoryWf) :
    (s.withList k).MemoryWf := by
  unfold State.withList
  split
  · trivial
  · exact h
  · split
    · exact h
    · exact hk _

end

theorem State.buildRings_memoryWf {s : State} (h : s.mem.wf = true) (slots : List Slot) :
    (s.buildRings slots).MemoryWf := by
  induction slots generalizing s with
  | nil => exact h
  | cons slot rest ih => exact (State.build_memoryWf h slot _ _).andThen fun _ ht => ih ht

section
variable {s t : State} (h : s.mem.wf = true)
include h

theorem execSetup_memoryWf (he : execSetup s = .next t) : t.mem.wf = true := by
  refine Flow.MemoryWf.of_outcome ((State.guard_memoryWf h _).andThen fun u hu => ?_) he
  have hb : u.beginSetup.mem.wf = true := hu
  exact (State.allocArena_memoryWf hb).andThen fun v hv => (State.buildRings_memoryWf hv _).andThen fun _ hw => hw

theorem execSchedule_memoryWf (he : execSchedule s = .next t) : t.mem.wf = true := by
  refine Flow.MemoryWf.of_outcome ((State.guard_memoryWf h _).andThen fun u hu => ?_) he
  exact hu

theorem execBuildRing_memoryWf {slot : Slot} (he : execBuildRing slot s = .next t) : t.mem.wf = true := by
  refine Flow.MemoryWf.of_outcome ((State.guard_memoryWf h _).andThen fun u hu => ?_) he
  exact State.withList_memoryWf hu fun _ => (State.build_memoryWf hu _ _ _).andThen fun _ hv => hv

theorem execStart_memoryWf {slot : Slot} (he : execStart slot s = .next t) : t.mem.wf = true := by
  refine Flow.MemoryWf.of_outcome ((State.guard_memoryWf h _).andThen fun u hu => ?_) he
  exact (State.storeAll_memoryWf hu _).andThen fun _ hv => hv

theorem execActivate_memoryWf {slot : Slot} (he : execActivate slot s = .next t) : t.mem.wf = true := by
  refine Flow.MemoryWf.of_outcome ((State.guard_memoryWf h _).andThen fun u hu => ?_) he
  split
  · exact hu
  · exact (State.guard_memoryWf hu _).andThen fun _ hv => (State.storeAll_memoryWf hv _).andThen fun _ hw => hw

theorem execEncode_memoryWf {slot : Slot} (he : execEncode slot s = .next t) : t.mem.wf = true := by
  refine Flow.MemoryWf.of_outcome ((State.guard_memoryWf h _).andThen fun u hu => ?_) he
  split
  · trivial
  · rename_i m hm
    exact State.wf_encodeWords hm hu

/-- A word performed whole keeps memory in canonical form (44_setup_control.md rule R262; log 2). -/
theorem State.runWord_memoryWf {w : Word} (he : s.runWord w = .next t) : t.mem.wf = true := by
  unfold State.runWord at he
  split at he
  · cases he; exact h
  · rename_i i _
    cases i with
    | nop => cases he; exact h
    | setup => exact execSetup_memoryWf h he
    | schedule => exact execSchedule_memoryWf h he
    | buildRing slot => exact execBuildRing_memoryWf h he
    | start slot => exact execStart_memoryWf h he
    | activate slot => exact execActivate_memoryWf h he
    | encode slot => exact execEncode_memoryWf h he

/-! One block step -/

theorem State.arenaStep_memoryWf : s.arenaStep.mem.wf = true := by
  rcases s.arenaStep_cases with he | he | ⟨region, _, _, he⟩ <;> rw [he]
  · exact h
  · exact State.takeAnswer_memoryWf h
  · exact State.grant_memoryWf h region

theorem State.poolStep_memoryWf (c : InFlight) (setup : Option SetupResults) (slot : Slot) (segments : List Segment) :
    (s.poolStep c setup slot segments).mem.wf = true := by
  rcases s.poolStep_cases c setup slot segments with he | he | ⟨region, _, _, he⟩ <;> rw [he]
  · exact h
  · exact State.takeAnswer_memoryWf h
  · exact State.grant_memoryWf h region

/-- A store of a command in flight is made in memory or not at all (60_exceptions.md rule R286). -/
theorem State.storeStep_memoryWf (left : List Store) (again : List Store → Stage) {done : State}
    (hd : done.mem = s.mem) : (s.storeStep left again done).mem.wf = true := by
  rcases s.storeStep_cases left again done with ⟨-, he⟩ | ⟨w, _, -, hfit, he⟩ | he <;> rw [he]
  · rwa [hd]
  · exact Memory.wf_write h hfit _
  · exact h

/-- A word of ENCODE is written in memory or not at all (60_exceptions.md rule R286). -/
theorem State.wordStep_memoryWf (c : InFlight) (choice : Nat) (slot : Slot) (jobs : List WordJob) :
    (s.wordStep c choice slot jobs).mem.wf = true := by
  rcases s.wordStep_cases c choice slot jobs with he | he | ⟨_, _, _, _, -, he⟩ | ⟨_, _, v, -, hfit, he⟩ <;> rw [he]
  · exact h
  · exact h
  · exact h
  · exact Memory.wf_write h hfit v

/-- A block step keeps memory in canonical form, wherever its command stands (44_setup_control.md rule R262). -/
theorem State.blockStep_memoryWf (choice : Nat) : (s.blockStep choice).mem.wf = true := by
  unfold State.blockStep
  split
  · exact h
  rename_i c _
  cases c.stage with
  | begin => exact (s.beginWord_mem c).symm ▸ h
  | list slot got ptr => exact (s.listStep_mem c slot got ptr).symm ▸ h
  | arena => exact State.arenaStep_memoryWf h
  | pool setup slot segments => exact State.poolStep_memoryWf h c setup slot segments
  | fill setup slot ring left => exact State.storeStep_memoryWf h left _ (s.afterRing_mem setup slot ring)
  | rejected e => exact h
  | allocFailed setup =>
    show (s.commit setup).allocFail.mem.wf = true
    rw [State.allocFail_mem]
    cases setup with
    | none => exact h
    | some r => rwa [State.commit_mem]
  | startLinks slot left => exact State.storeStep_memoryWf h left _ rfl
  | flipLinks slot left => exact State.storeStep_memoryWf h left _ rfl
  | words slot jobs => exact State.wordStep_memoryWf h c choice slot jobs

/-! One step of any agent -/

/-- Memory is not written by a reset; all of it is unconstrained (70_reset_and_hazards.md rule R321). -/
theorem State.resetBlock_memoryWf : s.resetBlock.mem.wf = true := Memory.wf_forget h _

theorem State.hostWrite_memoryWf {whole : Bool} {off : Nat} {v : Word} (hs : s.hostWrite whole off v = .next t) :
    t.mem.wf = true := by
  rcases State.hostWrite_cases hs with ⟨-, rfl⟩ | ⟨-, -, rfl⟩ | ⟨-, -, -, rfl⟩ | ⟨-, -, -, -, -, hw⟩ |
    ⟨-, -, -, -, -, rfl⟩ | ⟨-, -, -, rfl⟩
  · rwa [State.writeStatus_mem]
  · exact h
  · exact h
  · exact State.runWord_memoryWf (s := s.popHostOp) h hw
  · exact h
  · rwa [State.writeReg_mem]

theorem State.hostStep_memoryWf {whole : Bool} (hs : s.hostStep whole = .next t) : t.mem.wf = true := by
  rcases State.hostStep_cases hs with rfl | rfl | ⟨_, rfl⟩ | ⟨_, rfl⟩ | ⟨_, _, -, -, hw⟩ | ⟨_, _, _, hw⟩ | ⟨-, rfl⟩
  · exact h
  · exact h
  · exact h
  · exact h
  · exact State.hostWrite_memoryWf h hw
  · obtain ⟨-, hfit, -, rfl⟩ := State.hostMemWrite_cases hw
    exact Memory.wf_write h hfit _
  · exact State.resetBlock_memoryWf (s := s.popHostOp) h

/-- Every step of every agent keeps memory in canonical form (20_memory.md rule R70). -/
theorem State.step_memoryWf (hs : step s = .next t) : t.mem.wf = true := by
  have hturn : s.takeTurn.mem.wf = true := by rwa [State.takeTurn_mem]
  rcases step_cases hs with ⟨choice, -, rfl⟩ | ⟨linkNow, -, rfl⟩ | ⟨-, rfl⟩ | ⟨whole, -, hw⟩
  · exact State.blockStep_memoryWf hturn choice
  · rwa [State.consumerStep_mem]
  · exact State.resetBlock_memoryWf hturn
  · exact State.hostStep_memoryWf hturn hw

end

/-- Settles O56, by the agent whose turn it is: each write it makes is checked to be in memory before it is made, and a
grant or a reset only takes cells away. -/
theorem stepKeepsMemoryCanonical : Obligations.StepKeepsMemoryCanonical := fun _ _ => State.step_memoryWf

end Sys2Proof.Machine
end

section
/-!
Command words (30_encoding.md): a word decodes to a command exactly if it is its encoding, and what an illegal word
does.
-/
namespace Sys2Proof

/-! Decoding by fields -/

/-- The word of a command decodes to it (30_encoding.md rule R100, rule R101). -/
theorem decode_encode (i : Instr) : decode (encode i) = .command i := by
  cases i with
  | nop => decide
  | setup => decide
  | schedule => decide
  | buildRing s => cases s <;> decide
  | start s => cases s <;> decide
  | activate s => cases s <;> decide
  | encode s => cases s <;> decide

/-- A slotless command is decoded where SLOT is 0 (rule R102). -/
theorem slotless_eq_command {w : Word} {i j : Instr} :
    slotless w i = .command j ↔ w.extractLsb' 8 1 = 0#1 ∧ i = j := by
  unfold slotless
  split <;> simp [*]

/-- The command a word's opcode map gives has the word's opcode and slot (rule R101, rule R102). -/
theorem fields_of_decodeOp {w : Word} {i : Instr} (h : decodeOp w = .command i) :
    w.extractLsb' 0 4 = opcode i ∧ w.extractLsb' 8 1 = slotBit i := by
  unfold decodeOp at h
  have hslot := (slotField_bit w).symm
  split at h
  case h_8 => cases h
  case h_1 hop | h_2 hop | h_3 hop =>
    obtain ⟨hbit, rfl⟩ := slotless_eq_command.mp h
    exact ⟨BitVec.eq_of_toNat_eq hop, hbit⟩
  case h_4 hop | h_5 hop | h_6 hop | h_7 hop =>
    cases h
    exact ⟨BitVec.eq_of_toNat_eq hop, hslot⟩

/-- A word that decodes to a command is put together of the command's fields, so it is the command's word. -/
theorem eq_encode_of_decode {w : Word} {i : Instr} (h : decode w = .command i) : w = encode i := by
  by_cases hclear : w.extractLsb' 4 4 = 0#4 ∧ w.extractLsb' 9 23 = 0#23
  · rw [decode_of_clear hclear] at h
    obtain ⟨hop, hslot⟩ := fields_of_decodeOp h
    rw [word_eq_fields w, hclear.1, hclear.2, hop, hslot, encode]
  · rw [decode_of_reserved hclear] at h
    cases h

theorem decode_eq_command_iff {w : Word} {i : Instr} : decode w = .command i ↔ w = encode i :=
  ⟨eq_encode_of_decode, fun h => h ▸ decode_encode i⟩

/-- Settles O1: one direction computes the seven commands, the other reads off a word's fields. -/
theorem decodeAndEncodeAgree : Obligations.DecodeAndEncodeAgree := fun _ _ => decode_eq_command_iff

/-! The decode test -/

/-- The decode test in words (30_encoding.md rule R105). -/
theorem legalWord_iff (w : Word) :
    legalWord w = true ↔
      w.extractLsb' 4 4 = 0#4 ∧ w.extractLsb' 9 23 = 0#23 ∧ (w.extractLsb' 0 4).toNat ≤ 0x6 ∧
        (0x3 ≤ (w.extractLsb' 0 4).toNat ∨ w.extractLsb' 8 1 = 0#1) := by
  simp [legalWord, reservedBitsClear, opcodeAssigned, slotAllowed, and_assoc]

/-- A word that passes the test decodes: by its opcode, and by its slot where the opcode takes none. -/
theorem exists_command_of_legalWord {w : Word} (h : legalWord w = true) : ∃ i, decode w = .command i := by
  obtain ⟨hlow, hhigh, hop, hslot⟩ := (legalWord_iff w).mp h
  rw [decode_of_clear ⟨hlow, hhigh⟩]
  unfold decodeOp
  split
  case h_1 hn | h_2 hn | h_3 hn =>
    rw [hn] at hslot
    exact ⟨_, slotless_eq_command.mpr ⟨hslot.resolve_left (by decide), rfl⟩⟩
  case h_4 | h_5 | h_6 | h_7 => exact ⟨_, rfl⟩
  case h_8 h0 h1 h2 h3 h4 h5 h6 =>
    simp only [imp_false] at h0 h1 h2 h3 h4 h5 h6
    omega

theorem legalWord_iff_command (w : Word) : legalWord w = true ↔ ∃ i, decode w = .command i := by
  refine ⟨exists_command_of_legalWord, ?_⟩
  rintro ⟨i, h⟩
  rw [eq_encode_of_decode h]
  exact legalWord_encode i

/-- Every word is a command or illegal (rule R105). -/
theorem decode_total (w : Word) : (∃ i, decode w = .command i) ∨ ∃ why, decode w = .illegal why := by
  cases decode w with
  | command i => exact .inl ⟨i, rfl⟩
  | illegal why => exact .inr ⟨why, rfl⟩

/-- Settles O2. -/
theorem decodingIsTotalAndTestsLegality : Obligations.DecodingIsTotalAndTestsLegality := fun w =>
  ⟨(legalWord_iff w).symm.trans (legalWord_iff_command w), decode_total w⟩

/-- Settles O3, by computing the fifteen words. -/
theorem decodesTheWordsOfTheTable : Obligations.DecodesTheWordsOfTheTable := by
  unfold Obligations.DecodesTheWordsOfTheTable
  decide

end Sys2Proof

namespace Sys2Proof.Machine

/-! An illegal word -/

/-- A word with a reserved bit, a reserved opcode or a slot on a slotless command is illegal (30_encoding.md rule R103,
rule R104). -/
theorem decode_illegal {w : Word}
    (h : w.extractLsb' 4 4 ≠ 0#4 ∨ w.extractLsb' 9 23 ≠ 0#23 ∨ 0x7 ≤ (w.extractLsb' 0 4).toNat ∨
      ((w.extractLsb' 0 4).toNat < 0x3 ∧ w.extractLsb' 8 1 = 1#1)) : ∃ why, decode w = .illegal why := by
  refine (decode_total w).resolve_left fun hcommand => ?_
  obtain ⟨hlow, hhigh, hop, hslot⟩ := (legalWord_iff w).mp ((legalWord_iff_command w).mpr hcommand)
  rcases h with h | h | h | ⟨h, hbit⟩
  · exact h hlow
  · exact h hhigh
  · omega
  · rw [hbit] at hslot
    exact hslot.elim (by omega) (by decide)

/-- A write of a word to CMD that nothing keeps off, in a turn that runs commands whole (log 2). -/
theorem State.hostWrite_command {s : State} {op : HostOp} {ops : List HostOp} {w : Word} (hops : s.hostOps = op :: ops)
    (hi : s.inFlight = none) (hl : s.lapBlocked w = false) (hr : s.launchRefused w = false) :
    s.hostWrite true cmdOffset w = ({ s with hostOps := ops } : State).runWord w := by
  simp [State.hostWrite, State.busy, statusOffset, cmdOffset, hi, hl, hr, State.popHostOp_of_cons hops]

section
variable {w : Word} {why : IllegalWord} (hd : decode w = .illegal why)
include hd

/-- Neither LAP_WAIT nor the launch premise is about an illegal word (60_exceptions.md rule R305). -/
theorem State.not_blocked_illegal (s : State) : s.lapBlocked w = false ∧ s.launchRefused w = false := by
  simp [State.lapBlocked, State.launchRefused, hd]

theorem State.runWord_illegal (s : State) : s.runWord w = .next (s.raise (Error.plain .badCommand)) := by
  rw [State.runWord, hd]

theorem State.beginWord_illegal (s : State) {c : InFlight} (hc : c.word = w) :
    s.beginWord c = s.raise (Error.plain .badCommand) := by
  rw [State.beginWord, hc, hd]

end

/-- Settles O7: with a legal command shut out by the decode test, the host's step and the first block step both raise
BAD_COMMAND. -/
theorem illegalWordsCompleteWithBadCommand : Obligations.IllegalWordsCompleteWithBadCommand := by
  intro s w h
  obtain ⟨why, hd⟩ := decode_illegal h
  refine ⟨fun ts ops hturn hops hi => ?_, fun choice => ?_⟩
  · obtain ⟨hl, hr⟩ := State.not_blocked_illegal hd { s with turns := ts }
    rw [step_host_wr true hturn hops]
    exact (State.hostWrite_command (s := { s with turns := ts }) hops hi hl hr).trans (State.runWord_illegal hd _)
  · exact State.beginWord_illegal hd (s.accept w) rfl

end Sys2Proof.Machine
end

section
/-!
The rings in memory (30_encoding.md R119): what the rings and a command that builds them rest on, what leaves them
alone, and the two things that change them, link stores and BUILD.
-/
namespace Sys2Proof.Machine

/-! What the rings rest on -/

/-- The registers that say where the arena and the rings are. -/
structure RingLayout where
  settings : Settings
  bpBase : Word
  ring0 : Ring
  ring1 : Ring

def State.layout (s : State) : RingLayout :=
  { settings := s.settings, bpBase := s.bpBase, ring0 := s.ring0, ring1 := s.ring1 }

/-- The arena and the ring of every slot that exists stand, the rings apart: what the invariant says of a block that is
set up. -/
structure State.Built (s : State) : Prop where
  arena : s.arena ∈ s.regions
  stands : ∀ slot ∈ s.slots, s.ringStands slot
  apart : s.double = true → Region.disjoint s.ring0.pool s.ring1.pool = true

/-- Every tail names the head of a built ring. -/
def State.Closed (s : State) : Prop := ∀ slot ∈ s.slots, s.isHead (s.mem.nextOf (s.ring slot).tail.toNat)

/-- The consumer is at, and heads for, a descriptor of a built ring. -/
def State.ConsumerInside (s : State) : Prop :=
  s.onRing s.consumer.cur.toNat ∧ ∀ next, s.consumer.link = some next → s.onRing next.toNat

/-- `State.RingInv` but for the command in flight. -/
structure State.RingsHold (s : State) : Prop where
  built : s.isSetUp = true → s.Built
  playing : s.phase = .running → s.Closed ∧ s.ConsumerInside

theorem State.RingInv.ringsHold {s : State} (h : s.RingInv) : s.RingsHold :=
  ⟨fun hs => ⟨h.arena hs, h.stands hs, h.apart hs⟩, fun hp => ⟨h.closed hp, h.inside hp⟩⟩

theorem State.RingsHold.ringInv {s : State} (h : s.RingsHold)
    (hf : ∀ c, s.inFlight = some c → s.stageBuilds c.stage) : s.RingInv :=
  { arena := fun hs => (h.built hs).arena
    stands := fun hs => (h.built hs).stands
    apart := fun hs => (h.built hs).apart
    closed := fun hp => (h.playing hp).1
    inside := fun hp => (h.playing hp).2
    flight := hf }

/-- A ring stands once no store of it is left. -/
theorem State.ringStands_iff_filling {s : State} {slot : Slot} : s.ringStands slot ↔ s.filling (s.ring slot) [] := by
  simp [State.ringStands, State.filling, Memory.afterStores]

/-- The sizes of the panel and of the arena are a matter of the settings. -/
theorem State.sizes_congr {s t : State} (h : t.settings = s.settings) :
    t.arenaBytes = s.arenaBytes ∧ t.planes = s.planes ∧ t.rows = s.rows ∧ t.panelWidth = s.panelWidth := by
  cases s
  cases t
  obtain ⟨rfl, rfl, rfl, rfl, rfl, rfl, rfl⟩ := State.settings_eq_iff.mp h
  exact ⟨rfl, rfl, rfl, rfl⟩

section
variable {s t : State} (h : t.layout = s.layout)
include h

theorem State.settings_congr : t.settings = s.settings := congrArg RingLayout.settings h

theorem State.slots_congr : t.slots = s.slots := by
  have hd : t.double = s.double := congrArg Settings.double (State.settings_congr h)
  rw [State.slots, State.slots, hd]

theorem State.ring_congr : t.ring = s.ring := by
  funext slot
  cases slot with
  | zero => exact congrArg RingLayout.ring0 h
  | one => exact congrArg RingLayout.ring1 h

theorem State.arena_congr : t.arena = s.arena := by
  have hb : t.bpBase = s.bpBase := congrArg RingLayout.bpBase h
  rw [State.arena, State.arena, hb, (State.sizes_congr (State.settings_congr h)).1]

theorem State.isHead_congr (a : Nat) : t.isHead a ↔ s.isHead a := by
  rw [State.isHead, State.isHead, State.slots_congr h, State.ring_congr h]

theorem State.onRing_congr (a : Nat) : t.onRing a ↔ s.onRing a := by
  rw [State.onRing, State.onRing, State.slots_congr h, State.ring_congr h]

theorem State.isLinkStore_congr (w : Store) : t.isLinkStore w ↔ s.isLinkStore w := by
  simp only [State.isLinkStore, State.tailLink, State.isHead_congr h, State.slots_congr h, State.ring_congr h]

end

/-! What leaves the rings alone -/

/-- The layout stays, no region is given back, and no byte changes outside one range. -/
structure State.ChangesOnly (s t : State) (r : Region) : Prop where
  layout : t.layout = s.layout
  regions : s.regions ⊆ t.regions
  bytes : ∀ b, b < r.base ∨ r.base + r.size ≤ b → t.mem.byte b = s.mem.byte b

/-- A range of no byte: what changes when memory does not. -/
def Region.empty : Region := { base := 0, size := 0 }

theorem Region.empty_disjoint (q : Region) : Region.disjoint Region.empty q = true := rfl

theorem State.ChangesOnly.of_mem {s t : State} (hl : t.layout = s.layout) (hr : s.regions ⊆ t.regions)
    (hm : t.mem = s.mem) : s.ChangesOnly t Region.empty :=
  ⟨hl, hr, fun _ _ => by rw [hm]⟩

theorem State.ChangesOnly.trans {s t u : State} {r : Region} (h : s.ChangesOnly t r) (h' : t.ChangesOnly u r) :
    s.ChangesOnly u r :=
  ⟨h'.layout.trans h.layout, fun _ hq => h'.regions (h.regions hq), fun b hb => (h'.bytes b hb).trans (h.bytes b hb)⟩

/-- What SETUP has computed so far, put into the registers, changes them alike in both. -/
theorem State.ChangesOnly.commit {s t : State} {r : Region} (h : s.ChangesOnly t r) (p : SetupResults) :
    (s.commit (some p)).ChangesOnly (t.commit (some p)) r :=
  ⟨congrArg (fun l : RingLayout => { l with bpBase := p.bpBase, ring0 := p.ring0 }) h.layout, h.regions, h.bytes⟩

section
variable {s t : State} {r : Region} (h : s.ChangesOnly t r)
include h

/-- Memory agrees on whatever is clear of the range. -/
theorem State.ChangesOnly.byte_of_disjoint {q : Region} (hd : Region.disjoint r q = true) :
    ∀ b, q.base ≤ b → b < q.base + q.size → t.mem.byte b = s.mem.byte b := by
  intro b h1 h2
  have hout : ¬ (r.base ≤ b ∧ b < r.base + r.size) := fun hb => Region.not_both_of_disjoint hd hb ⟨h1, h2⟩
  exact h.bytes b (by omega)

theorem State.ChangesOnly.filling {ring : Ring} {left : List Store} (hf : s.filling ring left)
    (hd : Region.disjoint r ring.pool = true) : t.filling ring left := by
  obtain ⟨⟨hcount, htail, hpool⟩, harena, hlinked, hin⟩ := hf
  exact ⟨⟨hcount, htail, h.regions hpool⟩, (State.arena_congr h.layout).symm ▸ harena,
    Memory.linked_congr hlinked (Memory.afterStores_agree (h.byte_of_disjoint hd) left), hin⟩

theorem State.ChangesOnly.ringStands {slot : Slot} (hs : s.ringStands slot)
    (hd : Region.disjoint r (s.ring slot).pool = true) : t.ringStands slot := by
  rw [State.ringStands_iff_filling, State.ring_congr h.layout] at *
  exact h.filling hs hd

theorem State.ChangesOnly.arena_mem (ha : s.arena ∈ s.regions) : t.arena ∈ t.regions :=
  (State.arena_congr h.layout).symm ▸ h.regions ha

theorem State.ChangesOnly.built (hb : s.Built) (hd : ∀ slot ∈ s.slots, Region.disjoint r (s.ring slot).pool = true) :
    t.Built := by
  refine ⟨h.arena_mem hb.arena, fun slot hslot => ?_, fun hdouble => ?_⟩
  · rw [State.slots_congr h.layout] at hslot
    exact h.ringStands (hb.stands slot hslot) (hd slot hslot)
  · have h0 : t.ring0 = s.ring0 := congrArg RingLayout.ring0 h.layout
    have h1 : t.ring1 = s.ring1 := congrArg RingLayout.ring1 h.layout
    rw [h0, h1]
    exact hb.apart ((congrArg Settings.double (State.settings_congr h.layout)).symm.trans hdouble)

/-- The link of a standing ring's tail, after stores made in both. -/
theorem State.ChangesOnly.nextOf_tail {slot : Slot} (hs : s.ringStands slot)
    (hd : Region.disjoint r (s.ring slot).pool = true) (ws : List Store) :
    (t.mem.afterStores ws).nextOf (t.ring slot).tail.toNat =
      (s.mem.afterStores ws).nextOf (s.ring slot).tail.toNat := by
  obtain ⟨hlo, hhi⟩ := State.tailLink_in_pool hs.1
  simp only [State.tailLink, nextField] at hlo hhi
  rw [State.ring_congr h.layout]
  exact Memory.read_congr fun b h1 h2 =>
    Memory.afterStores_agree (h.byte_of_disjoint hd) ws b (by omega) (by omega)

/-- The tails name heads as they did, after stores made in both. -/
theorem State.ChangesOnly.closed (hb : s.Built) (hd : ∀ slot ∈ s.slots, Region.disjoint r (s.ring slot).pool = true)
    (ws : List Store) (hc : ∀ slot ∈ s.slots, s.isHead ((s.mem.afterStores ws).nextOf (s.ring slot).tail.toNat)) :
    ∀ slot ∈ t.slots, t.isHead ((t.mem.afterStores ws).nextOf (t.ring slot).tail.toNat) := by
  intro slot hslot
  rw [State.slots_congr h.layout] at hslot
  rw [h.nextOf_tail (hb.stands slot hslot) (hd slot hslot), State.isHead_congr h.layout]
  exact hc slot hslot

theorem State.ChangesOnly.consumerInside (hc : t.consumer = s.consumer) (hi : s.ConsumerInside) :
    t.ConsumerInside := by
  unfold State.ConsumerInside
  simp only [hc, State.onRing_congr h.layout]
  exact hi

/-- The rings hold where no byte of a standing ring's pool changes. -/
theorem State.ChangesOnly.ringsHold (hs : s.RingsHold)
    (hd : s.isSetUp = true → ∀ slot ∈ s.slots, Region.disjoint r (s.ring slot).pool = true) (hp : t.phase = s.phase)
    (hc : s.phase = .running → t.ConsumerInside) : t.RingsHold := by
  have hsetUp : t.isSetUp = s.isSetUp := by rw [State.isSetUp, State.isSetUp, hp]
  refine ⟨fun hu => ?_, fun hrun => ?_⟩
  · rw [hsetUp] at hu
    exact h.built (hs.built hu) (hd hu)
  · rw [hp] at hrun
    have hu : s.isSetUp = true := by simp [State.isSetUp, hrun]
    exact ⟨h.closed (hs.built hu) (hd hu) [] (hs.playing hrun).1, hc hrun⟩

theorem State.ChangesOnly.ringsHold_of_consumer_eq (hs : s.RingsHold)
    (hd : s.isSetUp = true → ∀ slot ∈ s.slots, Region.disjoint r (s.ring slot).pool = true) (hp : t.phase = s.phase)
    (hc : t.consumer = s.consumer) : t.RingsHold :=
  h.ringsHold hs hd hp fun hrun => h.consumerInside hc (hs.playing hrun).2

end

/-- A standing ring is clear of what is clear of every region. -/
theorem State.disjoint_pool {s : State} {r : Region} (hd : ∀ q ∈ s.regions, Region.disjoint r q = true) {ring : Ring}
    (ha : s.ringAllocated ring) : Region.disjoint r ring.pool = true := hd _ ha.2.2

theorem State.Built.disjoint_pools {s : State} (hb : s.Built) {r : Region}
    (hd : ∀ q ∈ s.regions, Region.disjoint r q = true) :
    ∀ slot ∈ s.slots, Region.disjoint r (s.ring slot).pool = true :=
  fun slot hslot => State.disjoint_pool hd (hb.stands slot hslot).1

theorem State.RingsHold.disjoint_pools {s : State} (hs : s.RingsHold) {r : Region}
    (hd : ∀ q ∈ s.regions, Region.disjoint r q = true) :
    s.isSetUp = true → ∀ slot ∈ s.slots, Region.disjoint r (s.ring slot).pool = true :=
  fun hu => (hs.built hu).disjoint_pools hd

/-- What a command in flight has built stands where no byte of a region changes. -/
theorem State.ChangesOnly.stageBuilds {s t : State} {r : Region} (h : s.ChangesOnly t r)
    (hd : ∀ q ∈ s.regions, Region.disjoint r q = true) {stage : Stage} (hfit : s.stageFits stage = true)
    (hb : s.isSetUp = true → s.Built) (hs : s.stageBuilds stage) : t.stageBuilds stage := by
  obtain ⟨-, hplanes, hrows, hwidth⟩ := State.sizes_congr (State.settings_congr h.layout)
  have hfill : ∀ {u v : State} {ring : Ring} {left : List Store}, u.ChangesOnly v r → u.regions = s.regions →
      u.filling ring left → v.filling ring left := fun huv hreg hf =>
    huv.filling hf (State.disjoint_pool (hreg ▸ hd) hf.1)
  have hstands : ∀ {u v : State} {slot : Slot}, u.ChangesOnly v r → u.regions = s.regions → u.ringStands slot →
      v.ringStands slot := fun huv hreg hf => huv.ringStands hf (State.disjoint_pool (hreg ▸ hd) hf.1)
  cases stage with
  | begin => trivial
  | list slot got ptr => exact hs
  | arena => trivial
  | rejected e => trivial
  | allocFailed setup => trivial
  | pool setup slot segments =>
    cases setup with
    | none => exact hs
    | some p =>
      obtain ⟨ha, hseg, h0⟩ := hs
      exact ⟨(h.commit p).arena_mem ha, hseg, fun h1 => hstands (h.commit p) rfl (h0 h1)⟩
  | fill setup slot ring left =>
    cases setup with
    | none =>
      obtain ⟨hf, hx⟩ := hs
      refine ⟨hfill h rfl hf, ?_⟩
      rw [State.slots_congr h.layout, State.ring_congr h.layout]
      exact hx
    | some p =>
      obtain ⟨ha, hf, h0⟩ := hs
      exact ⟨(h.commit p).arena_mem ha, hfill (h.commit p) rfl hf,
        fun h1 => ⟨hstands (h.commit p) rfl (h0 h1).1, (h0 h1).2⟩⟩
  | startLinks slot left =>
    obtain ⟨hw, hc⟩ := hs
    have hu : s.isSetUp = true := by
      simp only [State.stageFits, Bool.and_eq_true, beq_iff_eq] at hfit
      simp [State.isSetUp, hfit.1]
    exact ⟨fun w hm => (State.isLinkStore_congr h.layout w).mpr (hw w hm),
      h.closed (hb hu) ((hb hu).disjoint_pools hd) left hc⟩
  | flipLinks slot left => exact fun w hm => (State.isLinkStore_congr h.layout w).mpr (hs w hm)
  | words slot jobs =>
    intro j hj
    rw [hplanes, hrows, hwidth]
    exact hs j hj

/-- A step that touches no region and no command in flight, and moves the consumer inside the rings at most, keeps the
rings. -/
theorem State.ChangesOnly.ringInv {s t : State} {r : Region} (h : s.ChangesOnly t r) (hs : s.RingInv)
    (hfit : s.FlightFits) (hd : ∀ q ∈ s.regions, Region.disjoint r q = true) (hp : t.phase = s.phase)
    (hi : t.inFlight = s.inFlight) (hc : s.phase = .running → t.ConsumerInside) : t.RingInv := by
  have hh := hs.ringsHold
  refine (h.ringsHold hh (hh.disjoint_pools hd) hp hc).ringInv fun c hin => ?_
  rw [hi] at hin
  exact h.stageBuilds hd (hfit c hin) hh.built (hs.flight c hin)

/-! What changes a ring: link stores and BUILD -/

theorem State.Built.onRing_head {s : State} (h : s.Built) {slot : Slot} (hs : slot ∈ s.slots) :
    s.onRing (s.ring slot).head.toNat := by
  obtain ⟨⟨hcount, -⟩, -⟩ := h.stands slot hs
  exact ⟨slot, hs, 0, hcount, rfl⟩

theorem State.mem_slots_of_double {s : State} (hd : s.double = true) (x : Slot) : x ∈ s.slots :=
  State.mem_slots.mpr (by simp [State.slotExists, hd])

/-- Two slots that exist have disjoint pools. -/
theorem State.Built.pools_apart {s : State} (h : s.Built) {x y : Slot} (hx : x ∈ s.slots) (hy : y ∈ s.slots)
    (hne : x ≠ y) : Region.disjoint (s.ring x).pool (s.ring y).pool = true := by
  have hone : ∀ z : Slot, z ∈ s.slots → z = .one → s.double = true := by
    rintro _ hz rfl
    simpa [State.slotExists] using State.mem_slots.mp hz
  cases x <;> cases y
  · exact absurd rfl hne
  · exact h.apart (hone _ hy rfl)
  · rw [Region.disjoint_comm]; exact h.apart (hone _ hx rfl)
  · exact absurd rfl hne

/-- The link of a slot's tail is clear of the other slot's pool. -/
theorem State.Built.tailLink_outside {s : State} (h : s.Built) {x y : Slot} (hx : x ∈ s.slots) (hy : y ∈ s.slots)
    (hne : x ≠ y) : (s.tailLink y).base + 4 ≤ (s.ring x).pool.base ∨
      (s.ring x).pool.base + (s.ring x).pool.size ≤ (s.tailLink y).base := by
  have hd := h.pools_apart hx hy hne
  have hxin := State.tailLink_in_pool (h.stands x hx).1
  have hyin := State.tailLink_in_pool (h.stands y hy).1
  simp only [Region.disjoint, Bool.or_eq_true, beq_iff_eq, decide_eq_true_eq] at hd
  omega

/-- A link store keeps the rings standing (30_encoding.md rule R119). -/
theorem State.Built.linkStore {s : State} (h : s.Built) {w : Store} (hw : s.isLinkStore w) :
    ({ s with mem := s.mem.write w.addr 4 w.value.toNat } : State).Built := by
  obtain ⟨⟨y, hy, haddr⟩, -⟩ := hw
  refine ⟨h.arena, fun x hx => ?_, h.apart⟩
  obtain ⟨ha, hd, hl⟩ := h.stands x hx
  refine ⟨ha, hd, ?_⟩
  rw [haddr]
  by_cases hxy : x = y
  · subst hxy
    exact Memory.linked_write_tail hl ha.2.1 _
  · exact Memory.linked_write_outside hl (h.tailLink_outside hx hy hxy)

/-- A link store makes its tail name a head, and leaves the other tail alone. -/
theorem State.Closed.linkStore {s : State} (hc : s.Closed) (h : s.Built) {w : Store} (hw : s.isLinkStore w) :
    ({ s with mem := s.mem.write w.addr 4 w.value.toNat } : State).Closed := by
  obtain ⟨⟨y, hy, haddr⟩, hhead⟩ := hw
  intro x hx
  show s.isHead ((s.mem.write w.addr 4 w.value.toNat).nextOf (s.ring x).tail.toNat)
  rw [haddr]
  by_cases hxy : x = y
  · subst hxy
    have hread : (s.mem.write (s.tailLink x).base 4 w.value.toNat).nextOf (s.ring x).tail.toNat = w.value.toNat :=
      (Memory.read_write_same _ _ _ _).trans (Nat.mod_eq_of_lt w.value.isLt)
    rw [hread]
    exact hhead
  · have hxin := State.tailLink_in_pool (h.stands x hx).1
    have hout := h.tailLink_outside hx hy hxy
    have hread : (s.mem.write (s.tailLink y).base 4 w.value.toNat).nextOf (s.ring x).tail.toNat =
        s.mem.nextOf (s.ring x).tail.toNat :=
      Memory.read_write_of_disjoint (b := (s.tailLink x).base) _ (by omega)
    rw [hread]
    exact hc x hx

theorem State.Built.linkStores {s : State} (h : s.Built) {ws : List Store} (hw : ∀ w ∈ ws, s.isLinkStore w) :
    ({ s with mem := s.mem.afterStores ws } : State).Built ∧
      (s.Closed → ({ s with mem := s.mem.afterStores ws } : State).Closed) := by
  induction ws generalizing s with
  | nil => exact ⟨h, id⟩
  | cons w rest ih =>
    have hw1 := hw w List.mem_cons_self
    obtain ⟨hb, hc⟩ := ih (h.linkStore hw1) fun v hv => hw v (List.mem_cons_of_mem _ hv)
    exact ⟨hb, fun hclosed => hc (hclosed.linkStore h hw1)⟩

/-- The head of a slot that exists. -/
theorem State.isHead_ring {s : State} {slot : Slot} (h : slot ∈ s.slots) : s.isHead (s.ring slot).head.toNat :=
  ⟨slot, h, rfl⟩

theorem State.isLinkStore_linkStore {s : State} {slot x : Slot} (hs : slot ∈ s.slots) (hx : x ∈ s.slots) :
    s.isLinkStore (s.linkStore (s.ring slot).head x) := ⟨⟨x, hx, rfl⟩, State.isHead_ring hs⟩

theorem State.isLinkStore_startStores {s : State} {slot : Slot} (hs : slot ∈ s.slots) :
    ∀ w ∈ s.startStores slot, s.isLinkStore w := by
  intro w hw
  obtain ⟨x, hx, rfl⟩ := State.mem_startStores.mp hw
  exact State.isLinkStore_linkStore hs hx

theorem State.isLinkStore_flipStores {s : State} (slot : Slot) (hd : s.double = true) :
    ∀ w ∈ s.flipStores slot, s.isLinkStore w := by
  intro w hw
  have hall := State.mem_slots_of_double hd
  obtain ⟨x, -, rfl⟩ := List.mem_map.mp hw
  exact State.isLinkStore_linkStore (hall slot) (hall x)

/-- START's stores close the rings: every tail names the head of its slot (41_flip.md rule R172). -/
theorem State.Built.startStores_closed {s : State} (h : s.Built) (hr : s.RegionsInv) {slot : Slot}
    (hs : slot ∈ s.slots) :
    ∀ x ∈ s.slots, s.isHead ((s.mem.afterStores (s.startStores slot)).nextOf (s.ring x).tail.toNat) := by
  have halign : ∀ x ∈ s.slots, (s.ring x).tail.toNat % 4 = 0 := by
    intro x hx
    obtain ⟨-, htail, hpool⟩ := (h.stands x hx).1
    obtain ⟨-, hmod, -⟩ := hr.lawful _ hpool
    simp only [Ring.pool] at hmod
    omega
  intro x hx
  rw [State.startStores, (s.links_after (s.ring slot).head halign).1 x hx]
  exact State.isHead_ring hs

/-- Writing the registers of a ring that is filled sets up the block, where the other slot's ring stands apart. -/
theorem State.built_setRing {s : State} {slot : Slot} {r : Ring} (ha : s.arena ∈ s.regions) (hf : s.filling r [])
    (ho : ∀ x ∈ s.slots, x ≠ slot → s.ringStands x ∧ Region.disjoint r.pool (s.ring x).pool = true) :
    (s.setRing slot r).Built := by
  cases slot with
  | zero =>
    refine ⟨ha, fun x hx => ?_, fun hd => (ho .one (State.mem_slots_of_double hd _) (by decide)).2⟩
    cases x with
    | zero => exact State.ringStands_iff_filling.mpr hf
    | one => exact (ho .one hx (by decide)).1
  | one =>
    refine ⟨ha, fun x hx => ?_, fun hd => ?_⟩
    · cases x with
      | zero => exact (ho .zero hx (by decide)).1
      | one => exact State.ringStands_iff_filling.mpr hf
    · rw [Region.disjoint_comm]
      exact (ho .zero (State.mem_slots_of_double hd _) (by decide)).2

/-- A granted region is clear of every region there was (60_exceptions.md rule R302). -/
theorem State.disjoint_of_regionLegal {s : State} {size : Nat} {avoid : List Region} {base : Word}
    (h : s.regionLegal size avoid base = true) :
    ∀ q ∈ s.regions, Region.disjoint { base := base.toNat, size := size } q = true := by
  obtain ⟨-, -, -, hd⟩ := (s.regionLegal_iff _ _ _).mp h
  exact fun q hq => hd q (by simp [hq])

theorem State.fits_of_regionLegal {s : State} {size : Nat} {avoid : List Region} {base : Word}
    (h : s.regionLegal size avoid base = true) : base.toNat + size ≤ memSize :=
  ((s.regionLegal_iff _ _ _).mp h).2.2.1

/-- A grant changes the bytes of its region alone. -/
theorem State.grant_changesOnly (s : State) (r : Region) : s.ChangesOnly (s.takeAnswer.grant r) r := by
  rw [State.takeAnswer_eq]
  exact ⟨rfl, List.subset_cons_self _ _, fun b hb => Memory.byte_forget_of_outside _ hb⟩

/-- BUILD's ring in a granted pool, before its stores are made (40_chain_builder.md rule R143 to rule R147). -/
theorem State.filling_buildStores {s : State} {pool : Word} {unit : Nat} {segments : List Segment}
    (hn : 1 ≤ descriptorCount unit segments) (hfit : pool.toNat + poolBytes unit segments ≤ memSize)
    (hin : { base := pool.toNat, size := poolBytes unit segments } ∈ s.regions)
    (hd : Region.disjoint { base := pool.toNat, size := poolBytes unit segments } s.arena = true) :
    s.filling (builtRing pool (descriptorCount unit segments)) (buildStores pool unit segments) := by
  obtain ⟨hcount, htail, hpool⟩ := builtRing_toNat hn hfit
  refine ⟨⟨by rwa [hcount], by rw [htail, hcount]; rfl, hpool.symm ▸ hin⟩, hpool.symm ▸ hd,
    Memory.linked_build _ hn hfit, fun w hw => ?_⟩
  rw [hpool]
  exact buildStores_inside hn hw

/-- Stores of the ring being filled: what is left is left to be made. -/
theorem State.filling.afterStores {s : State} {r : Ring} {ws left : List Store} (h : s.filling r (ws ++ left)) :
    ({ s with mem := s.mem.afterStores ws } : State).filling r left ∧
      s.ChangesOnly { s with mem := s.mem.afterStores ws } r.pool := by
  obtain ⟨ha, hd, hl, hin⟩ := h
  rw [Memory.afterStores_append] at hl
  refine ⟨⟨ha, hd, hl, fun w hw => hin w (List.mem_append_right _ hw)⟩, rfl, fun _ => id, fun b hb => ?_⟩
  refine Memory.byte_afterStores _ fun w hw => ?_
  obtain ⟨hlo, hhi⟩ := hin w (List.mem_append_left _ hw)
  omega

end Sys2Proof.Machine
end

section
/-!
Every step of every agent keeps the rings standing, the tails naming heads and the consumer inside (30_encoding.md R119,
41_flip.md R180): the commands run whole, the block steps, the consumer's steps and the host's moves.
-/
namespace Sys2Proof.Machine

/-! A command run whole -/

theorem State.allocFail_ringInv (s : State) : s.allocFail.RingInv :=
  State.RingsHold.ringInv ⟨nofun, nofun⟩ nofun

/-- A command that completes with its result only. -/
theorem State.RingsHold.raise {s : State} (h : s.RingsHold) (e : Error) : (s.raise e).RingInv :=
  State.RingsHold.ringInv ⟨fun hu => { h.built hu with }, h.playing⟩ nofun

/-- How a part of a command leaves the rings: `P` where it goes on, the invariant where it has completed. -/
def Flow.RingsOr (P : State → Prop) : Flow → Prop
  | .on t => P t
  | .over t => t.RingInv
  | .stuck _ => True

theorem Flow.RingsOr.andThen {P Q : State → Prop} {x : Flow} (hx : x.RingsOr P) {k : State → Flow}
    (hk : ∀ t, P t → (k t).RingsOr Q) : (x.andThen k).RingsOr Q := by
  rcases x with t | t | f
  · exact hk t hx
  · exact hx
  · trivial

theorem Flow.RingsOr.of_outcome {x : Flow} (hx : x.RingsOr State.RingInv) {t : State} (h : x.outcome = .next t) :
    t.RingInv := by
  rcases Flow.outcome_eq_next.mp h with rfl | rfl <;> exact hx

theorem State.RingsHold.guard {s : State} (h : s.RingsHold) (e : Option Error) :
    (s.guard e).RingsOr fun t => t = s ∧ e = none := by
  cases e with
  | none => exact ⟨rfl, rfl⟩
  | some err => exact h.raise err

/-- Stores that go on have changed memory alone. -/
theorem State.storeAll_ringsOr (s : State) (ws : List Store) :
    (s.storeAll ws).RingsOr fun t => t = { s with mem := s.mem.afterStores ws } := by
  rcases hx : s.storeAll ws with t | t | f
  · exact (State.storeAll_cases hx).1
  · exact absurd hx (State.storeAll_ne_over _ _ _)
  · trivial

/-- BUILD: the state before its ring registers are written, and the ring it has filled in a pool clear of every region
there was (40_chain_builder.md rule R143 to rule R147). -/
theorem State.build_ringsOr {s : State} (ha : s.arena ∈ s.regions) (hunit : 1 ≤ s.unit) {segments : List Segment}
    (hseg : segmentsBuildable segments) (slot : Slot) (avoid : List Region) :
    (s.build slot segments avoid).RingsOr fun t =>
      ∃ g r, t = g.setRing slot r ∧ g.filling r [] ∧ s.ChangesOnly g r.pool ∧
        ∀ q ∈ s.regions, Region.disjoint r.pool q = true := by
  have hn := descriptorCount_pos hunit hseg
  unfold State.build
  rcases s.alloc_cases (poolBytes s.unit segments) avoid with h | h | ⟨pool, hlegal, h⟩ <;> rw [h]
  · trivial
  · exact State.allocFail_ringInv _
  have hfit := State.fits_of_regionLegal hlegal
  have hd := State.disjoint_of_regionLegal hlegal
  have hgrant := s.grant_changesOnly { base := pool.toNat, size := poolBytes s.unit segments }
  have hfill := State.filling_buildStores (s := s.takeAnswer.grant _) hn hfit (by simp)
    ((State.arena_congr hgrant.layout).symm ▸ hd _ ha)
  have hpool := (builtRing_toNat hn hfit).2.2
  generalize s.takeAnswer.grant _ = g at hgrant hfill ⊢
  refine (g.storeAll_ringsOr _).andThen ?_
  rintro _ rfl
  obtain ⟨hfilled, hchange⟩ := State.filling.afterStores (left := []) (by simpa using hfill)
  refine ⟨_, _, rfl, hfilled, ?_, ?_⟩
  · rw [hpool] at hchange ⊢
    exact hgrant.trans hchange
  · rw [hpool]
    exact hd

theorem Flow.RingsOr.imp {P Q : State → Prop} {x : Flow} (hx : x.RingsOr P) (h : ∀ t, P t → Q t) : x.RingsOr Q := by
  rcases x with t | t | f
  · exact h t hx
  · exact hx
  · trivial

theorem Flow.RingsOr.undisturbed {s : State} {P : State → Prop} {x : Flow} (hx : x.RingsOr P)
    (ha : x.AllocatesFrom s) : x.RingsOr fun t => P t ∧ s.Undisturbed t := by
  rcases x with t | t | f
  · exact ⟨hx, ha⟩
  · exact hx
  · trivial

theorem State.Built.ringsHold {s : State} (h : s.Built) (hp : s.phase ≠ .running) : s.RingsHold :=
  ⟨fun _ => h, fun hrun => absurd hrun hp⟩

/-- BUILD of the last ring: where the other slot's ring stands, every ring does. -/
theorem State.build_built {s : State} (ha : s.arena ∈ s.regions) (hunit : 1 ≤ s.unit) {segments : List Segment}
    (hseg : segmentsBuildable segments) {slot : Slot} (ho : ∀ x ∈ s.slots, x ≠ slot → s.ringStands x)
    (avoid : List Region) : (s.build slot segments avoid).RingsOr fun t => t.Built ∧ s.Undisturbed t := by
  refine Flow.RingsOr.undisturbed ?_ (s.build_allocates slot segments avoid)
  refine (State.build_ringsOr ha hunit hseg slot avoid).imp ?_
  rintro _ ⟨g, r, rfl, hfill, hchange, hd⟩
  refine State.built_setRing (hchange.arena_mem ha) hfill fun x hx hne => ?_
  rw [State.slots_congr hchange.layout] at hx
  have hdx := State.disjoint_pool hd (ho x hx hne).1
  exact ⟨hchange.ringStands (ho x hx hne) hdx, by rwa [State.ring_congr hchange.layout]⟩

/-- BUILD of slot 0's ring, the first of two. -/
theorem State.build_zero_stands {s : State} (ha : s.arena ∈ s.regions) (hunit : 1 ≤ s.unit) {segments : List Segment}
    (hseg : segmentsBuildable segments) (avoid : List Region) :
    (s.build .zero segments avoid).RingsOr fun t =>
      (t.arena ∈ t.regions ∧ t.ringStands .zero) ∧ s.Undisturbed t := by
  refine Flow.RingsOr.undisturbed ?_ (s.build_allocates .zero segments avoid)
  refine (State.build_ringsOr ha hunit hseg .zero avoid).imp ?_
  rintro _ ⟨g, r, rfl, hfill, hchange, -⟩
  exact ⟨hchange.arena_mem ha, State.ringStands_iff_filling.mpr hfill⟩

theorem State.unit_pos_of_configLegal {s : State} (h : s.configLegal = true) : 1 ≤ s.unit := by
  obtain ⟨-, -, -, -, -, -, hu, -⟩ := State.configLegal_bounds h
  omega

/-- SETUP's segments, one for each of at least one position, each a plane of at least one byte
(44_setup_control.md rule R253). -/
theorem State.setupSegments_buildable {s : State} (hl : s.configLegal = true) (ht : s.TablesFull) (slot : Slot) :
    segmentsBuildable (s.setupSegments slot) := by
  obtain ⟨hw, hh, -, -, hp, hp', -⟩ := State.configLegal_bounds hl
  constructor
  · have hpos : 2 ^ 1 ≤ 2 ^ s.planes := Nat.pow_le_pow_right (by decide) hp
    have hlen : (s.setupSegments slot).length = 2 ^ s.planes - 1 := by
      have := two_pow_sub_one_le hp'
      simp [State.setupSegments, State.orderPlanes, orderLength, ht.1, orderEntries, this]
    intro h
    rw [h, List.length_nil] at hlen
    omega
  · intro g hg
    obtain ⟨p, -, rfl⟩ := List.mem_map.mp hg
    exact Nat.mul_pos (by omega) (by omega)

/-- SETUP's rings: one or two, each in its own pool (44_setup_control.md rule R253). -/
theorem State.buildRings_built {s : State} (ha : s.arena ∈ s.regions) (hl : s.configLegal = true)
    (ht : s.TablesFull) : (s.buildRings s.slots).RingsOr State.Built := by
  have hunit := State.unit_pos_of_configLegal hl
  have hseg := State.setupSegments_buildable hl ht .zero
  cases hd : s.double with
  | false =>
    have hslots : s.slots = [.zero] := by simp [State.slots, hd]
    rw [hslots]
    have ho : ∀ x ∈ s.slots, x ≠ .zero → s.ringStands x := by simp [hslots]
    exact (State.build_built ha hunit hseg ho _).andThen fun t ⟨ht, _⟩ => ht
  | true =>
    rw [State.slots_of_double hd]
    refine (State.build_zero_stands ha hunit hseg _).andThen fun t ⟨⟨hta, h0⟩, hu⟩ => ?_
    have htl : t.configLegal = true := (State.configLegal_congr hu.settings).trans hl
    have ho : ∀ x ∈ t.slots, x ≠ .one → t.ringStands x := by
      intro x _ hne
      cases x with
      | zero => exact h0
      | one => exact absurd rfl hne
    exact (State.build_built hta (State.unit_pos_of_configLegal htl)
      (State.setupSegments_buildable htl (hu.tables ht) .one) ho _).andThen fun v ⟨hv, _⟩ => hv

/-- SETUP's arena is the region granted (44_setup_control.md rule R252). -/
theorem State.allocArena_ringsOr (s : State) : s.allocArena.RingsOr fun t => t.arena ∈ t.regions := by
  rcases s.allocArena_cases with h | h | ⟨arena, -, h⟩ <;> rw [h]
  · trivial
  · exact State.allocFail_ringInv _
  · rw [State.takeAnswer_eq]
    exact List.mem_cons_self

theorem State.Built.finishSetup {s : State} (h : s.Built) : s.finishSetup.RingInv :=
  State.RingsHold.ringInv ⟨fun _ => { h with }, nofun⟩ nofun

theorem State.Built.finishStart {s : State} (h : s.Built) (hc : s.Closed) {slot : Slot} (hs : slot ∈ s.slots)
    (div : Word) : (s.finishStart slot div).RingInv :=
  State.RingsHold.ringInv ⟨fun _ => { h with }, fun _ => ⟨hc, h.onRing_head hs, nofun⟩⟩ nofun

theorem State.RingsHold.finishActivate {s : State} (h : s.RingsHold) (slot : Slot) : (s.finishActivate slot).RingInv :=
  State.RingsHold.ringInv ⟨fun hu => { h.built hu with }, h.playing⟩ nofun

theorem State.RingsHold.link {s : State} (h : s.RingsHold) (hu : s.isSetUp = true) {ws : List Store}
    (hw : ∀ w ∈ ws, s.isLinkStore w) : ({ s with mem := s.mem.afterStores ws } : State).RingsHold := by
  obtain ⟨hb, hc⟩ := (h.built hu).linkStores hw
  exact ⟨fun _ => hb, fun hrun => ⟨hc (h.playing hrun).1, (h.playing hrun).2⟩⟩

/-- A slot's bitplane buffers are in the arena (20_memory.md rule R76), so clear of every standing ring. -/
theorem State.Built.slotBuffers_disjoint {s : State} (h : s.Built) {slot : Slot} (hs : slot ∈ s.slots) :
    ∀ x ∈ s.slots, Region.disjoint (s.slotBuffers slot) (s.ring x).pool = true := by
  have hin : s.arena.base ≤ (s.slotBuffers slot).base ∧
      (s.slotBuffers slot).base + (s.slotBuffers slot).size ≤ s.arena.base + s.arena.size := by
    have hslot := State.mem_slots.mp hs
    simp only [State.arena, State.slotBuffers, State.planeBase, State.arenaBytes, State.slots]
    unfold State.slotExists at hslot
    cases slot <;> cases hd : s.double <;> simp_all [Slot.toNat, Nat.mul_assoc] <;> omega
  intro x hx
  obtain ⟨-, hd, -⟩ := h.stands x hx
  simp only [Region.disjoint, Bool.or_eq_true, beq_iff_eq, decide_eq_true_eq] at hd ⊢
  omega

/-- Words of a slot that exists leave the rings alone (42_encoder.md rule R210). -/
theorem State.RingsHold.words {s : State} (h : s.RingsHold) {slot : Slot} (hs : s.slotExists slot = true) {m : Memory}
    (hm : ∀ a, (s.slotBuffers slot).holds a = false → m.byte a = s.mem.byte a) :
    ({ s with mem := m } : State).RingsHold := by
  have hchange : s.ChangesOnly { s with mem := m } (s.slotBuffers slot) :=
    ⟨rfl, fun _ => id, fun b hb => hm b (by rw [Bool.eq_false_iff, ne_eq, Region.holds_iff]; omega)⟩
  exact hchange.ringsHold_of_consumer_eq h (fun hu => (h.built hu).slotBuffers_disjoint (State.mem_slots.mpr hs)) rfl
    rfl

section
variable {s t : State} (h : s.RingsHold)
include h

theorem State.RingsHold.runSched : s.runSched.RingsHold := by
  have hchange : s.ChangesOnly s.runSched Region.empty := .of_mem rfl (fun _ => id) rfl
  exact hchange.ringsHold_of_consumer_eq h (fun _ _ _ => Region.empty_disjoint _) rfl rfl

theorem execSetup_rings (hm : s.ModeInv) (he : execSetup s = .next t) : t.RingInv := by
  refine Flow.RingsOr.of_outcome ((h.guard _).andThen ?_) he
  rintro _ ⟨rfl, hc⟩
  obtain ⟨-, hl⟩ := checkSetup_eq_none.mp hc
  have hu := State.undisturbed_beginSetup (State.planes_le_of_configLegal hl)
  refine ((State.allocArena_ringsOr _).undisturbed (State.allocArena_allocates _)).andThen fun u ⟨ha, hu'⟩ => ?_
  have hu := hu.trans hu'
  exact (State.buildRings_built ha ((State.configLegal_congr hu.settings).trans hl) (hu.tables hm.tables)).andThen
    fun v hv => hv.finishSetup

theorem execSchedule_rings (he : execSchedule s = .next t) : t.RingInv := by
  refine Flow.RingsOr.of_outcome ((h.guard _).andThen ?_) he
  rintro _ ⟨rfl, -⟩
  exact h.runSched.raise _

theorem State.withList_ringsOr {k : List Segment → Flow}
    (hk : ∀ segments, segmentsBuildable segments → (k segments).RingsOr State.RingInv) :
    (s.withList k).RingsOr State.RingInv := by
  unfold State.withList
  split
  · trivial
  · exact h.raise _
  · rename_i segments hread
    split
    · exact h.raise _
    · rename_i hcheck
      exact hk segments ⟨(checkList_eq_none.mp hcheck).1, readList_read hread (by simp)⟩

theorem execBuildRing_rings (hm : s.ModeInv) {slot : Slot} (he : execBuildRing slot s = .next t) : t.RingInv := by
  refine Flow.RingsOr.of_outcome ((h.guard _).andThen ?_) he
  rintro _ ⟨rfl, hc⟩
  rename_i u
  obtain ⟨hp, -, -⟩ := checkBuildRing_eq_none.mp hc
  have hset : u.isSetUp = true := by simp [State.isSetUp, hp]
  have hb := h.built hset
  refine State.withList_ringsOr h fun segments hseg => ?_
  refine (State.build_built hb.arena (State.unit_pos_of_configLegal (hm.legal hset)) hseg
    (fun x hx _ => hb.stands x hx) _).andThen fun v ⟨hv, hu⟩ => ?_
  exact (hv.ringsHold (by rw [hu.phase, hp]; decide)).raise _

theorem execStart_rings (hr : s.RegionsInv) {slot : Slot} (he : execStart slot s = .next t) : t.RingInv := by
  refine Flow.RingsOr.of_outcome ((h.guard _).andThen ?_) he
  rintro _ ⟨rfl, hc⟩
  obtain ⟨hp, hs⟩ := checkStart_eq_none.mp hc
  rw [← State.mem_slots] at hs
  have hb := h.built (by simp [State.isSetUp, hp])
  refine (State.storeAll_ringsOr _ _).andThen ?_
  rintro _ rfl
  exact (hb.linkStores (State.isLinkStore_startStores hs)).1.finishStart (hb.startStores_closed hr hs) hs _

theorem execActivate_rings {slot : Slot} (he : execActivate slot s = .next t) : t.RingInv := by
  refine Flow.RingsOr.of_outcome ((h.guard _).andThen ?_) he
  rintro _ ⟨rfl, hc⟩
  rename_i u
  by_cases hd : u.double = false
  · rw [if_pos hd]
    exact h.raise _
  rw [if_neg hd]
  refine (h.guard _).andThen ?_
  rintro _ ⟨rfl, hc'⟩
  refine (State.storeAll_ringsOr _ _).andThen ?_
  rintro _ rfl
  exact (h.link (checkActivate_eq_none.mp ⟨hc, hc'⟩)
    (State.isLinkStore_flipStores slot (by simpa using hd))).finishActivate slot

theorem execEncode_rings {slot : Slot} (he : execEncode slot s = .next t) : t.RingInv := by
  refine Flow.RingsOr.of_outcome ((h.guard _).andThen ?_) he
  rintro _ ⟨rfl, hc⟩
  obtain ⟨-, hs, -⟩ := checkEncode_eq_none.mp hc
  split
  · trivial
  · rename_i m hm
    exact (h.words hs fun a => State.byte_encodeWords hm fun _ => id).raise _

/-- A word performed whole keeps the rings (44_setup_control.md rule R262; log 2). -/
theorem State.runWord_rings (hm : s.ModeInv) (hr : s.RegionsInv) {w : Word} (he : s.runWord w = .next t) :
    t.RingInv := by
  unfold State.runWord at he
  split at he
  · cases he; exact h.raise _
  · rename_i i _
    cases i with
    | nop => cases he; exact h.raise _
    | setup => exact execSetup_rings h hm he
    | schedule => exact execSchedule_rings h he
    | buildRing slot => exact execBuildRing_rings h hm he
    | start slot => exact execStart_rings h hr he
    | activate slot => exact execActivate_rings h he
    | encode slot => exact execEncode_rings h he

end

/-! One block step -/

/-- A command that goes on: the rings hold, and it has built what its new stage relies on. -/
theorem State.RingsHold.toStage {s : State} (h : s.RingsHold) {stage : Stage} (hs : s.stageBuilds stage) :
    (s.toStage stage).RingInv := by
  refine State.RingsHold.ringInv ⟨fun hu => { h.built hu with }, h.playing⟩ fun c hc => ?_
  rw [State.toStage_inFlight, Option.map_eq_some_iff] at hc
  obtain ⟨_, -, rfl⟩ := hc
  exact hs

theorem State.RingsHold.rejectOr {s next : State} (h : s.RingsHold) {e : Option Error} (hn : e = none → next.RingInv) :
    (s.rejectOr e next).RingInv := by
  cases e with
  | none => exact hn rfl
  | some err => exact h.raise err

theorem State.RingsHold.takeAnswer {s : State} (h : s.RingsHold) : s.takeAnswer.RingsHold := by
  rw [State.takeAnswer_eq]
  exact ⟨fun hu => { h.built hu with }, h.playing⟩

/-- A granted region is clear of every ring (60_exceptions.md rule R302). -/
theorem State.RingsHold.grant {s : State} (h : s.RingsHold) {r : Region}
    (hd : ∀ q ∈ s.regions, Region.disjoint r q = true) : (s.takeAnswer.grant r).RingsHold :=
  (s.grant_changesOnly r).ringsHold_of_consumer_eq h (h.disjoint_pools hd) (by simp) (by simp)

theorem State.beginCommand_rings {s : State} (h : s.RingsHold) (hr : s.RegionsInv) (c : InFlight) (i : Instr) :
    (s.beginCommand c i).RingInv := by
  cases i with
  | nop => exact h.raise _
  | setup => exact h.rejectOr fun _ => h.toStage trivial
  | schedule => exact h.rejectOr fun _ => h.runSched.raise _
  | buildRing slot => exact h.rejectOr fun _ => h.toStage (List.forall_mem_nil _)
  | start slot =>
    refine h.rejectOr fun hc => ?_
    obtain ⟨hp, hs⟩ := checkStart_eq_none.mp hc
    rw [← State.mem_slots] at hs
    have hb := h.built (by simp [State.isSetUp, hp])
    exact h.toStage ⟨State.isLinkStore_startStores hs, hb.startStores_closed hr hs⟩
  | activate slot =>
    refine h.rejectOr fun _ => ?_
    split
    · exact h.raise _
    · rename_i hd
      exact h.rejectOr fun _ => h.toStage (State.isLinkStore_flipStores slot (by simpa using hd))
  | encode slot =>
    refine h.rejectOr fun _ => h.toStage fun j hj => ?_
    obtain ⟨w, hw, rfl⟩ := List.mem_map.mp hj
    exact State.mem_places.mp hw

theorem State.beginWord_rings {s : State} (h : s.RingsHold) (hr : s.RegionsInv) (c : InFlight) :
    (s.beginWord c).RingInv := by
  unfold State.beginWord
  split
  · exact h.raise _
  · exact State.beginCommand_rings h hr c _

/-- An entry of class `segment` has a byte (30_encoding.md rule R121). -/
theorem len_pos_of_classify {ptr len : Nat} (h : classify ptr len = .segment) : 1 ≤ len := by
  unfold classify at h
  split at h
  · cases h
  · split at h
    · cases h
    · omega

/-- BUILD_RING never takes in an empty segment (40_chain_builder.md rule R148). -/
theorem State.stageBuilds_listStage (s : State) (unit : Nat) (slot : Slot) {got : List Segment}
    (hg : ∀ g ∈ got, 1 ≤ g.len) (ptr len : Nat) : s.stageBuilds (listStage unit slot got ptr len) := by
  unfold listStage
  split
  · split
    · rename_i hc
      exact ⟨(checkList_eq_none.mp hc).1, hg⟩
    · trivial
  · trivial
  · rename_i hseg
    split
    · intro g hgm
      rcases List.mem_append.mp hgm with hgm | hgm
      · exact hg g hgm
      · rw [List.mem_singleton.mp hgm]
        exact len_pos_of_classify hseg
    · trivial

section
variable {s : State} (h : s.RingInv)
include h

theorem State.listStep_rings (c : InFlight) (slot : Slot) {got : List Segment} (hg : ∀ g ∈ got, 1 ≤ g.len)
    (ptr : Option Word) : (s.listStep c slot got ptr).RingInv := by
  rcases s.listStep_cases c slot got ptr with he | ⟨p, he⟩ | ⟨p, len, he⟩ <;> rw [he]
  · exact h
  · exact h.ringsHold.toStage hg
  · exact h.ringsHold.toStage (s.stageBuilds_listStage _ slot hg p len)

theorem State.arenaStep_rings (hl : s.configLegal = true) (ht : s.TablesFull) : s.arenaStep.RingInv := by
  unfold State.arenaStep
  rcases s.alloc_cases s.arenaBytes [s.namedList] with ha | ha | ⟨base, hlegal, ha⟩ <;> rw [ha]
  · exact h
  · exact h.ringsHold.takeAnswer.toStage trivial
  · have hg := s.undisturbed_grant { base := base.toNat, size := s.arenaBytes }
    have hu := hg.trans (State.undisturbed_commit (setup := some { s.setupStart with bpBase := base }) fun _ =>
      State.planes_le_of_configLegal ((State.configLegal_congr hg.settings).trans hl))
    have hseg := State.setupSegments_buildable ((State.configLegal_congr hu.settings).trans hl) (hu.tables ht) .zero
    refine (h.ringsHold.grant (State.disjoint_of_regionLegal hlegal)).toStage ⟨?_, hseg, nofun⟩
    rw [State.arena, (State.sizes_congr hu.settings).1, State.commit_bpBase, State.grant_regions]
    exact List.mem_cons_self

/-- BUILD's pool call: SETUP's and BUILD_RING's alike, on the registers as SETUP will commit them. -/
theorem State.poolStep_rings (c : InFlight) {setup : Option SetupResults} {slot : Slot} {segments : List Segment}
    (hunit : 1 ≤ s.unit) (hb : setup = none → s.Built) (hs : s.stageBuilds (.pool setup slot segments)) :
    (s.poolStep c setup slot segments).RingInv := by
  unfold State.poolStep
  rcases s.alloc_cases (poolBytes s.unit segments) (s.poolAvoid c setup segments) with ha | ha | ⟨pool, hlegal, ha⟩ <;>
    rw [ha]
  · exact h
  · exact h.ringsHold.takeAnswer.toStage trivial
  have hfit := State.fits_of_regionLegal hlegal
  have hd := State.disjoint_of_regionLegal hlegal
  have hgrant := s.grant_changesOnly { base := pool.toNat, size := poolBytes s.unit segments }
  have hin : { base := pool.toNat, size := poolBytes s.unit segments } ∈
    (s.takeAnswer.grant { base := pool.toNat, size := poolBytes s.unit segments }).regions := by simp
  have hrings := h.ringsHold.grant hd
  generalize s.takeAnswer.grant _ = g at hgrant hin hrings ⊢
  have hseg : segmentsBuildable segments := by
    cases setup with
    | none => exact hs
    | some p => exact hs.2.1
  have hn := descriptorCount_pos hunit hseg
  have hpool := (builtRing_toNat hn hfit).2.2
  refine hrings.toStage ?_
  cases setup with
  | none =>
    have harena := hd _ (hb rfl).arena
    rw [← State.arena_congr hgrant.layout] at harena
    refine ⟨State.filling_buildStores hn hfit hin harena, ?_⟩
    rw [hpool, State.slots_congr hgrant.layout, State.ring_congr hgrant.layout]
    exact (hb rfl).disjoint_pools hd
  | some p =>
    obtain ⟨ha, -, h0⟩ := hs
    have hchange := hgrant.commit p
    have harena := hd _ ha
    rw [← State.arena_congr hchange.layout] at harena
    refine ⟨hchange.arena_mem ha, State.filling_buildStores hn hfit hin harena, fun h1 => ?_⟩
    have hd0 := State.disjoint_pool hd (h0 h1).1
    exact ⟨hchange.ringStands (h0 h1) hd0, by rwa [hpool]⟩

theorem State.afterRing_rings {setup : Option SetupResults} {slot : Slot} {ring : Ring} (hm : s.ModeInv)
    (hfit : s.stageFits (.fill setup slot ring []) = true) (hs : s.stageBuilds (.fill setup slot ring [])) :
    (s.afterRing setup slot ring).RingInv := by
  unfold State.afterRing
  cases setup with
  | none =>
    obtain ⟨hf, hd⟩ := hs
    simp only [State.stageFits, Bool.and_eq_true, beq_iff_eq] at hfit
    have hb := h.ringsHold.built (by simp [State.isSetUp, hfit.1])
    have hb' := State.built_setRing (slot := slot) hb.arena hf fun x hx _ => ⟨hb.stands x hx, hd x hx⟩
    exact (hb'.ringsHold (by simp [hfit.1])).raise _
  | some r =>
    obtain ⟨ha, hf, h0⟩ := hs
    simp only [State.stageFits, Bool.and_eq_true, beq_iff_eq] at hfit
    obtain ⟨⟨-, hl⟩, -⟩ := hfit
    have hu := State.undisturbed_commit (s := s) (setup := some { r with ring0 := ring }) fun _ =>
      State.planes_le_of_configLegal hl
    have hl' := (State.configLegal_congr hu.settings).trans hl
    simp only
    split
    · have hseg := State.setupSegments_buildable hl' (hu.tables hm.tables) .one
      exact h.ringsHold.toStage ⟨ha, hseg, fun _ => State.ringStands_iff_filling.mpr hf⟩
    · rename_i hlast
      refine (State.built_setRing ha hf fun x hx hne => ?_).finishSetup
      cases slot with
      | zero =>
        cases x with
        | zero => exact absurd rfl hne
        | one => exact absurd ⟨by simpa [State.slotExists] using State.mem_slots.mp hx, rfl⟩ hlast
      | one =>
        cases x with
        | zero => exact h0 rfl
        | one => exact absurd rfl hne

/-- A store of the ring being filled falls into its own pool. -/
theorem State.fillStore_rings {setup : Option SetupResults} {slot : Slot} {ring : Ring} {w : Store} {rest : List Store}
    (hfit : s.stageFits (.fill setup slot ring (w :: rest)) = true)
    (hs : s.stageBuilds (.fill setup slot ring (w :: rest))) :
    (State.toStage { s with mem := s.mem.write w.addr 4 w.value.toNat } (.fill setup slot ring rest)).RingInv := by
  cases setup with
  | none =>
    obtain ⟨hf, hd⟩ := hs
    obtain ⟨hf', hchange⟩ := State.filling.afterStores (ws := [w]) hf
    exact (hchange.ringsHold_of_consumer_eq h.ringsHold (fun _ => hd) rfl rfl).toStage ⟨hf', hd⟩
  | some p =>
    obtain ⟨ha, hf, h0⟩ := hs
    obtain ⟨hf', hchange⟩ := State.filling.afterStores (ws := [w]) hf
    simp only [State.stageFits, Bool.and_eq_true, beq_iff_eq] at hfit
    have hu : ¬ s.isSetUp = true := by simp [State.isSetUp, hfit.1.1]
    have hstore : s.ChangesOnly { s with mem := s.mem.write w.addr 4 w.value.toNat } ring.pool :=
      ⟨rfl, fun _ => id, hchange.bytes⟩
    refine (hstore.ringsHold_of_consumer_eq h.ringsHold (fun hs => absurd hs hu) rfl rfl).toStage
      ⟨ha, hf', fun h1 => ?_⟩
    obtain ⟨hzero, hd⟩ := h0 h1
    exact ⟨hchange.ringStands hzero hd, hd⟩

theorem State.wordStep_rings (c : InFlight) (choice : Nat) {slot : Slot} {jobs : List WordJob}
    (hslot : s.slotExists slot = true) (hs : s.stageBuilds (.words slot jobs)) :
    (s.wordStep c choice slot jobs).RingInv := by
  have hh := h.ringsHold
  rcases s.wordStep_cases c choice slot jobs with he | he | ⟨i, j, _, _, hj, he⟩ | ⟨i, j, v, hj, -, he⟩ <;> rw [he]
  · exact hh.raise _
  · exact h
  · refine hh.toStage fun k hk => ?_
    rcases List.mem_or_eq_of_mem_set hk with hk | rfl
    · exact hs k hk
    · exact hs j (List.mem_of_getElem? hj)
  · have hplace : ⟨j.plane, j.row, j.col⟩ ∈ s.places := State.mem_places.mpr (hs j (List.mem_of_getElem? hj))
    obtain ⟨hlo, hhi⟩ := State.wordAddr_inside slot hplace
    refine (hh.words hslot fun a ha => Memory.byte_write_of_outside _ ?_).toStage fun k hk =>
      hs k (List.mem_of_mem_eraseIdx hk)
    rw [Bool.eq_false_iff, ne_eq, Region.holds_iff] at ha
    simp only at hlo hhi
    omega

/-- A block step keeps the rings, wherever its command stands (44_setup_control.md rule R262). -/
theorem State.blockStep_rings (hm : s.ModeInv) (hr : s.RegionsInv) (choice : Nat) : (s.blockStep choice).RingInv := by
  have hh := h.ringsHold
  unfold State.blockStep
  split
  · exact h
  rename_i c hc
  have hf := hm.flight c hc
  have hs := h.flight c hc
  cases hstage : c.stage with rw [hstage] at hf hs
  | begin => exact State.beginWord_rings hh hr c
  | list slot got ptr => exact State.listStep_rings h c slot hs ptr
  | arena =>
    simp only [State.stageFits, Bool.and_eq_true] at hf
    exact State.arenaStep_rings h hf.2 hm.tables
  | pool setup slot segments =>
    cases setup with
    | none =>
      simp only [State.stageFits, Bool.and_eq_true, beq_iff_eq] at hf
      have hu : s.isSetUp = true := by simp [State.isSetUp, hf.1]
      exact State.poolStep_rings h c (State.unit_pos_of_configLegal (hm.legal hu)) (fun _ => hh.built hu) hs
    | some p =>
      simp only [State.stageFits, Bool.and_eq_true] at hf
      exact State.poolStep_rings h c (State.unit_pos_of_configLegal hf.1.2) nofun hs
  | fill setup slot ring left =>
    rcases s.storeStep_cases left (.fill setup slot ring) (s.afterRing setup slot ring) with
      ⟨rfl, he⟩ | ⟨w, rest, rfl, -, he⟩ | he <;> simp only [he]
    · exact State.afterRing_rings h hm hf hs
    · exact State.fillStore_rings h hf hs
    · exact h
  | rejected e => exact hh.raise e
  | allocFailed setup => exact State.allocFail_ringInv _
  | startLinks slot left =>
    obtain ⟨hw, hclosed⟩ := hs
    simp only [State.stageFits, Bool.and_eq_true, beq_iff_eq] at hf
    have hu : s.isSetUp = true := by simp [State.isSetUp, hf.1]
    rcases s.storeStep_cases left (.startLinks slot) (s.finishStart slot c.clkdiv) with
      ⟨rfl, he⟩ | ⟨w, rest, rfl, -, he⟩ | he <;> simp only [he]
    · exact (hh.built hu).finishStart hclosed (State.mem_slots.mpr hf.2) _
    · obtain ⟨hw1, hrest⟩ := List.forall_mem_cons.mp hw
      exact (hh.link (ws := [w]) hu (by simpa using hw1)).toStage ⟨hrest, hclosed⟩
    · exact h
  | flipLinks slot left =>
    simp only [State.stageFits, Bool.and_eq_true] at hf
    rcases s.storeStep_cases left (.flipLinks slot) (s.finishActivate slot) with
      ⟨rfl, he⟩ | ⟨w, rest, rfl, -, he⟩ | he <;> simp only [he]
    · exact hh.finishActivate slot
    · obtain ⟨hw1, hrest⟩ := List.forall_mem_cons.mp hs
      exact (hh.link (ws := [w]) hf.1 (by simpa using hw1)).toStage hrest
    · exact h
  | words slot jobs =>
    simp only [State.stageFits, Bool.and_eq_true] at hf
    exact State.wordStep_rings h c choice hf.2 hs

end

/-! One step of any agent -/

/-- From a descriptor of a standing ring the consumer's link leads to one: the next of its ring, or the head that its
tail names (41_flip.md rule R180). -/
theorem State.Built.onRing_nextOf {s : State} (h : s.Built) (hc : s.Closed) {a : Nat} (ha : s.onRing a) :
    s.onRing (s.mem.nextOf a) := by
  obtain ⟨slot, hslot, i, hi, rfl⟩ := ha
  obtain ⟨⟨-, htail, -⟩, -, hlinked⟩ := h.stands slot hslot
  by_cases hlast : i + 1 < (s.ring slot).count.toNat
  · exact ⟨slot, hslot, i + 1, hlast, hlinked i hlast⟩
  · obtain ⟨x, hx, hhead⟩ := hc slot hslot
    rw [htail, show (s.ring slot).count.toNat - 1 = i by omega] at hhead
    exact hhead ▸ h.onRing_head hx

/-- The consumer stays inside the rings (41_flip.md rule R180). -/
theorem State.Built.consumerStep_inside {s : State} (h : s.Built) (hc : s.Closed) (hi : s.ConsumerInside)
    (linkNow : Bool) : (s.consumerStep linkNow).ConsumerInside := by
  obtain ⟨hcur, hlink⟩ := hi
  rcases s.consumerStep_cases linkNow with he | ⟨_, -, he⟩ | ⟨-, -, he⟩ | ⟨_, -, he⟩ | ⟨next, -, hn, -, he⟩ <;> rw [he]
  · exact ⟨hcur, hlink⟩
  · exact ⟨hcur, hlink⟩
  · refine ⟨hcur, fun next hn => ?_⟩
    cases hn
    have hread : s.mem.read (nextField s.consumer.cur.toNat) 4 < 2 ^ 32 := Memory.read_lt _ _ 4
    rw [BitVec.toNat_ofNat, Nat.mod_eq_of_lt hread]
    exact h.onRing_nextOf hc hcur
  · exact ⟨hcur, hlink⟩
  · exact ⟨hlink next hn, nofun⟩

/-- The consumer's steps change nothing that the rings rest on. -/
theorem State.consumerStep_keeps (s : State) (linkNow : Bool) :
    (s.consumerStep linkNow).layout = s.layout ∧ (s.consumerStep linkNow).regions = s.regions ∧
      (s.consumerStep linkNow).phase = s.phase ∧ (s.consumerStep linkNow).inFlight = s.inFlight := by
  rcases s.consumerStep_cases linkNow with he | ⟨_, -, he⟩ | ⟨-, -, he⟩ | ⟨_, -, he⟩ | ⟨_, -, -, -, he⟩ <;> rw [he] <;>
    exact ⟨rfl, rfl, rfl, rfl⟩

/-- A register write reaches none of the arena, the rings, the allocator's record and the consumer. -/
theorem State.writeReg_keeps (s : State) (off : Nat) (v : Word) :
    (s.writeReg off v).layout = { s.layout with settings := (s.writeReg off v).settings } ∧
      (s.writeReg off v).regions = s.regions ∧ (s.writeReg off v).consumer = s.consumer := by
  unfold State.writeReg
  split
  case h_1 | h_2 | h_3 | h_4 | h_5 | h_6 => unfold State.ifUnconfigured; split <;> exact ⟨rfl, rfl, rfl⟩
  case h_7 => unfold State.ifNotRunning; split <;> exact ⟨rfl, rfl, rfl⟩
  case h_8 | h_9 | h_10 => exact ⟨rfl, rfl, rfl⟩

section
variable {s t : State} (h : s.RingInv)
include h

theorem State.consumerStep_rings (hf : s.FlightFits) (linkNow : Bool) : (s.consumerStep linkNow).RingInv := by
  obtain ⟨hlayout, hregions, hphase, hflight⟩ := s.consumerStep_keeps linkNow
  have hchange : s.ChangesOnly (s.consumerStep linkNow) Region.empty :=
    .of_mem hlayout (hregions ▸ fun _ => id) (s.consumerStep_mem linkNow)
  refine hchange.ringInv h hf (fun q _ => Region.empty_disjoint q) hphase hflight fun hrun => ?_
  obtain ⟨hc, hi⟩ := h.ringsHold.playing hrun
  exact (h.ringsHold.built (by simp [State.isSetUp, hrun])).consumerStep_inside hc hi linkNow

theorem State.accept_rings (w : Word) : (s.accept w).RingInv :=
  State.RingsHold.ringInv ⟨fun hu => { h.ringsHold.built hu with }, h.ringsHold.playing⟩ fun c hc => by
    cases hc; trivial

/-- With no command in flight, a register write reaches the layout in UNCONFIGURED alone (10_state.md rule R52). -/
theorem State.writeReg_rings (hi : s.inFlight = none) (off : Nat) (v : Word) : (s.writeReg off v).RingInv := by
  obtain ⟨hlayout, hregions, hcons⟩ := s.writeReg_keeps off v
  have hview := s.view_writeReg off v
  have hphase : (s.writeReg off v).phase = s.phase := congrArg (Modes.phase ∘ BlockView.modes) hview
  have hflight : (s.writeReg off v).inFlight = none := (congrArg BlockView.inFlight hview).trans hi
  have hidle : ∀ c, (s.writeReg off v).inFlight = some c → (s.writeReg off v).stageBuilds c.stage :=
    fun c hc => by rw [hflight] at hc; cases hc
  refine State.RingsHold.ringInv ?_ hidle
  by_cases hp : s.phase = .unconfigured
  · rw [hp] at hphase
    exact ⟨fun hu => by simp [State.isSetUp, hphase] at hu, fun hrun => by simp [hphase] at hrun⟩
  · rw [State.settings_writeReg hp] at hlayout
    have hchange : s.ChangesOnly (s.writeReg off v) Region.empty :=
      .of_mem hlayout (hregions ▸ fun _ => id) (s.writeReg_mem off v)
    exact hchange.ringsHold_of_consumer_eq h.ringsHold (fun _ _ _ => Region.empty_disjoint _) hphase hcons

/-- A host write to memory is clear of every region (60_exceptions.md rule R305). -/
theorem State.hostMemWrite_rings (hf : s.FlightFits) {size : Nat} {addr v : Word}
    (hw : s.hostMemWrite size addr v = .next t) : t.RingInv := by
  obtain ⟨-, -, hd, rfl⟩ := State.hostMemWrite_cases hw
  have hchange : s.ChangesOnly { s.popHostOp with mem := s.mem.write addr.toNat size v.toNat }
      { base := addr.toNat, size := size } :=
    ⟨rfl, fun _ => id, fun b hb => Memory.byte_write_of_outside _ hb⟩
  exact hchange.ringInv h hf (fun q hq => hd q (List.mem_cons_of_mem _ hq)) rfl rfl fun hrun => h.inside hrun

end

/-- A reset leaves nothing built and nothing in flight (70_reset_and_hazards.md rule R320). -/
theorem State.resetBlock_rings (s : State) : s.resetBlock.RingInv :=
  State.RingsHold.ringInv ⟨nofun, nofun⟩ nofun

theorem State.Inv.takeTurn {s : State} (h : s.Inv) : s.takeTurn.Inv := by
  obtain ⟨hmem, hmode, hregions, hrings⟩ := h
  rw [State.takeTurn_eq]
  exact ⟨hmem, { hmode with }, { hregions with }, { hrings with }⟩

theorem State.Inv.popHostOp {s : State} (h : s.Inv) : s.popHostOp.Inv := by
  obtain ⟨hmem, hmode, hregions, hrings⟩ := h
  exact ⟨hmem, { hmode with }, { hregions with }, { hrings with }⟩

theorem State.hostWrite_rings {s t : State} (h : s.Inv) {whole : Bool} {off : Nat} {v : Word}
    (hw : s.hostWrite whole off v = .next t) : t.RingInv := by
  have hp := h.popHostOp
  rcases State.hostWrite_cases hw with ⟨-, rfl⟩ | ⟨-, -, rfl⟩ | ⟨-, -, -, rfl⟩ | ⟨-, -, -, -, -, he⟩ |
    ⟨-, -, -, -, -, rfl⟩ | ⟨-, -, hb, rfl⟩
  · rw [State.writeStatus_eq]
    exact { hp.rings with }
  · exact { hp.rings with }
  · exact h.rings
  · exact State.runWord_rings hp.rings.ringsHold hp.mode hp.regions he
  · exact State.accept_rings hp.rings v
  · exact State.writeReg_rings hp.rings (by simpa [State.busy] using hb) off v

theorem State.hostStep_rings {s t : State} (h : s.Inv) {whole : Bool} (hs : s.hostStep whole = .next t) :
    t.RingInv := by
  have hp := h.popHostOp
  rcases State.hostStep_cases hs with rfl | rfl | ⟨_, rfl⟩ | ⟨_, rfl⟩ | ⟨_, _, -, -, hw⟩ | ⟨_, _, _, hw⟩ | ⟨-, rfl⟩
  · exact h.rings
  · exact hp.rings
  · exact { h.rings with }
  · exact { hp.rings with }
  · exact State.hostWrite_rings h hw
  · exact State.hostMemWrite_rings h.rings h.mode.flightFits hw
  · exact State.resetBlock_rings _

/-- Every step of every agent keeps the rings (30_encoding.md rule R119, 41_flip.md rule R180). -/
theorem State.step_rings {s t : State} (h : s.Inv) (hs : step s = .next t) : t.RingInv := by
  have hturn := h.takeTurn
  rcases step_cases hs with ⟨choice, -, rfl⟩ | ⟨linkNow, -, rfl⟩ | ⟨-, rfl⟩ | ⟨whole, -, hw⟩
  · exact State.blockStep_rings hturn.rings hturn.mode hturn.regions choice
  · exact State.consumerStep_rings hturn.rings hturn.mode.flightFits linkNow
  · exact State.resetBlock_rings _
  · exact State.hostStep_rings hturn hw

/-- Settles O59, by the agent whose turn it is: each write it makes is clear of the rings, or a store of the ring being
filled, or the link of a tail. -/
theorem stepKeepsTheRingsClosed : Obligations.StepKeepsTheRingsClosed := fun _ _ => State.step_rings

end Sys2Proof.Machine
end

section
/-!
The chain builder (40_chain_builder.md): how chunks split segments, the cycle that `next` makes of a ring, BUILD_RING as
its checks, its list and BUILD answer it, and the refused allocations of BUILD_RING and SETUP.
-/
namespace Sys2Proof.Machine

/-! Sizing and splitting -/

/-- The quotient rounded up is the least that covers the dividend (00_scope.md rule R18). -/
theorem ceilDiv_le_iff {a unit c : Nat} (hu : 1 ≤ unit) : ceilDiv a unit ≤ c ↔ a ≤ unit * c := ceilDiv_le_iff_le_mul hu

/-- A multiple of the divisor adds its own quotient, with nothing rounded. -/
theorem ceilDiv_add_of_mod_eq_zero {a unit : Nat} (hu : 1 ≤ unit) (ha : a % unit = 0) (b : Nat) :
    ceilDiv (a + b) unit = a / unit + ceilDiv b unit := by
  obtain ⟨q, rfl⟩ := Nat.dvd_of_mod_eq_zero ha
  unfold ceilDiv
  rw [show unit * q + b + unit - 1 = unit * q + (b + unit - 1) by omega, Nat.mul_add_div hu,
    Nat.mul_div_cancel_left _ hu]

@[simp] theorem ceilDiv_zero_left (unit : Nat) : ceilDiv 0 unit = 0 := zero_ceilDiv unit

theorem ceilDiv_of_mod_eq_zero {a unit : Nat} (hu : 1 ≤ unit) (ha : a % unit = 0) : ceilDiv a unit = a / unit := by
  simpa using ceilDiv_add_of_mod_eq_zero hu ha 0

theorem Segment.getElem_split {unit t : Nat} {g : Segment} (h : t < (g.split unit).length) :
    (g.split unit)[t] = g.chunk unit t := by
  simp [Segment.split]

/-- Every chunk of a multiple of M is whole, the last one too (40_chain_builder.md rule R142). -/
theorem Segment.chunk_len_of_mod_eq_zero {unit : Nat} {g : Segment} (hu : 1 ≤ unit) (hl : 1 ≤ g.len)
    (hd : g.len % unit = 0) (t : Nat) : (g.chunk unit t).len = unit := by
  have hcount : g.chunkCount unit * unit = g.len := by
    rw [Segment.chunkCount, ceilDiv_of_mod_eq_zero hu hd, Nat.div_mul_cancel (Nat.dvd_of_mod_eq_zero hd)]
  have hle : unit ≤ g.len := Nat.le_of_dvd hl (Nat.dvd_of_mod_eq_zero hd)
  simp only [Segment.chunk, Nat.sub_mul, Nat.one_mul, hcount]
  split
  · rfl
  · omega

/-- The chunks of a segment have its bytes: whole ones, and a last one with what they leave (rule R142). -/
theorem Segment.sum_split_len {unit : Nat} {g : Segment} (hu : 1 ≤ unit) (hl : 1 ≤ g.len) :
    ((g.split unit).map Chunk.len).sum = g.len := by
  obtain ⟨hpos, hlast, -⟩ := ceilDiv_bounds hu hl
  obtain ⟨k, hk⟩ : ∃ k, g.chunkCount unit = k + 1 := Nat.exists_eq_add_of_le' hpos
  have hwhole : (List.range k).map (Chunk.len ∘ g.chunk unit) = (List.range k).map fun _ => unit :=
    List.map_congr_left fun t ht => by simp [Segment.chunk, hk, List.mem_range.mp ht]
  have hrest : (g.chunk unit k).len = g.len - k * unit := by simp [Segment.chunk, hk]
  have hfit : k * unit < g.len := by
    rw [← Segment.chunkCount, hk] at hlast
    exact hlast
  simp only [Segment.split, hk, List.range_succ, List.map_append, List.map_map, hwhole, List.sum_append,
    List.map_const', List.sum_replicate, List.length_range, smul_eq_mul, List.map_cons, List.map_nil,
    List.sum_singleton, hrest]
  omega

/-- Settles O18, chunk by chunk from the definition of `Segment.chunk`; the sum is `Segment.sum_split_len`. -/
theorem chunksSplitTheSegment : Obligations.ChunksSplitTheSegment := by
  intro unit g hu hl k chunks
  refine ⟨g.split_length unit, fun t ht => ?_, Segment.sum_split_len hu hl⟩
  obtain ⟨hpos, hle, -⟩ := Segment.chunk_bounds hu hl (List.getElem_mem ht)
  refine ⟨?_, ?_, hpos, hle, fun hd => ?_⟩ <;> rw [Segment.getElem_split ht]
  · rfl
  · have hlast : t < k - 1 ↔ t + 1 < g.chunkCount unit := by
      simp only [k, Segment.chunkCount, ceilDiv]
      omega
    simp only [hlast]
    rfl
  · exact Segment.chunk_len_of_mod_eq_zero hu hl hd t

@[simp] theorem descriptorCount_nil (unit : Nat) : descriptorCount unit [] = 0 := rfl

@[simp] theorem descriptorCount_cons (unit : Nat) (g : Segment) (rest : List Segment) :
    descriptorCount unit (g :: rest) = ceilDiv g.len unit + descriptorCount unit rest := rfl

/-- The descriptors of a ring cover the bytes of its list (40_chain_builder.md rule R141). -/
theorem sum_len_le_descriptorCount {unit : Nat} (hu : 1 ≤ unit) (segments : List Segment) :
    (segments.map Segment.len).sum ≤ unit * descriptorCount unit segments := by
  induction segments with
  | nil => simp
  | cons g rest ih =>
    have hg : g.len ≤ unit * ceilDiv g.len unit := (ceilDiv_le_iff hu).mp (Nat.le_refl _)
    rw [List.map_cons, List.sum_cons, descriptorCount_cons, Nat.mul_add]
    omega

/-- Where only the last segment may end in a part of a chunk, nothing is lost to rounding (rule R141). -/
theorem descriptorCount_of_multiples {unit : Nat} (hu : 1 ≤ unit) {segments : List Segment}
    (h : ∀ g ∈ segments.dropLast, g.len % unit = 0) :
    descriptorCount unit segments = ceilDiv (segments.map Segment.len).sum unit := by
  induction segments with
  | nil => simp
  | cons g rest ih =>
    cases rest with
    | nil => simp
    | cons g' rest =>
      rw [List.dropLast_cons_cons, List.forall_mem_cons] at h
      obtain ⟨hg, hrest⟩ := h
      rw [descriptorCount_cons, List.map_cons, List.sum_cons, ceilDiv_add_of_mod_eq_zero hu hg, ih hrest,
        ceilDiv_of_mod_eq_zero hu hg]

/-- Settles O19: the inequality and the equality by induction on the list. -/
theorem descriptorCountIsTheSegmentSum : Obligations.DescriptorCountIsTheSegmentSum := by
  intro unit segments hu _ _
  exact ⟨chunksOf_length unit segments, (chunksOf_length unit segments).symm,
    (ceilDiv_le_iff hu).mpr (sum_len_le_descriptorCount hu segments), descriptorCount_of_multiples hu⟩

/-! The cycle of a ring -/

section
variable {m : Memory} {head : Nat} {chunks : List Chunk} (h : m.isRing head chunks)
include h

theorem Memory.isRing.nextOf_eq {i : Nat} (hi : i < chunks.length) :
    m.nextOf (head + 12 * i) = head + 12 * ((i + 1) % chunks.length) := by
  have hdesc := h i hi
  simp only [Memory.isDescriptor, Bool.and_eq_true, beq_iff_eq] at hdesc
  exact hdesc.2

/-- Following `next` counts positions modulo the number of descriptors. -/
theorem Memory.isRing.follow_eq {i : Nat} (hi : i < chunks.length) (k : Nat) :
    m.follow (head + 12 * i) k = head + 12 * ((i + k) % chunks.length) := by
  induction k with
  | zero => rw [Nat.add_zero, Nat.mod_eq_of_lt hi, Memory.follow]
  | succ k ih => rw [Memory.follow, ih, h.nextOf_eq (Nat.mod_lt _ (by omega)), Nat.mod_add_mod, Nat.add_assoc]

end

/-- Of the first n positions counted from i modulo n, exactly one is j. -/
theorem existsUnique_add_mod_eq {n i j : Nat} (hi : i < n) (hj : j < n) :
    ∃ k, k < n ∧ (i + k) % n = j ∧ ∀ k', k' < n → (i + k') % n = j → k' = k := by
  have hk : (j + (n - i)) % n < n := Nat.mod_lt _ (by omega)
  have hreach : (i + (j + (n - i)) % n) % n = j := by
    rw [Nat.add_mod_mod, show i + (j + (n - i)) = j + n by omega, Nat.add_mod_right, Nat.mod_eq_of_lt hj]
  refine ⟨_, hk, hreach, fun k' hk' h' => ?_⟩
  have hcong : k' ≡ (j + (n - i)) % n [MOD n] := Nat.ModEq.add_left_cancel' i (h'.trans hreach.symm)
  exact hcong.eq_of_lt_of_lt hk' hk

/-- Settles O20: positions counted modulo the number of descriptors take each value once. -/
theorem aRingIsASingleCycle : Obligations.ARingIsASingleCycle := by
  intro m head chunks h i hi
  refine ⟨fun j hj => ?_, ?_⟩
  · obtain ⟨k, hk, hreach, huniq⟩ := existsUnique_add_mod_eq hi hj
    refine ⟨k, hk, by rw [h.follow_eq hi, hreach], fun k' hk' h' => huniq k' hk' ?_⟩
    rw [h.follow_eq hi] at h'
    omega
  · rw [h.follow_eq hi, Nat.add_mod_right, Nat.mod_eq_of_lt hi]

/-! BUILD_RING by the answers of its checks, its list and BUILD -/

section
variable {s : State} {slot : Slot}

/-- A failed register check is all BUILD_RING does (40_chain_builder.md rule R148). -/
theorem exec_buildRing_of_check {e : Error} (h : checkBuildRing slot s = some e) :
    exec (.buildRing slot) s = .next (s.raise e) := by
  simp only [exec, execBuildRing, h, State.guard_some, Flow.over_andThen, Flow.over_outcome]

/-- With its register checks passed BUILD_RING reads its list. -/
theorem exec_buildRing_of_check_none (h : checkBuildRing slot s = none) :
    exec (.buildRing slot) s =
      (s.withList fun segments =>
        (s.build slot segments [listRegion s.seglist segments]).andThen fun t => .on t.succeed).outcome := by
  simp only [exec, execBuildRing, h, State.guard_none, Flow.on_andThen]

section
variable (h : checkBuildRing slot s = none)
include h

theorem exec_buildRing_of_badList {e : Error} (hr : readList s.mem s.seglist.toNat maxSegments [] = .bad e) :
    exec (.buildRing slot) s = .next (s.raise e) := by
  rw [exec_buildRing_of_check_none h, State.withList, hr, Flow.over_outcome]

theorem exec_buildRing_of_checkList {segments : List Segment} {e : Error}
    (hr : readList s.mem s.seglist.toNat maxSegments [] = .read segments) (hc : checkList s.unit segments = some e) :
    exec (.buildRing slot) s = .next (s.raise e) := by
  simp only [exec_buildRing_of_check_none h, State.withList, hr, hc, Flow.over_outcome]

/-- A list that is read and passes its checks goes to BUILD. -/
theorem exec_buildRing_of_list {segments : List Segment}
    (hr : readList s.mem s.seglist.toNat maxSegments [] = .read segments) (hc : checkList s.unit segments = none) :
    exec (.buildRing slot) s =
      ((s.build slot segments [listRegion s.seglist segments]).andThen fun t => .on t.succeed).outcome := by
  simp only [exec_buildRing_of_check_none h, State.withList, hr, hc]

end

end

/-- Settles O22, check by check. -/
theorem buildRingChecksItsRegistersInOrder : Obligations.BuildRingChecksItsRegistersInOrder := by
  intro s slot
  refine ⟨fun hp => ?_, fun hp => ?_, fun hp hd hslot => ?_, fun hp hslot hlist => ?_⟩ <;>
    refine exec_buildRing_of_check ?_
  · simp [checkBuildRing, hp]
  · simp [checkBuildRing, hp]
  · simp [checkBuildRing, hp, hd, hslot]
  · have hexists : ¬ (s.double = false ∧ slot = .one) := by
      rintro ⟨hd, rfl⟩
      simp [State.slotExists, hd] at hslot
    simp only [checkBuildRing, hp, reduceCtorEq, if_false, if_neg hexists, if_pos hlist]

theorem Memory.listEntries_ne_nil {m : Memory} {list j : Nat} (hj : 1 ≤ j) : m.listEntries list j ≠ [] :=
  List.ne_nil_of_length_pos (by rwa [Memory.listEntries_length])

/-- Settles O23: what reading a list gives by the class of the entry that ends it, then the checks of a list read. -/
theorem buildRingRejectsBadLists : Obligations.BuildRingRejectsBadLists := by
  intro s slot hp hslot hnull halign class_
  have hcheck : checkBuildRing slot s = none := checkBuildRing_eq_none.mpr ⟨hp, hslot, hnull, halign⟩
  refine ⟨fun j hj hmem hseg hbad => ?_, fun hmem hseg => ?_, fun hmem hend => ?_,
    fun j hpos hj hmem hseg hend hbig => ?_⟩
  · exact exec_buildRing_of_badList hcheck (readList_invalid hj hmem hseg hbad)
  · exact exec_buildRing_of_badList hcheck (readList_endless hmem hseg)
  · exact exec_buildRing_of_checkList hcheck (readList_sentinel (j := 0) (by omega) hmem (by simp) hend) rfl
  · refine exec_buildRing_of_checkList hcheck (readList_sentinel hj hmem hseg hend) ?_
    rw [checkList, if_neg (Memory.listEntries_ne_nil hpos), poolBytes, if_pos hbig]

/-- The segments of a list that is read are entries of class `segment` (30_encoding.md rule R121). -/
theorem Memory.listEntries_bounds {m : Memory} {list j : Nat} (h : ∀ i, i < j → m.entryClass list i = .segment) :
    ∀ g ∈ m.listEntries list j, 1 ≤ g.len ∧ g.ptr + g.len ≤ memSize := by
  intro g hg
  obtain ⟨i, hi, rfl⟩ := List.mem_map.mp hg
  exact (Memory.entryClass_segment (h i (List.mem_range.mp hi))).2

/-- A list of j segments, 1 ≤ j, is a list to build a ring of. -/
theorem Memory.listEntries_buildable {m : Memory} {list j : Nat} (hj : 1 ≤ j)
    (h : ∀ i, i < j → m.entryClass list i = .segment) : segmentsBuildable (m.listEntries list j) :=
  ⟨Memory.listEntries_ne_nil hj, fun g hg => (Memory.listEntries_bounds h g hg).1⟩

/-- A legal list, read to its sentinel at entry j, goes to BUILD (40_chain_builder.md rule R148). -/
theorem exec_buildRing_of_legal {s : State} {slot : Slot} {j : Nat} (hp : s.phase = .ready)
    (hslot : s.slotExists slot = true) (hnull : s.seglist ≠ 0#32) (halign : s.seglist.toNat % 4 = 0) (hpos : 1 ≤ j)
    (hj : j ≤ 255) (hmem : s.seglist.toNat + 8 * j + 8 ≤ memSize)
    (hseg : ∀ i, i < j → s.mem.entryClass s.seglist.toNat i = .segment)
    (hend : s.mem.entryClass s.seglist.toNat j = .sentinel)
    (hsmall : 12 * descriptorCount s.unit (s.mem.listEntries s.seglist.toNat j) < memSize) :
    exec (.buildRing slot) s =
      ((s.build slot (s.mem.listEntries s.seglist.toNat j) [{ base := s.seglist.toNat, size := 8 * (j + 1) }]).andThen
        fun t => .on t.succeed).outcome := by
  have hcheck : checkBuildRing slot s = none := checkBuildRing_eq_none.mpr ⟨hp, hslot, hnull, halign⟩
  have hlist : checkList s.unit (s.mem.listEntries s.seglist.toNat j) = none :=
    checkList_eq_none.mpr ⟨(Memory.listEntries_buildable hpos hseg).1, hsmall⟩
  rw [exec_buildRing_of_list hcheck (readList_sentinel hj hmem hseg hend) hlist, listRegion, Memory.listEntries_length]

theorem Region.holds_eq_false_iff {r : Region} {a : Nat} : r.holds a = false ↔ a < r.base ∨ r.base + r.size ≤ a := by
  rw [Bool.eq_false_iff, ne_eq, Region.holds_iff]
  omega

/-- A byte of one of two disjoint ranges is no byte of the other. -/
theorem Region.not_holds_of_disjoint {p q : Region} (h : Region.disjoint p q = true) {a : Nat} (hp : p.holds a = true) :
    q.holds a = false := by
  rw [Bool.eq_false_iff, ne_eq, Region.holds_iff]
  exact Region.not_both_of_disjoint h ((p.holds_iff a).mp hp)

theorem Memory.byte_forget_of_not_holds (m : Memory) {r : Region} {a : Nat} (h : r.holds a = false) :
    (m.forget r).byte a = m.byte a :=
  Memory.byte_forget_of_outside m (Region.holds_eq_false_iff.mp h)

/-- A grant and BUILD's stores change the bytes of the pool alone (rule R143). -/
theorem Memory.byte_grant_build (m : Memory) {pool : Word} {unit : Nat} {segments : List Segment} {a : Nat}
    (hn : 1 ≤ descriptorCount unit segments)
    (ha : Region.holds { base := pool.toNat, size := 12 * descriptorCount unit segments } a = false) :
    ((m.forget { base := pool.toNat, size := 12 * descriptorCount unit segments }).afterStores
      (buildStores pool unit segments)).byte a = m.byte a := by
  rw [Memory.byte_build _ hn (Region.holds_eq_false_iff.mp ha), Memory.byte_forget_of_not_holds _ ha]

/-- Settles O21: a legal list goes to BUILD, whose granted pool its stores make a closed ring. -/
theorem buildRingBuildsTheRing : Obligations.BuildRingBuildsTheRing := by
  intro s slot j pool rest hp hslot hnull halign hunit hpos hj hmem hseg hend segments n hsmall ha hlegal ring
  have hbuildable : segmentsBuildable segments := Memory.listEntries_buildable hpos hseg
  have hn : 1 ≤ n := descriptorCount_pos hunit hbuildable
  have hfit : ∀ c ∈ chunksOf s.unit segments, c.len < 4096 ∧ c.addr < memSize := fun c hc =>
    chunksOf_fit hunit s.maxUnit.isLt (Memory.listEntries_bounds hseg) hc
  rw [exec_buildRing_of_legal hp hslot hnull halign hpos hj hmem hseg hend hsmall, State.build_granted hn ha hlegal]
  refine ⟨_, rfl, ?_, fun a hout => ?_, ?_⟩
  · rw [State.succeed_mem, State.setRing_mem]
    exact Memory.isRing_build _ (State.fits_of_regionLegal hlegal) hfit
  · rw [State.succeed_mem, State.setRing_mem]
    exact Memory.byte_grant_build _ hn hout
  · cases slot <;> rfl

/-- Settles O24: a legal list goes to BUILD, whose pool is refused. -/
theorem buildRingAllocationFailureIsFatal : Obligations.BuildRingAllocationFailureIsFatal := by
  intro s slot j rest hp hslot hnull halign hpos hj hmem hseg hend hsmall ha
  rw [exec_buildRing_of_legal hp hslot hnull halign hpos hj hmem hseg hend hsmall, State.build_refused slot _ _ ha]
  exact ⟨_, rfl, rfl⟩

/-! SETUP by the answers of the allocator -/

/-- The parts of SETUP before its end write its result registers, memory, and the allocator's record and answers:
nothing else is different (44_setup_control.md rule R250, rule R262). -/
def State.SetupWrites (s u : State) : Prop :=
  u =
    { s with
      bpBase := u.bpBase, planeSize := u.planeSize, ring0 := u.ring0, ring1 := u.ring1, order := u.order
      orderLen := u.orderLen, cnt := u.cnt, mem := u.mem, regions := u.regions, allocAnswers := u.allocAnswers
      draws := u.draws }

theorem State.SetupWrites.trans {s u v : State} (h : s.SetupWrites u) (h' : u.SetupWrites v) : s.SetupWrites v :=
  Eq.trans h' (by rw [h])

theorem State.setupWrites_beginSetup (s : State) : s.SetupWrites s.beginSetup := rfl

theorem State.setupWrites_withAnswers (s : State) (rest : List AllocAnswer) :
    s.SetupWrites { s with allocAnswers := rest } := rfl

/-- ALLOC_FAIL within SETUP: what the block keeps, and what it leaves open (rule R256, 60_exceptions.md rule R283). -/
theorem State.SetupWrites.allocFail {s u : State} (h : s.SetupWrites u) :
    u.allocFail =
      { s with
        phase := .failed
        bpBase := u.allocFail.bpBase, planeSize := u.allocFail.planeSize, ring0 := u.allocFail.ring0
        ring1 := u.allocFail.ring1, order := u.allocFail.order, orderLen := u.allocFail.orderLen
        cnt := u.allocFail.cnt, mem := u.allocFail.mem, regions := u.regions, allocAnswers := u.allocAnswers
        draws := u.allocFail.draws, err := .allocFail, check := 0#8, entry := 0#16, inFlight := none } := by
  rw [h]
  rfl

/-- The state after a granted arena (rule R252). -/
def State.withArena (s : State) (arena : Word) (rest : List AllocAnswer) : State :=
  { s with
    allocAnswers := rest
    regions := { base := arena.toNat, size := s.arenaBytes } :: s.regions
    mem := s.mem.forget { base := arena.toNat, size := s.arenaBytes }
    bpBase := arena }

theorem State.setupWrites_withArena (s : State) (arena : Word) (rest : List AllocAnswer) :
    s.SetupWrites (s.withArena arena rest) := rfl

/-- The arena is clear of the list SEGLIST names, which so stays as it was (rule R302; log 7). -/
theorem State.withArena_namedList {s : State} {arena : Word}
    (hr : s.regionLegal s.arenaBytes [s.namedList] arena = true) (rest : List AllocAnswer) :
    (s.withArena arena rest).namedList = s.namedList := by
  have hapart : Region.disjoint { base := arena.toNat, size := s.arenaBytes } s.namedList = true :=
    ((s.regionLegal_iff _ _ _).mp hr).2.2.2 _ (by simp)
  rw [Region.disjoint_comm] at hapart
  exact State.namedList_congr rfl fun b h1 h2 =>
    Memory.byte_forget_of_not_holds _ (Region.not_holds_of_disjoint hapart ((Region.holds_iff _ b).mpr ⟨h1, h2⟩))

/-- The number of descriptors of a ring of SETUP: the chunks of one plane for each position of the ordering
(00_scope.md rule R15). -/
def State.setupCount (s : State) : Nat := (2 ^ s.planes - 1) * ceilDiv s.planeBytes s.unit

theorem State.setupCount_pos {s : State} (hl : s.configLegal = true) : 1 ≤ s.setupCount := by
  obtain ⟨hw, hh, -, -, hplanes, -, hu, -⟩ := State.configLegal_bounds hl
  have htwo : 2 ^ 1 ≤ 2 ^ s.planes := Nat.pow_le_pow_right (by decide) hplanes
  have hbytes : 1 ≤ s.planeBytes := Nat.mul_pos (by omega) (by omega)
  exact Nat.mul_pos (by omega) (ceilDiv_bounds (by omega) hbytes).1

/-- After SCHED each of SETUP's rings has as many descriptors (44_setup_control.md rule R253). -/
theorem State.descriptorCount_setupSegments {s : State} (hp : s.planes ≤ 8) (ho : s.order = orderTable s.planes)
    (slot : Slot) : descriptorCount s.unit (s.setupSegments slot) = s.setupCount := by
  rw [State.setupSegments_of_sched slot hp ho, descriptorCount_map_const (len := s.planeBytes) _ fun _ => rfl,
    ordering_length, State.setupCount]

@[simp] theorem State.beginSetup_planes (s : State) : s.beginSetup.planes = s.planes := rfl
@[simp] theorem State.beginSetup_setupCount (s : State) : s.beginSetup.setupCount = s.setupCount := rfl
@[simp] theorem State.withArena_planes (s : State) (arena : Word) (rest : List AllocAnswer) :
    (s.withArena arena rest).planes = s.planes := rfl
@[simp] theorem State.withArena_order (s : State) (arena : Word) (rest : List AllocAnswer) :
    (s.withArena arena rest).order = s.order := rfl
@[simp] theorem State.withArena_setupCount (s : State) (arena : Word) (rest : List AllocAnswer) :
    (s.withArena arena rest).setupCount = s.setupCount := rfl

/-- The rings SETUP builds once its arena is granted. -/
theorem State.descriptorCount_withArena {s : State} (hl : s.configLegal = true) (arena : Word) (rest : List AllocAnswer)
    (slot : Slot) :
    descriptorCount (s.beginSetup.withArena arena rest).unit
      ((s.beginSetup.withArena arena rest).setupSegments slot) = s.setupCount := by
  rw [State.descriptorCount_setupSegments ?_ ?_ slot] <;> simp [State.planes_le_of_configLegal hl]

/-- The size of the arena with NSLOTS written out (rule R252). -/
theorem State.arenaBytes_eq (s : State) :
    s.arenaBytes = (if s.double then 2 else 1) * s.planes * (s.panelWidth * s.panelHeight) := by
  unfold State.arenaBytes State.slots State.planeBytes
  split <;> rfl

theorem State.slots_eq_cons (s : State) : ∃ rest, s.slots = .zero :: rest := by
  unfold State.slots
  split <;> exact ⟨_, rfl⟩

/-- The state after BUILD of a slot's ring in a granted pool (40_chain_builder.md rule R143 to rule R147). -/
def State.withRing (s : State) (slot : Slot) (segments : List Segment) (pool : Word) (rest : List AllocAnswer) :
    State :=
  State.setRing
    { s with
      allocAnswers := rest
      regions := { base := pool.toNat, size := 12 * descriptorCount s.unit segments } :: s.regions
      mem :=
        (s.mem.forget { base := pool.toNat, size := 12 * descriptorCount s.unit segments }).afterStores
          (buildStores pool s.unit segments) }
    slot (builtRing pool (descriptorCount s.unit segments))

theorem State.setupWrites_withRing (s : State) (slot : Slot) (segments : List Segment) (pool : Word)
    (rest : List AllocAnswer) : s.SetupWrites (s.withRing slot segments pool rest) := by
  cases slot <;> rfl

/-- With its pool granted a slot's ring is built, and SETUP comes to the next slot (44_setup_control.md rule R253). -/
theorem State.buildRings_granted {s : State} {slot : Slot} (slots : List Slot) {pool : Word} {rest : List AllocAnswer}
    (hn : 1 ≤ descriptorCount s.unit (s.setupSegments slot)) (ha : s.allocAnswers = .region pool :: rest)
    (hp : s.regionLegal (12 * descriptorCount s.unit (s.setupSegments slot)) [s.namedList] pool = true) :
    s.buildRings (slot :: slots) = (s.withRing slot (s.setupSegments slot) pool rest).buildRings slots := by
  rw [State.buildRings, State.build_granted hn ha hp]
  rfl

/-- A refused pool ends SETUP with nothing of its ring written (40_chain_builder.md rule R150). -/
theorem State.buildRings_refused {s : State} (slot : Slot) (slots : List Slot) {rest : List AllocAnswer}
    (ha : s.allocAnswers = .fail :: rest) :
    s.buildRings (slot :: slots) = .over ({ s with allocAnswers := rest } : State).allocFail := by
  rw [State.buildRings, State.build_refused slot _ _ ha, Flow.over_andThen]

/-- With its checks passed SETUP runs SCHED(B) and allocates (44_setup_control.md rule R250). -/
theorem exec_setup_of_legal {s : State} (hp : s.phase = .unconfigured) (hl : s.configLegal = true) :
    exec .setup s =
      (s.beginSetup.allocArena.andThen fun t => (t.buildRings t.slots).andThen fun u => .on u.finishSetup).outcome := by
  simp only [exec, execSetup, checkSetup_eq_none.mpr ⟨hp, hl⟩, State.guard_none, Flow.on_andThen]

/-- SETUP's arena call refused by the next scripted answer (rule R256, 60_exceptions.md rule R283). -/
theorem State.allocArena_refused {s : State} {rest : List AllocAnswer} (ha : s.allocAnswers = .fail :: rest) :
    s.allocArena = .over ({ s with allocAnswers := rest } : State).allocFail := by
  rw [State.allocArena, State.alloc_fail _ _ ha]

section
variable {s : State} (hp : s.phase = .unconfigured) (hl : s.configLegal = true) {arena : Word}
  {rest : List AllocAnswer} (ha : s.allocAnswers = .region arena :: rest)
  (hr : s.regionLegal s.arenaBytes [s.namedList] arena = true)
include hp hl ha hr

/-- With its arena granted SETUP builds its rings. -/
theorem exec_setup_of_arena :
    exec .setup s =
      (((s.beginSetup.withArena arena rest).buildRings s.slots).andThen fun u => .on u.finishSetup).outcome := by
  have harena : s.beginSetup.allocArena = .on (s.beginSetup.withArena arena rest) := State.allocArena_granted ha hr
  rw [exec_setup_of_legal hp hl, harena]
  rfl

/-- With slot 0's pool refused SETUP ends where the arena is granted (rule R256). -/
theorem exec_setup_of_pool0_refused {answers : List AllocAnswer} (hrest : rest = .fail :: answers) :
    exec .setup s =
      .next ({ s.beginSetup.withArena arena rest with allocAnswers := answers } : State).allocFail := by
  obtain ⟨slots, hslots⟩ := s.slots_eq_cons
  rw [exec_setup_of_arena hp hl ha hr, hslots, State.buildRings_refused .zero slots hrest, Flow.over_andThen,
    Flow.over_outcome]

/-- In double mode, with slot 0's pool granted and slot 1's refused, SETUP ends where ring 0 stands (rule R256). -/
theorem exec_setup_of_pool1_refused (hd : s.double = true) {pool : Word} {answers : List AllocAnswer}
    (hrest : rest = .region pool :: .fail :: answers)
    (hpool : (s.beginSetup.withArena arena rest).regionLegal (12 * s.setupCount) [s.namedList] pool = true) :
    ∃ segments, descriptorCount s.unit segments = s.setupCount ∧
      exec .setup s =
        .next ({ (s.beginSetup.withArena arena rest).withRing .zero segments pool (.fail :: answers) with
          allocAnswers := answers } : State).allocFail := by
  have hcount := State.descriptorCount_withArena hl arena rest .zero
  have hlist : (s.beginSetup.withArena arena rest).namedList = s.namedList :=
    State.withArena_namedList (s := s.beginSetup) hr rest
  rw [← hcount, ← hlist] at hpool
  refine ⟨_, hcount, ?_⟩
  rw [exec_setup_of_arena hp hl ha hr, State.slots_of_double hd,
    State.buildRings_granted _ (hcount.symm ▸ State.setupCount_pos hl) hrest hpool,
    State.buildRings_refused .one [] rfl, Flow.over_andThen, Flow.over_outcome]

end

/-- BUILD in a pool clear of a byte that nothing has written since it was granted leaves it unwritten
(44_setup_control.md rule R255). -/
theorem Memory.written_grant_build (m : Memory) {pool : Word} {unit : Nat} {segments : List Segment} {a : Nat}
    (hn : 1 ≤ descriptorCount unit segments) (hm : m.written a = none)
    (ha : Region.holds { base := pool.toNat, size := 12 * descriptorCount unit segments } a = false) :
    ((m.forget { base := pool.toNat, size := 12 * descriptorCount unit segments }).afterStores
      (buildStores pool unit segments)).written a = none := by
  have hout : a < pool.toNat ∨ pool.toNat + 12 * descriptorCount unit segments ≤ a := Region.holds_eq_false_iff.mp ha
  rw [Memory.written_afterStores _ fun w hw => by have := buildStores_inside hn hw; omega, Memory.written_forget, hm,
    ite_self]

/-- Settles O40, by the call that is refused: the arena's, slot 0's pool, slot 1's pool. -/
theorem setupAllocationFailureIsFatal : Obligations.SetupAllocationFailureIsFatal := by
  intro s arena pool0 rest hp hl
  rw [← State.arenaBytes_eq s]
  intro size n granted granted0 failed
  have hbegin := s.setupWrites_beginSetup
  refine ⟨fun ha => ?_, fun ha hr => ?_, fun hd ha hr hr0 => ?_⟩
  · rw [exec_setup_of_legal hp hl, State.allocArena_refused (s := s.beginSetup) ha]
    exact ⟨_, rfl, State.allocFail_mem _, (hbegin.trans (State.setupWrites_withAnswers _ _)).allocFail⟩
  · have harena := hbegin.trans (State.setupWrites_withArena _ arena (.fail :: rest))
    rw [exec_setup_of_pool0_refused hp hl ha hr rfl]
    exact ⟨_, rfl, (harena.trans (State.setupWrites_withAnswers _ _)).allocFail, State.allocFail_mem _⟩
  · obtain ⟨segments, hcount, hexec⟩ := exec_setup_of_pool1_refused hp hl ha hr hd rfl hr0
    have hn : 1 ≤ descriptorCount s.unit segments := hcount.symm ▸ State.setupCount_pos hl
    have hapart :
        Region.disjoint { base := arena.toNat, size := size } { base := pool0.toNat, size := 12 * n } = true := by
      rw [Region.disjoint_comm]
      exact State.disjoint_of_regionLegal hr0 _ List.mem_cons_self
    have hsame : n = descriptorCount s.unit segments := hcount.symm
    clear_value n
    subst hsame
    have hring := (hbegin.trans (State.setupWrites_withArena _ arena (.region pool0 :: .fail :: rest))).trans
      (State.setupWrites_withRing _ .zero segments pool0 (.fail :: rest))
    refine ⟨_, hexec, (hring.trans (State.setupWrites_withAnswers _ _)).allocFail, fun a hin => ?_,
      fun a hin hout => ?_⟩
    · exact Memory.written_grant_build _ hn ((Memory.written_forget _ _ _).trans (if_pos hin))
        (Region.not_holds_of_disjoint hapart hin)
    · exact (Memory.byte_grant_build _ hn hout).trans (Memory.byte_forget_of_not_holds _ hin)

end Sys2Proof.Machine
end

section
/-!
START, ACTIVATE and the hand-off (41_flip.md): the two link commands as their checks answer them, the consumer's last two
steps at a descriptor, and why it stays in a ring whose tail names its head.
-/
namespace Sys2Proof.Machine

/-! START and ACTIVATE by the answers of their checks -/

section
variable {s : State} {slot : Slot}

/-- A failed check is all START does (41_flip.md rule R170). -/
theorem exec_start_of_check {e : Error} (h : checkStart slot s = some e) :
    exec (.start slot) s = .next (s.raise e) := by
  simp only [exec, execStart, h, State.guard_some, Flow.over_andThen, Flow.over_outcome]

/-- With its checks passed and every tail in memory START makes its stores and runs the consumer. -/
theorem exec_start_of_legal (hp : s.phase = .ready) (hslot : s.slotExists slot = true)
    (hmem : ∀ x ∈ s.slots, (s.ring x).tail.toNat + 12 ≤ memSize) :
    exec (.start slot) s =
      .next (({ s with mem := s.mem.afterStores (s.startStores slot) } : State).finishStart slot s.clkdiv) := by
  have hin : ∀ w ∈ s.startStores slot, w.addr + 4 ≤ memSize := by
    intro w hw
    obtain ⟨x, hx, rfl⟩ := State.mem_startStores.mp hw
    exact hmem x hx
  simp only [exec, execStart, checkStart_eq_none.mpr ⟨hp, hslot⟩, State.guard_none, Flow.on_andThen,
    s.storeAll_eq_on hin, Flow.on_outcome]

/-- In FAILED the global check is all ACTIVATE does (60_exceptions.md rule R287). -/
theorem exec_activate_of_failed (hp : s.phase = .failed) :
    exec (.activate slot) s = .next (s.raise (Error.plain .wrongState)) := by
  simp only [exec, execActivate, checkActivateState, if_pos hp, State.guard_some, Flow.over_andThen, Flow.over_outcome]

/-- In single-ring mode ACTIVATE is only its result (41_flip.md rule R178). -/
theorem exec_activate_of_single (hp : s.phase ≠ .failed) (hd : s.double = false) :
    exec (.activate slot) s = .next s.succeed := by
  simp only [exec, execActivate, checkActivateState, if_neg hp, State.guard_none, Flow.on_andThen, if_pos hd,
    Flow.on_outcome]

/-- Before SETUP the check of double mode is all ACTIVATE does (rule R179). -/
theorem exec_activate_of_unconfigured (hp : s.phase = .unconfigured) (hd : s.double = true) :
    exec (.activate slot) s = .next (s.raise (Error.plain .notSetup)) := by
  simp [exec, execActivate, checkActivateState, checkActivate, hp, hd]

/-- With its checks passed and both tails in memory ACTIVATE makes its two stores and sets SEL (rule R175). -/
theorem exec_activate_of_legal (hset : s.isSetUp = true) (hd : s.double = true)
    (hmem : ∀ x : Slot, (s.ring x).tail.toNat + 12 ≤ memSize) :
    exec (.activate slot) s =
      .next (({ s with mem := s.mem.afterStores (s.flipStores slot) } : State).finishActivate slot) := by
  obtain ⟨hstate, hsetup⟩ := checkActivate_eq_none.mpr hset
  have hin : ∀ w ∈ s.flipStores slot, w.addr + 4 ≤ memSize := by
    intro w hw
    obtain ⟨x, -, rfl⟩ := List.mem_map.mp hw
    exact hmem x
  simp only [exec, execActivate, hstate, hsetup, State.guard_none, Flow.on_andThen, hd, reduceCtorEq, if_false,
    s.storeAll_eq_on hin, Flow.on_outcome]

end

/-- ACTIVATE's stores reach the links of both tails. -/
theorem State.flip_links (s : State) (slot : Slot) (ha : ∀ x : Slot, (s.ring x).tail.toNat % 4 = 0) :
    (∀ x : Slot, (s.mem.afterStores (s.flipStores slot)).nextOf (s.ring x).tail.toNat = (s.ring slot).head.toNat) ∧
      ∀ a, (∀ x : Slot, Region.holds (s.tailLink x) a = false) →
        (s.mem.afterStores (s.flipStores slot)).byte a = s.mem.byte a := by
  have hall : ∀ x : Slot, x ∈ [Slot.zero, .one] := by
    intro x
    cases x <;> decide
  obtain ⟨hnext, hbyte⟩ := s.links_after (slots := [.zero, .one]) (s.ring slot).head fun x _ => ha x
  exact ⟨fun x => hnext x (hall x), fun a hout => hbyte a fun x _ => hout x⟩

/-- Settles O25: the link stores of the tails, then START's final step. -/
theorem startRunsTheConsumer : Obligations.StartRunsTheConsumer := by
  intro s slot hp hslot htails head
  obtain ⟨hnext, hbyte⟩ := s.links_after head fun x hx => (htails x hx).1
  exact ⟨_, exec_start_of_legal hp hslot fun x hx => (htails x hx).2, hnext, hbyte, rfl⟩

/-- Settles O26, check by check. -/
theorem startRejects : Obligations.StartRejects := by
  intro s slot
  refine ⟨fun hp => ?_, fun hp => ?_, fun hp hd hslot => ?_⟩ <;> refine exec_start_of_check ?_
  · simp [checkStart, hp]
  · simp [checkStart, hp]
  · simp [checkStart, hp, hd, hslot]

/-- Settles O27: the link stores of both tails, then ACTIVATE's final step. -/
theorem activateFlipsBothTails : Obligations.ActivateFlipsBothTails := by
  intro s slot hset hd htails
  obtain ⟨hnext, hbyte⟩ := s.flip_links slot fun x => (htails x).1
  exact ⟨_, exec_activate_of_legal hset hd fun x => (htails x).2, hnext, hbyte, rfl⟩

/-- Settles O28, by STATE. -/
theorem activateIsANoOpInSingleRingMode : Obligations.ActivateIsANoOpInSingleRingMode := fun _ _ hd =>
  ⟨fun hp => exec_activate_of_single hp hd, exec_activate_of_failed⟩

/-- Settles O29: the check of double mode ends the command. -/
theorem activateBeforeSetupFails : Obligations.ActivateBeforeSetupFails := fun _ _ hd hp =>
  exec_activate_of_unconfigured hp hd

/-! The consumer's last two steps at a descriptor -/

section
variable {s : State} {buf : Word} {len : BitVec 12} (hrun : s.consumer.run = true)
  (hvisit : s.consumer.visit = .playing buf len) (hoff : len.toNat ≤ s.consumer.off)
include hrun hvisit hoff

/-- After the last Emit the link not yet read is read, whatever the choice (60_exceptions.md rule R301). -/
theorem State.consumerStep_of_unread_link (hlink : s.consumer.link = none)
    (hmem : s.consumer.cur.toNat + 12 ≤ memSize) (linkNow : Bool) :
    s.consumerStep linkNow =
      { s with
        consumer := { s.consumer with link := some (BitVec.ofNat 32 (s.mem.nextOf s.consumer.cur.toNat)) } } := by
  have hload : s.mem.load (nextField s.consumer.cur.toNat) 4 = some (s.mem.nextOf s.consumer.cur.toNat) :=
    Memory.load_eq_some.mpr ⟨hmem, rfl⟩
  simp only [State.consumerStep, hrun, hvisit, hlink, State.consumerLink, hload, hoff, Option.isNone_none, decide_true,
    Bool.or_true, Bool.and_self, if_true]

/-- After the last Emit the link that is read is followed (rule R301). -/
theorem State.consumerStep_of_read_link {next : Word} (hlink : s.consumer.link = some next) (hnull : next ≠ 0#32)
    (linkNow : Bool) :
    s.consumerStep linkNow =
      { s with
        lapGuard := s.guardAfterAdvance next
        consumer := { s.consumer with cur := next, link := none, visit := .arriving } } := by
  have hdone : ¬ s.consumer.off < len.toNat := by omega
  simp only [State.consumerStep, hrun, hvisit, hlink, State.consumerAdvance, hdone, hnull, Option.isNone_some,
    Bool.false_and, Bool.false_eq_true, if_true, if_false]

/-- A consumer that has emitted its descriptor and not read its link goes where the link leads as it now stands
(41_flip.md rule R176, 20_memory.md rule R87). -/
theorem State.consumerSteps_follow_link (hlink : s.consumer.link = none) (hmem : s.consumer.cur.toNat + 12 ≤ memSize)
    {next : Word} (hnext : s.mem.nextOf s.consumer.cur.toNat = next.toNat) (hnull : next ≠ 0#32) (b b' : Bool) :
    (s.consumerStep b).consumerStep b' =
      { s with
        lapGuard := s.guardAfterAdvance next
        consumer := { s.consumer with cur := next, link := none, visit := .arriving } } := by
  rw [State.consumerStep_of_unread_link hrun hvisit hoff hlink hmem, hnext, BitVec.ofNat_toNat, BitVec.setWidth_eq]
  refine State.consumerStep_of_read_link (buf := buf) (len := len) ?_ ?_ ?_ rfl hnull b'
  exacts [hrun, hvisit, hoff]

end

/-- Settles O30: after the flip the tail's link, not yet read, names HEAD[SEL]. -/
theorem flipHandsOffAtTheTail : Obligations.FlipHandsOffAtTheTail := by
  intro s t slot x buf len b b' hp hd htails hnull hrun hcur hlink hvisit hoff hexec u
  obtain ⟨t', hexec', hnext, -, ht⟩ := activateFlipsBothTails s slot (by simp [State.isSetUp, hp]) hd htails
  obtain rfl : t' = t := Host.Outcome.next.inj (hexec'.symm.trans hexec)
  have hconsumer : t'.consumer = s.consumer := by rw [ht]
  have hsel : (s.ring slot).head = (t'.ring t'.sel).head := by rw [ht]; rfl
  have hmem : s.consumer.cur.toNat + 12 ≤ memSize := hcur ▸ (htails x).2
  have hlinked : t'.mem.nextOf s.consumer.cur.toNat = (s.ring slot).head.toNat := hcur ▸ hnext x
  rw [← hconsumer] at hrun hlink hvisit hoff hmem hlinked
  have hu : u = _ := State.consumerSteps_follow_link hrun hvisit hoff hlink hmem hlinked hnull b b'
  rw [hu]
  exact ⟨rfl, rfl, if_pos hsel, rfl⟩

/-! A ring whose tail names its head -/

/-- An address is a descriptor of the ring (10_state.md rule R56). -/
def Ring.hasDescriptor (r : Ring) (a : Nat) : Prop := ∃ i, i < r.count.toNat ∧ a = r.head.toNat + 12 * i

/-- In a linked ring whose tail names its head every descriptor's link leads to a descriptor of the ring
(30_encoding.md rule R119). -/
theorem Ring.hasDescriptor_nextOf {r : Ring} {m : Memory} (hlinked : m.linked r)
    (htail : r.tail.toNat = r.head.toNat + 12 * (r.count.toNat - 1))
    (hclosed : m.nextOf r.tail.toNat = r.head.toNat) {a : Nat} (ha : r.hasDescriptor a) :
    r.hasDescriptor (m.nextOf a) := by
  obtain ⟨i, hi, rfl⟩ := ha
  by_cases hlast : i + 1 < r.count.toNat
  · exact ⟨i + 1, hlast, hlinked i hlast⟩
  · rw [htail, show r.count.toNat - 1 = i by omega] at hclosed
    exact ⟨0, by omega, hclosed⟩

/-- A consumer in a ring that its links do not leave stays in it: only a Link reads where to go, and only an Advance goes
there (60_exceptions.md rule R301). -/
theorem State.consumerStep_in_ring {s : State} {r : Ring}
    (hnext : ∀ a, r.hasDescriptor a → r.hasDescriptor (s.mem.nextOf a)) (hcur : r.hasDescriptor s.consumer.cur.toNat)
    (hlink : ∀ next, s.consumer.link = some next → r.hasDescriptor next.toNat) (linkNow : Bool) :
    r.hasDescriptor (s.consumerStep linkNow).consumer.cur.toNat ∧
      ∀ next, (s.consumerStep linkNow).consumer.link = some next → r.hasDescriptor next.toNat := by
  rcases s.consumerStep_cases linkNow with he | ⟨_, -, he⟩ | ⟨-, -, he⟩ | ⟨_, -, he⟩ | ⟨next, -, hn, -, he⟩ <;> rw [he]
  · exact ⟨hcur, hlink⟩
  · exact ⟨hcur, hlink⟩
  · refine ⟨hcur, fun next hn => ?_⟩
    cases hn
    have hread : s.mem.read (nextField s.consumer.cur.toNat) 4 < 2 ^ 32 := Memory.read_lt _ _ 4
    rw [BitVec.toNat_ofNat, Nat.mod_eq_of_lt hread]
    exact hnext _ hcur
  · exact ⟨hcur, hlink⟩
  · exact ⟨hlink next hn, nofun⟩

/-- Settles O51: the ring stands, and its tail closes it. -/
theorem consumerStaysInTheActivatedRing : Obligations.ConsumerStaysInTheActivatedRing := by
  intro s slot b hinv hp hslot inRing hclosed hin
  obtain ⟨hcur, hlink⟩ := hin
  obtain ⟨⟨-, htail, -⟩, -, hlinked⟩ := hinv.rings.stands (by simp [State.isSetUp, hp]) slot hslot
  exact State.consumerStep_in_ring (fun _ => Ring.hasDescriptor_nextOf hlinked htail hclosed) hcur hlink b

end Sys2Proof.Machine
end

section
/-!
The output word (42_encoder.md R202 to R206): what each bit of it holds.
-/
namespace Sys2Proof.Machine

/-! The bits of a packed word -/

theorem getLsbD_bitAt (b : Bool) (i j : Nat) : (bitAt b i).getLsbD j = (decide (j = i ∧ j < 16) && b) := by
  rcases Nat.lt_trichotomy j i with h | rfl | h
  · simp [bitAt, h, h.ne]
  · simp [bitAt]
  · have : j - i ≠ 0 := by omega
    simp [bitAt, this, h.ne']

/-- The field of the row address, bit by bit (30_encoding.md rule R110). -/
theorem getLsbD_addressField (address j : Nat) :
    ((BitVec.ofNat 4 address).setWidth 16 <<< 8 : Half).getLsbD j =
      (decide (8 ≤ j ∧ j < 12) && address.testBit (j - 8)) := by
  rw [BitVec.getLsbD_shiftLeft, BitVec.getLsbD_setWidth, BitVec.getLsbD_ofNat]
  have hrange : (8 ≤ j ∧ j < 12) ↔ j < 16 ∧ ¬ j < 8 ∧ j - 8 < 16 ∧ j - 8 < 4 := by omega
  simp only [hrange, Bool.decide_and, decide_not, Bool.and_assoc]

/-- A packed word bit by bit: six tested lane bits, the row address, LAT, BLANK (rule R110, rule R114). -/
theorem getLsbD_packWord (k : Nat) (lanes : List Byte) (address : Nat) (latch blank : Bool) {j : Nat} (hj : j < 16) :
    (packWord k lanes address latch blank).getLsbD j =
      if j < 6 then (lanes.getD j 0#8).getLsbD k
      else if 8 ≤ j ∧ j < 12 then address.testBit (j - 8)
      else if j = 12 then latch
      else if j = 13 then blank
      else false := by
  simp only [packWord, BitVec.getLsbD_or, getLsbD_bitAt, getLsbD_addressField]
  interval_cases j <;> simp

/-- Bits 8 to 11 of a packed word are the row address (rule R110). -/
theorem extractLsb'_packWord_address (k : Nat) (lanes : List Byte) (address : Nat) (latch blank : Bool) :
    (packWord k lanes address latch blank).extractLsb' 8 4 = BitVec.ofNat 4 address := by
  refine BitVec.eq_of_getLsbD_eq fun i hi => ?_
  have h1 : ¬ 8 + i < 6 := by omega
  have h2 : 8 ≤ 8 + i ∧ 8 + i < 12 := by omega
  rw [BitVec.getLsbD_extractLsb', getLsbD_packWord _ _ _ _ _ (by omega), if_neg h1, if_pos h2, BitVec.getLsbD_ofNat]
  simp [hi]

/-! The fields of an output word -/

/-- The byte of each colour lane (rule R209). -/
theorem State.laneBytes_getD (s : State) (m : Memory) (fb row col : Nat) {lane : Nat} (h : lane < laneCount) :
    (s.laneBytes m fb row col).getD lane 0#8 = m.byte (s.laneAddr fb row col lane) := by
  simp [State.laneBytes, List.getD, h]

/-- The row before, modulo ROWS (rule R204). -/
theorem State.rowAddress_eq {s : State} {row : Nat} (h : row < s.rows) :
    s.rowAddress row = if row = 0 then s.rows - 1 else row - 1 := by
  unfold State.rowAddress
  split
  · subst row
    rw [Nat.zero_add, Nat.mod_eq_of_lt (by omega)]
  · rw [show row + s.rows - 1 = row - 1 + s.rows by omega, Nat.add_mod_right, Nat.mod_eq_of_lt (by omega)]

/-- A colour bit of an output word is the tested bit of its lane's byte (rule R203). -/
theorem State.getLsbD_outputWord_lane (s : State) (m : Memory) (fb plane row col : Nat) {lane : Nat}
    (h : lane < laneCount) :
    (s.outputWord m fb plane row col).getLsbD lane =
      (m.byte (s.laneAddr fb row col lane)).getLsbD (8 - s.planes + plane) := by
  have h6 : lane < 6 := h
  rw [State.outputWord, State.wordFrom, getLsbD_packWord _ _ _ _ _ (by omega), if_pos h6, State.laneBytes_getD _ _ _ _ _ h]
  rfl

/-- The row-address field of an output word holds the address, which fits it (rule R204, rule R209). -/
theorem State.extractLsb'_outputWord_address {s : State} (m : Memory) (fb plane : Nat) {row : Nat} (col : Nat)
    (hrows : s.rows ≤ 16) (hr : row < s.rows) :
    ((s.outputWord m fb plane row col).extractLsb' 8 4).toNat = if row = 0 then s.rows - 1 else row - 1 := by
  have hfits : s.rowAddress row < 16 := by
    rw [State.rowAddress_eq hr]
    split <;> omega
  rw [State.outputWord, State.wordFrom, extractLsb'_packWord_address, BitVec.toNat_ofNat, Nat.mod_eq_of_lt hfits,
    State.rowAddress_eq hr]

/-- Settles O4, field by field of the packed word. -/
theorem outputWordFields : Obligations.OutputWordFields := by
  intro s m fb p r c _ _ hrows hr hc w k a b
  have hlane : ∀ lane, lane < laneCount → w.getLsbD lane = (m.byte (s.laneAddr fb r c lane)).getLsbD k :=
    fun lane h => s.getLsbD_outputWord_lane m fb p r c h
  have hbit : ∀ j, 6 ≤ j → j < 16 → ¬ (8 ≤ j ∧ j < 12) →
      w.getLsbD j = if j = 12 then s.latch c else if j = 13 then s.blank c else false := by
    intro j h6 h16 h
    have h6' : ¬ j < 6 := by omega
    exact (getLsbD_packWord _ _ _ _ _ h16).trans (by rw [if_neg h6', if_neg h])
  refine ⟨hlane 0 (by decide), hlane 1 (by decide), hlane 2 (by decide), hlane 3 (by decide), hlane 4 (by decide),
    hlane 5 (by decide), State.extractLsb'_outputWord_address m fb p c hrows hr, ?_, ?_, hbit 6 ?_ ?_ ?_,
    hbit 7 ?_ ?_ ?_, hbit 14 ?_ ?_ ?_, hbit 15 ?_ ?_ ?_⟩
  · rw [hbit 12 (by decide) (by decide) (by decide), if_pos rfl, State.latch, decide_eq_true_eq]
    omega
  · rw [hbit 13 (by decide) (by decide) (by decide)]
    simp [State.blank]
  all_goals decide

end Sys2Proof.Machine
end

section
/-!
ENCODE run whole (42_encoder.md R200, R208 to R211): a check that fails is all it does; else it makes its words, which
fill its slot and nothing else.
-/
namespace Sys2Proof.Machine

/-! The two ways ENCODE ends -/

section
variable {s : State} {slot : Slot}

/-- A failed check is all ENCODE does (rule R200). -/
theorem exec_encode_of_check {e : Error} (h : checkEncode slot s = some e) :
    exec (.encode slot) s = .next (s.raise e) := by
  simp only [exec, execEncode, h, State.guard_some, Flow.over_andThen, Flow.over_outcome]

/-- An ENCODE that completes: a failed check, or its words and OK. -/
theorem exec_encode_cases {t : State} (h : exec (.encode slot) s = .next t) :
    (∃ e, checkEncode slot s = some e ∧ t = s.raise e) ∨
      checkEncode slot s = none ∧ ∃ m, s.encodeWords slot s.fbBase.toNat s.places s.mem = some m ∧
        t = ({ s with mem := m } : State).succeed := by
  cases hc : checkEncode slot s with
  | some e =>
    rw [exec_encode_of_check hc] at h
    cases h
    exact .inl ⟨e, rfl, rfl⟩
  | none =>
    simp only [exec, execEncode, hc, State.guard_none, Flow.on_andThen] at h
    split at h
    · cases h
    · rename_i m hm
      cases h
      exact .inr ⟨rfl, m, hm, rfl⟩

/-- With its checks passed and its framebuffer and buffers in memory, ENCODE makes every word (rule R201). -/
theorem exec_encode_of_legal (hc : checkEncode slot s = none) (hfb : s.framebufferRead.inMemory = true)
    (hbuf : (s.slotBuffers slot).inMemory = true) :
    ∃ m, s.encodeWords slot s.fbBase.toNat s.places s.mem = some m ∧
      exec (.encode slot) s = .next ({ s with mem := m } : State).succeed := by
  obtain ⟨m, hm⟩ := State.encodeWords_made (of_decide_eq_true hfb) hbuf (fun _ => id) s.mem
  exact ⟨m, hm, execEncode_of_words hc hm⟩

end

/-- Once SETUP has succeeded the first two checks pass (10_state.md rule R36). -/
theorem State.phase_of_isSetUp {s : State} (h : s.isSetUp = true) : s.phase ≠ .failed ∧ s.phase ≠ .unconfigured := by
  cases hp : s.phase <;> simp [State.isSetUp, hp] at h ⊢

/-- Settles O34, check by check. -/
theorem encodeChecksInOrder : Obligations.EncodeChecksInOrder := by
  intro s slot
  refine ⟨fun hp => ?_, fun hset hd hslot => ?_, fun hset hslot hnull => ?_, fun hp hd hnull hsel => ?_⟩ <;>
    refine exec_encode_of_check ?_
  · simp [checkEncode, hp]
  · obtain ⟨hfailed, hun⟩ := State.phase_of_isSetUp hset
    simp [checkEncode, hfailed, hun, hd, hslot]
  · have hexists : ¬ (s.double = false ∧ slot = .one) := by
      rintro ⟨hd, rfl⟩
      simp [State.slotExists, hd] at hslot
    obtain ⟨hfailed, hun⟩ := State.phase_of_isSetUp hset
    simp [checkEncode, hfailed, hun, hexists, hnull]
  · simp [checkEncode, hp, hd, hnull, hsel]

/-- Settles O32: every word is made, inside the slot's buffers, and then the result. -/
theorem encodeCompletesInsideItsSlot : Obligations.EncodeCompletesInsideItsSlot := by
  intro s slot hset hslot hnull hactive hfb hbuf
  obtain ⟨m, hm, hexec⟩ := exec_encode_of_legal (checkEncode_eq_none.mpr ⟨hset, hslot, hnull, hactive⟩) hfb hbuf
  exact ⟨_, hexec, fun a ha => State.byte_encodeWords hm (fun _ => id) ha, rfl⟩

/-- A byte of the framebuffer is no byte of buffers that share none with it. -/
theorem State.outside_buffers_of_framebuffer {s : State} {slot : Slot}
    (hd : Region.disjoint s.framebufferRead (s.slotBuffers slot) = true) {a : Nat} (h1 : s.fbBase.toNat ≤ a)
    (h2 : a < s.fbBase.toNat + 3 * (s.panelWidth * s.panelHeight)) : (s.slotBuffers slot).holds a = false := by
  rw [Bool.eq_false_iff, ne_eq, Region.holds_iff]
  exact Region.not_both_of_disjoint hd ⟨h1, h2⟩

/-- Settles O33: each word is made on the framebuffer's bytes, which no word changes. -/
theorem encodeWritesEveryWord : Obligations.EncodeWritesEveryWord := by
  intro s slot hset hslot hnull hactive hfb hbuf hd
  obtain ⟨m, hm, hexec⟩ := exec_encode_of_legal (checkEncode_eq_none.mpr ⟨hset, hslot, hnull, hactive⟩) hfb hbuf
  refine ⟨_, hexec, fun p r c hp hr hc => ?_⟩
  exact State.read_encodeWords hm (fun _ => id) (fun _ => State.outside_buffers_of_framebuffer hd) (fun _ _ _ => rfl)
    (w := ⟨p, r, c⟩) (State.mem_places.mpr ⟨hp, hr, hc⟩)

/-- The buffers of two slots share no byte (20_memory.md rule R76). -/
theorem State.slotBuffers_apart {s : State} {x y : Slot} (hne : x ≠ y) {a : Nat}
    (ha : (s.slotBuffers x).holds a = true) : (s.slotBuffers y).holds a = false := by
  rw [Region.holds_iff] at ha
  rw [Bool.eq_false_iff, ne_eq, Region.holds_iff]
  cases x <;> cases y <;>
    simp only [State.slotBuffers, State.planeBase, Slot.toNat, Nat.add_zero, Nat.zero_mul, Nat.one_mul, ne_eq,
      not_true_eq_false] at ha hne ⊢ <;>
    omega

/-- Settles O35: ENCODE of the active slot is rejected, and the words of the other slot stay out of it. -/
theorem encodeNeverWritesTheActiveSlot : Obligations.EncodeNeverWritesTheActiveSlot := by
  intro s t slot hp hd hexec a ha
  rcases exec_encode_cases hexec with ⟨e, -, rfl⟩ | ⟨hc, m, hm, rfl⟩
  · rfl
  · obtain ⟨-, -, -, hactive⟩ := checkEncode_eq_none.mp hc
    have hsel : s.sel ≠ slot := fun h => hactive ⟨hp, hd, h.symm⟩
    exact State.byte_encodeWords hm (fun _ => id) (State.slotBuffers_apart hsel ha)

/-- Every word made twice on the same framebuffer leaves the same bytes (rule R211). -/
theorem State.byte_encodeWords_twice {s : State} {slot : Slot} {fb : Nat} {m m' m'' : Memory}
    (hd : ∀ a, fb ≤ a → a < fb + 3 * (s.panelWidth * s.panelHeight) → (s.slotBuffers slot).holds a = false)
    (h : s.encodeWords slot fb s.places m = some m') (h' : s.encodeWords slot fb s.places m' = some m'') (a : Nat) :
    m''.byte a = m'.byte a := by
  by_cases hw : ∃ w ∈ s.places, s.wordAddr slot w.plane w.row w.col ≤ a ∧
      a < s.wordAddr slot w.plane w.row w.col + 2
  · obtain ⟨w, hw, h1, h2⟩ := hw
    have hfb : ∀ b, fb ≤ b → b < fb + 3 * (s.panelWidth * s.panelHeight) → m'.byte b = m.byte b :=
      fun b h1 h2 => State.byte_encodeWords h (fun _ => id) (hd b h1 h2)
    have hread := State.read_encodeWords h (fun _ => id) hd (fun _ _ _ => rfl) hw
    have hread' := State.read_encodeWords h' (fun _ => id) hd hfb hw
    exact Memory.byte_eq_of_read_eq (hread'.trans hread.symm) h1 h2
  · refine State.byte_encodeWords_of_no_word h' fun w hm => ?_
    by_contra hin
    exact hw ⟨w, hm, by omega⟩

/-- An ENCODE that completes changes nothing its words depend on, but for memory. -/
theorem State.encodeWords_succeed (s : State) (m : Memory) (slot : Slot) (fb : Nat) (ws : List WordPlace) (k : Memory) :
    ({ s with mem := m } : State).succeed.encodeWords slot fb ws k = s.encodeWords slot fb ws k := by
  induction ws generalizing k with
  | nil => rfl
  | cons w rest ih =>
    have hword : ({ s with mem := m } : State).succeed.encodeWord slot fb w k = s.encodeWord slot fb w k := rfl
    simp only [State.encodeWords, hword, ih]

/-- Settles O36: the second ENCODE passes the checks the first has passed, and makes the same words. -/
theorem encodeTwiceIsEncodeOnce : Obligations.EncodeTwiceIsEncodeOnce := by
  intro s t slot hfb hbuf hd hexec
  rcases exec_encode_cases hexec with ⟨e, hc, rfl⟩ | ⟨hc, m, hm, rfl⟩
  · exact ⟨_, exec_encode_of_check (s := s.raise e) hc, fun _ => rfl⟩
  · obtain ⟨m', hm', hexec'⟩ :=
      exec_encode_of_legal (s := ({ s with mem := m } : State).succeed) (slot := slot) hc hfb hbuf
    exact ⟨_, hexec', State.byte_encodeWords_twice (fun _ => State.outside_buffers_of_framebuffer hd) hm
      ((s.encodeWords_succeed m slot _ _ m).symm.trans hm')⟩

end Sys2Proof.Machine
end

section
/-!
ENCODE in the interleaving (42_encoder.md R207, R211): whatever the order of its accesses, memory is at each of them what
the words already made have left of the memory ENCODE began with, so every order ends in the same memory.
-/
namespace Sys2Proof.Machine

/-! Memory part-way through an ENCODE -/

section
variable (s : State) (slot : Slot)

/-- An address is one of a word's two bytes. -/
def State.InWord (w : WordPlace) (a : Nat) : Prop :=
  s.wordAddr slot w.plane w.row w.col ≤ a ∧ a < s.wordAddr slot w.plane w.row w.col + 2

/-- WORD on the framebuffer as ENCODE found it (42_encoder.md rule R209). -/
def State.wordValue (w : WordPlace) : Nat := (s.outputWord s.mem s.fbBase.toNat w.plane w.row w.col).toNat

/-- The byte WORD leaves at an address. -/
def State.wordByte (w : WordPlace) (a : Nat) : Byte :=
  BitVec.ofNat 8 (s.wordValue w / 256 ^ (a - s.wordAddr slot w.plane w.row w.col))

/-- A memory that ENCODE can have made of the state's: every word but those left is WORD, and outside the words nothing
has changed. -/
structure State.Encoded (left : List WordPlace) (m : Memory) : Prop where
  wf : m.wf = true
  fresh : m.fresh = s.mem.fresh
  outside : ∀ a, (∀ w ∈ s.places, ¬ s.InWord slot w a) → m.written a = s.mem.written a
  made : ∀ w ∈ s.places, w ∉ left → ∀ a, s.InWord slot w a → m.written a = some (s.wordByte slot w a)

end

section
variable {s : State} {slot : Slot}

/-- Before its first access every word is left. -/
theorem State.encoded_start (hm : s.mem.wf = true) : s.Encoded slot s.places s.mem :=
  ⟨hm, rfl, fun _ _ => rfl, fun _ hw hleft => absurd hw hleft⟩

/-- With no word left there is one memory ENCODE can have made (rule R211). -/
theorem State.Encoded.eq {m m' : Memory} (h : s.Encoded slot [] m) (h' : s.Encoded slot [] m') : m = m' := by
  refine Memory.eq_of_written_eq h.wf h'.wf (h.fresh.trans h'.fresh.symm) fun a => ?_
  by_cases hw : ∃ w ∈ s.places, s.InWord slot w a
  · obtain ⟨w, hw, ha⟩ := hw
    rw [h.made w hw (by simp) a ha, h'.made w hw (by simp) a ha]
  · have hout : ∀ w ∈ s.places, ¬ s.InWord slot w a := fun w hm ha => hw ⟨w, hm, ha⟩
    rw [h.outside a hout, h'.outside a hout]

/-- The write of a word that is left, WORD its value. -/
theorem State.Encoded.write {before after : List WordPlace} {w : WordPlace} {m : Memory}
    (h : s.Encoded slot (before ++ w :: after) m) (hw : w ∈ s.places)
    (hfit : s.wordAddr slot w.plane w.row w.col + 2 ≤ memSize) :
    s.Encoded slot (before ++ after) (m.write (s.wordAddr slot w.plane w.row w.col) 2 (s.wordValue w)) where
  wf := Memory.wf_write h.wf hfit _
  fresh := (Memory.write_fresh m _ _ _).trans h.fresh
  outside a ha := (Memory.written_write m _ _ _ a).trans ((if_neg (ha w hw)).trans (h.outside a ha))
  made v hv hleft a ha := by
    rw [Memory.written_write]
    by_cases hvw : v = w
    · subst hvw
      exact if_pos ha
    · have hapart := State.wordAddr_apart slot hv hw hvw
      have hnot : ¬ s.InWord slot w a := by
        unfold State.InWord at ha ⊢
        omega
      rw [← h.made v hv (by simpa [hvw] using hleft) a ha]
      exact if_neg hnot

section
variable (hd : Region.disjoint s.framebufferRead (s.slotBuffers slot) = true)
include hd

/-- No word made so far has changed a byte that a word reads (rule R211). -/
theorem State.Encoded.byte_lane {left : List WordPlace} {m : Memory} (h : s.Encoded slot left m) {w : WordPlace}
    (hw : w ∈ s.places) {lane : Nat} (hl : lane < laneCount) :
    m.byte (s.laneAddr s.fbBase.toNat w.row w.col lane) =
      s.mem.byte (s.laneAddr s.fbBase.toNat w.row w.col lane) := by
  obtain ⟨-, hr, hc⟩ := State.mem_places.mp hw
  obtain ⟨h1, h2⟩ := State.laneAddr_inside s.fbBase.toNat hr hc hl
  have hout := State.outside_buffers_of_framebuffer hd h1 h2
  rw [Bool.eq_false_iff, ne_eq, Region.holds_iff] at hout
  have hkept := h.outside (s.laneAddr s.fbBase.toNat w.row w.col lane) fun v hv hin => hout (by
    have hinside := State.wordAddr_inside slot hv
    unfold State.InWord at hin
    omega)
  simp only [Memory.byte, Memory.unwritten, hkept, h.fresh]

/-- The whole command makes each word that is left. -/
theorem State.Encoded.encodeWords {ws : List WordPlace} {m m' : Memory} (h : s.Encoded slot ws m)
    (hws : ∀ w ∈ ws, w ∈ s.places) (hm : s.encodeWords slot s.fbBase.toNat ws m = some m') : s.Encoded slot [] m' := by
  induction ws generalizing m with
  | nil => cases hm; exact h
  | cons w rest ih =>
    have hw := hws w (by simp)
    rw [State.encodeWords] at hm
    split at hm
    · cases hm
    · rename_i m1 h1
      obtain ⟨-, hfit, rfl⟩ := State.encodeWord_eq_some.mp h1
      rw [State.outputWord_congr fun lane hl => h.byte_lane hd hw hl] at hm
      exact ih (h.write (before := []) hw hfit) (fun v hv => hws v (List.mem_cons_of_mem _ hv)) hm

end

end

/-! The accesses ENCODE allows next -/

/-- The place of a job's word. -/
def WordJob.place (j : WordJob) : WordPlace := { plane := j.plane, row := j.row, col := j.col }

/-- The job once one lane byte is read. -/
def WordJob.read (j : WordJob) (lane : Nat) (b : Byte) : WordJob := { j with lanes := j.lanes.set lane (some b) }

/-- The accesses a job still has to make: its unread lanes and its write. -/
def WordJob.accesses (j : WordJob) : Nat := j.lanes.countP Option.isNone + 1

/-- The accesses that are left. -/
def accessesLeft (jobs : List WordJob) : Nat := (jobs.map WordJob.accesses).sum

/-- A job allows a lane not read yet, or its write once all are read (42_encoder.md rule R209). -/
theorem WordJob.mem_moves {j : WordJob} {access : Nat} (h : access ∈ j.moves) :
    (access < laneCount ∧ j.lanes.getD access none = none) ∨
      (access = laneCount ∧ ∀ lane, lane < laneCount → j.lanes.getD lane none ≠ none) := by
  unfold WordJob.moves at h
  split at h
  · rename_i hnil
    refine .inr ⟨List.mem_singleton.mp h, fun lane hl => ?_⟩
    simpa using List.filter_eq_nil_iff.mp hnil lane (List.mem_range.mpr hl)
  · obtain ⟨hl, hnone⟩ := List.mem_filter.mp h
    exact .inl ⟨List.mem_range.mp hl, Option.isNone_iff_eq_none.mp hnone⟩

theorem WordJob.moves_ne_nil (j : WordJob) : j.moves ≠ [] := by
  unfold WordJob.moves
  split
  · simp
  · rename_i hne
    exact hne

/-- An access ENCODE allows is one that a job in the list allows, numbered by the job's place in it (rule R207). -/
theorem mem_wordMoves {k i access : Nat} {jobs : List WordJob} (h : (i, access) ∈ wordMoves k jobs) :
    ∃ before j after, jobs = before ++ j :: after ∧ i = k + before.length ∧ access ∈ j.moves := by
  induction jobs generalizing k with
  | nil => simp [wordMoves] at h
  | cons j rest ih =>
    rcases List.mem_append.mp h with h | h
    · obtain ⟨m, hm, heq⟩ := List.mem_map.mp h
      cases heq
      exact ⟨[], j, rest, rfl, rfl, hm⟩
    · obtain ⟨before, j', after, rfl, rfl, hm⟩ := ih h
      exact ⟨j :: before, j', after, rfl, by simp only [List.length_cons]; omega, hm⟩

/-- With a word left, the choice picks one of the accesses. -/
theorem wordMoves_pick {jobs : List WordJob} (hne : jobs ≠ []) (choice : Nat) :
    (wordMoves 0 jobs).getD (choice % (wordMoves 0 jobs).length) (0, 0) ∈ wordMoves 0 jobs := by
  have hmoves : wordMoves 0 jobs ≠ [] := by
    obtain ⟨j, rest, rfl⟩ := List.exists_cons_of_ne_nil hne
    simp [wordMoves, j.moves_ne_nil]
  have hlt := Nat.mod_lt choice (List.length_pos_iff.mpr hmoves)
  rw [List.getD_eq_getElem _ _ hlt]
  exact List.getElem_mem hlt

/-- One access of ENCODE with a word left and its memory in place: a lane not read yet, or the write of a word whose
bytes are all read. -/
theorem State.wordStep_access {s : State} {c : InFlight} {slot : Slot} {jobs : List WordJob} (hne : jobs ≠ [])
    (hlane : ∀ j ∈ jobs, ∀ lane, lane < laneCount → s.laneAddr c.fbBase.toNat j.row j.col lane + 1 ≤ memSize)
    (hword : ∀ j ∈ jobs, s.wordAddr slot j.plane j.row j.col + 2 ≤ memSize) (choice : Nat) :
    ∃ before j after, jobs = before ++ j :: after ∧
      ((∃ lane, lane < laneCount ∧ j.lanes.getD lane none = none ∧
          s.wordStep c choice slot jobs =
            s.toStage (.words slot
              (before ++ j.read lane (s.mem.byte (s.laneAddr c.fbBase.toNat j.row j.col lane)) :: after))) ∨
        ((∀ lane, lane < laneCount → j.lanes.getD lane none ≠ none) ∧
          s.wordStep c choice slot jobs =
            State.toStage
              { s with
                mem := s.mem.write (s.wordAddr slot j.plane j.row j.col) 2
                  (s.wordFrom j.plane j.row j.col j.bytes).toNat }
              (.words slot (before ++ after)))) := by
  have hpick := wordMoves_pick hne choice
  simp only [State.wordStep]
  generalize (wordMoves 0 jobs).getD (choice % (wordMoves 0 jobs).length) (0, 0) = pick at hpick ⊢
  obtain ⟨i, access⟩ := pick
  obtain ⟨before, j, after, rfl, rfl, hmove⟩ := mem_wordMoves hpick
  have hj : j ∈ before ++ j :: after := by simp
  refine ⟨before, j, after, rfl, ?_⟩
  rcases WordJob.mem_moves hmove with ⟨hl, hnone⟩ | ⟨rfl, hread⟩
  · have hload := Memory.load_eq_some (m := s.mem).mpr ⟨hlane j hj access hl, rfl⟩
    exact .inl ⟨access, hl, hnone, by simp [hl, hload, Memory.read, WordJob.read]⟩
  · have hstore := Memory.store_eq_some (m := s.mem) (v := (s.wordFrom j.plane j.row j.col j.bytes).toNat).mpr
      ⟨hword j hj, rfl⟩
    exact .inr ⟨hread, by simp [hstore, List.eraseIdx_append_of_length_le]⟩

/-! ENCODE in flight -/

/-- ENCODE in flight at a stage, the operand registers latched (44_setup_control.md rule R262). -/
def State.encodeFlight (s : State) (slot : Slot) (stage : Stage) : InFlight :=
  { word := encode (.encode slot), fbBase := s.fbBase, seglist := s.seglist, clkdiv := s.clkdiv, stage := stage }

@[simp] theorem State.encodeFlight_word (s : State) (slot : Slot) (stage : Stage) :
    (s.encodeFlight slot stage).word = encode (.encode slot) := rfl

/-- The state with ENCODE in flight, by what memory then is and the words still to be written. -/
def State.encoding (s : State) (slot : Slot) (m : Memory) (jobs : List WordJob) : State :=
  { s with mem := m, inFlight := some (s.encodeFlight slot (.words slot jobs)) }

/-- A job of the words of ENCODE: the bytes it has read are the framebuffer's. -/
structure State.JobFits (s : State) (j : WordJob) : Prop where
  place : j.place ∈ s.places
  length : j.lanes.length = laneCount
  lanes : ∀ lane b, j.lanes.getD lane none = some b → b = s.mem.byte (s.laneAddr s.fbBase.toNat j.row j.col lane)

/-- What ENCODE keeps from access to access: the words made, and the bytes read. -/
structure State.EncodeInv (s : State) (slot : Slot) (m : Memory) (jobs : List WordJob) : Prop where
  encoded : s.Encoded slot (jobs.map WordJob.place) m
  fits : ∀ j ∈ jobs, s.JobFits j

/-- A job that has read all its bytes writes WORD. -/
theorem State.JobFits.wordFrom {s : State} {j : WordJob} (h : s.JobFits j)
    (hread : ∀ lane, lane < laneCount → j.lanes.getD lane none ≠ none) :
    (s.wordFrom j.plane j.row j.col j.bytes).toNat = s.wordValue j.place := by
  have hbytes : j.bytes = s.laneBytes s.mem s.fbBase.toNat j.row j.col := by
    refine List.ext_getElem (by simp [WordJob.bytes, State.laneBytes, h.length]) fun lane hl _ => ?_
    have hlanes : lane < j.lanes.length := by simpa [WordJob.bytes] using hl
    obtain ⟨b, hb⟩ := Option.ne_none_iff_exists'.mp (hread lane (h.length ▸ hlanes))
    have hbyte := h.lanes lane b hb
    rw [List.getD_eq_getElem _ _ hlanes] at hb
    simp [WordJob.bytes, State.laneBytes, hb, hbyte]
  rw [hbytes]
  rfl

/-- A job that reads a framebuffer byte still fits. -/
theorem State.JobFits.read {s : State} {j : WordJob} (h : s.JobFits j) {lane : Nat} (hl : lane < laneCount) :
    s.JobFits (j.read lane (s.mem.byte (s.laneAddr s.fbBase.toNat j.row j.col lane))) where
  place := h.place
  length := (List.length_set ..).trans h.length
  lanes k b hb := by
    have hl' : lane < j.lanes.length := h.length ▸ hl
    simp only [WordJob.read, List.getD, List.getElem?_set] at hb ⊢
    by_cases hk : lane = k
    · subst hk
      simpa [hl', eq_comm] using hb
    · rw [if_neg hk] at hb
      exact h.lanes k b hb

/-- A lane read is one access fewer. -/
theorem WordJob.accesses_read {j : WordJob} (h : j.lanes.length = laneCount) {lane : Nat} (hl : lane < laneCount)
    (hnone : j.lanes.getD lane none = none) (b : Byte) : j.accesses = (j.read lane b).accesses + 1 := by
  have hl' : lane < j.lanes.length := h ▸ hl
  rw [List.getD_eq_getElem _ _ hl'] at hnone
  have hpos : 0 < j.lanes.countP Option.isNone :=
    List.countP_pos_iff.mpr ⟨_, List.getElem_mem hl', by simp [hnone]⟩
  simp only [WordJob.accesses, WordJob.read, List.countP_set hl', hnone, Option.isNone_none, Option.isNone_some,
    if_true, Bool.false_eq_true, if_false]
  omega

/-- A job that has read all its bytes has its write left. -/
theorem WordJob.accesses_eq_one {j : WordJob} (h : j.lanes.length = laneCount)
    (hread : ∀ lane, lane < laneCount → j.lanes.getD lane none ≠ none) : j.accesses = 1 := by
  have hzero : j.lanes.countP Option.isNone = 0 := List.countP_eq_zero.mpr fun x hx => by
    obtain ⟨lane, hl, rfl⟩ := List.getElem_of_mem hx
    have hsome := hread lane (h ▸ hl)
    rw [List.getD_eq_getElem _ _ hl] at hsome
    simpa using hsome
  rw [WordJob.accesses, hzero]

section
variable {s : State} {slot : Slot} {m : Memory} {before after : List WordJob} {j : WordJob}
  (h : s.EncodeInv slot m (before ++ j :: after))
include h

/-- A lane byte read keeps the invariant. -/
theorem State.EncodeInv.read {lane : Nat} (hl : lane < laneCount) :
    s.EncodeInv slot m
      (before ++ j.read lane (s.mem.byte (s.laneAddr s.fbBase.toNat j.row j.col lane)) :: after) where
  encoded := by
    have hplaces := h.encoded
    rw [List.map_append, List.map_cons] at hplaces ⊢
    exact hplaces
  fits k hk := by
    rcases List.mem_append.mp hk with hk | hk
    · exact h.fits k (by simp [hk])
    rcases List.mem_cons.mp hk with rfl | hk
    · exact (h.fits j (by simp)).read hl
    · exact h.fits k (by simp [hk])

/-- A word written, its bytes all read, keeps the invariant. -/
theorem State.EncodeInv.write (hread : ∀ lane, lane < laneCount → j.lanes.getD lane none ≠ none)
    (hfit : s.wordAddr slot j.plane j.row j.col + 2 ≤ memSize) :
    s.EncodeInv slot
      (m.write (s.wordAddr slot j.plane j.row j.col) 2 (s.wordFrom j.plane j.row j.col j.bytes).toNat)
      (before ++ after) where
  encoded := by
    have hj := h.fits j (by simp)
    have hleft := h.encoded
    rw [List.map_append, List.map_cons] at hleft
    rw [hj.wordFrom hread, List.map_append]
    exact hleft.write hj.place hfit
  fits k hk := h.fits k (by rcases List.mem_append.mp hk with hk | hk <;> simp [hk])

end

theorem accessesLeft_append_cons (before after : List WordJob) (j : WordJob) :
    accessesLeft (before ++ j :: after) = accessesLeft (before ++ after) + j.accesses := by
  simp only [accessesLeft, List.map_append, List.map_cons, List.sum_append, List.sum_cons]
  omega

section
variable {s : State} {slot : Slot} (hfb : s.framebufferRead.inMemory = true)
  (hbuf : (s.slotBuffers slot).inMemory = true)

include hfb in
theorem State.JobFits.lane_inMemory {j : WordJob} (h : s.JobFits j) {lane : Nat} (hl : lane < laneCount) :
    s.laneAddr s.fbBase.toNat j.row j.col lane + 1 ≤ memSize := by
  have hfb : s.fbBase.toNat + 3 * (s.panelWidth * s.panelHeight) ≤ memSize := of_decide_eq_true hfb
  obtain ⟨-, hr, hc⟩ := State.mem_places.mp h.place
  exact (State.laneAddr_inside _ hr hc hl).2.trans_le hfb

include hbuf in
theorem State.JobFits.word_inMemory {j : WordJob} (h : s.JobFits j) :
    s.wordAddr slot j.plane j.row j.col + 2 ≤ memSize :=
  (State.wordAddr_inside slot h.place).2.trans (of_decide_eq_true hbuf)

variable (hd : Region.disjoint s.framebufferRead (s.slotBuffers slot) = true)
include hfb hbuf hd

/-- An access of ENCODE keeps the invariant and leaves one access fewer (rule R207). -/
theorem State.EncodeInv.access {m : Memory} {jobs : List WordJob} (h : s.EncodeInv slot m jobs) (hne : jobs ≠ [])
    (choice : Nat) :
    ∃ m' jobs', (s.encoding slot m jobs).blockStep choice = s.encoding slot m' jobs' ∧ s.EncodeInv slot m' jobs' ∧
      accessesLeft jobs = accessesLeft jobs' + 1 := by
  obtain ⟨before, j, after, rfl, hstep⟩ :=
    State.wordStep_access (s := s.encoding slot m jobs) (slot := slot) (c := s.encodeFlight slot (.words slot jobs)) hne
      (fun j hj _ => (h.fits j hj).lane_inMemory hfb) (fun j hj => (h.fits j hj).word_inMemory hbuf) choice
  have hj := h.fits j (by simp)
  rcases hstep with ⟨lane, hl, hnone, hstep⟩ | ⟨hread, hstep⟩
  · have hbyte := h.encoded.byte_lane hd hj.place hl
    refine ⟨m, _, hstep.trans (congrArg (fun b => s.encoding slot m (before ++ j.read lane b :: after)) hbyte),
      h.read hl, ?_⟩
    rw [accessesLeft_append_cons, accessesLeft_append_cons, WordJob.accesses_read hj.length hl hnone, Nat.add_assoc]
  · refine ⟨_, _, hstep, h.write hread (hj.word_inMemory hbuf), ?_⟩
    rw [accessesLeft_append_cons, WordJob.accesses_eq_one hj.length hread]

/-- Every order of the accesses that are left, then the last step, completes ENCODE with its words made (rule R207,
rule R211). -/
theorem State.EncodeInv.run {m : Memory} {jobs : List WordJob} (h : s.EncodeInv slot m jobs) {choices : List Nat}
    (hlen : choices.length = accessesLeft jobs + 1) :
    ∃ m', (s.encoding slot m jobs).blockRun choices = ({ s with mem := m' } : State).succeed ∧
      s.Encoded slot [] m' := by
  induction choices generalizing m jobs with
  | nil => simp at hlen
  | cons choice rest ih =>
    by_cases hnil : jobs = []
    · subst hnil
      obtain rfl : rest = [] := List.eq_nil_of_length_eq_zero (Nat.succ.inj hlen)
      exact ⟨m, rfl, h.encoded⟩
    · obtain ⟨m', jobs', hstep, hinv, hleft⟩ := h.access hfb hbuf hd hnil choice
      rw [State.blockRun, hstep]
      exact ih hinv (by rw [List.length_cons] at hlen; omega)

end

/-- The first step of an accepted ENCODE whose checks pass (44_setup_control.md rule R262; log 14). -/
theorem State.blockStep_accept_encode {s : State} {slot : Slot} (hc : checkEncode slot s = none) (choice : Nat) :
    (s.accept (encode (.encode slot))).blockStep choice = s.encoding slot s.mem s.wordJobs := by
  have hbegin : (s.accept (encode (.encode slot))).blockStep choice =
      (s.accept (encode (.encode slot))).beginWord (s.encodeFlight slot .begin) := rfl
  have hlatched : checkEncode slot ((s.accept (encode (.encode slot))).latched (s.encodeFlight slot .begin)) = none := hc
  simp only [hbegin, State.beginWord, State.encodeFlight_word, decode_encode, State.beginCommand, hlatched,
    State.rejectOr_none]
  rfl

theorem State.length_places (s : State) : s.places.length = s.planes * s.rows * s.panelWidth := by
  simp [State.places, List.length_flatMap, Nat.mul_assoc]

/-- ENCODE starts with seven accesses to each word. -/
theorem State.accessesLeft_wordJobs (s : State) :
    accessesLeft s.wordJobs = 7 * (s.planes * s.rows * s.panelWidth) := by
  have hseven : s.wordJobs.map WordJob.accesses = s.places.map fun _ => 7 := by
    simp only [State.wordJobs, List.map_map, Function.comp_def, WordJob.accesses, List.countP_replicate]
    rfl
  rw [accessesLeft, hseven, List.map_const', List.sum_replicate, s.length_places, smul_eq_mul, Nat.mul_comm]

/-- ENCODE starts with no byte read and no word made. -/
theorem State.encodeInv_start {s : State} {slot : Slot} (hm : s.mem.wf = true) :
    s.EncodeInv slot s.mem s.wordJobs where
  encoded := by
    have hplaces : s.wordJobs.map WordJob.place = s.places := by
      simp only [State.wordJobs, List.map_map, Function.comp_def, WordJob.place, List.map_id']
    exact hplaces ▸ State.encoded_start hm
  fits j hj := by
    obtain ⟨w, hw, rfl⟩ := List.mem_map.mp hj
    refine ⟨hw, List.length_replicate, fun lane b hb => ?_⟩
    rw [List.getD, List.getElem?_replicate] at hb
    split at hb <;> cases hb

/-- Settles O37: every order, and the whole command, make every word of the memory ENCODE began with. -/
theorem everyEncodeOrderReachesTheSameState : Obligations.EveryEncodeOrderReachesTheSameState := by
  intro s slot choices hm _ hset hslot hnull hactive hfb hbuf hd hlen
  have hc : checkEncode slot s = none := checkEncode_eq_none.mpr ⟨hset, hslot, hnull, hactive⟩
  obtain ⟨m, hwords, hexec⟩ := exec_encode_of_legal hc hfb hbuf
  have hwhole := (State.encoded_start hm).encodeWords hd (fun _ => id) hwords
  cases choices with
  | nil => simp at hlen
  | cons choice rest =>
    obtain ⟨m', hrun, hmade⟩ := (State.encodeInv_start hm).run hfb hbuf hd (choices := rest)
      (by rw [State.accessesLeft_wordJobs]; exact Nat.succ.inj hlen)
    rw [hexec, State.blockRun, State.blockStep_accept_encode hc, hrun, hwhole.eq hmade]

end Sys2Proof.Machine
end

section
/-!
The scheduler (43_scheduler.md R230 to R235): what SCHEDULE completes with, what each position of the ordering holds,
and how the ordering of one plane more is made of two copies of the ordering before it.
-/
namespace Sys2Proof.Machine

/-! The command -/

/-- SCHEDULE rejected by its checks changes only the result (rule R230). -/
theorem exec_schedule_of_check {s : State} {e : Error} (h : checkSchedule s = some e) :
    exec .schedule s = .next (s.raise e) := by
  simp only [exec, execSchedule, h, State.guard_some, Flow.over_andThen, Flow.over_outcome]

/-- SCHEDULE whose checks pass runs SCHED(B) and completes with OK (rule R230). -/
theorem exec_schedule_of_legal {s : State} (h : checkSchedule s = none) :
    exec .schedule s = .next s.runSched.succeed := by
  simp only [exec, execSchedule, h, State.guard_none, Flow.on_andThen, Flow.on_outcome]

/-- Every position of the ordering holds a plane (rule R231). -/
theorem ordering_getD_lt {planes k : Nat} (h : k < 2 ^ planes - 1) : (ordering planes).getD k 0 < planes := by
  have hk : k < (ordering planes).length := by simpa using h
  rw [List.getD_eq_getElem _ _ hk]
  exact ordering_lt (List.getElem_mem hk)

/-- Settles O13, by the tables SCHED(B) leaves. -/
theorem scheduleWritesTheOrdering : Obligations.ScheduleWritesTheOrdering := by
  intro s hp h1 h8
  have hn := two_pow_sub_one_le h8
  refine ⟨_, exec_schedule_of_legal (checkSchedule_eq_none.mpr ⟨hp, h1, h8⟩), fun k hk => ?_, fun k hk _ => ?_,
    orderTable_length h8, ?_, rfl⟩
  · have hlt := ordering_getD_lt hk
    calc ((orderTable s.planes).getD k 0#4).toNat
        = (BitVec.ofNat 4 ((ordering s.planes).getD k 0)).toNat := by rw [orderTable_getD, if_pos hk]
      _ = (ordering s.planes).getD k 0 := by rw [BitVec.toNat_ofNat]; exact Nat.mod_eq_of_lt (by omega)
  · exact (orderTable_getD s.planes k).trans (if_neg (by omega))
  · exact Nat.mod_eq_of_lt (show 2 ^ s.planes - 1 < 256 by omega)

/-- Settles O14: check 3 ends the command. -/
theorem scheduleRejectsIllegalPlaneCounts : Obligations.ScheduleRejectsIllegalPlaneCounts := by
  intro s hp hb
  exact exec_schedule_of_check (e := Error.config 3#8) (by rw [checkSchedule, if_neg hp, if_pos hb])

/-! The plane picked, and its counter -/

theorem leastCount_cons (c : Nat) {counts : List Nat} (h : counts ≠ []) :
    leastCount (c :: counts) = min c (leastCount counts) := by
  cases counts with
  | nil => exact absurd rfl h
  | cons c' rest => rfl

/-- The counter of the plane picked is the minimum counter. -/
theorem getD_pickPlane {counts : List Nat} (h : counts ≠ []) :
    counts.getD (pickPlane counts) 0 = leastCount counts := by
  have hlt := pickPlane_lt h
  rw [List.getD_eq_getElem _ _ hlt]
  exact eq_of_beq (List.findIdx_getElem (w := hlt))

/-- No plane's counter is below that of the plane picked. -/
theorem getD_pickPlane_le {counts : List Nat} {p : Nat} (hp : p < counts.length) :
    counts.getD (pickPlane counts) 0 ≤ counts.getD p 0 := by
  rw [getD_pickPlane (List.ne_nil_of_length_pos (by omega)), List.getD_eq_getElem _ _ hp]
  exact leastCount_le (List.getElem_mem hp)

/-- A plane below the one picked has a greater counter: ties go to the lowest plane. -/
theorem getD_pickPlane_lt {counts : List Nat} {p : Nat} (hne : counts ≠ []) (hp : p < pickPlane counts) :
    counts.getD (pickPlane counts) 0 < counts.getD p 0 := by
  have hlen := pickPlane_lt hne
  refine lt_of_le_of_ne (getD_pickPlane_le (by omega)) fun heq => ?_
  have hnot := List.not_of_lt_findIdx hp
  rw [getD_pickPlane hne, List.getD_eq_getElem _ _ (by omega)] at heq
  simp [heq] at hnot

theorem bumpCount_getD (planes : Nat) {counts : List Nat} {q : Nat} (hq : q < counts.length) (p : Nat) :
    (bumpCount planes counts q).getD p 0 = counts.getD p 0 + if p = q then 2 ^ (planes - q) else 0 := by
  by_cases h : p = q
  · subst h
    simp [bumpCount, List.getD, hq]
  · simp [bumpCount, List.getD, List.getElem?_set_ne (Ne.symm h), h]

theorem bumpCount_ne_nil {planes q : Nat} {counts : List Nat} (h : counts ≠ []) :
    bumpCount planes counts q ≠ [] := by
  rwa [← List.length_pos_iff, bumpCount_length, List.length_pos_iff]

/-! The positions of a placement -/

/-- Placing at `m` positions and then at `n` is placing at `m + n`. -/
theorem placePlanes_add (planes m n : Nat) (counts : List Nat) :
    placePlanes planes (m + n) counts =
      ((placePlanes planes m counts).1 ++ (placePlanes planes n (placePlanes planes m counts).2).1,
        (placePlanes planes n (placePlanes planes m counts).2).2) := by
  induction m generalizing counts with
  | zero => simp [placePlanes]
  | succ m ih => rw [Nat.succ_add]; simp [placePlanes, ih]

/-- Each plane's counter has grown by 2^(B − p) for every position that holds it (rule R232). -/
theorem placePlanes_counter (planes n : Nat) {counts : List Nat} {p : Nat} (hp : p < counts.length) :
    (placePlanes planes n counts).2.getD p 0 =
      counts.getD p 0 + (placePlanes planes n counts).1.count p * 2 ^ (planes - p) := by
  induction n generalizing counts with
  | zero => simp [placePlanes]
  | succ n ih =>
    have hq := pickPlane_lt (List.ne_nil_of_length_pos (Nat.zero_lt_of_lt hp))
    have hrest := ih (counts := bumpCount planes counts (pickPlane counts)) (by simpa using hp)
    rw [bumpCount_getD planes hq] at hrest
    simp only [placePlanes, List.count_cons, hrest, beq_iff_eq, Nat.add_mul]
    by_cases h : p = pickPlane counts
    · rw [if_pos h, if_pos h.symm, ← h]; omega
    · rw [if_neg h, if_neg (Ne.symm h)]; omega

/-- Position `k` of a placement holds the plane picked from the counters after the `k` positions before it. -/
theorem placePlanes_position (planes : Nat) (counts : List Nat) {k n : Nat} (hk : k < n) :
    (placePlanes planes n counts).1.take k = (placePlanes planes k counts).1 ∧
      (placePlanes planes n counts).1.getD k 0 = pickPlane (placePlanes planes k counts).2 := by
  obtain ⟨m, rfl⟩ := Nat.exists_eq_add_of_lt hk
  have hlen := (placePlanes_length planes k counts).1
  rw [Nat.add_assoc, placePlanes_add]
  exact ⟨List.take_left' hlen, by simp [List.getD, hlen, placePlanes]⟩

/-- Settles O15: the counters after `k` positions count the planes placed so far, and position `k` holds the plane
picked from them. -/
theorem orderingPicksTheLeastCounter : Obligations.OrderingPicksTheLeastCounter := by
  intro planes k hk before counter q
  obtain ⟨hbefore, hq⟩ := placePlanes_position planes (List.replicate planes 0) (n := orderLength planes) hk
  have hqlt : q < planes := ordering_getD_lt hk
  have hlen := (placePlanes_length planes k (List.replicate planes 0)).2
  rw [List.length_replicate] at hlen
  have hcounter (p : Nat) (hp : p < planes) :
      (placePlanes planes k (List.replicate planes 0)).2.getD p 0 = counter p := by
    have hgrown := placePlanes_counter planes k (counts := List.replicate planes 0) (by simpa using hp)
    rw [List.getD_replicate _ hp, Nat.zero_add, ← hbefore] at hgrown
    exact hgrown
  change q = _ at hq
  refine ⟨hqlt, fun p hp => ?_, fun p hp => ?_⟩
  · rw [← hcounter q hqlt, ← hcounter p hp, hq]
    exact getD_pickPlane_le (by omega)
  · rw [← hcounter q hqlt, ← hcounter p (by omega), hq]
    exact getD_pickPlane_lt (List.ne_nil_of_length_pos (by omega)) (hq ▸ hp)

/-! One plane more -/

theorem leastCount_map_add (a : Nat) {counts : List Nat} (h : counts ≠ []) :
    leastCount (counts.map (a + ·)) = a + leastCount counts := by
  induction counts with
  | nil => exact absurd rfl h
  | cons c rest ih =>
    by_cases hr : rest = []
    · subst hr; rfl
    · rw [List.map_cons, leastCount_cons _ (by simpa using hr), leastCount_cons _ hr, ih hr, Nat.add_min_add_left]

/-- Counters all greater by `a` pick the same plane. -/
theorem pickPlane_map_add (a : Nat) (counts : List Nat) : pickPlane (counts.map (a + ·)) = pickPlane counts := by
  by_cases h : counts = []
  · subst h; rfl
  · have hsame : (fun c => a + c == a + leastCount counts) = (· == leastCount counts) := by
      funext c; simp
    rw [pickPlane, leastCount_map_add a h, List.findIdx_map]
    exact congrArg (List.findIdx · counts) hsame

theorem bumpCount_map_add (planes a : Nat) {counts : List Nat} {q : Nat} (hq : q < counts.length) :
    bumpCount planes (counts.map (a + ·)) q = (bumpCount planes counts q).map (a + ·) := by
  simp [bumpCount, List.getD, List.map_set, hq, Nat.add_assoc]

/-- Counters all greater by `a` give the same placement. -/
theorem placePlanes_map_add (planes n a : Nat) {counts : List Nat} (h : counts ≠ []) :
    placePlanes planes n (counts.map (a + ·)) =
      ((placePlanes planes n counts).1, (placePlanes planes n counts).2.map (a + ·)) := by
  induction n generalizing counts with
  | zero => rfl
  | succ n ih =>
    have hq := pickPlane_lt h
    simp only [placePlanes, pickPlane_map_add, bumpCount_map_add planes a hq, ih (bumpCount_ne_nil h)]

theorem pickPlane_cons {c : Nat} {counts : List Nat} (h : counts ≠ []) (hc : leastCount counts < c) :
    pickPlane (c :: counts) = pickPlane counts + 1 := by
  rw [pickPlane, leastCount_cons c h, Nat.min_eq_right hc.le, List.findIdx_cons, beq_false_of_ne hc.ne']
  rfl

theorem bumpCount_cons (planes c q : Nat) (counts : List Nat) :
    bumpCount (planes + 1) (c :: counts) (q + 1) = c :: bumpCount planes counts q := by
  simp [bumpCount]

/-- A plane put below the others is not placed while no counter of the others passes its own. -/
theorem placePlanes_cons (planes n c : Nat) {counts : List Nat} (h : counts ≠ [])
    (hc : ∀ d ∈ (placePlanes planes n counts).2, d ≤ c) :
    placePlanes (planes + 1) n (c :: counts) =
      ((placePlanes planes n counts).1.map (· + 1), c :: (placePlanes planes n counts).2) := by
  induction n generalizing counts with
  | zero => rfl
  | succ n ih =>
    have hq := pickPlane_lt h
    have hleast : leastCount counts < c := by
      have hgrown := placePlanes_counter planes (n + 1) hq
      have hend : pickPlane counts < (placePlanes planes (n + 1) counts).2.length := by
        rwa [(placePlanes_length planes (n + 1) counts).2]
      have hle := hc _ (List.getElem_mem hend)
      rw [← List.getD_eq_getElem _ 0 hend, hgrown, getD_pickPlane h] at hle
      have hplaced : 0 < (placePlanes planes (n + 1) counts).1.count (pickPlane counts) :=
        List.count_pos_iff.mpr (by simp [placePlanes])
      have := Nat.mul_pos hplaced (Nat.two_pow_pos (planes - pickPlane counts))
      omega
    simp only [placePlanes, pickPlane_cons h hleast, bumpCount_cons, ih (bumpCount_ne_nil h) hc, List.map_cons]

/-- From counters at `a`, below a plane 0 whose counter they do not pass, the other planes go through their ordering
once. -/
theorem placePlanes_lap {planes a c : Nat} (hp : 0 < planes)
    (hend : (sched planes).2 = List.replicate planes (2 ^ planes)) (hc : a + 2 ^ planes ≤ c) :
    placePlanes (planes + 1) (orderLength planes) (c :: List.replicate planes a) =
      ((ordering planes).map (· + 1), c :: List.replicate planes (a + 2 ^ planes)) := by
  have hne (x : Nat) : List.replicate planes x ≠ [] := by simp; omega
  have hshift := placePlanes_map_add planes (orderLength planes) a (hne 0)
  rw [List.map_replicate, Nat.add_zero] at hshift
  have hlap : placePlanes planes (orderLength planes) (List.replicate planes a) =
      (ordering planes, List.replicate planes (a + 2 ^ planes)) := by
    rw [hshift]
    exact congrArg (ordering planes, ·) ((congrArg (List.map (a + ·)) hend).trans List.map_replicate)
  have hle : ∀ d ∈ (placePlanes planes (orderLength planes) (List.replicate planes a)).2, d ≤ c := by
    rw [hlap]
    exact fun d hd => (List.eq_of_mem_replicate hd).trans_le hc
  rw [placePlanes_cons planes _ c (hne a) hle, hlap]

theorem orderLength_succ (planes : Nat) : orderLength (planes + 1) = orderLength planes + orderLength planes + 1 := by
  have := Nat.two_pow_pos planes
  simp only [orderLength]
  omega

/-- From fresh counters plane 0 is placed first, which brings its counter to 2^B. -/
theorem placePlanes_fresh (planes n : Nat) :
    placePlanes (planes + 1) (n + 1) (List.replicate (planes + 1) 0) =
      (0 :: (placePlanes (planes + 1) n (2 ^ (planes + 1) :: List.replicate planes 0)).1,
        (placePlanes (planes + 1) n (2 ^ (planes + 1) :: List.replicate planes 0)).2) := by
  have hleast : leastCount (List.replicate (planes + 1) 0) = 0 :=
    List.eq_of_mem_replicate (leastCount_mem (by simp))
  have hpick : pickPlane (List.replicate (planes + 1) 0) = 0 := by
    rw [pickPlane, hleast, List.replicate_succ, List.findIdx_cons]
    rfl
  have hbump : bumpCount (planes + 1) (List.replicate (planes + 1) 0) 0 =
      2 ^ (planes + 1) :: List.replicate planes 0 := by
    simp [bumpCount, List.replicate_succ]
  simp only [placePlanes, hpick, hbump]

/-- With one plane more, plane 0 is placed first and the others go through their ordering twice (rule R235). -/
theorem sched_succ {planes : Nat} (hend : (sched planes).2 = List.replicate planes (2 ^ planes)) :
    sched (planes + 1) =
      ([0] ++ (ordering planes).map (· + 1) ++ (ordering planes).map (· + 1),
        List.replicate (planes + 1) (2 ^ (planes + 1))) := by
  cases Nat.eq_zero_or_pos planes with
  | inl h0 => subst h0; rfl
  | inr hp =>
    have htwice : 2 ^ planes + 2 ^ planes = 2 ^ (planes + 1) := (Nat.two_pow_succ planes).symm
    have hle : 0 + 2 ^ planes ≤ 2 ^ (planes + 1) := htwice ▸ Nat.add_le_add_right (Nat.zero_le _) _
    have hfirst := placePlanes_lap hp hend hle
    have hsecond := placePlanes_lap (a := 2 ^ planes) hp hend htwice.le
    rw [Nat.zero_add] at hfirst
    rw [htwice] at hsecond
    rw [sched, orderLength_succ, placePlanes_fresh, placePlanes_add, hfirst, hsecond]
    rfl

/-- Every counter ends at 2^B (rule R234). -/
theorem sched_counters (planes : Nat) : (sched planes).2 = List.replicate planes (2 ^ planes) := by
  induction planes with
  | zero => rfl
  | succ planes ih => rw [sched_succ ih]

theorem ordering_zero : ordering 0 = [] := rfl

/-- The ordering of one plane more: plane 0, then twice the ordering with every index one up (rule R235). -/
theorem ordering_succ (planes : Nat) :
    ordering (planes + 1) = [0] ++ (ordering planes).map (· + 1) ++ (ordering planes).map (· + 1) :=
  congrArg Prod.fst (sched_succ (sched_counters planes))

/-- Plane p occurs 2^p times, which brings its counter by steps of 2^(B − p) to 2^B (rule R233). -/
theorem ordering_count {planes p : Nat} (hp : p < planes) : (ordering planes).count p = 2 ^ p := by
  have hgrown : (sched planes).2.getD p 0 =
      (List.replicate planes 0).getD p 0 + (ordering planes).count p * 2 ^ (planes - p) :=
    placePlanes_counter planes (orderLength planes) (by simpa using hp)
  rw [sched_counters, List.getD_replicate _ hp, List.getD_replicate _ hp, Nat.zero_add] at hgrown
  have hsplit : 2 ^ planes = 2 ^ p * 2 ^ (planes - p) := by rw [← Nat.pow_add, Nat.add_sub_cancel' hp.le]
  exact Nat.eq_of_mul_eq_mul_right (Nat.two_pow_pos _) (hgrown.symm.trans hsplit)

/-- Settles O16, for every plane count. -/
theorem everyPlaneOccursByItsWeight : Obligations.EveryPlaneOccursByItsWeight := fun planes _ _ =>
  ⟨ordering_length planes, sched_counters planes, fun _ => ordering_count⟩

/-- Settles O17: the doubling holds of every plane count, and gives the listed orderings from the empty one. -/
theorem orderingsOfTheSpec : Obligations.OrderingsOfTheSpec := by
  have hdouble (planes : Nat) (h2 : 2 ≤ planes) (_ : planes ≤ 8) :
      ordering planes = [0] ++ (ordering (planes - 1)).map (· + 1) ++ (ordering (planes - 1)).map (· + 1) := by
    obtain ⟨b, rfl⟩ := Nat.exists_eq_add_of_le' (Nat.le_of_succ_le h2)
    exact ordering_succ b
  refine ⟨?_, ?_, ?_, ?_, ?_, hdouble⟩ <;> simp [ordering_succ, ordering_zero]

end Sys2Proof.Machine
end

section
/-!
Commands at the register window (44_setup_control.md R250 to R262): what a host's write of a word to CMD comes to in
either kind of turn, NOP, the checks of SETUP, and the rings SETUP builds where its allocations are granted.
-/
namespace Sys2Proof.Machine

/-! A write of a word to CMD -/

theorem State.runWord_command {w : Word} {i : Instr} (hd : decode w = .command i) (s : State) :
    s.runWord w = exec i s := by
  rw [State.runWord, hd]

/-- Settles O5: nothing keeps the host's write off, and the word is performed whole. -/
theorem stepRunsTheDecodedCommand : Obligations.StepRunsTheDecodedCommand := by
  intro s ts ops w i hturn hops hi hl hr hd
  rw [step_host_wr true hturn hops, ← State.runWord_command hd]
  exact State.hostWrite_command (s := { s with turns := ts }) hops hi hl hr

/-- Settles O12. -/
theorem nopCompletes : Obligations.NopCompletes := fun _ => rfl

/-! The checks of SETUP -/

/-- A failed check is all SETUP does (44_setup_control.md rule R250). -/
theorem exec_setup_of_check {s : State} {e : Error} (h : checkSetup s = some e) :
    exec .setup s = .next (s.raise e) := by
  simp only [exec, execSetup, h, State.guard_some, Flow.over_andThen, Flow.over_outcome]

/-- The brightness limit is out of range, under either LIMIT_CHECK (00_scope.md rule R12). -/
theorem State.limitLegal_eq_false {s : State}
    (h : (s.params.limitCheck = .strict ∧ ¬ (0 < s.limit ∧ s.limit < s.panelWidth)) ∨
      (s.params.limitCheck = .inclusive ∧ ¬ s.limit ≤ s.panelWidth)) : s.limitLegal = false := by
  rcases h with ⟨hc, hbad⟩ | ⟨hc, hbad⟩
  · simpa [State.limitLegal, hc] using hbad
  · simpa [State.limitLegal, hc] using hbad

/-- Settles O38, check by check. -/
theorem setupReportsTheFirstFailingCheck : Obligations.SetupReportsTheFirstFailingCheck := by
  intro s badWidth badHeight badPlanes badUnit badLimit
  refine ⟨fun hp => ?_, fun hp h1 => ?_, fun hp h1 h2 => ?_, fun hp h1 h2 h3 => ?_, fun hp h1 h2 h3 h4 => ?_,
    fun hp h1 h2 h3 h4 h5 => ?_⟩ <;> refine exec_setup_of_check ?_ <;> unfold checkSetup
  · rw [if_pos hp]
  · rw [if_neg (not_not.mpr hp), if_pos h1]
  · rw [if_neg (not_not.mpr hp), if_neg h1, if_pos h2]
  · rw [if_neg (not_not.mpr hp), if_neg h1, if_neg h2, if_pos h3]
  · rw [if_neg (not_not.mpr hp), if_neg h1, if_neg h2, if_neg h3, if_pos h4]
  · rw [if_neg (not_not.mpr hp), if_neg h1, if_neg h2, if_neg h3, if_neg h4, if_pos (State.limitLegal_eq_false h5)]

/-! The rings of SETUP -/

/-- The pool of a ring of segments. -/
def poolRegion (unit : Nat) (pool : Word) (segments : List Segment) : Region :=
  { base := pool.toNat, size := 12 * descriptorCount unit segments }

/-- The ring is in its pool: a memory that agrees there holds it as well. -/
theorem Memory.isRing_congr {m m' : Memory} {pool : Word} {unit : Nat} {segments : List Segment}
    (h : m.isRing pool.toNat (chunksOf unit segments))
    (hm : ∀ b, (poolRegion unit pool segments).holds b = true → m'.byte b = m.byte b) :
    m'.isRing pool.toNat (chunksOf unit segments) := by
  intro i hi
  have hcount := chunksOf_length unit segments
  have hread : ∀ k, k ≤ 8 → m'.read (pool.toNat + 12 * i + k) 4 = m.read (pool.toNat + 12 * i + k) 4 := fun k hk =>
    Memory.read_congr fun b h1 h2 => hm b ((Region.holds_iff _ b).mpr (by simp only [poolRegion]; omega))
  have hi' := h i hi
  unfold Memory.isDescriptor at hi' ⊢
  rw [hread 4 (by decide), hread 8 (by decide), show m'.read (pool.toNat + 12 * i) 4 = m.read (pool.toNat + 12 * i) 4 from
    hread 0 (by decide)]
  exact hi'

/-- What the grants and the stores of SETUP have made of a memory: the rings of the pools granted so far, the arena's
bytes free values (44_setup_control.md rule R255; log 8), and nothing else changed. -/
structure Memory.RingsMade (before : Memory) (unit : Nat) (arena : Region) (rings : List (Word × List Segment))
    (m : Memory) : Prop where
  built : ∀ r ∈ rings, m.isRing r.1.toNat (chunksOf unit r.2)
  free : ∀ a, arena.holds a = true → m.written a = none
  outside : ∀ a, arena.holds a = false → (∀ r ∈ rings, (poolRegion unit r.1 r.2).holds a = false) →
    m.byte a = before.byte a

/-- The arena's grant (rule R252). -/
theorem Memory.ringsMade_forget (m : Memory) (unit : Nat) (arena : Region) :
    m.RingsMade unit arena [] (m.forget arena) where
  built _ hr := absurd hr List.not_mem_nil
  free a ha := (Memory.written_forget m arena a).trans (if_pos ha)
  outside _ ha _ := Memory.byte_forget_of_not_holds m ha

/-- A further pool, granted clear of the arena and the pools before it and filled by BUILD (rule R253). -/
theorem Memory.RingsMade.build {before m : Memory} {unit : Nat} {arena : Region} {rings : List (Word × List Segment)}
    (h : before.RingsMade unit arena rings m) {pool : Word} {segments : List Segment} (hu : 1 ≤ unit) (hu' : unit < 4096)
    (hn : 1 ≤ descriptorCount unit segments) (hsegments : ∀ g ∈ segments, 1 ≤ g.len ∧ g.ptr + g.len ≤ memSize)
    (hfit : pool.toNat + 12 * descriptorCount unit segments ≤ memSize)
    (harena : Region.disjoint (poolRegion unit pool segments) arena = true)
    (hpools : ∀ r ∈ rings, Region.disjoint (poolRegion unit pool segments) (poolRegion unit r.1 r.2) = true) :
    before.RingsMade unit arena ((pool, segments) :: rings)
      ((m.forget (poolRegion unit pool segments)).afterStores (buildStores pool unit segments)) where
  built r hr := by
    rcases List.mem_cons.mp hr with rfl | hr
    · exact Memory.isRing_build _ hfit fun c hc => chunksOf_fit hu hu' hsegments hc
    · refine Memory.isRing_congr (h.built r hr) fun b hb => Memory.byte_grant_build m hn ?_
      exact Region.not_holds_of_disjoint ((Region.disjoint_comm _ _).trans (hpools r hr)) hb
  free a ha :=
    Memory.written_grant_build m hn (h.free a ha)
      (Region.not_holds_of_disjoint ((Region.disjoint_comm _ _).trans harena) ha)
  outside a ha hout := by
    obtain ⟨hpool, hrings⟩ := List.forall_mem_cons.mp hout
    exact (Memory.byte_grant_build m hn hpool).trans (h.outside a ha hrings)

/-- BUILD's pool is clear of the list SEGLIST names, which so stays as it was (rule R302; log 7). -/
theorem State.withRing_namedList {s : State} {slot : Slot} {segments : List Segment} {pool : Word}
    (hn : 1 ≤ descriptorCount s.unit segments)
    (hr : s.regionLegal (12 * descriptorCount s.unit segments) [s.namedList] pool = true) (rest : List AllocAnswer) :
    (s.withRing slot segments pool rest).namedList = s.namedList := by
  have hapart : Region.disjoint (poolRegion s.unit pool segments) s.namedList = true :=
    ((s.regionLegal_iff _ _ _).mp hr).2.2.2 _ (by simp)
  rw [Region.disjoint_comm] at hapart
  refine State.namedList_congr (State.setRing_seglist _ _ _) fun b h1 h2 => ?_
  rw [State.withRing, State.setRing_mem]
  exact Memory.byte_grant_build s.mem hn (Region.not_holds_of_disjoint hapart ((Region.holds_iff _ b).mpr ⟨h1, h2⟩))

/-- The segments of a slot's ring over an arena: the bitplane buffers in the interleave order (rule R253). -/
def State.planeSegments (s : State) (arena : Word) (slot : Slot) : List Segment :=
  (ordering s.planes).map fun p =>
    { ptr := arena.toNat + (slot.toNat * s.planes + p) * s.planeBytes, len := s.planeBytes }

theorem State.descriptorCount_planeSegments (s : State) (arena : Word) (slot : Slot) :
    descriptorCount s.unit (s.planeSegments arena slot) = s.setupCount := by
  rw [State.planeSegments, descriptorCount_map_const (len := s.planeBytes) _ fun _ => rfl, ordering_length,
    State.setupCount]

@[simp] theorem State.poolRegion_planeSegments (s : State) (arena pool : Word) (slot : Slot) :
    poolRegion s.unit pool (s.planeSegments arena slot) = { base := pool.toNat, size := 12 * s.setupCount } := by
  rw [poolRegion, State.descriptorCount_planeSegments]

/-- The bitplane buffers of a slot that exists are in the arena (20_memory.md rule R76). -/
theorem State.planeSegments_inArena {s : State} (hl : s.configLegal = true) (arena : Word) {slot : Slot}
    (hslot : s.slotExists slot = true) :
    ∀ g ∈ s.planeSegments arena slot, 1 ≤ g.len ∧ g.ptr + g.len ≤ arena.toNat + s.arenaBytes := by
  obtain ⟨hw, hh, -⟩ := State.configLegal_bounds hl
  intro g hg
  obtain ⟨p, hp, rfl⟩ := List.mem_map.mp hg
  have hplane : p < s.planes := ordering_lt hp
  have hbytes : 1 ≤ s.planeBytes := Nat.mul_pos (by omega) (by omega)
  have hslots : slot.toNat + 1 ≤ s.slots.length := by
    unfold State.slotExists at hslot
    unfold State.slots
    cases slot <;> cases hd : s.double <;> simp_all [Slot.toNat]
  have hrow : (slot.toNat + 1) * s.planes ≤ s.slots.length * s.planes := Nat.mul_le_mul_right _ hslots
  have hbuffer : (slot.toNat * s.planes + p + 1) * s.planeBytes ≤ s.slots.length * s.planes * s.planeBytes :=
    Nat.mul_le_mul_right _ (by rw [Nat.add_mul] at hrow; omega)
  rw [Nat.add_mul, Nat.one_mul] at hbuffer
  simp only [State.arenaBytes]
  omega

/-- Memory once a slot's pool is granted, clear of the arena and the pools before it, and its ring is built. -/
theorem Memory.RingsMade.buildPlanes {s t : State} (hl : s.configLegal = true) {arena : Word}
    {rings : List (Word × List Segment)} {m : Memory}
    (h : s.mem.RingsMade s.unit { base := arena.toNat, size := s.arenaBytes } rings m)
    (hinside : arena.toNat + s.arenaBytes ≤ memSize) {slot : Slot} (hslot : s.slotExists slot = true) {pool : Word}
    {avoid : List Region} (hpool : t.regionLegal (12 * s.setupCount) avoid pool = true)
    (harena : { base := arena.toNat, size := s.arenaBytes } ∈ t.regions)
    (hpools : ∀ r ∈ rings, poolRegion s.unit r.1 r.2 ∈ t.regions) :
    s.mem.RingsMade s.unit { base := arena.toNat, size := s.arenaBytes } ((pool, s.planeSegments arena slot) :: rings)
      ((m.forget (poolRegion s.unit pool (s.planeSegments arena slot))).afterStores
        (buildStores pool s.unit (s.planeSegments arena slot))) := by
  obtain ⟨-, -, -, -, -, -, hu, -⟩ := State.configLegal_bounds hl
  have hcount := s.descriptorCount_planeSegments arena slot
  rw [← hcount] at hpool
  refine h.build (by omega) s.maxUnit.isLt (hcount.symm ▸ State.setupCount_pos hl) (fun g hg => ?_)
    (State.fits_of_regionLegal hpool) (State.disjoint_of_regionLegal hpool _ harena)
    fun r hr => State.disjoint_of_regionLegal hpool _ (hpools r hr)
  obtain ⟨hpos, hend⟩ := State.planeSegments_inArena hl arena hslot g hg
  exact ⟨hpos, hend.trans hinside⟩

/-- BUILD of a ring of `n` descriptors. -/
theorem State.withRing_of_count {s : State} {segments : List Segment} {n : Nat}
    (h : descriptorCount s.unit segments = n) (slot : Slot) (pool : Word) (rest : List AllocAnswer) :
    s.withRing slot segments pool rest =
      State.setRing
        { s with
          allocAnswers := rest
          regions := { base := pool.toNat, size := 12 * n } :: s.regions
          mem := (s.mem.forget (poolRegion s.unit pool segments)).afterStores (buildStores pool s.unit segments) }
        slot (builtRing pool n) := by
  subst h
  rfl

/-- A ring's registers and memory are no matter of the segments of the next. -/
theorem State.setupSegments_withRing (s : State) (slot : Slot) (segments : List Segment) (pool : Word)
    (rest : List AllocAnswer) (other : Slot) :
    (s.withRing slot segments pool rest).setupSegments other = s.setupSegments other := by
  cases slot <;> rfl

/-- The state with the arena granted and slot 0's ring built. -/
def State.withRing0 (s : State) (arena pool0 : Word) (answers : List AllocAnswer) : State :=
  (s.withArena arena (.region pool0 :: answers)).withRing .zero (s.planeSegments arena .zero) pool0 answers

/-- The pools of SETUP's rings and their segments, the one granted last first. -/
def State.setupRings (s : State) (arena pool0 pool1 : Word) : List (Word × List Segment) :=
  if s.double then [(pool1, s.planeSegments arena .one), (pool0, s.planeSegments arena .zero)]
  else [(pool0, s.planeSegments arena .zero)]

/-- The state with the arena granted and the rings of the slots that exist built, by what memory then is. -/
def State.withGrants (s : State) (arena pool0 pool1 : Word) (rest : List AllocAnswer) (m : Memory) : State :=
  let granted0 :=
    { base := pool0.toNat, size := 12 * s.setupCount } :: { base := arena.toNat, size := s.arenaBytes } :: s.regions
  { s with
    bpBase := arena
    ring0 := builtRing pool0 s.setupCount
    ring1 := if s.double then builtRing pool1 s.setupCount else s.ring1
    regions := if s.double then { base := pool1.toNat, size := 12 * s.setupCount } :: granted0 else granted0
    allocAnswers := rest
    mem := m }

theorem State.mem_setupRings {s : State} {arena pool0 pool1 : Word} {r : Word × List Segment} :
    r ∈ s.setupRings arena pool0 pool1 ↔
      r = (pool0, s.planeSegments arena .zero) ∨ s.double = true ∧ r = (pool1, s.planeSegments arena .one) := by
  cases hd : s.double <;> simp [State.setupRings, hd, or_comm]

section
variable {s : State} {arena pool0 : Word} {answers : List AllocAnswer}

theorem State.withRing0_eq :
    s.withRing0 arena pool0 answers =
      { s with
        bpBase := arena
        ring0 := builtRing pool0 s.setupCount
        regions :=
          { base := pool0.toNat, size := 12 * s.setupCount } :: { base := arena.toNat, size := s.arenaBytes } :: s.regions
        allocAnswers := answers
        mem :=
          ((s.mem.forget { base := arena.toNat, size := s.arenaBytes }).forget
            (poolRegion s.unit pool0 (s.planeSegments arena .zero))).afterStores
              (buildStores pool0 s.unit (s.planeSegments arena .zero)) } :=
  State.withRing_of_count (s := s.withArena arena (.region pool0 :: answers))
    (s.descriptorCount_planeSegments arena .zero) .zero pool0 answers

variable (hl : s.configLegal = true) (ho : s.order = orderTable s.planes)

include hl ho in
theorem State.withArena_setupSegments (rest : List AllocAnswer) (slot : Slot) :
    (s.withArena arena rest).setupSegments slot = s.planeSegments arena slot :=
  State.setupSegments_of_sched slot (s := s.withArena arena rest) (State.planes_le_of_configLegal hl) ho

variable (hr : s.regionLegal s.arenaBytes [s.namedList] arena = true)
  (hr0 : ({ s with regions := { base := arena.toNat, size := s.arenaBytes } :: s.regions } : State).regionLegal
    (12 * s.setupCount) [s.namedList] pool0 = true)
include hl hr hr0

theorem State.withRing0_namedList : (s.withRing0 arena pool0 answers).namedList = s.namedList := by
  have hcount : descriptorCount s.unit (s.planeSegments arena .zero) = s.setupCount :=
    s.descriptorCount_planeSegments arena .zero
  have hlist := State.withArena_namedList hr (.region pool0 :: answers)
  rw [← hcount, ← hlist] at hr0
  have hlegal := (State.regionLegal_congr (s := s.withArena arena (.region pool0 :: answers)) rfl rfl rfl rfl rfl
    _ _ _).trans hr0
  exact (State.withRing_namedList (hcount.symm ▸ State.setupCount_pos hl) hlegal answers).trans hlist

include ho

/-- With slot 0's pool granted its ring is built, and SETUP comes to the other slot where there is one. -/
theorem State.buildRings_of_pool0 :
    (s.withArena arena (.region pool0 :: answers)).buildRings s.slots =
      (s.withRing0 arena pool0 answers).buildRings s.slots.tail := by
  have hsegments := State.withArena_setupSegments (arena := arena) hl ho (.region pool0 :: answers) .zero
  have hcount : descriptorCount (s.withArena arena (.region pool0 :: answers)).unit (s.planeSegments arena .zero) =
      s.setupCount := s.descriptorCount_planeSegments arena .zero
  obtain ⟨slots, hslots⟩ := s.slots_eq_cons
  rw [← hcount, ← State.withArena_namedList hr (.region pool0 :: answers)] at hr0
  rw [hslots, State.buildRings_granted slots (hsegments ▸ hcount.symm ▸ State.setupCount_pos hl) rfl
    (hsegments.symm ▸ hr0), hsegments]
  rfl

/-- With slot 1's pool granted as well its ring is built. -/
theorem State.buildRings_of_pool1 {pool1 : Word} {rest : List AllocAnswer} (hanswers : answers = .region pool1 :: rest)
    (hr1 : (s.withRing0 arena pool0 answers).regionLegal (12 * s.setupCount) [s.namedList] pool1 = true) :
    (s.withRing0 arena pool0 answers).buildRings [.one] =
      .on ((s.withRing0 arena pool0 answers).withRing .one (s.planeSegments arena .one) pool1 rest) := by
  have hsegments : (s.withRing0 arena pool0 answers).setupSegments .one = s.planeSegments arena .one :=
    (State.setupSegments_withRing ..).trans (State.withArena_setupSegments hl ho _ .one)
  have hcount : descriptorCount (s.withRing0 arena pool0 answers).unit (s.planeSegments arena .one) = s.setupCount :=
    s.descriptorCount_planeSegments arena .one
  rw [← hcount, ← State.withRing0_namedList hl hr hr0] at hr1
  rw [State.buildRings_granted [] (hsegments ▸ hcount.symm ▸ State.setupCount_pos hl) hanswers (hsegments.symm ▸ hr1),
    hsegments]
  rfl

/-- SETUP's rings after SCHED, with every pool granted (44_setup_control.md rule R253). -/
theorem State.buildRings_of_granted {pool1 : Word} {rest : List AllocAnswer}
    (hr1 : s.double = true →
      ({ s with
        regions :=
          { base := pool0.toNat, size := 12 * s.setupCount } :: { base := arena.toNat, size := s.arenaBytes } ::
            s.regions } : State).regionLegal (12 * s.setupCount) [s.namedList] pool1 = true) :
    ∃ m,
      (s.withArena arena (.region pool0 :: (if s.double then .region pool1 :: rest else rest))).buildRings s.slots =
        .on (s.withGrants arena pool0 pool1 rest m) ∧
      s.mem.RingsMade s.unit { base := arena.toNat, size := s.arenaBytes } (s.setupRings arena pool0 pool1) m := by
  have hinside := State.fits_of_regionLegal hr
  have hring0 := (s.mem.ringsMade_forget s.unit { base := arena.toNat, size := s.arenaBytes }).buildPlanes hl hinside
    (slot := .zero) (by simp [State.slotExists]) hr0 List.mem_cons_self (by simp)
  rw [State.buildRings_of_pool0 hl ho hr hr0]
  by_cases hd : s.double = true
  · have hring1 := hring0.buildPlanes hl hinside (slot := .one) (by simp [State.slotExists, hd]) (hr1 hd)
      (List.mem_cons_of_mem _ List.mem_cons_self) (by simp)
    have hlegal : (s.withRing0 arena pool0 (.region pool1 :: rest)).regionLegal (12 * s.setupCount) [s.namedList] pool1 =
        true := by
      rw [State.withRing0_eq]
      exact hr1 hd
    refine ⟨_, ?_, by rw [State.setupRings, if_pos hd]; exact hring1⟩
    simp only [State.withGrants, if_pos hd]
    rw [State.slots_of_double hd, List.tail_cons, State.buildRings_of_pool1 hl ho hr hr0 rfl hlegal,
      State.withRing_of_count (s := s.withRing0 arena pool0 (.region pool1 :: rest))
        (s.descriptorCount_planeSegments arena .one), State.withRing0_eq]
    rfl
  · refine ⟨_, ?_, by rw [State.setupRings, if_neg hd]; exact hring0⟩
    simp only [State.withGrants, State.slots, if_neg hd, List.tail_cons]
    rw [State.withRing0_eq]
    rfl

end

/-- ORDER_LEN, PLANE_SIZE and ORDER as SETUP leaves them (43_scheduler.md rule R231, 00_scope.md rule R15). -/
theorem State.beginSetup_tables {s : State} (hp : s.phase = .unconfigured) (hl : s.configLegal = true) :
    s.beginSetup.planeSize.toNat = s.panelWidth * s.panelHeight ∧ s.beginSetup.orderLen.toNat = 2 ^ s.planes - 1 ∧
      (∀ k, k < 2 ^ s.planes - 1 → (s.beginSetup.orderAt k).toNat = (ordering s.planes).getD k 0) ∧
      ∀ k, 2 ^ s.planes - 1 ≤ k → k < 255 → s.beginSetup.orderAt k = 0#4 := by
  obtain ⟨-, -, -, hh, h1, h8, -⟩ := State.configLegal_bounds hl
  have hfailed : s.phase ≠ .failed := by simp [hp]
  obtain ⟨t, hexec, horder, hzero, -, hlen, -⟩ := scheduleWritesTheOrdering s hfailed h1 h8
  rw [exec_schedule_of_legal (checkSchedule_eq_none.mpr ⟨hfailed, h1, h8⟩)] at hexec
  cases hexec
  have hbytes : s.panelWidth * s.panelHeight ≤ 2 ^ 16 * 32 := Nat.mul_le_mul s.width.isLt.le hh
  exact ⟨Nat.mod_eq_of_lt (show s.panelWidth * s.panelHeight < 2 ^ 32 by omega), hlen, horder, hzero⟩

/-- What SETUP has changed once it ends, where `b` is the state as SCHED and PLANE_SIZE leave it. -/
theorem State.finishSetup_withGrants {s b : State}
    (hb : b = { s with order := b.order, orderLen := b.orderLen, cnt := b.cnt, planeSize := b.planeSize })
    (arena pool0 pool1 : Word) (rest : List AllocAnswer) (m : Memory) :
    (b.withGrants arena pool0 pool1 rest m).finishSetup =
      { s.withGrants arena pool0 pool1 rest m with
        phase := .ready, sel := .zero
        order := b.order, orderLen := b.orderLen, cnt := b.cnt, planeSize := b.planeSize
        err := .ok, check := 0#8, entry := 0#16, inFlight := none } :=
  congrArg (fun b : State => (b.withGrants arena pool0 pool1 rest m).finishSetup) hb

/-- Settles O39: the grants and the stores, slot 0's ring first, then SETUP's end. -/
theorem setupBuildsTheRings : Obligations.SetupBuildsTheRings := by
  intro s arena pool0 pool1 rest hp hl ha
  rw [← State.arenaBytes_eq s]
  intro size n granted granted0 segments ring hr hr0 hr1
  obtain ⟨hplaneSize, horderLen, horder, hzero⟩ := State.beginSetup_tables hp hl
  have hlegal (regions : List Region) (size : Nat) (avoid : List Region) (base : Word) :
      ({ s.beginSetup with regions := regions } : State).regionLegal size avoid base =
        ({ s with regions := regions } : State).regionLegal size avoid base :=
    State.regionLegal_congr rfl rfl rfl rfl rfl _ _ _
  obtain ⟨m, hrings, hmade⟩ := State.buildRings_of_granted (s := s.beginSetup) hl rfl ((hlegal ..).trans hr)
    ((hlegal ..).trans hr0) (fun hd => (hlegal ..).trans (hr1 hd)) (rest := rest)
  have hexec : exec .setup s = .next (s.beginSetup.withGrants arena pool0 pool1 rest m).finishSetup := by
    rw [exec_setup_of_arena hp hl ha hr]
    exact congrArg (fun x : Flow => (x.andThen fun u => .on u.finishSetup).outcome) hrings
  have hcount : (chunksOf s.unit (segments .zero)).length = n :=
    (chunksOf_length _ _).trans (s.descriptorCount_planeSegments arena .zero)
  refine ⟨_, hexec, hplaneSize, horderLen, horder, hzero, ?_, fun hd => ?_, hcount, hmade.free,
    fun a harena hpool0 hpool1 => hmade.outside a harena fun r hr => ?_, ?_⟩
  · exact hmade.built (pool0, segments .zero) (State.mem_setupRings.mpr (.inl rfl))
  · exact hmade.built (pool1, segments .one) (State.mem_setupRings.mpr (.inr ⟨hd, rfl⟩))
  · obtain rfl | ⟨hd, rfl⟩ := State.mem_setupRings.mp hr
    · rwa [State.poolRegion_planeSegments]
    · rw [State.poolRegion_planeSegments]
      exact hpool1 hd
  · exact State.finishSetup_withGrants rfl arena pool0 pool1 rest m

end Sys2Proof.Machine
end

section
/-!
A command in flight (44_setup_control.md R262, R264): what its block steps touch before the one that completes it, and
that each is a step towards its end.
-/
namespace Sys2Proof.Machine

/-! How far a command is -/

/-- The parts of a command from a stage on: its checks, its list or its arena, then a pool and the stores of its ring for
each slot, slot 0's first, and its end. -/
def Stage.partsLeft : Stage → Nat
  | .begin => 8
  | .list _ _ _ => 7
  | .arena => 7
  | .pool _ slot _ => 6 - 2 * slot.toNat
  | .fill _ slot _ _ => 5 - 2 * slot.toNat
  | .rejected _ => 1
  | .allocFailed _ => 1
  | .startLinks _ _ => 1
  | .flipLinks _ _ => 1
  | .words _ _ => 1

/-- The accesses of the part a stage is in that are still to be made, at the most. -/
def Stage.stepsLeft : Stage → Nat
  | .list _ got ptr => 2 * (maxSegments - got.length) + (if ptr.isNone then 1 else 0)
  | .fill _ _ _ left => left.length
  | .startLinks _ left => left.length
  | .flipLinks _ left => left.length
  | .words _ jobs => accessesLeft jobs
  | .begin => 0
  | .arena => 0
  | .pool _ _ _ => 0
  | .rejected _ => 0
  | .allocFailed _ => 0

/-- What is left of a command at a stage, the part before the access. -/
def Stage.left (stage : Stage) : ℕ ×ₗ ℕ := toLex (stage.partsLeft, stage.stepsLeft)

theorem Stage.left_lt_of_part {p q : Stage} (h : p.partsLeft < q.partsLeft) : p.left < q.left :=
  Prod.Lex.toLex_lt_toLex.mpr (.inl h)

theorem Stage.left_lt_of_step {p q : Stage} (h : p.partsLeft = q.partsLeft) (hs : p.stepsLeft < q.stepsLeft) :
    p.left < q.left :=
  Prod.Lex.toLex_lt_toLex.mpr (.inr ⟨h, hs⟩)

/-- An entry of the list read takes BUILD_RING to the next one or beyond the list (40_chain_builder.md rule R148). -/
theorem Stage.left_listStage_lt (unit : Nat) (slot : Slot) (got : List Segment) (p : Word) (ptr len : Nat) :
    (listStage unit slot got ptr len).left < (Stage.list slot got (some p)).left := by
  have hslot : slot.toNat ≤ 1 := by cases slot <;> decide
  unfold listStage
  split
  · split <;> exact Stage.left_lt_of_part (by simp only [Stage.partsLeft]; omega)
  · exact Stage.left_lt_of_part (by simp only [Stage.partsLeft]; omega)
  · split
    · refine Stage.left_lt_of_step rfl ?_
      simp only [Stage.stepsLeft, List.length_append, List.length_singleton, Option.isNone_none, Option.isNone_some,
        if_true, Bool.false_eq_true, if_false]
      omega
    · exact Stage.left_lt_of_part (by simp only [Stage.partsLeft]; omega)

/-! What a block step is -/

/-- Memory and the allocator's record, answers and counter: all that the accesses and calls of a command change before
the step that completes it (10_state.md rule R60; log 15). -/
def State.Accesses (s u : State) : Prop :=
  u = { s with mem := u.mem, regions := u.regions, allocAnswers := u.allocAnswers, draws := u.draws }

theorem State.Accesses.refl (s : State) : s.Accesses s := rfl

theorem State.accesses_withMem (s : State) (m : Memory) : s.Accesses { s with mem := m } := rfl

theorem State.accesses_takeAnswer (s : State) : s.Accesses s.takeAnswer := by
  unfold State.takeAnswer
  split <;> rfl

theorem State.accesses_grant (s : State) (r : Region) : s.Accesses (s.takeAnswer.grant r) := by
  unfold State.takeAnswer
  split <;> rfl

/-- What a block step of a command comes to: no step (60_exceptions.md rule R286), the command's end, or an access or
call after which less of the command is left. -/
inductive State.BlockKind (s : State) (c : InFlight) (t : State) : Prop
  | stuck (h : t = s)
  | ends (h : t.inFlight = none)
  | goes (u : State) (stage : Stage) (hu : s.Accesses u) (hs : stage.left < c.stage.left) (ht : t = u.toStage stage)

theorem State.toStage_self {s : State} {c : InFlight} (h : s.inFlight = some c) : s.toStage c.stage = s := by
  unfold State.toStage
  rw [h, Option.map_some, ← h]

/-- One access of ENCODE: none can be made, all are made, a lane that is not read yet, or a word's write
(42_encoder.md rule R209). -/
theorem State.wordStep_progress (s : State) (c : InFlight) (choice : Nat) (slot : Slot) (jobs : List WordJob) :
    s.wordStep c choice slot jobs = s ∨ s.wordStep c choice slot jobs = s.succeed ∨
      ∃ before j after, jobs = before ++ j :: after ∧
        ((∃ lane b, j.lanes.getD lane none = none ∧
            s.wordStep c choice slot jobs = s.toStage (.words slot (before ++ j.read lane b :: after))) ∨
          ∃ m, s.wordStep c choice slot jobs =
            ({ s with mem := m } : State).toStage (.words slot (before ++ after))) := by
  by_cases hne : jobs = []
  · subst hne
    exact .inr (.inl rfl)
  have hpick := wordMoves_pick hne choice
  simp only [State.wordStep]
  generalize (wordMoves 0 jobs).getD (choice % (wordMoves 0 jobs).length) (0, 0) = pick at hpick ⊢
  obtain ⟨i, access⟩ := pick
  obtain ⟨before, j, after, rfl, rfl, hmove⟩ := mem_wordMoves hpick
  rcases WordJob.mem_moves hmove with ⟨hl, hnone⟩ | ⟨rfl, -⟩
  · cases hload : s.mem.load (s.laneAddr c.fbBase.toNat j.row j.col access) 1 with
    | none => exact .inl (by simp [hl, hload])
    | some b =>
      exact .inr (.inr ⟨before, j, after, rfl, .inl ⟨access, BitVec.ofNat 8 b, hnone, by simp [hl, hload, WordJob.read]⟩⟩)
  · cases hstore : s.mem.store (s.wordAddr slot j.plane j.row j.col) 2 (s.wordFrom j.plane j.row j.col j.bytes).toNat with
    | none => exact .inl (by simp [hstore])
    | some m =>
      exact .inr (.inr ⟨before, j, after, rfl, .inr ⟨m, by simp [hstore, List.eraseIdx_append_of_length_le]⟩⟩)

theorem WordJob.accesses_pos (j : WordJob) : 1 ≤ j.accesses := Nat.le_add_left ..

/-- A lane that a job has no place for reads as nothing new. -/
theorem WordJob.read_of_length_le {j : WordJob} {lane : Nat} (h : j.lanes.length ≤ lane) (b : Byte) :
    j.read lane b = j := by
  rw [WordJob.read, List.set_eq_of_length_le h]

theorem WordJob.accesses_read_lt {j : WordJob} {lane : Nat} (hl : lane < j.lanes.length)
    (hnone : j.lanes.getD lane none = none) (b : Byte) : (j.read lane b).accesses < j.accesses := by
  rw [List.getD_eq_getElem _ _ hl] at hnone
  have hpos : 0 < j.lanes.countP Option.isNone := List.countP_pos_iff.mpr ⟨_, List.getElem_mem hl, by simp [hnone]⟩
  simp only [WordJob.accesses, WordJob.read, List.countP_set hl, hnone, Option.isNone_none, Option.isNone_some, if_true,
    Bool.false_eq_true, if_false]
  omega

theorem State.beginCommand_kind (s : State) {c : InFlight} (hstage : c.stage = .begin) (i : Instr) :
    s.BlockKind c (s.beginCommand c i) := by
  have hgo (stage : Stage) (hlt : stage.partsLeft < 8) : s.BlockKind c (s.toStage stage) :=
    .goes s stage (.refl s) (hstage ▸ Stage.left_lt_of_part hlt) rfl
  have hcheck (e : Option Error) (next : State) (hnext : s.BlockKind c next) : s.BlockKind c (s.rejectOr e next) := by
    cases e with
    | none => exact hnext
    | some e => exact .ends rfl
  cases i with
  | nop => exact .ends rfl
  | setup => exact hcheck _ _ (hgo _ (by simp [Stage.partsLeft]))
  | schedule => exact hcheck _ _ (.ends rfl)
  | buildRing slot => exact hcheck _ _ (hgo _ (by simp [Stage.partsLeft]))
  | start slot => exact hcheck _ _ (hgo _ (by simp [Stage.partsLeft]))
  | activate slot =>
    refine hcheck _ _ ?_
    split
    · exact .ends rfl
    · exact hcheck _ _ (hgo _ (by simp [Stage.partsLeft]))
  | encode slot => exact hcheck _ _ (hgo _ (by simp [Stage.partsLeft]))

theorem State.beginWord_kind (s : State) {c : InFlight} (hstage : c.stage = .begin) :
    s.BlockKind c (s.beginWord c) := by
  unfold State.beginWord
  split
  · exact .ends rfl
  · exact s.beginCommand_kind hstage _

theorem State.listStep_kind (s : State) {c : InFlight} {slot : Slot} {got : List Segment} {ptr : Option Word}
    (hstage : c.stage = .list slot got ptr) : s.BlockKind c (s.listStep c slot got ptr) := by
  cases ptr with
  | none =>
    unfold State.listStep
    simp only
    split
    · exact .stuck rfl
    · refine .goes s _ (.refl s) ?_ rfl
      rw [hstage]
      exact Stage.left_lt_of_step rfl (by simp [Stage.stepsLeft])
  | some p =>
    unfold State.listStep
    simp only
    split
    · exact .stuck rfl
    · exact .goes s _ (.refl s) (hstage ▸ Stage.left_listStage_lt ..) rfl

theorem State.arenaStep_kind (s : State) {c : InFlight} (hstage : c.stage = .arena) : s.BlockKind c s.arenaStep := by
  rcases s.arenaStep_cases with h | h | ⟨region, r, segments, h⟩
  · exact .stuck h
  · exact .goes _ _ s.accesses_takeAnswer (hstage ▸ Stage.left_lt_of_part (by simp [Stage.partsLeft])) h
  · exact .goes _ _ (s.accesses_grant region) (hstage ▸ Stage.left_lt_of_part (by simp [Stage.partsLeft, Slot.toNat])) h

theorem State.poolStep_kind (s : State) {c : InFlight} {setup : Option SetupResults} {slot : Slot}
    {segments : List Segment} (hstage : c.stage = .pool setup slot segments) :
    s.BlockKind c (s.poolStep c setup slot segments) := by
  have hslot : slot.toNat ≤ 1 := by cases slot <;> decide
  rcases s.poolStep_cases c setup slot segments with h | h | ⟨region, ring, left, h⟩
  · exact .stuck h
  · refine .goes _ _ s.accesses_takeAnswer (hstage ▸ Stage.left_lt_of_part ?_) h
    simp only [Stage.partsLeft]
    omega
  · refine .goes _ _ (s.accesses_grant region) (hstage ▸ Stage.left_lt_of_part ?_) h
    simp only [Stage.partsLeft]
    omega

/-- A store of a list of stores, or what `done` comes to. -/
theorem State.storeStep_kind {s : State} {c : InFlight} {left : List Store} {again : List Store → Stage} {done : State}
    (hstage : c.stage = again left) (hagain : ∀ w rest, (again rest).left < (again (w :: rest)).left)
    (hdone : s.BlockKind c done) : s.BlockKind c (s.storeStep left again done) := by
  rcases s.storeStep_cases left again done with ⟨-, h⟩ | ⟨w, rest, rfl, -, h⟩ | h
  · rwa [h]
  · exact .goes _ _ (s.accesses_withMem _) (hstage ▸ hagain w rest) h
  · exact .stuck h

theorem State.afterRing_kind (s : State) {c : InFlight} {setup : Option SetupResults} {slot : Slot} {ring : Ring}
    {left : List Store} (hstage : c.stage = .fill setup slot ring left) :
    s.BlockKind c (s.afterRing setup slot ring) := by
  unfold State.afterRing
  cases setup with
  | none => exact .ends rfl
  | some r =>
    simp only
    split
    · rename_i hd
      obtain ⟨-, rfl⟩ := hd
      exact .goes s _ (.refl s) (hstage ▸ Stage.left_lt_of_part (by simp [Stage.partsLeft, Slot.toNat])) rfl
    · exact .ends rfl

section
variable {s : State} {c : InFlight} (hc : s.inFlight = some c)
include hc

theorem State.wordStep_kind {slot : Slot} {jobs : List WordJob} (hstage : c.stage = .words slot jobs) (choice : Nat) :
    s.BlockKind c (s.wordStep c choice slot jobs) := by
  rcases s.wordStep_progress c choice slot jobs with h | h | ⟨before, j, after, rfl, ⟨lane, b, hnone, h⟩ | ⟨m, h⟩⟩
  · exact .stuck h
  · exact .ends (by rw [h, State.succeed_inFlight])
  · by_cases hl : lane < j.lanes.length
    · refine .goes s _ (.refl s) ?_ h
      rw [hstage]
      refine Stage.left_lt_of_step rfl ?_
      have := WordJob.accesses_read_lt hl hnone b
      simp only [Stage.stepsLeft, accessesLeft_append_cons]
      omega
    · refine .stuck (h.trans ?_)
      rw [WordJob.read_of_length_le (by omega), ← hstage, State.toStage_self hc]
  · refine .goes _ _ (s.accesses_withMem m) ?_ h
    rw [hstage]
    refine Stage.left_lt_of_step rfl ?_
    have := j.accesses_pos
    simp only [Stage.stepsLeft, accessesLeft_append_cons]
    omega

/-- A block step of a command in flight, by the stage the command is at (44_setup_control.md rule R262). -/
theorem State.blockStep_kind (choice : Nat) : s.BlockKind c (s.blockStep choice) := by
  have hlength (stage : List Store → Stage) (hparts : ∀ left, (stage left).partsLeft = (stage []).partsLeft)
      (hsteps : ∀ left, (stage left).stepsLeft = left.length) (w : Store) (rest : List Store) :
      (stage rest).left < (stage (w :: rest)).left :=
    Stage.left_lt_of_step ((hparts _).trans (hparts _).symm) (by simp [hsteps])
  simp only [State.blockStep, hc]
  cases hstage : c.stage with
  | begin => exact s.beginWord_kind hstage
  | list slot got ptr => exact s.listStep_kind hstage
  | arena => exact s.arenaStep_kind hstage
  | pool setup slot segments => exact s.poolStep_kind hstage
  | fill setup slot ring left =>
    exact State.storeStep_kind hstage (hlength _ (fun _ => rfl) fun _ => rfl) (s.afterRing_kind hstage)
  | rejected e => exact .ends rfl
  | allocFailed setup => exact .ends rfl
  | startLinks slot left => exact State.storeStep_kind hstage (hlength _ (fun _ => rfl) fun _ => rfl) (.ends rfl)
  | flipLinks slot left => exact State.storeStep_kind hstage (hlength _ (fun _ => rfl) fun _ => rfl) (.ends rfl)
  | words slot jobs => exact State.wordStep_kind hc hstage choice

end

/-! What the host sees of a command in flight -/

theorem State.Accesses.readReg {s u : State} (h : s.Accesses u) (off : Nat) : u.readReg off = s.readReg off := by
  rw [h]
  rfl

/-- The position of a command shows in no register (10_state.md rule R60; log 15). -/
theorem State.readReg_toStage (s : State) (stage : Stage) (off : Nat) : (s.toStage stage).readReg off = s.readReg off := by
  have hstatus : (s.toStage stage).status = s.status := by
    simp [State.status, State.busy]
  unfold State.readReg
  rw [hstatus]
  rfl

/-- A write of a word to CMD that nothing keeps off, in a turn that accepts commands (log 2). -/
theorem State.hostWrite_accept {s : State} {op : HostOp} {ops : List HostOp} {w : Word} (hops : s.hostOps = op :: ops)
    (hi : s.inFlight = none) (hl : s.lapBlocked w = false) (hr : s.launchRefused w = false) :
    s.hostWrite false cmdOffset w = .next (({ s with hostOps := ops } : State).accept w) := by
  simp [State.hostWrite, State.busy, statusOffset, cmdOffset, hi, hl, hr, State.popHostOp_of_cons hops]

/-- Settles O6: acceptance by computing the host's turn; the registers by what a block step that does not complete its
command can change. -/
theorem acceptanceLatchesTheCommand : Obligations.AcceptanceLatchesTheCommand := by
  refine ⟨fun s ts ops w hturn hops hi hl hr => ?_, fun s choice off hflight => ?_⟩
  · rw [step_host_wr false hturn hops]
    exact State.hostWrite_accept (s := { s with turns := ts }) hops hi hl hr
  · cases hc : s.inFlight with
    | none => simp only [State.blockStep, hc]
    | some c =>
      rcases State.blockStep_kind hc choice with h | h | ⟨u, stage, hu, -, h⟩
      · rw [h]
      · exact absurd h hflight
      · rw [h, State.readReg_toStage, hu.readReg]

/-! A command in flight over a run -/

/-- One step with a command in flight: the command's end, by a reset too, a block step, or a step of another agent that
leaves the command where it is. -/
theorem step_inFlight {s t : State} (h : step s = .next t) {c : InFlight} (hc : s.inFlight = some c) :
    t.inFlight = none ∨ (s.blockTurn = false ∧ t.inFlight = some c) ∨
      ∃ choice, s.whoseTurn = .block choice ∧ t = s.takeTurn.blockStep choice := by
  have hturn : s.takeTurn.inFlight = some c := s.takeTurn_inFlight.trans hc
  rcases step_cases h with hb | ⟨linkNow, hw, rfl⟩ | ⟨-, rfl⟩ | ⟨whole, hw, hs⟩
  · exact .inr (.inr hb)
  · exact .inr (.inl ⟨by simp [State.blockTurn, hw],
      (congrArg BlockView.inFlight (State.view_consumerStep _ linkNow)).trans hturn⟩)
  · exact .inl rfl
  have hhost : s.blockTurn = false := by cases whole <;> simp [State.blockTurn, hw]
  rcases State.hostStep_cases hs with rfl | rfl | ⟨n, rfl⟩ | ⟨off, rfl⟩ | ⟨off, v, -, -, hs⟩ | ⟨size, addr, v, hs⟩ |
    ⟨-, rfl⟩
  · exact .inr (.inl ⟨hhost, hturn⟩)
  · exact .inr (.inl ⟨hhost, hturn⟩)
  · exact .inr (.inl ⟨hhost, hturn⟩)
  · exact .inr (.inl ⟨hhost, hturn⟩)
  · have hbusy : s.takeTurn.busy = true := by rw [State.busy, hturn]; rfl
    rcases State.hostWrite_cases hs with ⟨-, rfl⟩ | ⟨-, -, rfl⟩ | ⟨-, hb, -⟩ | ⟨-, hb, -⟩ | ⟨-, hb, -⟩ | ⟨-, -, hb, -⟩
    · exact .inr (.inl ⟨hhost, by rw [State.writeStatus_eq]; exact hturn⟩)
    · exact .inr (.inl ⟨hhost, hturn⟩)
    all_goals simp [hbusy] at hb
  · obtain ⟨-, -, -, rfl⟩ := State.hostMemWrite_cases hs
    exact .inr (.inl ⟨hhost, hturn⟩)
  · exact .inl rfl

/-- A step leaves no more of a command than there was, and a block step that can be made leaves less. -/
theorem step_left {s t : State} (h : step s = .next t) (hfree : ¬ s.blockStuck) {c : InFlight}
    (hc : s.inFlight = some c) (ht : t.inFlight ≠ none) :
    ∃ c', t.inFlight = some c' ∧ c'.stage.left ≤ c.stage.left ∧
      (s.blockTurn = true → c'.stage.left < c.stage.left) := by
  rcases step_inFlight h hc with hn | ⟨hb, hsame⟩ | ⟨choice, hw, rfl⟩
  · exact absurd hn ht
  · exact ⟨c, hsame, le_rfl, by simp [hb]⟩
  · have hturn : s.takeTurn.inFlight = some c := s.takeTurn_inFlight.trans hc
    rcases State.blockStep_kind hturn choice with hk | hk | ⟨u, stage, hu, hlt, hk⟩
    · exact absurd ⟨choice, hw, by simp [hc], hk⟩ hfree
    · exact absurd hk ht
    · have hui : u.inFlight = some c := (congrArg State.inFlight hu).trans hturn
      exact ⟨{ c with stage := stage }, by rw [hk, State.toStage_inFlight, hui]; rfl, hlt.le, fun _ => hlt⟩

section
variable {run : Nat → State} (hrun : IsRun run) (hfair : FairToTheBlock run) (hfree : ∀ n, ¬ (run n).blockStuck)
include hrun hfree

theorem left_le_of_inFlight {n : Nat} {c : InFlight} (hc : (run n).inFlight = some c)
    (hall : ∀ m, n ≤ m → (run m).inFlight ≠ none) (k : Nat) :
    ∃ c', (run (n + k)).inFlight = some c' ∧ c'.stage.left ≤ c.stage.left := by
  induction k with
  | zero => exact ⟨c, hc, le_rfl⟩
  | succ k ih =>
    obtain ⟨c', hc', hle⟩ := ih
    obtain ⟨c'', hc'', hle', -⟩ := step_left (hrun _) (hfree _) hc' (hall _ (by omega))
    exact ⟨c'', hc'', hle'.trans hle⟩

include hfair

/-- No command stays in flight for good: every block turn the fairness gives leaves less of it (44_setup_control.md rule
R264). -/
theorem not_inFlight_forever (n : Nat) : ¬ ∀ m, n ≤ m → (run m).inFlight ≠ none := by
  intro hall
  obtain ⟨c, hc⟩ := Option.ne_none_iff_exists'.mp (hall n le_rfl)
  induction hx : c.stage.left using WellFoundedLT.induction generalizing n c with
  | ind x ih =>
    subst hx
    obtain ⟨m, hm, hturn⟩ := hfair n hall
    obtain ⟨k, rfl⟩ := Nat.exists_eq_add_of_le hm
    obtain ⟨c1, hc1, hle⟩ := left_le_of_inFlight hrun hfree hc hall k
    obtain ⟨c2, hc2, -, hlt⟩ := step_left (hrun _) (hfree _) hc1 (hall _ (by omega))
    exact ih _ ((hlt hturn).trans_le hle) (n + k + 1) (fun m hm => hall m (by omega)) c2 hc2 rfl

end

end Sys2Proof.Machine
end

section
/-!
What a command does not look at (44_setup_control.md R264): a change of the state that accesses and allocator calls look
past can be made before or after them, and so the consumer, and the position of a command in flight.
-/
namespace Sys2Proof.Machine

/-! Changes that accesses and allocator calls look past -/

/-- A change of the state that commutes with writes and with the allocator's changes, and that leaves what accesses and
allocator calls read. -/
structure LooksPast (f : State → State) : Prop where
  setMem : ∀ (s : State) (m : Memory), f { s with mem := m } = { f s with mem := m }
  setRegions : ∀ (s : State) (r : List Region), f { s with regions := r } = { f s with regions := r }
  setAnswers : ∀ (s : State) (a : List AllocAnswer), f { s with allocAnswers := a } = { f s with allocAnswers := a }
  setDraws : ∀ (s : State) (d : Nat), f { s with draws := d } = { f s with draws := d }
  params : ∀ s, (f s).params = s.params
  fbBase : ∀ s, (f s).fbBase = s.fbBase
  seglist : ∀ s, (f s).seglist = s.seglist
  width : ∀ s, (f s).width = s.width
  height : ∀ s, (f s).height = s.height

/-- The change, made to what an allocator call comes to. -/
def Alloc.map (f : State → State) : Alloc → Alloc
  | .silent => .silent
  | .failed s => .failed (f s)
  | .granted base s => .granted base (f s)

/-- The change, made where a command stands. -/
def Flow.map (f : State → State) : Flow → Flow
  | .on s => .on (f s)
  | .over s => .over (f s)
  | .stuck r => .stuck r

theorem Flow.map_andThen {f : State → State} (x : Flow) {k k' : State → Flow} (h : ∀ s, k' (f s) = (k s).map f) :
    (x.map f).andThen k' = (x.andThen k).map f := by
  rcases x with s | s | r
  · exact h s
  · rfl
  · rfl

theorem Flow.outcome_map {f : State → State} {x : Flow} {t : State} (h : x.outcome = .next t) :
    (x.map f).outcome = .next (f t) := by
  rcases Flow.outcome_eq_next.mp h with rfl | rfl <;> rfl

theorem State.takeAnswer_of_nil {s : State} (h : s.allocAnswers = []) :
    s.takeAnswer = { s with draws := s.draws + 1 } := by
  rw [State.takeAnswer, h]

theorem State.takeAnswer_of_cons {s : State} {a : AllocAnswer} {rest : List AllocAnswer}
    (h : s.allocAnswers = a :: rest) : s.takeAnswer = { s with allocAnswers := rest } := by
  rw [State.takeAnswer, h]

namespace LooksPast

variable {f : State → State} (hf : LooksPast f)
include hf

theorem mem (s : State) : (f s).mem = s.mem := (congrArg State.mem (hf.setMem s s.mem)).trans rfl

theorem regions (s : State) : (f s).regions = s.regions := (congrArg State.regions (hf.setRegions s s.regions)).trans rfl

theorem allocAnswers (s : State) : (f s).allocAnswers = s.allocAnswers :=
  (congrArg State.allocAnswers (hf.setAnswers s s.allocAnswers)).trans rfl

theorem draws (s : State) : (f s).draws = s.draws := (congrArg State.draws (hf.setDraws s s.draws)).trans rfl

theorem namedList (s : State) : (f s).namedList = s.namedList := by
  simp only [State.namedList, hf.seglist, hf.mem]

theorem nextAnswer (s : State) : (f s).nextAnswer = s.nextAnswer := by
  simp only [State.nextAnswer, hf.allocAnswers, hf.draws]

theorem takeAnswer (s : State) : (f s).takeAnswer = f s.takeAnswer := by
  cases ha : s.allocAnswers with
  | nil =>
    rw [State.takeAnswer_of_nil ha, State.takeAnswer_of_nil ((hf.allocAnswers s).trans ha), hf.draws]
    exact (hf.setDraws s _).symm
  | cons a rest =>
    rw [State.takeAnswer_of_cons ha, State.takeAnswer_of_cons ((hf.allocAnswers s).trans ha)]
    exact (hf.setAnswers s rest).symm

theorem grant (s : State) (r : Region) : (f s).grant r = f (s.grant r) := by
  have hforget : f { s with mem := s.mem.forget r } = { f s with mem := s.mem.forget r } := hf.setMem s _
  have hrecord := hf.setRegions { s with mem := s.mem.forget r } (r :: s.regions)
  rw [hforget] at hrecord
  rw [State.grant, hf.mem, hf.regions]
  exact hrecord.symm

/-- An allocator call after the change is the change after the call (60_exceptions.md rule R302). -/
theorem alloc (s : State) (size : Nat) (avoid : List Region) :
    (f s).alloc size avoid = (s.alloc size avoid).map f := by
  have hlegal (base : Word) : (f s).regionLegal size avoid base = s.regionLegal size avoid base :=
    State.regionLegal_congr (hf.regions s) (hf.params s) (hf.fbBase s) (hf.width s) (hf.height s) _ _ _
  unfold State.alloc
  simp only [hf.nextAnswer, hf.takeAnswer, hf.grant, hlegal]
  cases s.nextAnswer with
  | silent => rfl
  | fail => rfl
  | region base =>
    simp only
    split <;> rfl

theorem store (s : State) (w : Store) : (f s).store w = (s.store w).map f := by
  rw [State.store_eq, State.store_eq, hf.mem]
  split
  · exact congrArg Flow.on (hf.setMem s _).symm
  · rfl

/-- Stores after the change are the change after the stores (20_memory.md rule R84). -/
theorem storeAll (s : State) (ws : List Store) : (f s).storeAll ws = (s.storeAll ws).map f := by
  induction ws generalizing s with
  | nil => rfl
  | cons w rest ih => rw [State.storeAll, hf.store, Flow.map_andThen _ fun t => ih t, State.storeAll]

end LooksPast

/-! The consumer -/

/-- The state with another consumer. -/
def State.withConsumer (c : Consumer) (s : State) : State := { s with consumer := c }

theorem looksPast_withConsumer (c : Consumer) : LooksPast (State.withConsumer c) :=
  ⟨fun _ _ => rfl, fun _ _ => rfl, fun _ _ => rfl, fun _ _ => rfl, fun _ => rfl, fun _ => rfl, fun _ => rfl,
    fun _ => rfl, fun _ => rfl⟩

section
variable (c : Consumer)

theorem State.guard_withConsumer (s : State) (e : Option Error) :
    (s.withConsumer c).guard e = (s.guard e).map (State.withConsumer c) := by
  cases e <;> rfl

theorem State.build_withConsumer (s : State) (slot : Slot) (segments : List Segment) (avoid : List Region) :
    (s.withConsumer c).build slot segments avoid = (s.build slot segments avoid).map (State.withConsumer c) := by
  have hf := looksPast_withConsumer c
  have hunit : (s.withConsumer c).unit = s.unit := rfl
  unfold State.build
  rw [hunit, hf.alloc]
  cases s.alloc (poolBytes s.unit segments) avoid with
  | silent => rfl
  | failed t => rfl
  | granted pool t =>
    simp only [Alloc.map]
    rw [hf.storeAll]
    exact Flow.map_andThen _ fun u => by cases slot <;> rfl

theorem State.buildRings_withConsumer (s : State) (slots : List Slot) :
    (s.withConsumer c).buildRings slots = (s.buildRings slots).map (State.withConsumer c) := by
  induction slots generalizing s with
  | nil => rfl
  | cons slot rest ih =>
    have hsegments : (s.withConsumer c).setupSegments slot = s.setupSegments slot := rfl
    rw [State.buildRings, hsegments, (looksPast_withConsumer c).namedList, State.build_withConsumer,
      Flow.map_andThen _ ih, State.buildRings]

theorem State.allocArena_withConsumer (s : State) :
    (s.withConsumer c).allocArena = s.allocArena.map (State.withConsumer c) := by
  have hbytes : (s.withConsumer c).arenaBytes = s.arenaBytes := rfl
  unfold State.allocArena
  rw [hbytes, (looksPast_withConsumer c).namedList, (looksPast_withConsumer c).alloc]
  cases s.alloc s.arenaBytes [s.namedList] <;> rfl

theorem State.withList_withConsumer (s : State) {k k' : List Segment → Flow}
    (h : ∀ segments, k' segments = (k segments).map (State.withConsumer c)) :
    (s.withConsumer c).withList k' = (s.withList k).map (State.withConsumer c) := by
  have hread : readList (s.withConsumer c).mem (s.withConsumer c).seglist.toNat maxSegments [] =
      readList s.mem s.seglist.toNat maxSegments [] := rfl
  have hunit : (s.withConsumer c).unit = s.unit := rfl
  unfold State.withList
  rw [hread, hunit]
  cases readList s.mem s.seglist.toNat maxSegments [] with
  | stuck => rfl
  | bad e => rfl
  | read segments =>
    simp only
    cases checkList s.unit segments with
    | none => exact h segments
    | some e => rfl

theorem State.encodeWords_withConsumer (s : State) (slot : Slot) (fb : Nat) (ws : List WordPlace) (m : Memory) :
    (s.withConsumer c).encodeWords slot fb ws m = s.encodeWords slot fb ws m := by
  induction ws generalizing m with
  | nil => rfl
  | cons w rest ih =>
    have hword : (s.withConsumer c).encodeWord slot fb w m = s.encodeWord slot fb w m := rfl
    rw [State.encodeWords, State.encodeWords, hword]
    split
    · rfl
    · exact ih _

/-- A command but START does the same whatever the consumer is, and leaves it as it is. -/
theorem exec_withConsumer {s t : State} {i : Instr} (hi : ∀ slot, i ≠ .start slot) (h : exec i s = .next t) :
    exec i (s.withConsumer c) = .next (t.withConsumer c) := by
  cases i with
  | nop => cases h; rfl
  | setup =>
    refine Eq.trans (congrArg Flow.outcome ?_) (Flow.outcome_map h)
    rw [State.guard_withConsumer]
    refine Flow.map_andThen _ fun u => ?_
    have hbegin : (u.withConsumer c).beginSetup = u.beginSetup.withConsumer c := rfl
    rw [hbegin, State.allocArena_withConsumer]
    refine Flow.map_andThen _ fun v => ?_
    have hslots : (v.withConsumer c).slots = v.slots := rfl
    rw [hslots, State.buildRings_withConsumer]
    exact Flow.map_andThen _ fun _ => rfl
  | schedule =>
    refine Eq.trans (congrArg Flow.outcome ?_) (Flow.outcome_map h)
    rw [State.guard_withConsumer]
    exact Flow.map_andThen _ fun _ => rfl
  | buildRing slot =>
    refine Eq.trans (congrArg Flow.outcome ?_) (Flow.outcome_map h)
    rw [State.guard_withConsumer]
    refine Flow.map_andThen _ fun u => State.withList_withConsumer c u fun segments => ?_
    rw [State.build_withConsumer]
    exact Flow.map_andThen _ fun _ => rfl
  | start slot => exact absurd rfl (hi slot)
  | activate slot =>
    refine Eq.trans (congrArg Flow.outcome ?_) (Flow.outcome_map h)
    rw [State.guard_withConsumer]
    refine Flow.map_andThen _ fun u => ?_
    have hdouble : (u.withConsumer c).double = u.double := rfl
    rw [hdouble]
    split
    · rfl
    · rw [State.guard_withConsumer]
      refine Flow.map_andThen _ fun v => ?_
      have hstores : (v.withConsumer c).flipStores slot = v.flipStores slot := rfl
      rw [hstores, (looksPast_withConsumer c).storeAll]
      exact Flow.map_andThen _ fun _ => rfl
  | encode slot =>
    refine Eq.trans (congrArg Flow.outcome ?_) (Flow.outcome_map h)
    rw [State.guard_withConsumer]
    refine Flow.map_andThen _ fun u => ?_
    have hplaces : (u.withConsumer c).places = u.places := rfl
    have hmem : (u.withConsumer c).mem = u.mem := rfl
    have hfb : (u.withConsumer c).fbBase = u.fbBase := rfl
    rw [hplaces, hmem, hfb, State.encodeWords_withConsumer]
    cases u.encodeWords slot u.fbBase.toNat u.places u.mem <;> rfl

/-- START does the same whatever the consumer was: a check ends it, or it starts the consumer anew (41_flip.md rule
R171). -/
theorem exec_start_withConsumer {s t : State} {slot : Slot} (h : exec (.start slot) s = .next t) :
    exec (.start slot) (s.withConsumer c) = .next (t.withConsumer c) ∨ exec (.start slot) (s.withConsumer c) = .next t := by
  have hcheck : checkStart slot (s.withConsumer c) = checkStart slot s := rfl
  cases hc : checkStart slot s with
  | some e =>
    rw [exec_start_of_check hc] at h
    rw [exec_start_of_check (hcheck.trans hc)]
    cases h
    exact .inl rfl
  | none =>
    simp only [exec, execStart, hcheck, hc, State.guard_none, Flow.on_andThen] at h ⊢
    have hstores : (s.withConsumer c).startStores slot = s.startStores slot := rfl
    rw [hstores, (looksPast_withConsumer c).storeAll]
    rcases hx : s.storeAll (s.startStores slot) with u | u | r
    · rw [hx] at h; cases h; exact .inr rfl
    · exact absurd hx (State.storeAll_ne_over _ _ _)
    · rw [hx] at h; cases h

end

/-- Settles O9: no command but START touches the consumer, and START replaces it; a command is taken to its end by the
block's turns. -/
theorem commandsDoNotReadTheConsumer : Obligations.CommandsDoNotReadTheConsumer := by
  refine ⟨fun s t i c h => ?_, fun run hrun hfair hfree n => ?_⟩
  · cases i with
    | start slot =>
      rcases exec_start_withConsumer c h with h | h
      · exact ⟨c, h⟩
      · exact ⟨t.consumer, h⟩
    | nop | setup | schedule | buildRing | activate | encode => exact ⟨c, exec_withConsumer c (by simp) h⟩
  · have hends := not_inFlight_forever hrun hfair hfree n
    push Not at hends
    exact hends

end Sys2Proof.Machine
end

section
/-!
The block steps of a command with no event between (44_setup_control.md R262, R264): part by part they reach what the
whole command does, so a command run in one step is one of the interleavings (20_memory.md R83).
-/
namespace Sys2Proof.Machine

/-! Runs of block steps -/

/-- Block steps with no event between lead from one state to another. -/
def State.Reaches (s t : State) : Prop := ∃ k, s.blockRun (List.replicate k 0) = t

theorem State.Reaches.refl (s : State) : s.Reaches s := ⟨0, rfl⟩

theorem State.Reaches.step {s t : State} (h : (s.blockStep 0).Reaches t) : s.Reaches t := by
  obtain ⟨k, rfl⟩ := h
  exact ⟨k + 1, rfl⟩

theorem State.Reaches.trans {s t u : State} (h : s.Reaches t) (h' : t.Reaches u) : s.Reaches u := by
  obtain ⟨k, rfl⟩ := h
  induction k generalizing s with
  | zero => exact h'
  | succ k ih => exact State.Reaches.step (ih h')

/-- The state with a command in flight at a stage. -/
def State.inStage (c : InFlight) (stage : Stage) (s : State) : State :=
  { s with inFlight := some { c with stage := stage } }

theorem looksPast_inStage (c : InFlight) (stage : Stage) : LooksPast (State.inStage c stage) :=
  ⟨fun _ _ => rfl, fun _ _ => rfl, fun _ _ => rfl, fun _ _ => rfl, fun _ => rfl, fun _ => rfl, fun _ => rfl,
    fun _ => rfl, fun _ => rfl⟩

/-- The results a SETUP in flight has computed are no matter of accesses and calls (log 15). -/
theorem looksPast_commit (setup : Option SetupResults) : LooksPast fun s => s.commit setup := by
  cases setup with
  | none =>
    exact ⟨fun _ _ => rfl, fun _ _ => rfl, fun _ _ => rfl, fun _ _ => rfl, fun _ => rfl, fun _ => rfl, fun _ => rfl,
      fun _ => rfl, fun _ => rfl⟩
  | some r =>
    exact ⟨fun _ _ => rfl, fun _ _ => rfl, fun _ _ => rfl, fun _ _ => rfl, fun _ => rfl, fun _ => rfl, fun _ => rfl,
      fun _ => rfl, fun _ => rfl⟩

/-! Checks -/

/-- A check of a command in flight, and of the whole command: it ends both alike, or both go on. -/
theorem State.reaches_rejectOr {s t next : State} {c : InFlight} {e : Option Error} {k : State → Flow}
    (h : ((s.guard e).andThen k).outcome = .next t) (hgo : e = none → (k s).outcome = .next t → next.Reaches t) :
    ((s.inStage c .begin).rejectOr e next).Reaches t := by
  cases e with
  | none => exact hgo rfl h
  | some e =>
    cases h
    exact .refl _

/-! Stores -/

/-- The stores of a stage, one block step each, then the step that follows the last. -/
theorem State.reaches_stores {c : InFlight} {again : List Store → Stage} {done : State → State}
    (hstep : ∀ (s : State) (left : List Store), (s.inStage c (again left)).blockStep 0 =
      (s.inStage c (again left)).storeStep left again (done (s.inStage c (again left))))
    {s u : State} {left : List Store} (h : s.storeAll left = .on u) :
    (s.inStage c (again left)).Reaches (done (u.inStage c (again []))) := by
  induction left generalizing s with
  | nil =>
    cases h
    refine .step ?_
    rw [hstep]
    exact .refl _
  | cons w rest ih =>
    obtain ⟨v, hv, hrest⟩ := Flow.andThen_eq_on.mp h
    refine .step ?_
    have hnext : (s.inStage c (again (w :: rest))).storeStep (w :: rest) again
        (done (s.inStage c (again (w :: rest)))) = v.inStage c (again rest) := by
      rw [State.storeStep, (looksPast_inStage c _).store, hv]
      rfl
    rw [hstep, hnext]
    exact ih hrest

/-- The stores of a command and its end. -/
theorem State.reaches_storesThen {s t : State} {c : InFlight} {again : List Store → Stage} {done : State → State}
    {left : List Store}
    (hstep : ∀ (s : State) (left : List Store), (s.inStage c (again left)).blockStep 0 =
      (s.inStage c (again left)).storeStep left again (done (s.inStage c (again left))))
    (hdone : ∀ u : State, done (u.inStage c (again [])) = done u)
    (h : ((s.storeAll left).andThen fun u => .on (done u)).outcome = .next t) :
    (s.inStage c (again left)).Reaches t := by
  rcases hx : s.storeAll left with u | u | f
  · rw [hx] at h
    cases h
    exact hdone u ▸ State.reaches_stores hstep hx
  · exact absurd hx (State.storeAll_ne_over _ _ _)
  · rw [hx] at h
    cases h

/-! A ring -/

section
variable {c : InFlight} {setup : Option SetupResults} {slot : Slot} {segments : List Segment} {s : State}

theorem State.alloc_accesses {size : Nat} {avoid : List Region} {base : Word} {v : State}
    (h : s.alloc size avoid = .granted base v) : s.Accesses v := by
  rcases s.alloc_cases size avoid with h' | h' | ⟨base', -, h'⟩ <;> rw [h'] at h <;> cases h
  exact s.accesses_grant _

theorem State.Accesses.storeAll {v u : State} {ws : List Store} (h : s.Accesses v) (hu : v.storeAll ws = .on u) :
    s.Accesses u := by
  obtain ⟨rfl, -⟩ := State.storeAll_cases hu
  rw [h]
  rfl

theorem State.Accesses.double {u : State} (h : s.Accesses u) : u.double = s.double := by
  rw [h]

/-- BUILD's pool call in flight is the whole command's (40_chain_builder.md rule R143). -/
theorem State.poolStep_inStage (stage : Stage) :
    (s.inStage c stage).poolStep c setup slot segments =
      match s.alloc (poolBytes s.unit segments) (s.poolAvoid c setup segments) with
      | .silent => s.inStage c stage
      | .failed v => v.inStage c (.allocFailed setup)
      | .granted pool v =>
        v.inStage c (.fill setup slot (builtRing pool (descriptorCount s.unit segments))
          (buildStores pool s.unit segments)) := by
  have havoid : (s.inStage c stage).poolAvoid c setup segments = s.poolAvoid c setup segments := by
    cases setup <;> rfl
  have hunit : (s.inStage c stage).unit = s.unit := rfl
  rw [State.poolStep, havoid, hunit, (looksPast_inStage c stage).alloc]
  cases s.alloc (poolBytes s.unit segments) (s.poolAvoid c setup segments) <;> rfl

/-- The whole command's BUILD, with the results of SETUP so far in their registers. -/
theorem State.build_commit (s : State) (c : InFlight) (setup : Option SetupResults) (slot : Slot)
    (segments : List Segment) :
    (s.commit setup).build slot segments (s.poolAvoid c setup segments) =
      match s.alloc (poolBytes s.unit segments) (s.poolAvoid c setup segments) with
      | .silent => .stuck .allocatorSilent
      | .failed v => .over (v.commit setup).allocFail
      | .granted pool v =>
        (v.storeAll (buildStores pool s.unit segments)).andThen fun u =>
          .on ((u.commit setup).setRing slot (builtRing pool (descriptorCount s.unit segments))) := by
  have hunit : (s.commit setup).unit = s.unit := by cases setup <;> rfl
  have hf := looksPast_commit setup
  rw [State.build, hunit, hf.alloc]
  cases s.alloc (poolBytes s.unit segments) (s.poolAvoid c setup segments) with
  | silent => rfl
  | failed v => rfl
  | granted pool v =>
    simp only [Alloc.map]
    rw [hf.storeAll]
    rcases hx : v.storeAll (buildStores pool s.unit segments) with u | u | r
    · rfl
    · exact absurd hx (State.storeAll_ne_over _ _ _)
    · rfl

/-- BUILD refused: the block steps end in ALLOC_FAIL as well (rule R143, 60_exceptions.md rule R283). -/
theorem State.reaches_build_over {t : State}
    (h : (s.commit setup).build slot segments (s.poolAvoid c setup segments) = .over t) :
    (s.inStage c (.pool setup slot segments)).Reaches t := by
  have hstep : (s.inStage c (.pool setup slot segments)).blockStep 0 =
      (s.inStage c (.pool setup slot segments)).poolStep c setup slot segments := by
    cases setup <;> rfl
  rw [State.build_commit] at h
  refine .step ?_
  rw [hstep, State.poolStep_inStage]
  cases ha : s.alloc (poolBytes s.unit segments) (s.poolAvoid c setup segments) with
  | silent => rw [ha] at h; cases h
  | failed v =>
    rw [ha] at h
    cases h
    refine .step ?_
    cases setup <;> exact .refl _
  | granted pool v =>
    rw [ha] at h
    rcases Flow.andThen_eq_over.mp h with h | ⟨u, -, h⟩
    · exact absurd h (State.storeAll_ne_over _ _ _)
    · cases h

/-- BUILD granted: the block steps make the same stores, and come to what follows the ring (rule R144 to rule R147). -/
theorem State.reaches_build_on {t : State}
    (h : (s.commit setup).build slot segments (s.poolAvoid c setup segments) = .on t) :
    ∃ u ring, s.Accesses u ∧ t = (u.commit setup).setRing slot ring ∧
      (s.inStage c (.pool setup slot segments)).Reaches
        ((u.inStage c (.fill setup slot ring [])).afterRing setup slot ring) := by
  have hstep : (s.inStage c (.pool setup slot segments)).blockStep 0 =
      (s.inStage c (.pool setup slot segments)).poolStep c setup slot segments := by
    cases setup <;> rfl
  rw [State.build_commit] at h
  cases ha : s.alloc (poolBytes s.unit segments) (s.poolAvoid c setup segments) with
  | silent => rw [ha] at h; cases h
  | failed v => rw [ha] at h; cases h
  | granted pool v =>
    rw [ha] at h
    obtain ⟨u, hu, ht⟩ := Flow.andThen_eq_on.mp h
    cases ht
    refine ⟨u, _, ?_, rfl, .step ?_⟩
    · exact (State.alloc_accesses ha).storeAll hu
    · rw [hstep, State.poolStep_inStage, ha]
      exact State.reaches_stores (done := fun u => u.afterRing setup slot _) (fun _ _ => by cases setup <;> rfl) hu

end

/-! BUILD_RING -/

/-- Where BUILD_RING goes on once its list is read; nowhere if reading it is stuck (40_chain_builder.md rule R148). -/
def listEnd (unit : Nat) (slot : Slot) : ListRead → Option Stage
  | .stuck => none
  | .bad e => some (.rejected e)
  | .read segments =>
    match checkList unit segments with
    | none => some (.pool none slot segments)
    | some e => some (.rejected e)

/-- The two reads of an entry, its `ptr` first. -/
theorem State.reaches_listStage {s : State} {c : InFlight} {slot : Slot} {got : List Segment} {ptr len : Nat}
    (hptr : s.mem.load (entryAddr c.seglist.toNat got.length) 4 = some ptr)
    (hlen : s.mem.load (entryAddr c.seglist.toNat got.length + 4) 4 = some len) :
    (s.inStage c (.list slot got none)).Reaches (s.inStage c (listStage s.unit slot got ptr len)) := by
  have hword : (BitVec.ofNat 32 ptr).toNat = ptr := by
    obtain ⟨-, rfl⟩ := Memory.load_eq_some.mp hptr
    exact Nat.mod_eq_of_lt (Memory.read_lt s.mem _ 4)
  have hfirst : (s.inStage c (.list slot got none)).blockStep 0 =
      s.inStage c (.list slot got (some (BitVec.ofNat 32 ptr))) := by
    simp only [State.blockStep, State.inStage, State.listStep, hptr]
    rfl
  have hsecond : (s.inStage c (.list slot got (some (BitVec.ofNat 32 ptr)))).blockStep 0 =
      s.inStage c (listStage s.unit slot got ptr len) := by
    simp only [State.blockStep, State.inStage, State.listStep, hlen, hword]
    rfl
  refine .step ?_
  rw [hfirst]
  refine .step ?_
  rw [hsecond]
  exact .refl _

/-- Reading the list entry by entry comes to what reading it at once does (rule R148). -/
theorem State.reaches_listEnd {s : State} {c : InFlight} {slot : Slot} {fuel : Nat} {got : List Segment} {stage : Stage}
    (hpos : 0 < fuel) (hfuel : got.length + fuel = maxSegments)
    (h : listEnd s.unit slot (readList s.mem c.seglist.toNat fuel got) = some stage) :
    (s.inStage c (.list slot got none)).Reaches (s.inStage c stage) := by
  induction fuel generalizing got with
  | zero => exact absurd hpos (Nat.lt_irrefl 0)
  | succ fuel ih =>
    rw [readList] at h
    split at h
    · rename_i ptr len hptr hlen
      refine (State.reaches_listStage hptr hlen).trans ?_
      rw [listStage]
      cases hclass : classify ptr len with
      | sentinel =>
        simp only [hclass, listEnd] at h ⊢
        cases hlist : checkList s.unit got <;> rw [hlist] at h <;> cases h <;> exact .refl _
      | invalid =>
        simp only [hclass, listEnd] at h ⊢
        cases h
        exact .refl _
      | segment =>
        simp only [hclass] at h ⊢
        by_cases hmore : 0 < fuel
        · rw [if_pos (by omega)]
          exact ih hmore (by simp; omega) h
        · obtain rfl : fuel = 0 := by omega
          rw [if_neg (by omega)]
          cases h
          exact .refl _
    · cases h

/-- What a command latches at acceptance (44_setup_control.md rule R262). -/
def State.operands (s : State) (w : Word) : InFlight :=
  { word := w, fbBase := s.fbBase, seglist := s.seglist, clkdiv := s.clkdiv, stage := .begin }

section
variable {s t : State} {w : Word} {slot : Slot}

theorem State.reaches_buildRing (h : execBuildRing slot s = .next t) :
    ((s.accept w).beginCommand (s.operands w) (.buildRing slot)).Reaches t := by
  refine State.reaches_rejectOr (c := s.operands w) h fun _ h => ?_
  have hlist {stage : Stage} (hend : listEnd s.unit slot (readList s.mem s.seglist.toNat maxSegments []) = some stage) :
      (s.inStage (s.operands w) (.list slot [] none)).Reaches (s.inStage (s.operands w) stage) :=
    State.reaches_listEnd (by decide) (by decide) hend
  unfold State.withList at h
  cases hread : readList s.mem s.seglist.toNat maxSegments [] with
  | stuck => rw [hread] at h; cases h
  | bad e =>
    rw [hread] at h
    cases h
    exact (hlist (stage := .rejected e) (by rw [hread]; rfl)).trans (.step (.refl _))
  | read segments =>
    simp only [hread] at h
    cases hcheck : checkList s.unit segments with
    | some e =>
      rw [hcheck] at h
      cases h
      exact (hlist (stage := .rejected e) (by simp only [hread, listEnd, hcheck])).trans (.step (.refl _))
    | none =>
      simp only [hcheck] at h
      refine (hlist (stage := .pool none slot segments) (by simp only [hread, listEnd, hcheck])).trans ?_
      rcases Flow.outcome_eq_next.mp h with h | h
      · obtain ⟨v, hv, ht⟩ := Flow.andThen_eq_on.mp h
        cases ht
        obtain ⟨u, ring, -, rfl, hr⟩ := State.reaches_build_on (c := s.operands w) (setup := none) hv
        cases slot <;> exact hr
      · rcases Flow.andThen_eq_over.mp h with h | ⟨u, -, h⟩
        · exact State.reaches_build_over (setup := none) h
        · cases h

end

/-! SETUP -/

theorem Flow.andThen_assoc (x : Flow) (k l : State → Flow) :
    (x.andThen k).andThen l = x.andThen fun s => (k s).andThen l := by
  cases x <;> rfl

section
variable {s t : State} {c : InFlight} {r : SetupResults}

/-- SETUP's last ring and its end (44_setup_control.md rule R253, rule R254). -/
theorem State.reaches_lastRing {slot : Slot} {segments : List Segment} (hlast : ¬ (s.double = true ∧ slot = .zero))
    (h : (((s.commit (some r)).build slot segments [s.namedList]).andThen fun u => .on u.finishSetup).outcome = .next t) :
    (s.inStage c (.pool (some r) slot segments)).Reaches t := by
  rcases Flow.outcome_eq_next.mp h with h | h
  · obtain ⟨v, hv, ht⟩ := Flow.andThen_eq_on.mp h
    cases ht
    obtain ⟨u, ring, hu, rfl, hr⟩ := State.reaches_build_on (c := c) (setup := some r) hv
    have hend : (u.inStage c (.fill (some r) slot ring [])).afterRing (some r) slot ring =
        ((u.commit (some r)).setRing slot ring).finishSetup := by
      refine (if_neg (hu.double ▸ hlast)).trans ?_
      cases slot <;> rfl
    rwa [hend] at hr
  · rcases Flow.andThen_eq_over.mp h with h | ⟨u, -, h⟩
    · exact State.reaches_build_over (setup := some r) h
    · cases h

/-- SETUP's rings, slot 0's first (rule R253). -/
theorem State.reaches_rings
    (h : (((s.commit (some r)).buildRings s.slots).andThen fun u => .on u.finishSetup).outcome = .next t) :
    (s.inStage c (.pool (some r) .zero ((s.commit (some r)).setupSegments .zero))).Reaches t := by
  have hlist : (s.commit (some r)).namedList = s.namedList := (looksPast_commit (some r)).namedList s
  cases hd : s.double with
  | false =>
    rw [State.slots, hd, if_neg Bool.false_ne_true, State.buildRings, Flow.andThen_assoc, hlist] at h
    exact State.reaches_lastRing (by simp [hd]) h
  | true =>
    rw [State.slots, hd, if_pos rfl, State.buildRings, Flow.andThen_assoc, hlist] at h
    rcases hx : (s.commit (some r)).build .zero ((s.commit (some r)).setupSegments .zero) [s.namedList] with v | v | f
    · obtain ⟨u, ring, hu, rfl, hr⟩ := State.reaches_build_on (c := c) (setup := some r) hx
      refine hr.trans ?_
      have hnext : (u.inStage c (.fill (some r) .zero ring [])).afterRing (some r) .zero ring =
          u.inStage c (.pool (some { r with ring0 := ring }) .one
            ((u.commit (some { r with ring0 := ring })).setupSegments .one)) :=
        if_pos ⟨hu.double.trans hd, rfl⟩
      rw [hnext]
      rw [hx, Flow.on_andThen, State.buildRings, Flow.andThen_assoc] at h
      refine State.reaches_lastRing (by simp) ?_
      rw [← (looksPast_commit (some { r with ring0 := ring })).namedList u]
      exact h
    · rw [hx] at h
      cases h
      exact State.reaches_build_over (setup := some r) hx
    · rw [hx] at h
      cases h

/-- SETUP's arena and what follows it (rule R252). -/
theorem State.reaches_arena
    (h : (s.beginSetup.allocArena.andThen fun t => (t.buildRings t.slots).andThen fun u => .on u.finishSetup).outcome =
      .next t) : (s.inStage c .arena).Reaches t := by
  have hblock : (s.inStage c .arena).blockStep 0 =
      match s.alloc s.arenaBytes [s.namedList] with
      | .silent => s.inStage c .arena
      | .failed v => v.inStage c (.allocFailed (some s.setupStart))
      | .granted base v =>
        v.inStage c (.pool (some { s.setupStart with bpBase := base }) .zero
          ((v.commit (some { s.setupStart with bpBase := base })).setupSegments .zero)) := by
    refine Eq.trans (b := (s.inStage c .arena).arenaStep) rfl ?_
    have hbytes : (s.inStage c .arena).arenaBytes = s.arenaBytes := rfl
    rw [State.arenaStep, (looksPast_inStage c .arena).namedList, hbytes, (looksPast_inStage c .arena).alloc]
    cases s.alloc s.arenaBytes [s.namedList] <;> rfl
  have hwhole : s.beginSetup.allocArena =
      match s.alloc s.arenaBytes [s.namedList] with
      | .silent => .stuck .allocatorSilent
      | .failed v => .over (v.commit (some s.setupStart)).allocFail
      | .granted base v => .on (v.commit (some { s.setupStart with bpBase := base })) := by
    have hcommit := looksPast_commit (some s.setupStart)
    have hbegin : s.beginSetup = s.commit (some s.setupStart) := rfl
    have hbytes : (s.commit (some s.setupStart)).arenaBytes = s.arenaBytes := rfl
    rw [hbegin, State.allocArena, hcommit.namedList, hbytes, hcommit.alloc]
    cases s.alloc s.arenaBytes [s.namedList] <;> rfl
  refine .step ?_
  rw [hblock]
  rw [hwhole] at h
  cases ha : s.alloc s.arenaBytes [s.namedList] with
  | silent => rw [ha] at h; cases h
  | failed v =>
    rw [ha] at h
    cases h
    exact .step (.refl _)
  | granted base v =>
    rw [ha] at h
    exact State.reaches_rings h

end

/-! ENCODE -/

/-- The job of a word no byte of which is read. -/
def WordPlace.job (p : WordPlace) : WordJob :=
  { plane := p.plane, row := p.row, col := p.col, lanes := List.replicate laneCount none }

/-- The first choice is an access of the first job. -/
theorem wordMoves_first (j : WordJob) (rest : List WordJob) :
    ∃ access ∈ j.moves, (wordMoves 0 (j :: rest)).getD (0 % (wordMoves 0 (j :: rest)).length) (0, 0) = (0, access) := by
  obtain ⟨access, more, hmoves⟩ := List.exists_cons_of_ne_nil j.moves_ne_nil
  exact ⟨access, by simp [hmoves], by simp [wordMoves, hmoves]⟩

/-- The access of the first choice: a lane the first job has not read yet, or its write once all are read
(42_encoder.md rule R209). -/
theorem State.wordStep_first {s : State} {c : InFlight} {slot : Slot} {j : WordJob} {rest : List WordJob}
    (hlane : ∀ lane < laneCount, s.laneAddr c.fbBase.toNat j.row j.col lane + 1 ≤ memSize)
    (hword : s.wordAddr slot j.plane j.row j.col + 2 ≤ memSize) :
    (∃ lane < laneCount, j.lanes.getD lane none = none ∧
        s.wordStep c 0 slot (j :: rest) =
          s.toStage (.words slot (j.read lane (s.mem.byte (s.laneAddr c.fbBase.toNat j.row j.col lane)) :: rest))) ∨
      ((∀ lane < laneCount, j.lanes.getD lane none ≠ none) ∧
        s.wordStep c 0 slot (j :: rest) =
          State.toStage
            { s with
              mem := s.mem.write (s.wordAddr slot j.plane j.row j.col) 2
                (s.wordFrom j.plane j.row j.col j.bytes).toNat }
            (.words slot rest)) := by
  obtain ⟨access, hmove, hpick⟩ := wordMoves_first j rest
  simp only [State.wordStep, hpick]
  rcases WordJob.mem_moves hmove with ⟨hl, hnone⟩ | ⟨rfl, hread⟩
  · have hload := Memory.load_eq_some (m := s.mem).mpr ⟨hlane access hl, rfl⟩
    exact .inl ⟨access, hl, hnone, by simp [hl, hload, Memory.read, WordJob.read]⟩
  · have hstore := Memory.store_eq_some (m := s.mem) (v := (s.wordFrom j.plane j.row j.col j.bytes).toNat).mpr
      ⟨hword, rfl⟩
    exact .inr ⟨hread, by simp [hstore]⟩

section
variable {s : State} {c : InFlight} {slot : Slot} (hfb : c.fbBase = s.fbBase)
include hfb

/-- The accesses of the first job, its write last, make the word it is for (rule R209). -/
theorem State.reaches_word {j : WordJob} {rest : List WordJob} {m : Memory} (hj : s.JobFits j)
    (h : s.encodeWord slot s.fbBase.toNat j.place s.mem = some m) :
    (s.inStage c (.words slot (j :: rest))).Reaches (({ s with mem := m } : State).inStage c (.words slot rest)) := by
  induction hn : j.accesses generalizing j with
  | zero => exact absurd hn (Nat.succ_ne_zero _)
  | succ n ih =>
    obtain ⟨hlanes, hword, rfl⟩ := State.encodeWord_eq_some.mp h
    have hlane : ∀ lane < laneCount, s.laneAddr c.fbBase.toNat j.row j.col lane + 1 ≤ memSize := by
      simpa [State.lanesExist, memoryExists, hfb, WordJob.place] using hlanes
    have hblock : (s.inStage c (.words slot (j :: rest))).blockStep 0 =
        (s.inStage c (.words slot (j :: rest))).wordStep { c with stage := .words slot (j :: rest) } 0 slot
          (j :: rest) := rfl
    refine .step ?_
    rcases State.wordStep_first (s := s.inStage c (.words slot (j :: rest)))
      (c := { c with stage := .words slot (j :: rest) }) (slot := slot) (rest := rest) hlane hword with
      ⟨lane, hl, hnone, hstep⟩ | ⟨hread, hstep⟩
    · have hfits : s.JobFits (j.read lane (s.mem.byte (s.laneAddr c.fbBase.toNat j.row j.col lane))) := by
        rw [hfb]
        exact hj.read hl
      have hless := WordJob.accesses_read hj.length hl hnone (s.mem.byte (s.laneAddr c.fbBase.toNat j.row j.col lane))
      rw [hblock, hstep]
      exact ih hfits h (Nat.succ_injective (hless.symm.trans hn))
    · have hvalue : (s.wordFrom j.plane j.row j.col j.bytes).toNat =
          (s.outputWord s.mem s.fbBase.toNat j.place.plane j.place.row j.place.col).toNat := hj.wordFrom hread
      rw [hblock, hstep, ← hvalue]
      exact .refl _

/-- ENCODE's words one after the other, each with its reads (rule R200). -/
theorem State.reaches_words {ws : List WordPlace} {m m' : Memory} (hw : ∀ p ∈ ws, p ∈ s.places)
    (h : s.encodeWords slot s.fbBase.toNat ws m = some m') :
    (({ s with mem := m } : State).inStage c (.words slot (ws.map WordPlace.job))).Reaches
      (({ s with mem := m' } : State).inStage c (.words slot [])) := by
  induction ws generalizing m with
  | nil =>
    cases h
    exact .refl _
  | cons p rest ih =>
    rw [State.encodeWords] at h
    split at h
    · cases h
    · rename_i m1 h1
      have hfits : ({ s with mem := m } : State).JobFits p.job :=
        { place := hw p (by simp)
          length := List.length_replicate
          lanes := fun lane b hb => by simp [WordPlace.job, List.getD] at hb }
      refine (State.reaches_word (s := { s with mem := m }) hfb hfits h1).trans ?_
      exact ih (fun q hq => hw q (by simp [hq])) h

end

/-! The commands -/

section
variable {s t : State} {w : Word} {slot : Slot}

theorem State.reaches_encode (h : execEncode slot s = .next t) :
    ((s.accept w).beginCommand (s.operands w) (.encode slot)).Reaches t := by
  refine State.reaches_rejectOr (c := s.operands w) h fun _ h => ?_
  split at h
  · cases h
  · rename_i m hwords
    cases h
    refine (State.reaches_words (c := s.operands w) rfl (fun _ hp => hp) hwords).trans (.step (.refl _))

theorem State.reaches_start (h : execStart slot s = .next t) :
    ((s.accept w).beginCommand (s.operands w) (.start slot)).Reaches t :=
  State.reaches_rejectOr (c := s.operands w) h fun _ h =>
    State.reaches_storesThen (s := s) (again := .startLinks slot) (done := fun u => u.finishStart slot s.clkdiv)
      (fun _ _ => rfl) (fun _ => rfl) h

theorem State.reaches_activate (h : execActivate slot s = .next t) :
    ((s.accept w).beginCommand (s.operands w) (.activate slot)).Reaches t := by
  refine State.reaches_rejectOr (c := s.operands w) h fun _ h => ?_
  have hdouble : (s.accept w).double = s.double := rfl
  rw [hdouble]
  cases hd : s.double with
  | false =>
    rw [hd] at h
    cases h
    exact .refl _
  | true =>
    rw [hd] at h
    exact State.reaches_rejectOr (c := s.operands w) h fun _ h =>
      State.reaches_storesThen (s := s) (again := .flipLinks slot) (done := fun u => u.finishActivate slot)
        (fun _ _ => rfl) (fun _ => rfl) h

theorem State.reaches_schedule (h : execSchedule s = .next t) :
    ((s.accept w).beginCommand (s.operands w) .schedule).Reaches t := by
  refine State.reaches_rejectOr (c := s.operands w) h fun _ h => ?_
  cases h
  exact .refl _

theorem State.reaches_setup (h : execSetup s = .next t) :
    ((s.accept w).beginCommand (s.operands w) .setup).Reaches t :=
  State.reaches_rejectOr (c := s.operands w) h fun _ h => State.reaches_arena (s := s) h

end

theorem State.reaches_command {s t : State} {w : Word} {i : Instr} (h : exec i s = .next t) :
    ((s.accept w).beginCommand (s.operands w) i).Reaches t := by
  cases i with
  | nop =>
    cases h
    exact .refl _
  | setup => exact State.reaches_setup h
  | schedule => exact State.reaches_schedule h
  | buildRing slot => exact State.reaches_buildRing h
  | start slot => exact State.reaches_start h
  | activate slot => exact State.reaches_activate h
  | encode slot => exact State.reaches_encode h

theorem State.beginWord_command {s : State} {c : InFlight} {i : Instr} (hd : decode c.word = .command i) :
    s.beginWord c = s.beginCommand c i := by
  rw [State.beginWord, hd]

/-- Settles O8: the first block step decodes the word; from there the steps of each command reach what it does whole. -/
theorem blockStepsReachTheCommandsEffect : Obligations.BlockStepsReachTheCommandsEffect := by
  intro s t w _ h
  have hfirst : (s.accept w).blockStep 0 = (s.accept w).beginWord (s.operands w) := rfl
  refine State.Reaches.step ?_
  rw [hfirst]
  cases hd : decode w with
  | illegal why =>
    rw [State.runWord, hd] at h
    cases h
    rw [State.beginWord_illegal hd _ rfl]
    exact .refl _
  | command i =>
    rw [State.runWord_command hd] at h
    rw [State.beginWord_command hd]
    exact State.reaches_command h

end Sys2Proof.Machine
end

section
/-!
The allocator's record (60_exceptions.md R302): a block step records at most one grant, which obeys the law, and no
other step but a reset touches the record.
-/
namespace Sys2Proof.Machine

/-! The law of the record -/

/-- The record is as it was, or has one more region, one that the law of `s` admits. -/
def State.RecordsLawfully (s t : State) : Prop :=
  t.regions = s.regions ∨
    ∃ size avoid base, s.regionLegal size avoid base = true ∧
      t.regions = { base := base.toNat, size := size } :: s.regions

/-- The law speaks of the record and of the place of the register window. -/
theorem State.RegionsInv.congr {s t : State} (h : s.RegionsInv) (hr : t.regions = s.regions)
    (hp : t.params = s.params) : t.RegionsInv := by
  have hw : t.window = s.window := by rw [State.window, State.window, hp]
  obtain ⟨hlawful, hapart⟩ := h
  rw [← hr] at hlawful hapart
  rw [← hw] at hlawful
  exact ⟨hlawful, hapart⟩

/-- A lawful grant is clear of the window and of every region before it (60_exceptions.md rule R302). -/
theorem State.RegionsInv.recordsLawfully {s t : State} (h : s.RegionsInv) (hg : s.RecordsLawfully t)
    (hp : t.params = s.params) : t.RegionsInv := by
  rcases hg with hr | ⟨size, avoid, base, hlegal, hr⟩
  · exact h.congr hr hp
  have hw : t.window = s.window := by rw [State.window, State.window, hp]
  obtain ⟨hnull, halign, hfit, hclear⟩ := (s.regionLegal_iff _ _ _).mp hlegal
  have hbase : base.toNat ≠ 0 := fun h0 => hnull (BitVec.eq_of_toNat_eq h0)
  refine ⟨?_, ?_⟩ <;> rw [hr]
  · rw [hw]
    exact List.forall_mem_cons.mpr ⟨⟨hbase, halign, hfit, hclear _ (by simp)⟩, h.lawful⟩
  · exact List.pairwise_cons.mpr ⟨State.disjoint_of_regionLegal hlegal, h.apart⟩

/-! One block step -/

theorem State.rejectOr_regions {s next : State} (e : Option Error) (h : next.regions = s.regions) :
    (s.rejectOr e next).regions = s.regions := by
  cases e with
  | none => exact h
  | some err => rfl

/-- The first step of a command makes its checks and no allocator call (44_setup_control.md rule R262). -/
@[simp] theorem State.beginCommand_regions (s : State) (c : InFlight) (i : Instr) :
    (s.beginCommand c i).regions = s.regions := by
  cases i with
  | nop => rfl
  | setup | schedule | buildRing | start | encode => exact State.rejectOr_regions _ rfl
  | activate slot =>
    refine State.rejectOr_regions _ ?_
    split
    · rfl
    · exact State.rejectOr_regions _ rfl

@[simp] theorem State.beginWord_regions (s : State) (c : InFlight) : (s.beginWord c).regions = s.regions := by
  unfold State.beginWord
  split
  · rfl
  · exact s.beginCommand_regions c _

@[simp] theorem State.listStep_regions (s : State) (c : InFlight) (slot : Slot) (got : List Segment)
    (ptr : Option Word) : (s.listStep c slot got ptr).regions = s.regions := by
  rcases s.listStep_cases c slot got ptr with he | ⟨_, he⟩ | ⟨_, _, he⟩ <;> rw [he] <;> rfl

@[simp] theorem State.afterRing_regions (s : State) (setup : Option SetupResults) (slot : Slot) (ring : Ring) :
    (s.afterRing setup slot ring).regions = s.regions := by
  unfold State.afterRing
  cases setup with
  | none => simp
  | some r =>
    simp only
    split <;> simp

theorem State.storeStep_regions {s done : State} (left : List Store) (again : List Store → Stage)
    (h : done.regions = s.regions) : (s.storeStep left again done).regions = s.regions := by
  rcases s.storeStep_cases left again done with ⟨-, he⟩ | ⟨_, _, -, -, he⟩ | he <;> rw [he]
  · exact h
  · rfl

@[simp] theorem State.wordStep_regions (s : State) (c : InFlight) (choice : Nat) (slot : Slot) (jobs : List WordJob) :
    (s.wordStep c choice slot jobs).regions = s.regions := by
  rcases s.wordStep_cases c choice slot jobs with he | he | ⟨_, _, _, _, -, he⟩ | ⟨_, _, _, -, -, he⟩ <;>
    rw [he] <;> rfl

/-- SETUP's arena call (44_setup_control.md rule R252). -/
theorem State.arenaStep_recordsLawfully (s : State) : s.RecordsLawfully s.arenaStep := by
  unfold State.arenaStep
  rcases s.alloc_cases s.arenaBytes [s.namedList] with h | h | ⟨base, hlegal, h⟩ <;> rw [h]
  · exact .inl rfl
  · exact .inl (by simp)
  · exact .inr ⟨_, _, base, hlegal, by simp⟩

/-- BUILD's pool call (40_chain_builder.md rule R143). -/
theorem State.poolStep_recordsLawfully (s : State) (c : InFlight) (setup : Option SetupResults) (slot : Slot)
    (segments : List Segment) : s.RecordsLawfully (s.poolStep c setup slot segments) := by
  unfold State.poolStep
  rcases s.alloc_cases (poolBytes s.unit segments) (s.poolAvoid c setup segments) with h | h | ⟨pool, hlegal, h⟩ <;>
    rw [h]
  · exact .inl rfl
  · exact .inl (by simp)
  · exact .inr ⟨_, _, pool, hlegal, by simp⟩

/-- Only the two allocator calls touch the record. -/
theorem State.blockStep_recordsLawfully (s : State) (choice : Nat) : s.RecordsLawfully (s.blockStep choice) := by
  unfold State.blockStep
  split
  · exact .inl rfl
  rename_i c _
  cases c.stage with
  | begin => exact .inl (s.beginWord_regions c)
  | list slot got ptr => exact .inl (s.listStep_regions c slot got ptr)
  | arena => exact s.arenaStep_recordsLawfully
  | pool setup slot segments => exact s.poolStep_recordsLawfully c setup slot segments
  | fill setup slot ring left => exact .inl (State.storeStep_regions left _ (s.afterRing_regions setup slot ring))
  | rejected e => exact .inl rfl
  | allocFailed setup => exact .inl (by cases setup <;> rfl)
  | startLinks slot left => exact .inl (State.storeStep_regions left _ rfl)
  | flipLinks slot left => exact .inl (State.storeStep_regions left _ rfl)
  | words slot jobs => exact .inl (s.wordStep_regions c choice slot jobs)

theorem State.RegionsInv.blockStep {s : State} (h : s.RegionsInv) (choice : Nat) : (s.blockStep choice).RegionsInv :=
  h.recordsLawfully (s.blockStep_recordsLawfully choice)
    (congrArg (fun o : Settings × Bool => o.1.params) (s.blockStep_hostOwned choice))

theorem State.RegionsInv.blockRun {s : State} (h : s.RegionsInv) (choices : List Nat) :
    (s.blockRun choices).RegionsInv := by
  induction choices generalizing s with
  | nil => exact h
  | cons choice rest ih => exact ih (h.blockStep choice)

/-! One step of any agent -/

/-- A word performed whole does what its block steps do (44_setup_control.md rule R262; log 2). -/
theorem State.RegionsInv.runWord {s t : State} (h : s.RegionsInv) (hi : s.inFlight = none) {w : Word}
    (hw : s.runWord w = .next t) : t.RegionsInv := by
  obtain ⟨k, rfl⟩ := blockStepsReachTheCommandsEffect s t w hi hw
  exact (h.congr (t := s.accept w) rfl rfl).blockRun _

@[simp] theorem State.writeReg_params (s : State) (off : Nat) (v : Word) : (s.writeReg off v).params = s.params := by
  unfold State.writeReg
  split
  case h_1 | h_2 | h_3 | h_4 | h_5 | h_6 => unfold State.ifUnconfigured; split <;> rfl
  case h_7 => unfold State.ifNotRunning; split <;> rfl
  case h_8 | h_9 | h_10 => rfl

/-- A reset discards the record (70_reset_and_hazards.md rule R320). -/
theorem State.resetBlock_regionsInv (s : State) : s.resetBlock.RegionsInv := ⟨nofun, .nil⟩

section
variable {s t : State} (h : s.RegionsInv)
include h

theorem State.RegionsInv.hostWrite {whole : Bool} {off : Nat} {v : Word} (hw : s.hostWrite whole off v = .next t) :
    t.RegionsInv := by
  have hpop : s.popHostOp.RegionsInv := h.congr rfl rfl
  rcases State.hostWrite_cases hw with ⟨-, rfl⟩ | ⟨-, -, rfl⟩ | ⟨-, -, -, rfl⟩ | ⟨-, hb, -, -, -, he⟩ |
    ⟨-, -, -, -, -, rfl⟩ | ⟨-, -, -, rfl⟩
  · rw [State.writeStatus_eq]
    exact hpop.congr rfl rfl
  · exact hpop.congr rfl rfl
  · exact h
  · exact hpop.runWord (by simpa [State.busy] using hb) he
  · exact hpop.congr rfl rfl
  · exact hpop.congr (s.popHostOp.writeReg_keeps off v).2.1 (s.popHostOp.writeReg_params off v)

theorem State.RegionsInv.hostStep {whole : Bool} (hs : s.hostStep whole = .next t) : t.RegionsInv := by
  rcases State.hostStep_cases hs with rfl | rfl | ⟨_, rfl⟩ | ⟨_, rfl⟩ | ⟨_, _, -, -, hw⟩ | ⟨_, _, _, hw⟩ | ⟨-, rfl⟩
  · exact h
  · exact h.congr rfl rfl
  · exact h.congr rfl rfl
  · exact h.congr rfl rfl
  · exact h.hostWrite hw
  · obtain ⟨-, -, -, rfl⟩ := State.hostMemWrite_cases hw
    exact h.congr rfl rfl
  · exact State.resetBlock_regionsInv _

theorem State.RegionsInv.consumerStep (linkNow : Bool) : (s.consumerStep linkNow).RegionsInv :=
  h.congr (s.consumerStep_keeps linkNow).2.1
    (congrArg (fun v : BlockView => v.settings.params) (s.view_consumerStep linkNow))

theorem State.RegionsInv.step (hs : step s = .next t) : t.RegionsInv := by
  have hturn : s.takeTurn.RegionsInv := h.congr s.takeTurn_regions s.takeTurn_params
  rcases step_cases hs with ⟨choice, -, rfl⟩ | ⟨linkNow, -, rfl⟩ | ⟨-, rfl⟩ | ⟨whole, -, hw⟩
  · exact hturn.blockStep choice
  · exact hturn.consumerStep linkNow
  · exact State.resetBlock_regionsInv _
  · exact hturn.hostStep hw

end

/-- Settles O58, by the agent whose turn it is: the block records a region the law admits, a reset discards the record,
and nobody else touches it. -/
theorem stepKeepsRegionsDisjoint : Obligations.StepKeepsRegionsDisjoint := fun _ _ h => h.step

end Sys2Proof.Machine
end

section
/-!
The consumer's visit of a descriptor (60_exceptions.md R301, R304): Load, Link, Emit and Advance by what makes each the
next step, and the whole visit.
-/
namespace Sys2Proof.Machine

/-! The steps -/

/-- The length field of a word 0 as a number (30_encoding.md rule R116). -/
theorem descriptorLength_ofNat (d0 : Nat) :
    descriptorLength (BitVec.ofNat 32 d0) = BitVec.ofNat 12 (d0 / 4096 % 4096) := by
  apply BitVec.eq_of_toNat_eq
  simp only [descriptorLength, BitVec.extractLsb'_toNat, BitVec.toNat_ofNat, Nat.shiftRight_eq_div_pow]
  omega

/-- Twelve bits hold a length (rule R116). -/
theorem ofNat_length_toNat (d0 : Nat) : (BitVec.ofNat 12 (d0 / 4096 % 4096)).toNat = d0 / 4096 % 4096 :=
  Nat.mod_mod _ _

/-- A loaded descriptor is playable by its owner bit, its length and its buffer (rule R301, rule R304). -/
theorem descriptorPlayable_ofNat (d0 : Nat) {buf : Nat} (hb : buf < 2 ^ 32) :
    descriptorPlayable (BitVec.ofNat 32 d0) (BitVec.ofNat 32 buf) = true ↔
      d0.testBit 31 = true ∧ d0 / 4096 % 4096 ≠ 0 ∧ d0 / 4096 % 4096 % 2 = 0 ∧ buf % 2 = 0 := by
  have howner : descriptorOwner (BitVec.ofNat 32 d0) = d0.testBit 31 := by
    simp only [descriptorOwner, BitVec.getLsbD_ofNat, decide_true, Bool.true_and, Nat.reduceLT]
  have hpos : BitVec.ofNat 12 (d0 / 4096 % 4096) ≠ 0#12 ↔ d0 / 4096 % 4096 ≠ 0 := by
    rw [Ne, Ne, ← BitVec.toNat_inj, ofNat_length_toNat]
    rfl
  have hbuf : (BitVec.ofNat 32 buf).toNat = buf := Nat.mod_eq_of_lt hb
  simp only [descriptorPlayable, Bool.and_eq_true, bne_iff_ne, decide_eq_true_eq, howner, descriptorLength_ofNat, hpos,
    ofNat_length_toNat, hbuf, and_assoc]

/-- After a Load: what the consumer makes of the descriptor it read. -/
def State.withLoad (s : State) (visit : Visit) : State :=
  { s with consumer := { s.consumer with off := 0, visit := visit } }

/-- After a Link: the `next` word of the descriptor is read. -/
def State.withLink (s : State) : State :=
  { s with consumer := { s.consumer with link := some (BitVec.ofNat 32 (s.mem.nextOf s.consumer.cur.toNat)) } }

/-- After an Emit: one word more is driven. -/
def State.withEmit (s : State) (buf : Word) : State :=
  { s with
    out := s.out ++ [BitVec.ofNat 16 (s.mem.read (buf.toNat + s.consumer.off) 2)]
    consumer := { s.consumer with off := s.consumer.off + 2 } }

section
variable {s : State} (hrun : s.consumer.run = true)
include hrun

/-- On arrival a consumer reads the descriptor, and plays it or halts (rule R301, rule R304). -/
theorem State.consumerStep_of_arriving (hvisit : s.consumer.visit = .arriving)
    (hmem : s.consumer.cur.toNat + 8 ≤ memSize) (b : Bool) :
    s.consumerStep b =
      s.withLoad
        (if descriptorPlayable (BitVec.ofNat 32 (s.mem.read s.consumer.cur.toNat 4))
            (BitVec.ofNat 32 (s.mem.read (s.consumer.cur.toNat + 4) 4)) = true then
          .playing (BitVec.ofNat 32 (s.mem.read (s.consumer.cur.toNat + 4) 4))
            (BitVec.ofNat 12 (s.mem.read s.consumer.cur.toNat 4 / 4096 % 4096))
        else .halted) := by
  have hword0 : s.mem.load s.consumer.cur.toNat 4 = some (s.mem.read s.consumer.cur.toNat 4) :=
    Memory.load_eq_some.mpr ⟨by omega, rfl⟩
  have hword1 : s.mem.load (s.consumer.cur.toNat + 4) 4 = some (s.mem.read (s.consumer.cur.toNat + 4) 4) :=
    Memory.load_eq_some.mpr ⟨by omega, rfl⟩
  simp only [State.consumerStep, hrun, if_true, hvisit, State.consumerLoad, hword0, hword1, descriptorLength_ofNat,
    State.withLoad]

/-- A consumer that has halted takes no step (rule R304; log 18). -/
theorem State.consumerStep_of_halted (hvisit : s.consumer.visit = .halted) (b : Bool) : s.consumerStep b = s := by
  simp only [State.consumerStep, hrun, if_true, hvisit]

variable {buf : Word} {len : BitVec 12} (hvisit : s.consumer.visit = .playing buf len)
include hvisit

/-- A link not read yet is read where the choice asks for it, and at the latest after the last Emit (rule R301). -/
theorem State.consumerStep_of_link_due (hlink : s.consumer.link = none) {b : Bool}
    (hdue : b = true ∨ len.toNat ≤ s.consumer.off) (hmem : s.consumer.cur.toNat + 12 ≤ memSize) :
    s.consumerStep b = s.withLink := by
  have hload : s.mem.load (nextField s.consumer.cur.toNat) 4 = some (s.mem.nextOf s.consumer.cur.toNat) :=
    Memory.load_eq_some.mpr ⟨hmem, rfl⟩
  have hdue' : (b || decide (len.toNat ≤ s.consumer.off)) = true := by simpa using hdue
  simp only [State.consumerStep, hrun, hvisit, hlink, State.consumerLink, hload, hdue', Option.isNone_none,
    Bool.and_self, if_true, State.withLink]

/-- Before the last Emit, where no link is read now, the next word is driven (rule R301). -/
theorem State.consumerStep_of_word_left {b : Bool} (hlink : s.consumer.link ≠ none ∨ b = false)
    (hoff : s.consumer.off < len.toNat) (hmem : buf.toNat + s.consumer.off + 2 ≤ memSize) :
    s.consumerStep b = s.withEmit buf := by
  have hload : s.mem.load (buf.toNat + s.consumer.off) 2 = some (s.mem.read (buf.toNat + s.consumer.off) 2) :=
    Memory.load_eq_some.mpr ⟨hmem, rfl⟩
  have hnolink : ¬ (s.consumer.link.isNone && (b || decide (len.toNat ≤ s.consumer.off))) = true := by
    rcases hlink with hlink | rfl
    · simp [hlink]
    · simp [hoff]
  simp only [State.consumerStep, hrun, hvisit, State.consumerEmit, hload, if_neg hnolink, hoff, if_true,
    State.withEmit]

/-- A null link is not followed (rule R304; log 18). -/
theorem State.consumerStep_of_null_link (hoff : len.toNat ≤ s.consumer.off) (hlink : s.consumer.link = some 0#32)
    (b : Bool) : s.consumerStep b = s := by
  have hdone : ¬ s.consumer.off < len.toNat := by omega
  simp only [State.consumerStep, hrun, hvisit, hlink, State.consumerAdvance, hdone, Option.isNone_some,
    Bool.false_and, Bool.false_eq_true, if_true, if_false]

end

/-- Settles O48, step by step. -/
theorem consumerStepsFollowTheDescriptor : Obligations.ConsumerStepsFollowTheDescriptor := by
  intro s b hrun c cur d0 buf len
  refine ⟨fun hvisit hmem howner hpos heven hbuf => ?_, fun B L hvisit hlink hdue hmem => ?_,
    fun B L hvisit hlink hoff hmem => ?_, fun B L next hvisit hlink hoff hnull => ?_⟩
  · have hplay := (descriptorPlayable_ofNat d0 (Memory.read_lt _ _ 4)).mpr ⟨howner, hpos, heven, hbuf⟩
    exact (State.consumerStep_of_arriving hrun hvisit hmem b).trans (congrArg s.withLoad (if_pos hplay))
  · exact State.consumerStep_of_link_due hrun hvisit hlink hdue hmem
  · exact State.consumerStep_of_word_left hrun hvisit hlink hoff hmem
  · exact State.consumerStep_of_read_link hrun hvisit hoff hlink hnull b

/-- Settles O49: a malformed descriptor halts the consumer at its Load, a null link before its Advance. -/
theorem consumerStopsOnMalformedDescriptors : Obligations.ConsumerStopsOnMalformedDescriptors := by
  intro s b b' hrun cur d0 len
  refine ⟨fun hvisit hmem hbad => ?_, fun B L hvisit hoff hlink => ?_⟩
  · have hplay : ¬ descriptorPlayable (BitVec.ofNat 32 d0) (BitVec.ofNat 32 (s.mem.read (cur + 4) 4)) = true := by
      rw [descriptorPlayable_ofNat d0 (Memory.read_lt _ _ 4)]
      rintro ⟨howner, hpos, heven, hbuf⟩
      rcases hbad with h | h | h | h
      · exact Bool.false_ne_true (h.symm.trans howner)
      · exact hpos h
      · omega
      · omega
    have hload := State.consumerStep_of_arriving hrun hvisit hmem b
    rw [if_neg hplay] at hload
    rw [hload]
    refine ⟨State.consumerStep_of_halted ?_ rfl b', rfl, rfl⟩
    exact hrun
  · exact State.consumerStep_of_null_link hrun hvisit hoff hlink b

/-! The visit -/

/-- A consumer that plays a descriptor in memory, `n` words of its chunk not driven yet, with a link that leads on and
is the one in memory once it is read. -/
structure State.Playing (s : State) (buf : Word) (len : BitVec 12) (n : Nat) : Prop where
  run : s.consumer.run = true
  visit : s.consumer.visit = .playing buf len
  left : s.consumer.off + 2 * n = len.toNat
  link : s.consumer.link = none ∨ s.consumer.link = some (BitVec.ofNat 32 (s.mem.nextOf s.consumer.cur.toNat))
  leads : s.mem.nextOf s.consumer.cur.toNat ≠ 0
  descriptor : s.consumer.cur.toNat + 12 ≤ memSize
  chunk : buf.toNat + len.toNat ≤ memSize

/-- The words from the consumer's offset on, in address order. -/
def State.wordsAhead (s : State) (buf : Word) (n : Nat) : List Half :=
  (List.range n).map fun i => BitVec.ofNat 16 (s.mem.read (buf.toNat + s.consumer.off + 2 * i) 2)

/-- The consumer has driven `n` words ahead of where it was, and gone to the descriptor that its link names. -/
structure State.Played (s : State) (buf : Word) (n : Nat) (t : State) : Prop where
  out : t.out = s.out ++ s.wordsAhead buf n
  cur : t.consumer.cur.toNat = s.mem.nextOf s.consumer.cur.toNat
  visit : t.consumer.visit = .arriving
  link : t.consumer.link = none
  mem : t.mem = s.mem

/-- The first word ahead is the one at the offset; the others are ahead of it. -/
theorem State.wordsAhead_succ (s : State) (buf : Word) (n : Nat) :
    s.wordsAhead buf (n + 1) =
      BitVec.ofNat 16 (s.mem.read (buf.toNat + s.consumer.off) 2) ::
        (s.withEmit buf).wordsAhead buf n := by
  simp only [State.wordsAhead, State.withEmit, List.range_succ_eq_map, List.map_cons, List.map_map, Nat.mul_zero,
    Nat.add_zero]
  congr 1
  refine List.map_congr_left fun i _ => ?_
  simp only [Function.comp, Nat.succ_eq_add_one]
  congr 2
  omega

/-- A link read from memory is a number of 32 bits. -/
theorem Memory.ofNat_nextOf_toNat (m : Memory) (a : Nat) : (BitVec.ofNat 32 (m.nextOf a)).toNat = m.nextOf a :=
  Nat.mod_eq_of_lt (Memory.read_lt m (a + 8) 4)

section
variable {s : State} {buf : Word} {len : BitVec 12} {n : Nat} (h : s.Playing buf len n)
include h

theorem State.Playing.withLink : s.withLink.Playing buf len n := { h with link := .inr rfl }

theorem State.Playing.ne_null : BitVec.ofNat 32 (s.mem.nextOf s.consumer.cur.toNat) ≠ 0#32 := fun h0 =>
  h.leads (by rw [← Memory.ofNat_nextOf_toNat, h0]; rfl)

end

/-- An Emit leaves one word less ahead. -/
theorem State.Playing.withEmit {s : State} {buf : Word} {len : BitVec 12} {n : Nat} (h : s.Playing buf len (n + 1)) :
    (s.withEmit buf).Playing buf len n :=
  { h with left := by have := h.left; show s.consumer.off + 2 + 2 * n = len.toNat; omega }

/-- The Load of a descriptor of `len` bytes has len / 2 words ahead. -/
theorem State.playing_withLoad {s : State} {buf len : Nat} (hrun : s.consumer.run = true)
    (hlink : s.consumer.link = none) (hleads : s.mem.nextOf s.consumer.cur.toNat ≠ 0)
    (hmem : s.consumer.cur.toNat + 12 ≤ memSize) (hbuf : (BitVec.ofNat 32 buf).toNat = buf)
    (hlen : (BitVec.ofNat 12 len).toNat = len) (heven : len % 2 = 0) (hchunk : buf + len ≤ memSize) :
    (s.withLoad (.playing (BitVec.ofNat 32 buf) (BitVec.ofNat 12 len))).Playing (BitVec.ofNat 32 buf)
      (BitVec.ofNat 12 len) (len / 2) where
  run := hrun
  visit := rfl
  left := by
    rw [hlen]
    show 0 + 2 * (len / 2) = len
    omega
  link := .inl hlink
  leads := hleads
  descriptor := hmem
  chunk := by rwa [hlen, hbuf]

/-- As many steps as there are words and a link to read, and one more, play the descriptor to its end, whatever the
choices (rule R301). -/
theorem State.Playing.consumerRun {s : State} {buf : Word} {len : BitVec 12} {n : Nat} (h : s.Playing buf len n)
    {choices : List Bool} (hc : choices.length = n + (if s.consumer.link = none then 1 else 0) + 1) :
    s.Played buf n (s.consumerRun choices) := by
  induction choices generalizing s n with
  | nil => simp at hc
  | cons b rest ih =>
    have hleft := h.left
    have hchunk := h.chunk
    rw [List.length_cons] at hc
    rw [State.consumerRun]
    by_cases hdue : s.consumer.link = none ∧ (b = true ∨ n = 0)
    · obtain ⟨hlink, hnow⟩ := hdue
      rw [if_pos hlink] at hc
      rw [State.consumerStep_of_link_due h.run h.visit hlink (hnow.imp_right fun _ => by omega) h.descriptor]
      exact { ih h.withLink (by show rest.length = n + 0 + 1; omega) with }
    · cases n with
      | zero =>
        have hlink : s.consumer.link ≠ none := fun hlink => hdue ⟨hlink, .inr rfl⟩
        rw [if_neg hlink] at hc
        rw [State.consumerStep_of_read_link h.run h.visit (by omega) (h.link.resolve_left hlink) h.ne_null,
          List.length_eq_zero_iff.mp (show rest.length = 0 by omega)]
        exact ⟨(List.append_nil _).symm, Memory.ofNat_nextOf_toNat _ _, rfl, rfl, rfl⟩
      | succ n =>
        have hlink : s.consumer.link ≠ none ∨ b = false := by
          by_contra hno
          push Not at hno
          exact hdue ⟨hno.1, .inl (by simpa using hno.2)⟩
        rw [State.consumerStep_of_word_left h.run h.visit hlink (by omega) (by omega)]
        have hrest := ih h.withEmit (by show rest.length = n + (if s.consumer.link = none then 1 else 0) + 1; omega)
        refine { hrest with out := ?_ }
        rw [hrest.out, State.wordsAhead_succ]
        exact List.append_assoc _ _ _

/-- Settles O50: the Load, then the visit of a descriptor that plays. -/
theorem consumerPlaysTheWholeDescriptor : Obligations.ConsumerPlaysTheWholeDescriptor := by
  intro s choices cur d0 buf next len hrun hvisit hlink hmem howner hpos heven hbuf hchunk hnull hc t
  obtain ⟨b, rest, rfl⟩ := List.exists_cons_of_length_eq_add_one hc
  have hread : buf < 2 ^ 32 := Memory.read_lt _ _ 4
  have hbase : (BitVec.ofNat 32 buf).toNat = buf := Nat.mod_eq_of_lt hread
  have hplay := (descriptorPlayable_ofNat d0 hread).mpr ⟨howner, hpos, heven, hbuf⟩
  have hload := State.consumerStep_of_arriving hrun hvisit (show s.consumer.cur.toNat + 8 ≤ memSize by omega) b
  rw [if_pos hplay] at hload
  have ht : t = State.consumerRun _ rest := congrArg (State.consumerRun · rest) hload
  have hplaying := State.playing_withLoad hrun hlink hnull hmem hbase (ofNat_length_toNat d0) heven hchunk
  have hrest : rest.length = len / 2 + (if s.consumer.link = none then 1 else 0) + 1 := by
    rw [if_pos hlink]
    exact Nat.succ.inj hc
  obtain ⟨hout, hcur, hvisit', hlink', hmem'⟩ := hplaying.consumerRun hrest
  simp only [State.wordsAhead, hbase] at hout
  rw [ht]
  exact ⟨hout, hcur, hvisit', hlink', hmem'⟩

end Sys2Proof.Machine
end

section
/-!
Where a command is stuck and where it is not (60_exceptions.md R280 to R288): the allocator's answers, the commands in
FAILED, the link commands where the invariant holds, and absent memory.
-/
namespace Sys2Proof.Machine

/-! The allocator's answers -/

/-- A region granted is one the law admits, recorded, its bytes left unconstrained. -/
theorem State.alloc_granted {s t : State} {size : Nat} {avoid : List Region} {base : Word}
    (h : s.alloc size avoid = .granted base t) :
    s.regionLegal size avoid base = true ∧ t = s.takeAnswer.grant { base := base.toNat, size := size } := by
  rcases s.alloc_cases size avoid with ha | ha | ⟨b, hlegal, ha⟩ <;> rw [ha] at h
  · cases h
  · cases h
  · cases h
    exact ⟨hlegal, rfl⟩

/-- Settles O47: the law as the model checks it, and the grant's effect on the record and on memory. -/
theorem allocatorGrantsLawfulRegions : Obligations.AllocatorGrantsLawfulRegions := by
  intro s t size avoid base h
  obtain ⟨hlegal, rfl⟩ := State.alloc_granted h
  obtain ⟨hnull, halign, hfit, hclear⟩ := (s.regionLegal_iff _ _ _).mp hlegal
  refine ⟨hnull, halign, hfit, fun r hr a ha => Region.not_holds_of_disjoint (hclear r hr) ha, by simp, fun a => ?_⟩
  rw [State.grant_mem, State.takeAnswer_mem]
  refine ⟨fun ha => ⟨?_, ?_⟩, fun ha => Memory.byte_forget_of_not_holds _ ha⟩
  · rw [Memory.written_forget, if_pos ha]
  · rw [Memory.byte_forget, if_pos ha]

theorem State.alloc_silent {s : State} (h : s.nextAnswer = .silent) (size : Nat) (avoid : List Region) :
    s.alloc size avoid = .silent := by
  rw [State.alloc, h]

theorem State.nextAnswer_cons {s : State} {a : AllocAnswer} {rest : List AllocAnswer} (h : s.allocAnswers = a :: rest) :
    s.nextAnswer = a := by
  rw [State.nextAnswer, h]

/-- BUILD whose call is never answered is stuck (60_exceptions.md rule R286). -/
theorem State.build_silent {s : State} (h : s.nextAnswer = .silent) (slot : Slot) (segments : List Segment)
    (avoid : List Region) : s.build slot segments avoid = .stuck .allocatorSilent := by
  rw [State.build, State.alloc_silent h]

theorem State.buildRings_silent {s : State} (h : s.nextAnswer = .silent) (slot : Slot) (slots : List Slot) :
    s.buildRings (slot :: slots) = .stuck .allocatorSilent := by
  rw [State.buildRings, State.build_silent h, Flow.stuck_andThen]

theorem State.allocArena_silent {s : State} (h : s.nextAnswer = .silent) : s.allocArena = .stuck .allocatorSilent := by
  rw [State.allocArena, State.alloc_silent h]

/-! FAILED -/

/-- In FAILED the global check answers every command but NOP (60_exceptions.md rule R287). -/
theorem exec_of_failed {s : State} (hp : s.phase = .failed) {i : Instr} (hi : i ≠ .nop) :
    exec i s = .next (s.raise (Error.plain .wrongState)) := by
  cases i with
  | nop => exact absurd rfl hi
  | setup => exact exec_setup_of_check (if_pos (by rw [hp]; decide))
  | schedule => exact exec_schedule_of_check (if_pos hp)
  | buildRing slot => exact exec_buildRing_of_check (if_pos hp)
  | start slot => exact exec_start_of_check (if_pos hp)
  | activate slot => exact exec_activate_of_failed hp
  | encode slot => exact exec_encode_of_check (if_pos hp)

/-- Settles O11. -/
theorem failedStateRunsOnlyNop : Obligations.FailedStateRunsOnlyNop := by
  intro s i hp
  by_cases hi : i = .nop
  · subst hi
    rfl
  · rw [exec_of_failed hp hi, if_neg hi]
    rfl

/-! The link commands -/

/-- Where the invariant holds the tail of a slot that exists is a descriptor in memory (30_encoding.md rule R119). -/
theorem State.Inv.tail_fits {s : State} (h : s.Inv) (hset : s.isSetUp = true) {slot : Slot} (hslot : slot ∈ s.slots) :
    (s.ring slot).tail.toNat + 12 ≤ memSize := by
  obtain ⟨⟨hcount, htail, hpool⟩, -⟩ := h.rings.stands hset slot hslot
  obtain ⟨-, -, hfit, -⟩ := h.regions.lawful _ hpool
  simp only [Ring.pool] at hfit
  omega

theorem State.Inv.exec_start_next {s : State} (h : s.Inv) (slot : Slot) : ∃ t, exec (.start slot) s = .next t := by
  cases hc : checkStart slot s with
  | some e => exact ⟨_, exec_start_of_check hc⟩
  | none =>
    obtain ⟨hp, hslot⟩ := checkStart_eq_none.mp hc
    exact ⟨_, exec_start_of_legal hp hslot fun _ hx => h.tail_fits (by simp [State.isSetUp, hp]) hx⟩

theorem State.Inv.exec_activate_next {s : State} (h : s.Inv) (slot : Slot) :
    ∃ t, exec (.activate slot) s = .next t := by
  by_cases hfailed : s.phase = .failed
  · exact ⟨_, exec_activate_of_failed hfailed⟩
  cases hd : s.double with
  | false => exact ⟨_, exec_activate_of_single hfailed hd⟩
  | true =>
    by_cases hset : s.isSetUp = true
    · exact ⟨_, exec_activate_of_legal hset hd fun x => h.tail_fits hset (State.mem_slots_of_double hd x)⟩
    · have hp : s.phase = .unconfigured := by
        cases hp : s.phase <;> simp_all [State.isSetUp]
      exact ⟨_, exec_activate_of_unconfigured hp hd⟩

/-- Settles O60: the tails whose links the two commands rewrite are in memory. -/
theorem linkCommandsAreNeverStuck : Obligations.LinkCommandsAreNeverStuck := fun _ slot h =>
  ⟨h.exec_start_next slot, h.exec_activate_next slot⟩

/-! Absent memory -/

/-- A list read as far as it is in memory, its next entry past 2^32, is stuck there (60_exceptions.md rule R286). -/
theorem readList_stuck {m : Memory} {list j : Nat} (hlist : list ≤ memSize) (hj : j ≤ 255)
    (hseg : ∀ i, i < j → m.entryClass list i = .segment) (hout : memSize < list + 8 * j + 8) :
    readList m list maxSegments [] = .stuck := by
  obtain ⟨n, hn, hin, hend⟩ : ∃ n ≤ j, list + 8 * n ≤ memSize ∧ memSize < list + 8 * n + 8 :=
    ⟨(memSize - list) / 8, by omega, by omega, by omega⟩
  have hload : m.load (list + 8 * n + 4) 4 = none := by
    simp [Memory.load, memoryExists, hend]
  rw [readList_prefix (by unfold maxSegments; omega) hin fun i hi => hseg i (by omega),
    show maxSegments - n = (255 - n) + 1 by unfold maxSegments; omega, readList, Memory.listEntries_length, entryAddr,
    hload]
  cases m.load (list + 8 * n) 4 <;> rfl

theorem exec_buildRing_of_stuckList {s : State} {slot : Slot} (h : checkBuildRing slot s = none)
    (hr : readList s.mem s.seglist.toNat maxSegments [] = .stuck) :
    exec (.buildRing slot) s = .fault .noMemory := by
  rw [exec_buildRing_of_check_none h, State.withList, hr, Flow.stuck_outcome]

/-- Words that are made have their bytes in memory (42_encoder.md rule R209). -/
theorem State.encodeWords_exist {s : State} {slot : Slot} {fb : Nat} {ws : List WordPlace} {m m' : Memory}
    (h : s.encodeWords slot fb ws m = some m') :
    ∀ w ∈ ws, s.lanesExist fb w.row w.col = true ∧ s.wordAddr slot w.plane w.row w.col + 2 ≤ memSize := by
  induction ws generalizing m with
  | nil => simp
  | cons w rest ih =>
    rw [State.encodeWords] at h
    split at h
    · cases h
    · rename_i m1 h1
      obtain ⟨hlanes, hfit, -⟩ := State.encodeWord_eq_some.mp h1
      exact List.forall_mem_cons.mpr ⟨⟨hlanes, hfit⟩, ih h⟩

theorem exec_encode_of_no_words {s : State} {slot : Slot} (hc : checkEncode slot s = none)
    (hw : s.encodeWords slot s.fbBase.toNat s.places s.mem = none) :
    exec (.encode slot) s = .fault .noMemory := by
  simp only [exec, execEncode, hc, State.guard_none, Flow.on_andThen, hw, Flow.stuck_outcome]

/-- The rows of a legal panel are half its height, exactly (00_scope.md rule R15). -/
theorem State.two_mul_rows {s : State} (hl : s.configLegal = true) : 1 ≤ s.rows ∧ 2 * s.rows = s.panelHeight := by
  obtain ⟨-, hh, heven, -⟩ := State.configLegal_bounds hl
  unfold State.rows
  omega

/-- The last word of a slot: the last plane, row and column. -/
def State.lastPlace (s : State) : WordPlace := { plane := s.planes - 1, row := s.rows - 1, col := s.panelWidth - 1 }

section
variable {s : State} (hl : s.configLegal = true)
include hl

theorem State.lastPlace_mem : s.lastPlace ∈ s.places := by
  obtain ⟨hw, -, -, -, hp, -⟩ := State.configLegal_bounds hl
  obtain ⟨hr, -⟩ := State.two_mul_rows hl
  exact State.mem_places.mpr
    ⟨show s.planes - 1 < s.planes by omega, show s.rows - 1 < s.rows by omega,
      show s.panelWidth - 1 < s.panelWidth by omega⟩

/-- The last byte that the last word reads is the framebuffer's last (20_memory.md rule R77). -/
theorem State.framebufferRead_inMemory (h : s.lanesExist s.fbBase.toNat s.lastPlace.row s.lastPlace.col = true) :
    s.framebufferRead.inMemory = true := by
  obtain ⟨hw, -⟩ := State.configLegal_bounds hl
  obtain ⟨hr, hheight⟩ := State.two_mul_rows hl
  have hlane : s.fbBase.toNat + 3 * ((s.rows - 1 + s.rows) * s.panelWidth + (s.panelWidth - 1)) + 2 + 1 ≤ memSize :=
    of_decide_eq_true (List.all_eq_true.mp h 5 (by decide))
  have hpixels : (s.rows - 1 + s.rows) * s.panelWidth + s.panelWidth = s.panelWidth * s.panelHeight := by
    rw [← Nat.succ_mul, Nat.mul_comm s.panelWidth, ← hheight]
    congr 1
    omega
  refine decide_eq_true ?_
  show s.fbBase.toNat + 3 * (s.panelWidth * s.panelHeight) ≤ memSize
  omega

/-- The last word ends where the slot's buffers end (20_memory.md rule R76). -/
theorem State.slotBuffers_inMemory {slot : Slot}
    (h : s.wordAddr slot s.lastPlace.plane s.lastPlace.row s.lastPlace.col + 2 ≤ memSize) :
    (s.slotBuffers slot).inMemory = true := by
  obtain ⟨hw, -, -, -, hp, -⟩ := State.configLegal_bounds hl
  obtain ⟨hr, hheight⟩ := State.two_mul_rows hl
  have hplane : (s.planes - 1) * s.planeBytes + s.planeBytes = s.planes * s.planeBytes := by
    rw [← Nat.succ_mul, Nat.succ_eq_add_one, Nat.sub_add_cancel hp]
  have hword : 2 * ((s.rows - 1) * s.panelWidth + s.panelWidth) = s.planeBytes := by
    rw [← Nat.succ_mul, Nat.succ_eq_add_one, Nat.sub_add_cancel hr, State.planeBytes, ← hheight, ← Nat.mul_assoc,
      Nat.mul_comm]
  simp only [State.wordAddr, State.planeBase, State.lastPlace, Nat.add_mul] at h
  refine decide_eq_true ?_
  simp only [State.slotBuffers, State.planeBase, Nat.add_zero]
  omega

/-- ENCODE whose checks pass is stuck where a byte of its framebuffer or of its slot lies past 2^32 (rule R286). -/
theorem exec_encode_of_absent {slot : Slot} (hc : checkEncode slot s = none)
    (habsent : s.framebufferRead.inMemory = false ∨ (s.slotBuffers slot).inMemory = false) :
    exec (.encode slot) s = .fault .noMemory := by
  cases hw : s.encodeWords slot s.fbBase.toNat s.places s.mem with
  | none => exact exec_encode_of_no_words hc hw
  | some m =>
    obtain ⟨hlanes, hfit⟩ := State.encodeWords_exist hw _ (State.lastPlace_mem hl)
    have hfb := State.framebufferRead_inMemory hl hlanes
    have hbuf := State.slotBuffers_inMemory hl hfit
    simp [hfb, hbuf] at habsent

end

/-! Every command -/

/-- A command ends or is stuck (60_exceptions.md rule R280, rule R288). -/
theorem exec_ne_refused (i : Instr) (s : State) (r : Refusal) : exec i s ≠ .refused r := by
  cases i with
  | nop => nofun
  | setup | schedule | buildRing | start | activate | encode => exact Flow.outcome_ne_refused _ r

section
variable {s : State} (hp : s.phase = .unconfigured) (hl : s.configLegal = true)
include hp hl

/-- SETUP whose arena call is never answered (60_exceptions.md rule R286). -/
theorem exec_setup_of_arena_silent (h : s.nextAnswer = .silent) : exec .setup s = .fault .allocatorSilent := by
  rw [exec_setup_of_legal hp hl, State.allocArena_silent (s := s.beginSetup) h, Flow.stuck_andThen, Flow.stuck_outcome]

variable {arena : Word} {rest : List AllocAnswer}
  (hr : s.regionLegal s.arenaBytes [s.namedList] arena = true)
include hr

/-- SETUP whose call for slot 0's pool is never answered. -/
theorem exec_setup_of_pool0_silent (ha : s.allocAnswers = .region arena :: .silent :: rest) :
    exec .setup s = .fault .allocatorSilent := by
  obtain ⟨slots, hslots⟩ := s.slots_eq_cons
  rw [exec_setup_of_arena hp hl ha hr, hslots, State.buildRings_silent (State.nextAnswer_cons rfl), Flow.stuck_andThen,
    Flow.stuck_outcome]

/-- SETUP, in double mode, whose call for slot 1's pool is never answered. -/
theorem exec_setup_of_pool1_silent (hd : s.double = true) {pool : Word}
    (ha : s.allocAnswers = .region arena :: .region pool :: .silent :: rest)
    (hpool : (s.beginSetup.withArena arena (.region pool :: .silent :: rest)).regionLegal (12 * s.setupCount)
      [s.namedList] pool = true) :
    exec .setup s = .fault .allocatorSilent := by
  have hcount := State.descriptorCount_withArena hl arena (.region pool :: .silent :: rest) .zero
  have hlist : (s.beginSetup.withArena arena (.region pool :: .silent :: rest)).namedList = s.namedList :=
    State.withArena_namedList (s := s.beginSetup) hr _
  rw [← hcount, ← hlist] at hpool
  rw [exec_setup_of_arena hp hl ha hr, State.slots_of_double hd,
    State.buildRings_granted _ (hcount.symm ▸ State.setupCount_pos hl) rfl hpool,
    State.buildRings_silent (State.nextAnswer_cons rfl), Flow.stuck_andThen, Flow.stuck_outcome]

end

/-- Settles O10: SETUP by the call that is not answered, BUILD_RING by its list and its call, ENCODE by its words. -/
theorem noCommandIsRefused : Obligations.NoCommandIsRefused := by
  refine ⟨fun s i r => exec_ne_refused i s r, fun s arena pool0 rest hp hl => ?_,
    fun s slot j hp hslot hnull halign hj hseg => ?_, fun s slot hset hl hslot hnull hactive habsent => ?_⟩
  · rw [← State.arenaBytes_eq s]
    exact ⟨exec_setup_of_arena_silent hp hl, fun ha hr => exec_setup_of_pool0_silent hp hl hr ha,
      fun hd ha hr hpool => exec_setup_of_pool1_silent hp hl hr hd ha hpool⟩
  · refine ⟨fun hpos hmem hend hsmall hsilent => ?_, fun hout => ?_⟩
    · rw [exec_buildRing_of_legal hp hslot hnull halign hpos hj hmem hseg hend hsmall, State.build_silent hsilent,
        Flow.stuck_andThen, Flow.stuck_outcome]
    · exact exec_buildRing_of_stuckList (checkBuildRing_eq_none.mpr ⟨hp, hslot, hnull, halign⟩)
        (readList_stuck s.seglist.isLt.le hj hseg hout)
  · exact exec_encode_of_absent hl (checkEncode_eq_none.mpr ⟨hset, hslot, hnull, hactive⟩) habsent

end Sys2Proof.Machine
end

section
/-!
Reset and hazards (70_reset_and_hazards.md): what reset leaves (R320, R321), the host's wait for the hand-off (R331), and
the link writes of a flip under a consumer that runs (R338).
-/
namespace Sys2Proof.Machine

/-! Reset -/

theorem State.reset_orderAt (k : Nat) : State.reset.orderAt k = 0#4 := by
  simp only [State.orderAt, State.reset, List.getD_eq_getElem?_getD, List.getElem?_replicate]
  split <;> rfl

theorem State.reset_readReg (off : Nat) : State.reset.readReg off = 0#32 := by
  unfold State.readReg
  split
  case h_22 =>
    split
    · rw [State.reset_orderAt, BitVec.setWidth_zero]
    · rfl
  all_goals rfl

/-- The registers a reset leaves are those of the state after reset (70_reset_and_hazards.md rule R320). -/
theorem State.resetBlock_readReg (s : State) (off : Nat) : s.resetBlock.readReg off = 0#32 :=
  State.reset_readReg off

theorem Region.holds_everything {a : Nat} (h : a < memSize) : Region.everything.holds a = true :=
  (Region.holds_iff _ _).mpr ⟨a.zero_le, by simpa [Region.everything] using h⟩

/-- No byte counts as written after a reset (70_reset_and_hazards.md rule R321; log 22). -/
theorem State.resetBlock_written (s : State) {a : Nat} (h : a < memSize) : s.resetBlock.mem.written a = none := by
  rw [State.resetBlock_mem, Memory.written_forget, if_pos (Region.holds_everything h)]

/-- Settles O54: the registers by the map, memory by what a range left unconstrained reads as. -/
theorem resetClearsEveryRegister : Obligations.ResetClearsEveryRegister :=
  ⟨State.reset_readReg, fun _ => rfl, fun s => ⟨fun _ hturn => step_of_turn hturn, s.resetBlock_readReg, rfl, rfl, rfl,
    rfl, fun _ => s.resetBlock_written⟩⟩

/-- Settles O55: the modes and the regions are those any reset leaves, no ring is built, and memory lists no byte. -/
theorem resetMeetsTheInvariant : Obligations.ResetMeetsTheInvariant :=
  { memory := reset_memory_wf
    mode := { State.resetBlock_modeInv State.reset with }
    regions := { State.resetBlock_regionsInv State.reset with }
    rings := State.RingsHold.ringInv ⟨nofun, nofun⟩ nofun }

/-! The host's wait -/

/-- Under LAP_WAIT = GUARDED, and only then, the ENCODE of the slot a flip left is held back
(70_reset_and_hazards.md rule R331). -/
theorem State.lapBlocked_encode {s : State} {w : Word} {slot : Slot} (hd : decode w = .command (.encode slot))
    (hl : s.lapGuard = some slot) : s.lapBlocked w = (s.params.lapWait == .guarded) := by
  simp [State.lapBlocked, hd, hl]

theorem State.hostWrite_lapBlocked {s : State} (whole : Bool) (hi : s.inFlight = none) {w : Word}
    (hl : s.lapBlocked w = true) : s.hostWrite whole cmdOffset w = .next s := by
  simp [State.hostWrite, State.busy, statusOffset, cmdOffset, hi, hl]

/-- Settles O52: the host's turn by the two answers of LAP_WAIT. -/
theorem guardedHostWaitsForTheHandOff : Obligations.GuardedHostWaitsForTheHandOff := by
  intro s ts ops w slot hturn hops hi hd hl
  have hstep : step s = ({ s with turns := ts } : State).hostWrite false cmdOffset w := step_host_wr false hturn hops
  have hblocked := State.lapBlocked_encode (s := { s with turns := ts }) hd hl
  rw [hstep]
  refine ⟨fun hguarded => ?_, fun hunguarded hplaced => ?_⟩
  · exact State.hostWrite_lapBlocked (s := { s with turns := ts }) false hi (by rw [hblocked, hguarded]; rfl)
  · refine ⟨_, State.hostWrite_accept (s := { s with turns := ts }) hops hi ?_ hplaced, rfl, rfl⟩
    rw [hblocked, hunguarded]
    rfl

/-! The link writes of a flip -/

/-- Two aligned 4-byte accesses meet in all their bytes or in none: a `next` word after a store to one
(20_memory.md rule R75). -/
theorem Memory.nextOf_write_nextField (m : Memory) {a b : Nat} (ha : a % 4 = 0) (hb : b % 4 = 0) (v : Word) :
    (m.write (nextField b) 4 v.toNat).nextOf a = if a = b then v.toNat else m.nextOf a := by
  split
  · rename_i hab
    subst hab
    exact (Memory.read_write_same _ _ _ _).trans (Nat.mod_eq_of_lt v.isLt)
  · refine Memory.read_write_of_disjoint m ?_
    unfold nextField
    omega

/-- A block step of an ACTIVATE with link writes left makes the next one, or is stuck where its memory is absent. -/
theorem State.blockStep_flipLinks_mem {s : State} {c : InFlight} {slot : Slot} {w : Store} {left : List Store}
    (hc : s.inFlight = some c) (hstage : c.stage = .flipLinks slot (w :: left)) (choice : Nat) :
    (s.blockStep choice).mem = s.mem.write w.addr 4 w.value.toNat ∨ (s.blockStep choice).mem = s.mem := by
  simp only [State.blockStep, hc, hstage]
  rcases s.storeStep_cases (w :: left) (.flipLinks slot) (s.finishActivate slot) with
    ⟨hnil, -⟩ | ⟨_, _, hcons, -, h⟩ | h
  · cases hnil
  · cases hcons
    exact .inl (congrArg State.mem h)
  · exact .inr (congrArg State.mem h)

/-- Settles O31: the link store covers a tail's link exactly or leaves it alone. -/
theorem flipLinksAreNeverTorn : Obligations.FlipLinksAreNeverTorn := by
  intro s c slot w left choice hc hstage hw htails x hx
  obtain ⟨⟨y, hy, haddr⟩, -⟩ := hw
  rcases State.blockStep_flipLinks_mem hc hstage choice with hmem | hmem
  · have hnext := s.mem.nextOf_write_nextField (htails x hx).1 (htails y hy).1 w.value
    rw [hmem, haddr]
    split at hnext
    · exact .inr hnext
    · exact .inl hnext
  · exact .inl (congrArg (Memory.nextOf · _) hmem)

end Sys2Proof.Machine
end
